-- ==== Sys2Proof/Word.lean ====
section
/-! DEFINITION. The word types of IQ-CORE: bytes and 32-bit registers (10_state.md R31, 20_memory.md R71), binary64
patterns (00_scope.md R15) and complex samples (R19). -/

namespace Sys2Proof

/-- One byte of the sample memory (20_memory.md R71). -/
abbrev Byte := BitVec 8

/-- One register of the register window, or a command word (10_state.md R31, 30_encoding.md R100). -/
abbrev Word := BitVec 32

/-- `f64`, the set of IEEE 754 binary64 bit patterns (00_scope.md R15). -/
abbrev F64 := BitVec 64

/-- `c128(re, im)`, a complex sample (00_scope.md R19). -/
structure Sample where
  re : F64
  im : F64
  deriving DecidableEq, Repr

end Sys2Proof
end

