-- ==== Sys2Proof/Syntax.lean ====
section
/-! DEFINITION. The command set of IQ-CORE (00_scope.md R2), one constructor per row of spec/opcode_table.json. The
arguments are the fields a command word carries besides its opcode (30_encoding.md R101, R102); the operand registers of
R107 are no part of the word. -/

namespace Sys2Proof

/-- The nine commands (30_encoding.md R106). A flag argument is `true` where the word's bit is 1. -/
inductive Instr where
  /-- MAP_BPSK, OPC 0x01 (40_symbol_mapper.md R133). -/
  | mapBpsk
  /-- MAP_QPSK, OPC 0x02, with FLAGS[0] = NORM (R134). -/
  | mapQpsk (norm : Bool)
  /-- MAP_QAM16, OPC 0x03 (R136). -/
  | mapQam16
  /-- FIR_LOWPASS, OPC 0x10, with FLAGS[0] = DCNORM (41_filter_design.md R151). -/
  | firLowpass (dcnorm : Bool)
  /-- FIR_RCOS, OPC 0x11 (R156). -/
  | firRcos
  /-- PULSE_SHAPE, OPC 0x20, with FLAGS[0] = SAME (42_pulse_shaper.md R180). -/
  | pulseShape (same : Bool)
  /-- OFDM_MOD, OPC 0x30, with FLAGS[0] = REFSET (43_ofdm.md R200). -/
  | ofdmMod (refset : Bool)
  /-- CHIRP, OPC 0x40 (44_chirp.md R220). -/
  | chirp
  /-- DAC_QUANT, OPC 0x50, with FLAGS[0] = CH, FLAGS[1] = FIXED and BITS = the bit depth B (45_dac.md R235). -/
  | dacQuant (ch fixed : Bool) (bits : Nat)
  deriving DecidableEq, Repr

end Sys2Proof
end

