-- ==== Sys2Proof/WellFormed.lean ====
section
/-! DEFINITION. Which terms of `Instr` a command word can carry. The one field wider than its Lean type allows is
BITS, an unsigned 5-bit integer (30_encoding.md R103). -/

namespace Sys2Proof

/-- A command that fits a command word: BITS is a 5-bit field (30_encoding.md R103). B = 0 and B = 17 to 31 are
encodable, and DAC_QUANT rejects them by value. -/
def Instr.wellFormed : Instr → Bool
  | .mapBpsk => true
  | .mapQpsk _ => true
  | .mapQam16 => true
  | .firLowpass _ => true
  | .firRcos => true
  | .pulseShape _ => true
  | .ofdmMod _ => true
  | .chirp => true
  | .dacQuant _ _ bits => decide (bits < 32)

end Sys2Proof
end

