-- ==== Sys2Proof/Decode.lean ====
section
/-! DEFINITION. Decoding a command word (30_encoding.md R100 to R106) and encoding a command. The decoder is total:
every 32-bit word is one command or an illegal word with the subcode ILLEGAL_CMD reports. -/

namespace Sys2Proof

/-- What decoding a command word gives (30_encoding.md R105). -/
inductive Decoded where
  /-- One of the nine commands. -/
  | command (i : Instr)
  /-- ILLEGAL_CMD(sub, idx): `sub` is 1 for an unknown OPC and 2 for a reserved bit; `idx` is `w[7:0]`. -/
  | illegal (sub idx : Nat)
  deriving DecidableEq, Repr

/-- Bit `n` of a command word. -/
def flagBit (w : Word) (n : Nat) : Bool := w.getLsbD n

/-- The field `w[hi:lo]` of `width` bits from bit `lo`, as an unsigned integer (00_scope.md R10). -/
def field (w : Word) (lo width : Nat) : Nat := w.toNat / 2 ^ lo % 2 ^ width

/-- `w[7:0]`, the OPC field (30_encoding.md R101). -/
def opcField (w : Word) : Nat := field w 0 8

/-- A row of the opcode map (30_encoding.md R106): OPC, match, mask, and the command the row's words stand for. -/
structure OpRow where
  opc : Nat
  value : Word
  mask : Word
  build : Word → Instr

/-- The opcode map (30_encoding.md R106). -/
def opcodeMap : List OpRow :=
  [ ⟨0x01, 0x00000001, 0xFFFFFFFF, fun _ => .mapBpsk⟩,
    ⟨0x02, 0x00000002, 0xFFFFFEFF, fun w => .mapQpsk (flagBit w 8)⟩,
    ⟨0x03, 0x00000003, 0xFFFFFFFF, fun _ => .mapQam16⟩,
    ⟨0x10, 0x00000010, 0xFFFFFEFF, fun w => .firLowpass (flagBit w 8)⟩,
    ⟨0x11, 0x00000011, 0xFFFFFFFF, fun _ => .firRcos⟩,
    ⟨0x20, 0x00000020, 0xFFFFFEFF, fun w => .pulseShape (flagBit w 8)⟩,
    ⟨0x30, 0x00000030, 0xFFFFFEFF, fun w => .ofdmMod (flagBit w 8)⟩,
    ⟨0x40, 0x00000040, 0xFFFFFFFF, fun _ => .chirp⟩,
    ⟨0x50, 0x00000050, 0xFFE0FCFF, fun w => .dacQuant (flagBit w 8) (flagBit w 9) (field w 16 5)⟩ ]

/-- Decoding a command word (30_encoding.md R105): find the row of its OPC, then compare the bits under the mask. -/
def decode (w : Word) : Decoded :=
  match opcodeMap.find? (fun r => r.opc == opcField w) with
  | none => .illegal 1 (opcField w)
  | some r => if w &&& r.mask = r.value then .command (r.build w) else .illegal 2 (opcField w)

/-- A flag as the bit it sets. -/
def bitOf (b : Bool) : Nat := if b then 1 else 0

/-- A command word from its fields OPC, FLAGS and BITS, with RSVD = 0 (30_encoding.md R101). -/
def packWord (opc flags bits : Nat) : Word := BitVec.ofNat 32 (opc + 2 ^ 8 * flags + 2 ^ 16 * bits)

/-- The command word of a command (30_encoding.md R101, R102, R106). -/
def encode : Instr → Word
  | .mapBpsk => packWord 0x01 0 0
  | .mapQpsk norm => packWord 0x02 (bitOf norm) 0
  | .mapQam16 => packWord 0x03 0 0
  | .firLowpass dcnorm => packWord 0x10 (bitOf dcnorm) 0
  | .firRcos => packWord 0x11 0 0
  | .pulseShape same => packWord 0x20 (bitOf same) 0
  | .ofdmMod refset => packWord 0x30 (bitOf refset) 0
  | .chirp => packWord 0x40 0 0
  | .dacQuant ch fixed bits => packWord 0x50 (bitOf ch + 2 * bitOf fixed) bits

/-- The command the decoder reads from the table word `w` of `nbits` bits, the bits above them being 0. A command
word is one 32-bit word (30_encoding.md R100, R111). -/
def decodeTableWord (nbits w : Nat) : Option Instr :=
  match decode (BitVec.ofNat 32 (w % 2 ^ nbits)) with
  | .command i => some i
  | .illegal _ _ => none

end Sys2Proof
end

