-- ==== Sys2Proof/Machine/Float.lean ====
section
/-! DEFINITION. IEEE 754 binary64 arithmetic, round to nearest with ties to even, gradual underflow and one canonical NaN
(00_scope.md R15 to R18). A finite pattern is read as an exact integer in units of 2^-1074, every operation is computed
exactly on integers, and one function, `F64.roundMag`, narrows the exact result. -/

namespace Sys2Proof

/-- `rne(num / den)` for natural numbers with `den > 0`: the nearest integer, ties to the even one (00_scope.md R18). -/
def rneDiv (num den : Nat) : Nat :=
  if 2 * (num % den) < den then num / den
  else if den < 2 * (num % den) then num / den + 1
  else num / den + num / den % 2

/-- Bit 63, the sign. -/
def F64.sign (x : F64) : Bool := x.getLsbD 63

/-- The exponent field, bits 62 to 52. -/
def F64.expField (x : F64) : Nat := x.toNat / 2 ^ 52 % 2 ^ 11

/-- The fraction field, bits 51 to 0. -/
def F64.fracField (x : F64) : Nat := x.toNat % 2 ^ 52

/-- `isFinite(x)` (00_scope.md R15). -/
def F64.isFinite (x : F64) : Bool := decide (F64.expField x ≠ 2047)

/-- `isInf(x)`. -/
def F64.isInf (x : F64) : Bool := decide (F64.expField x = 2047) && decide (F64.fracField x = 0)

/-- `isNaN(x)`. -/
def F64.isNaN (x : F64) : Bool := decide (F64.expField x = 2047) && decide (F64.fracField x ≠ 0)

/-- The magnitude of a pattern in units of 2^-1074: the subnormals count up from 0, and a normal pattern is its 53-bit
significand shifted by its exponent. An infinity gets 2^2098, above every finite magnitude. -/
def F64.mag (x : F64) : Nat :=
  if F64.expField x = 0 then F64.fracField x
  else (2 ^ 52 + F64.fracField x) * 2 ^ (F64.expField x - 1)

/-- `val(x)` in units of 2^-1074. -/
def F64.scaled (x : F64) : Int := if F64.sign x then -(F64.mag x : Int) else (F64.mag x : Int)

/-- `val(x)`, the real (rational) value of a finite pattern; +0 and -0 both have value 0 (00_scope.md R15, R18). -/
def F64.val (x : F64) : ℚ := (F64.scaled x : ℚ) / 2 ^ 1074

/-- val(x) = 0, of either sign. -/
def F64.isZero (x : F64) : Bool := decide (F64.mag x = 0)

/-- The canonical quiet NaN (00_scope.md R16). -/
def F64.nan : F64 := 0x7FF8000000000000

/-- +0. -/
def F64.zero : F64 := 0x0000000000000000

/-- 1.0. -/
def F64.one : F64 := 0x3FF0000000000000

/-- 2.0. -/
def F64.two : F64 := 0x4000000000000000

/-- `-.x`: bit 63 flipped (00_scope.md R16). -/
def F64.neg (x : F64) : F64 := x ^^^ 0x8000000000000000

/-- `abs.(x)`: bit 63 cleared (00_scope.md R16). -/
def F64.abs (x : F64) : F64 := x &&& 0x7FFFFFFFFFFFFFFF

/-- The pattern with the given sign whose bits 62 to 0 are `bits`. -/
def F64.pack (neg : Bool) (bits : Nat) : F64 := BitVec.ofNat 64 ((if neg then 2 ^ 63 else 0) + bits)

/-- +∞ or -∞. -/
def F64.inf (neg : Bool) : F64 := F64.pack neg (2047 * 2 ^ 52)

/-- Bits 62 to 0 of the binary64 number nearest `num / den` in units of 2^-1074, ties to even (00_scope.md R16).
`e` is how far the last place lies above 2^-1074; bits 62 to 0 of consecutive magnitudes are consecutive integers,
so a carry out of the significand lands in the next exponent, and a result past the largest finite number is ∞. -/
def F64.roundMag (num den : Nat) : Nat :=
  min (2047 * 2 ^ 52)
    ((Nat.log2 (num / den) - 52) * 2 ^ 52 + rneDiv num (den * 2 ^ (Nat.log2 (num / den) - 52)))

/-- The binary64 number nearest `±num / den` in units of 2^-1074. -/
def F64.round (neg : Bool) (num den : Nat) : F64 := F64.pack neg (F64.roundMag num den)

/-- The binary64 number nearest an integer count of 2^-1074; `zero` where the count is 0. -/
def F64.roundInt (n : Int) : F64 := F64.round (decide (n < 0)) n.natAbs 1

/-- The binary64 number nearest a rational (+0 for 0). -/
def F64.ofRat (q : ℚ) : F64 := F64.round (decide (q < 0)) (q.num.natAbs * 2 ^ 1074) q.den

/-- `f64(n)` for a natural number, exact up to 2^53 (00_scope.md R17). -/
def F64.ofNat (n : Nat) : F64 := F64.round false (n * 2 ^ 1074) 1

/-- `f64(n)` for an integer (00_scope.md R17). -/
def F64.ofInt (n : Int) : F64 := F64.roundInt (n * 2 ^ 1074)

/-- `x +. y` (00_scope.md R16). An exact zero sum is +0 unless both operands are negative. -/
def F64.add (x y : F64) : F64 :=
  if F64.isNaN x || F64.isNaN y then F64.nan
  else if F64.isInf x then
    (if F64.isInf y && (F64.sign x != F64.sign y) then F64.nan else F64.inf (F64.sign x))
  else if F64.isInf y then F64.inf (F64.sign y)
  else if F64.scaled x + F64.scaled y = 0 then F64.pack (F64.sign x && F64.sign y) 0
  else F64.roundInt (F64.scaled x + F64.scaled y)

/-- `x -. y`, which is `x +. (-.y)` (00_scope.md R16). -/
def F64.sub (x y : F64) : F64 := F64.add x (F64.neg y)

/-- `x *. y` (00_scope.md R16). -/
def F64.mul (x y : F64) : F64 :=
  if F64.isNaN x || F64.isNaN y then F64.nan
  else if F64.isInf x || F64.isInf y then
    (if F64.isZero x || F64.isZero y then F64.nan else F64.inf (F64.sign x != F64.sign y))
  else F64.round (F64.sign x != F64.sign y) (F64.mag x * F64.mag y) (2 ^ 1074)

/-- `x /. y` (00_scope.md R16). -/
def F64.div (x y : F64) : F64 :=
  if F64.isNaN x || F64.isNaN y then F64.nan
  else if F64.isInf x then (if F64.isInf y then F64.nan else F64.inf (F64.sign x != F64.sign y))
  else if F64.isInf y then F64.pack (F64.sign x != F64.sign y) 0
  else if F64.isZero y then (if F64.isZero x then F64.nan else F64.inf (F64.sign x != F64.sign y))
  else F64.round (F64.sign x != F64.sign y) (F64.mag x * 2 ^ 1074) (F64.mag y)

/-- The integer square root by bits: the largest `r` at or above the root found so far whose square is at most `n`,
trying the bits below `2^b` from the top. -/
def isqrtFrom : Nat → Nat → Nat → Nat
  | 0, _, r => r
  | b + 1, n, r => if (r + 2 ^ b) * (r + 2 ^ b) ≤ n then isqrtFrom b n (r + 2 ^ b) else isqrtFrom b n r

/-- The integer square root of `n`. -/
def isqrt (n : Nat) : Nat := isqrtFrom (Nat.log2 n / 2 + 1) n 0

/-- How many pairs of low bits of `n` the square root can drop and still keep over 60 bits of the root. -/
def sqrtShift (n : Nat) : Nat := (Nat.log2 n - 122) / 2

/-- Bits 62 to 0 of the binary64 number nearest the square root of `n`, in units of 2^-1074. The root of the bits that
`sqrtShift` keeps is doubled, and its last bit says whether the true root lies above it: no binary64 number or midpoint
lies between. -/
def F64.sqrtMag (n : Nat) : Nat :=
  F64.roundMag
    ((2 * isqrt (n / 4 ^ sqrtShift n)
      + (if isqrt (n / 4 ^ sqrtShift n) ^ 2 * 4 ^ sqrtShift n = n then 0 else 1)) * 2 ^ sqrtShift n) 2

/-- `sqrt.(x)` (00_scope.md R16): `val(x)` is `mag x` units of 2^-1074, so its root is the root of `mag x * 2^1074`
in those units. -/
def F64.sqrt (x : F64) : F64 :=
  if F64.isNaN x then F64.nan
  else if F64.isZero x then x
  else if F64.sign x then F64.nan
  else if F64.isInf x then x
  else F64.pack false (F64.sqrtMag (F64.mag x * 2 ^ 1074))

/-- `x < y`, the IEEE comparison: false with a NaN (00_scope.md R17). -/
def F64.lt (x y : F64) : Bool :=
  !F64.isNaN x && !F64.isNaN y && decide (F64.scaled x < F64.scaled y)

/-- `x ≤ y`, the IEEE comparison (00_scope.md R17). -/
def F64.le (x y : F64) : Bool :=
  !F64.isNaN x && !F64.isNaN y && decide (F64.scaled x ≤ F64.scaled y)

/-- `x = y`, the IEEE comparison, under which +0 = -0 (00_scope.md R17). -/
def F64.eq (x y : F64) : Bool :=
  !F64.isNaN x && !F64.isNaN y && decide (F64.scaled x = F64.scaled y)

end Sys2Proof
end

