-- ==== Sys2Proof/Config.lean ====
section
/-! DEFINITION. What an instance of IQ-CORE fixes (00_scope.md R6), and the free values: what the spec leaves open, each an
opaque constant that nothing can evaluate. The limits the spec sets on a free value are part of its type. -/

namespace Sys2Proof

/-- The implementation parameters of 00_scope.md R6. A model takes them as arguments; they are constants of an instance
that no step changes, and they stand in State so that a statement about every state covers every instance. NUM_SINPI,
NUM_COSPI and NUM_IDFT are functions and stand in Machine/Numeric.lean. -/
structure Params where
  /-- MEM_BYTES, the size of the sample memory. -/
  memBytes : Nat
  /-- MAX_TAPS, the largest filter length a command accepts. -/
  maxTaps : Nat
  /-- MAX_FFT, the largest OFDM transform size. -/
  maxFft : Nat
  /-- RC_EPS, the raised-cosine singularity tolerance. -/
  rcEps : F64
  /-- TRIG_TOL, the error bound of NUM_SINPI and NUM_COSPI. -/
  trigTol : ℚ
  /-- IDFT_TOL, the error bound of NUM_IDFT. -/
  idftTol : ℚ
  /-- HOST_REG_BASE, the host address of the register window (OPEN, a platform parameter). -/
  hostRegBase : Nat
  /-- HOST_MEM_BASE, the host address of the sample-memory window (OPEN, a platform parameter). -/
  hostMemBase : Nat
  /-- HOST_IRQ_LINE, the host interrupt line that IRQ is wired to (OPEN, a platform parameter). -/
  hostIrqLine : Nat
  /-- Whether the host's interconnect lets a later access go on while a sample-memory access is held
  (20_memory.md R80 leaves it to the interconnect). -/
  hostOverlap : Bool
  deriving DecidableEq, Repr

/-- DAC_MAX_BITS, exactly 16 in this edition (00_scope.md R6). -/
def Config.dacMaxBits : Nat := 16

/-- The size of the register window in bytes (10_state.md R31). -/
def Config.regWindowBytes : Nat := 256

/-- The defaults of 00_scope.md R6, which this spec's examples use. The three OPEN platform parameters and `hostOverlap`
have no default in the spec: DESIGN CHOICE, unsafe (notes/assumptions/2.md, 3.md). -/
def Params.default : Params where
  memBytes := 1048576
  maxTaps := 4095
  maxFft := 1024
  rcEps := 0x3E50000000000000
  trigTol := mkRat 1 (2 ^ 52)
  idftTol := mkRat 1 (2 ^ 40)
  hostRegBase := 0
  hostMemBase := 0x10000000
  hostIrqLine := 0
  hostOverlap := false

/-- The legal values of 00_scope.md R6. The two windows do not overlap: an address names at most one of them
(DEDUCED, safe, notes/assumptions/3.md). -/
def Params.legal (p : Params) : Prop :=
  (p.memBytes % 8 = 0 ∧ 64 ≤ p.memBytes ∧ p.memBytes ≤ 2 ^ 32) ∧
  (p.maxTaps % 2 = 1 ∧ p.maxTaps ≤ 65535) ∧
  ((∃ k, p.maxFft = 2 ^ k) ∧ 64 ≤ p.maxFft ∧ p.maxFft ≤ 32768) ∧
  (F64.lt F64.zero p.rcEps = true ∧ F64.lt p.rcEps F64.one = true) ∧
  (0 ≤ p.trigTol ∧ 0 ≤ p.idftTol) ∧
  (p.hostRegBase + Config.regWindowBytes ≤ p.hostMemBase ∨ p.hostMemBase + p.memBytes ≤ p.hostRegBase)

/-! ## Free values -/

/-- What a byte of the sample memory reads as that no write has reached since the `n`th power-on: a draw per byte
(20_memory.md R92). FREE VALUE, safe (notes/assumptions/4.md). -/
opaque Config.powerOnByte (n addr : Nat) : Byte

/-- What a byte of the destination region holds after the `n`th command that a soft reset abandoned
(70_reset_and_hazards.md R293). FREE VALUE, safe (notes/assumptions/5.md). -/
opaque Config.abandonedByte (n addr : Nat) : Byte

/-- TRIG-ACC for NUM_SINPI at `x`, of the result `v` (00_scope.md R20): `|val v - sin(π val x)| ≤ tol`, where some
binary64 number meets it (one always does for a tolerance of at least 2^-53). -/
def Config.SinAcc (tol : ℚ) (x v : F64) : Prop :=
  (∃ w : F64, F64.isFinite w = true ∧ |(F64.val w : ℝ) - Real.sin (Real.pi * F64.val x)| ≤ tol) →
    F64.isFinite v = true ∧ |(F64.val v : ℝ) - Real.sin (Real.pi * F64.val x)| ≤ tol

/-- TRIG-ACC for NUM_COSPI at `x`, of the result `v` (00_scope.md R20). -/
def Config.CosAcc (tol : ℚ) (x v : F64) : Prop :=
  (∃ w : F64, F64.isFinite w = true ∧ |(F64.val w : ℝ) - Real.cos (Real.pi * F64.val x)| ≤ tol) →
    F64.isFinite v = true ∧ |(F64.val v : ℝ) - Real.cos (Real.pi * F64.val x)| ≤ tol

/-- NUM_SINPI at a finite `x` ≥ 0 that is no multiple of 1/2, as an instance computes it: any value that TRIG-ACC allows
(00_scope.md R20). `none` stands for the computed value `fallbackSinPi`, which is one such value. FREE VALUE, safe
(notes/assumptions/6.md). -/
opaque Config.sinPiFree (tol : ℚ) (x : F64) : Option (Subtype (Config.SinAcc tol x))

/-- NUM_COSPI at a finite `x` ≥ 0 that is no multiple of 1/2, as `sinPiFree` (00_scope.md R20). FREE VALUE, safe
(notes/assumptions/6.md). -/
opaque Config.cosPiFree (tol : ℚ) (x : F64) : Option (Subtype (Config.CosAcc tol x))

/-- The sum over k < N of `f X[k] k`, a missing sample counting as zero. -/
noncomputable def Config.sumSamples (N : Nat) (X : List Sample) (f : Sample → Nat → ℝ) : ℝ :=
  ∑ k ∈ Finset.range N, f (X.getD k ⟨F64.zero, F64.zero⟩) k

/-- The real part of x_ideal[n] = (1/N) Σ X[k] e^(+2πi k n/N) (00_scope.md R21). -/
noncomputable def Config.idealRe (N : Nat) (X : List Sample) (n : Nat) : ℝ :=
  Config.sumSamples N X (fun z k =>
    F64.val z.re * Real.cos (2 * Real.pi * k * n / N) - F64.val z.im * Real.sin (2 * Real.pi * k * n / N)) / N

/-- The imaginary part of x_ideal[n] (00_scope.md R21). -/
noncomputable def Config.idealIm (N : Nat) (X : List Sample) (n : Nat) : ℝ :=
  Config.sumSamples N X (fun z k =>
    F64.val z.re * Real.sin (2 * Real.pi * k * n / N) + F64.val z.im * Real.cos (2 * Real.pi * k * n / N)) / N

/-- max |X[k]|, over the complex moduli (00_scope.md R21). -/
noncomputable def Config.maxModulus (X : List Sample) : ℝ :=
  X.foldr (fun z m => max (Real.sqrt ((F64.val z.re : ℝ) ^ 2 + (F64.val z.im : ℝ) ^ 2)) m) 0

/-- Every component of every sample is finite. -/
def allFinite (X : List Sample) : Bool := X.all (fun z => F64.isFinite z.re && F64.isFinite z.im)

/-- The bound of IDFT-ACC on sample `z` of index `n` (00_scope.md R21). -/
def Config.IdftClose (tol : ℚ) (N : Nat) (X : List Sample) (n : Nat) (z : Sample) : Prop :=
  F64.isFinite z.re = true ∧ F64.isFinite z.im = true ∧
    |(F64.val z.re : ℝ) - Config.idealRe N X n| ≤ tol * Config.maxModulus X ∧
    |(F64.val z.im : ℝ) - Config.idealIm N X n| ≤ tol * Config.maxModulus X

/-- IDFT-ACC for sample `n` of NUM_IDFT(N, X), of the result `z`: the bound of 00_scope.md R21, for finite inputs, where
some sample meets it. Where the ideal overflows binary64, or the bound is finer than its subnormals, none does, and the
value is free (DEDUCED, safe, notes/assumptions/7.md). -/
def Config.IdftAcc (tol : ℚ) (N : Nat) (X : List Sample) (n : Nat) (z : Sample) : Prop :=
  allFinite X = true → (∃ w, Config.IdftClose tol N X n w) → Config.IdftClose tol N X n z

/-- Sample `n` of NUM_IDFT(N, X) as an instance computes it: any value that IDFT-ACC allows (00_scope.md R21); `none` stands
for the computed sample `fallbackIdft`, which is one such value. It is a function of N and of the bit patterns of X alone (IDFT-DET). FREE VALUE,
safe (notes/assumptions/7.md). -/
opaque Config.idftFree (tol : ℚ) (N : Nat) (X : List Sample) (n : Nat) : Option (Subtype (Config.IdftAcc tol N X n))

/-- Whether the zero components (re, im) of sample `n` of NUM_IDFT(N, X) are negative where every component of X has value 0:
the sign is unspecified (IDFT-ZERO, 00_scope.md R21). FREE VALUE, safe (notes/assumptions/7.md). -/
opaque Config.idftZeroNeg (N : Nat) (X : List Sample) (n : Nat) : Bool × Bool

end Sys2Proof
end

