-- ==== Sys2Proof/Machine/Numeric.lean ====
section
/-! DEFINITION. The numeric configuration functions NUM_SINPI, NUM_COSPI and NUM_IDFT with the properties the spec names
(00_scope.md R20, R21), and the normalized sinc (R22). TRIG-SYM, TRIG-HALF, TRIG-NAN, IDFT-ZERO, IDFT-ONE and IDFT-DET
hold by the way they are built; TRIG-ACC and IDFT-ACC are in the types of the free values, and the values computed where a
free value is `none` meet them too, wherever some binary64 number does. -/

namespace Sys2Proof

/-- PI_64, the binary64 number nearest π (00_scope.md R22). -/
def F64.pi : F64 := 0x400921FB54442D18

/-! ## An approximation that meets TRIG-ACC -/

/-- A rational just below π. -/
def piApprox : ℚ := 314159265358979323846 / 10 ^ 20

/-- The Taylor polynomial of sin at `y` with `n` terms. -/
def sinPoly (n : Nat) (y : ℚ) : ℚ :=
  (List.range n).foldl (fun acc j => acc + (-1) ^ j * y ^ (2 * j + 1) / (Nat.factorial (2 * j + 1) : ℚ)) 0

/-- The Taylor polynomial of cos at `y` with `n` terms. -/
def cosPoly (n : Nat) (y : ℚ) : ℚ :=
  (List.range n).foldl (fun acc j => acc + (-1) ^ j * y ^ (2 * j) / (Nat.factorial (2 * j) : ℚ)) 0

/-- The number of terms used: the arguments lie in [0, 2π]. -/
def taylorTerms : Nat := 24

/-- π times the magnitude of `x` modulo 2, cut to 80 binary places. -/
def piAngle (x : F64) : ℚ := piApprox * ((F64.mag x % 2 ^ 1075 / 2 ^ 994 : Nat) : ℚ) / 2 ^ 80

/-- The multiple of 2^-53 in [-1, 1] at or below `q`, as a binary64 number. -/
def unitF64 (q : ℚ) : F64 := F64.roundInt (max (-(2 ^ 53)) (min (2 ^ 53) ⌊q * 2 ^ 53⌋) * 2 ^ 1021)

/-- A value of sin(π|x|) within 2^-52. -/
def approxSinPi (x : F64) : F64 := unitF64 (sinPoly taylorTerms (piAngle x))

/-- A value of cos(π|x|) within 2^-52. -/
def approxCosPi (x : F64) : F64 := unitF64 (cosPoly taylorTerms (piAngle x))

/-! ## The finite binary64 number nearest a real

A real is given by `cmp`, which says how it compares with each rational. Where any finite number meets an error bound, the
nearest one does, so a value built here meets TRIG-ACC and IDFT-ACC wherever they can be met (00_scope.md R20, R21). -/

/-- The greatest number, of those that add to `r` some of the bits below `2^n`, that has a property all smaller ones have. -/
def greatestFrom (p : Nat → Bool) : Nat → Nat → Nat
  | 0, r => r
  | n + 1, r => greatestFrom p n (if p (r + 2 ^ n) then r + 2 ^ n else r)

/-- The rational halfway between the magnitudes whose bits 62 to 0 are `b - 1` and `b`. -/
def midpointBelow (b : Nat) : ℚ :=
  ((F64.mag (BitVec.ofNat 64 (b - 1)) + F64.mag (BitVec.ofNat 64 b) : Nat) : ℚ) / 2 ^ 1075

/-- Bits 62 to 0 of the finite binary64 number nearest a real that is not below 0. -/
def nearestBits (cmp : ℚ → Ordering) : Nat :=
  greatestFrom (fun b => decide (b < 2047 * 2 ^ 52) && (cmp (midpointBelow b) != .lt)) 63 0

/-- The finite binary64 number nearest a real. -/
def nearestF64 (cmp : ℚ → Ordering) : F64 :=
  if cmp 0 = .lt then F64.pack true (nearestBits fun q => (cmp (-q)).swap) else F64.pack false (nearestBits cmp)

/-- How cos(πm/2^j) compares with `q`, exactly: an angle of even `m` is halved as a fraction; otherwise, where the cosine and
`q` have the same sign, their squares compare as the cosine of the doubled angle with 2q² - 1. -/
def cosCmp : Nat → Nat → ℚ → Ordering
  | 0, m, q => compare (if m % 2 = 0 then 1 else -1) q
  | j + 1, m, q =>
    if m % 2 = 0 then cosCmp j (m / 2) q
    else if 1 < q then .lt
    else if q < -1 then .gt
    else if m % 2 ^ (j + 2) ≤ 2 ^ j ∨ 3 * 2 ^ j ≤ m % 2 ^ (j + 2) then
      (if q < 0 then .gt else cosCmp j m (2 * q ^ 2 - 1))
    else (if 0 ≤ q then .lt else (cosCmp j m (2 * q ^ 2 - 1)).swap)

/-- The binary64 number nearest sin(π|x|), which is cos(π(|x| + 3/2)). It is there to be reasoned about: its numbers double in
length at each doubling of the angle. -/
def nearestSinPi (x : F64) : F64 := nearestF64 (cosCmp 1074 (F64.mag x + 3 * 2 ^ 1073))

/-- The binary64 number nearest cos(π|x|). -/
def nearestCosPi (x : F64) : F64 := nearestF64 (cosCmp 1074 (F64.mag x))

/-- The tolerance from which the approximations above meet TRIG-ACC, 2^-52. -/
def trigApproxTol : ℚ := mkRat 1 (2 ^ 52)

/-- A value of sin(π|x|) that meets TRIG-ACC where some binary64 number does (00_scope.md R20). -/
def fallbackSinPi (tol : ℚ) (x : F64) : F64 := if trigApproxTol ≤ tol then approxSinPi x else nearestSinPi x

/-- A value of cos(π|x|) that meets TRIG-ACC where some binary64 number does (00_scope.md R20). -/
def fallbackCosPi (tol : ℚ) (x : F64) : F64 := if trigApproxTol ≤ tol then approxCosPi x else nearestCosPi x

/-! ## NUM_SINPI and NUM_COSPI -/

/-- The magnitude of `x` counted in halves, where it is a whole number of them (00_scope.md R20, TRIG-HALF). -/
def F64.halves (x : F64) : Option Nat :=
  if 2 * F64.mag x % 2 ^ 1074 = 0 then some (2 * F64.mag x / 2 ^ 1074) else none

/-- sin(πk/2), exactly. -/
def sinHalves (k : Nat) : F64 :=
  if k % 4 = 1 then F64.one else if k % 4 = 3 then F64.neg F64.one else F64.zero

/-- cos(πk/2), exactly, with a zero as +0. -/
def cosHalves (k : Nat) : F64 :=
  if k % 4 = 0 then F64.one else if k % 4 = 2 then F64.neg F64.one else F64.zero

/-- NUM_SINPI at |x|, for a finite x (00_scope.md R20: TRIG-HALF, TRIG-ACC). -/
def sinPiAbs (tol : ℚ) (x : F64) : F64 :=
  match F64.halves x with
  | some k => sinHalves k
  | none => ((Config.sinPiFree tol (F64.abs x)).map Subtype.val).getD (fallbackSinPi tol x)

/-- NUM_SINPI (00_scope.md R20). TRIG-NAN comes first; the sign of x is the sign of the result (TRIG-SYM), so a negative
integer and -0 give -0. -/
def numSinPi (tol : ℚ) (x : F64) : F64 :=
  if F64.isFinite x then (if F64.sign x then F64.neg (sinPiAbs tol x) else sinPiAbs tol x) else F64.nan

/-- NUM_COSPI (00_scope.md R20), a function of |x| (TRIG-SYM). -/
def numCosPi (tol : ℚ) (x : F64) : F64 :=
  if F64.isFinite x then
    match F64.halves x with
    | some k => cosHalves k
    | none => ((Config.cosPiFree tol (F64.abs x)).map Subtype.val).getD (fallbackCosPi tol x)
  else F64.nan

/-- `sinc(x)`, the normalized sinc (00_scope.md R22). -/
def sinc (tol : ℚ) (x : F64) : F64 :=
  if F64.isZero x then F64.one else F64.div (numSinPi tol x) (F64.mul F64.pi x)

/-! ## NUM_IDFT -/

/-- The angle 2π·k·n/N reduced to [0, 2π). -/
def dftAngle (N k n : Nat) : ℚ := piApprox * 2 * ((k * n % N : Nat) : ℚ) / N

/-- An approximation of sample `n` of the inverse DFT of size N: exact sums of rational approximations of the twiddle
factors, rounded once. -/
def approxIdft (N : Nat) (X : List Sample) (n : Nat) : Sample :=
  let term (f : ℚ → ℚ → ℚ → ℚ → ℚ) (k : Nat) : ℚ :=
    let z := X.getD k ⟨F64.zero, F64.zero⟩
    f (F64.val z.re) (F64.val z.im) (cosPoly taylorTerms (dftAngle N k n)) (sinPoly taylorTerms (dftAngle N k n))
  let sum (f : ℚ → ℚ → ℚ → ℚ → ℚ) : ℚ := (List.range N).foldl (fun acc k => acc + term f k) 0 / N
  ⟨F64.ofRat (sum fun re im c s => re * c - im * s), F64.ofRat (sum fun re im c s => re * s + im * c)⟩

/-- The weights `w` of Σ w[t] cos(2πt/P) at even `t`, as weights of the half period. -/
def cosSumEven (half : Nat) (w : List Int) : List Int := (List.range half).map fun u => w.getD (2 * u) 0

/-- The sum at the `t` of the parity of `a`, times 2cos(2πa/P): its weight at step `u` of the half period. -/
def cosSumShift (half : Nat) (w : List Int) (a u : Nat) : Int :=
  w.getD ((2 * u + (2 * half - a)) % (2 * half)) 0 + w.getD ((a + (2 * half - 2 * u)) % (2 * half)) 0

/-- The part of the sum at odd `t`, times 2cos(2π/P): its weights of the half period. -/
def cosSumOdd (half : Nat) (w : List Int) : List Int := (List.range half).map (cosSumShift half w 1)

/-- Twice the difference of the squares of the even and the odd part: its weights of the half period. -/
def cosSumNorm (half : Nat) (w : List Int) : List Int :=
  (List.range half).map fun u =>
    ((List.range (2 * half)).map fun a => (-1) ^ a * w.getD a 0 * cosSumShift half w a u).sum

/-- The sign of Σ w[t] cos(2πt/2^j) over a period, exactly: the even and the odd part decide it where their signs agree or one
is 0; otherwise the greater of their squares does. -/
def cosSumSign : Nat → List Int → Int
  | 0, w => (w.getD 0 0).sign
  | 1, w => (w.getD 0 0 - w.getD 1 0).sign
  | 2, w => (w.getD 0 0 - w.getD 2 0).sign
  | j + 3, w =>
    let even := cosSumSign (j + 2) (cosSumEven (2 ^ (j + 2)) w)
    let odd := cosSumSign (j + 2) (cosSumOdd (2 ^ (j + 2)) w)
    let norm := cosSumSign (j + 2) (cosSumNorm (2 ^ (j + 2)) w)
    if odd = 0 ∨ even = odd then even else if even = 0 ∨ norm < 0 then odd else if 0 < norm then even else 0

/-- How Σ w[t] cos(2πt/2^j), divided by `scale`, compares with `q`. -/
def cosSumCmp (j : Nat) (w : List Int) (scale : Nat) (q : ℚ) : Ordering :=
  compare (cosSumSign j ((w.map fun c : Int => (q.den : Int) * c).modifyHead fun c => c - q.num * (scale : Int))) 0

/-- The weights of Σ f[k] cos(2πkn/N) + g[k] sin(2πkn/N) over a period of 4N. -/
def dftWeights (N n : Nat) (f g : Nat → Int) : List Int :=
  (List.range (4 * N)).map fun t =>
    ((List.range N).map fun k =>
      (if 4 * k * n % (4 * N) = t then f k else 0) + (if (4 * k * n + 3 * N) % (4 * N) = t then g k else 0)).sum

/-- The binary64 numbers nearest the components of sample `n` of the inverse DFT, for a power of two N and finite X. -/
def nearestIdft (N : Nat) (X : List Sample) (n : Nat) : Sample :=
  let re (k : Nat) : Int := F64.scaled (X.getD k ⟨F64.zero, F64.zero⟩).re
  let im (k : Nat) : Int := F64.scaled (X.getD k ⟨F64.zero, F64.zero⟩).im
  let near (w : List Int) : F64 := nearestF64 (cosSumCmp (Nat.log2 N + 2) w (N * 2 ^ 1074))
  ⟨near (dftWeights N n re fun k => -im k), near (dftWeights N n im re)⟩

/-- The greatest magnitude of a component of X, in units of 2^-1074. -/
def maxMag (X : List Sample) : Nat := X.foldr (fun z m => max (max (F64.mag z.re) (F64.mag z.im)) m) 0

/-- The approximation above meets IDFT-ACC: the tolerance is at least 2^-40, and the greatest component lies in
[2^-960, 2^1000], away from the subnormals and from overflow; or X is not finite, and R21 states no result. -/
def idftApproxFits (tol : ℚ) (X : List Sample) : Bool :=
  !allFinite X || decide (mkRat 1 (2 ^ 40) ≤ tol) && decide (2 ^ 114 ≤ maxMag X) && decide (maxMag X ≤ 2 ^ 2074)

/-- A sample that meets IDFT-ACC where some sample does (00_scope.md R21). -/
def fallbackIdft (tol : ℚ) (N : Nat) (X : List Sample) (n : Nat) : Sample :=
  if idftApproxFits tol X then approxIdft N X n else nearestIdft N X n

/-- Every component of X has value 0. -/
def allZero (X : List Sample) : Bool := X.all (fun z => F64.isZero z.re && F64.isZero z.im)

/-- Sample `n` of NUM_IDFT(N, X) for N ≠ 1 (00_scope.md R21: IDFT-ZERO, IDFT-ACC, IDFT-DET). -/
def idftSample (tol : ℚ) (N : Nat) (X : List Sample) (n : Nat) : Sample :=
  if allZero X then
    ⟨F64.pack (Config.idftZeroNeg N X n).1 0, F64.pack (Config.idftZeroNeg N X n).2 0⟩
  else ((Config.idftFree tol N X n).map Subtype.val).getD (fallbackIdft tol N X n)

/-- NUM_IDFT(N, X), N samples; for N = 1 the one sample is X[0] bit for bit (00_scope.md R21: IDFT-ONE). -/
def numIdft (tol : ℚ) (N : Nat) (X : List Sample) : List Sample :=
  if N = 1 then X else (List.range N).map (idftSample tol N X)

end Sys2Proof
end

