-- ==== Sys2Proof/Machine/State.lean ====
section
/-! DEFINITION. The architectural state of IQ-CORE (10_state.md R30), the reasons a step can stop, and the state after
reset (R63). State is plain data. The fields the spec does not name are the model's own: the parameters of the instance,
the counters the free values read, and the host's side of the interface (what the host is about to do, its held accesses
and the data it has read). -/

namespace Sys2Proof.Machine

/-- A register pair Fk_LO, Fk_HI (10_state.md R35). -/
structure Pair where
  lo : Word
  hi : Word
  deriving DecidableEq, Repr

/-- STATUS (10_state.md R42), bit by bit and field by field; the reserved bits 7:4 read as zero and hold nothing.
STATUS.BUSY is the engine state too: IDLE is `busy = false` (R59). -/
structure Status where
  /-- Bit 0: a command is latched and not yet complete. -/
  busy : Bool
  /-- Bit 1: the last started command has completed. -/
  done : Bool
  /-- Bit 2: the last completed command ended with an error. -/
  err : Bool
  /-- Bit 3: a START was written while BUSY = 1 and was ignored. -/
  missed : Bool
  /-- Bits 15:8: the error class (60_exceptions.md R263). -/
  errCode : BitVec 8
  /-- Bits 23:16: which check failed (R264). -/
  errSub : BitVec 8
  /-- Bits 31:24: CMD[7:0] of the command that failed. -/
  errOp : BitVec 8
  deriving DecidableEq, Repr

/-- The host-visible operand registers: seven integers (10_state.md R53) and three f64 pairs (R54). -/
structure Args where
  src : Word
  dst : Word
  count : Word
  aux : Word
  p0 : Word
  p1 : Word
  p2 : Word
  f0 : Pair
  f1 : Pair
  f2 : Pair
  deriving DecidableEq, Repr

/-- The latched command (10_state.md R58). -/
structure Latched where
  cmd : Word
  src : Word
  dst : Word
  count : Word
  aux : Word
  p0 : Word
  p1 : Word
  p2 : Word
  f0 : F64
  f1 : F64
  f2 : F64
  deriving DecidableEq, Repr

/-- The sample memory (20_memory.md R71): the bytes written since power-on, by strictly rising offset. A byte that is
not listed has not been written; what a read of it gives is `State.readByte`'s to say (R92). -/
abbrev Memory := List Host.Cell

/-- A host access to the sample memory (20_memory.md R79): `bytes` bytes at `offset`. -/
inductive MemAccess where
  | read (offset bytes : Nat)
  | write (offset bytes : Nat) (value : BitVec 64)
  deriving DecidableEq, Repr

/-- A host access to the register window (10_state.md R31): `bytes` bytes at `offset`. -/
inductive RegAccess where
  | read (offset bytes : Nat)
  | write (offset bytes : Nat) (value : Word)
  deriving DecidableEq, Repr

/-- What happens next at the edge of the block. The list of these in State is the one total order of host accesses and
ENGINE steps (60_exceptions.md R273), so a statement about every state covers every interleaving. -/
inductive Input where
  /-- The host accesses the register window (30_encoding.md R113: WR32, RD32). -/
  | reg (a : RegAccess)
  /-- The host accesses the sample memory (R113: WRM8 to WRM64, RDM8 to RDM64). -/
  | mem (a : MemAccess)
  /-- The host reads `bytes` bytes at a host address (20_memory.md R71, R83). -/
  | busRead (addr bytes : Nat)
  /-- The host writes `bytes` bytes at a host address. -/
  | busWrite (addr bytes : Nat) (value : BitVec 64)
  /-- ENGINE takes its step now, between two host accesses (60_exceptions.md R260). -/
  | engine
  /-- The host repeats RD32 STATUS until DONE = 1 (30_encoding.md R114, WAIT). -/
  | wait
  /-- The platform applies the power-on reset (70_reset_and_hazards.md R290). -/
  | powerOn
  deriving DecidableEq, Repr

/-- The whole state. -/
structure State where
  /-- The implementation parameters (00_scope.md R6); no step changes them. -/
  params : Params
  /-- CTRL.IRQ_EN (10_state.md R38); CTRL's other bits always read 0. -/
  irqEn : Bool
  /-- STATUS (R42), and with BUSY the engine state (R59). -/
  status : Status
  /-- CMD (R52). -/
  cmd : Word
  /-- ERRIDX (R48). -/
  errIdx : Word
  /-- OUTLEN (R49). -/
  outLen : Word
  /-- CLAMPCNT (R55). -/
  clampCnt : Word
  /-- ARG_SRC to ARG_P2 and ARG_F0 to ARG_F2 (R53, R54). -/
  args : Args
  /-- RES_F0 (R55). -/
  resF0 : Pair
  /-- RES_F1 (R55). -/
  resF1 : Pair
  /-- LCMD, LARG_* and LF* (R58). -/
  latched : Latched
  /-- The OFDM frame buffer (R60), from position 0; the positions past the list's end hold what the spec leaves
  unobservable. -/
  frame : List Sample
  /-- The sample memory (R62). -/
  mem : Memory
  /-- How many power-on resets there have been: the free value of an unwritten byte reads it (the model's own). -/
  powerOns : Nat
  /-- How many commands a soft reset has abandoned: the free values of 70_reset_and_hazards.md R293 read it (the model's
  own). -/
  abandons : Nat
  /-- What the host, the platform and ENGINE's scheduling do next, oldest first (the model's own). -/
  inputs : List Input
  /-- The host's sample-memory accesses held while BUSY = 1, oldest first (20_memory.md R80). -/
  held : List MemAccess
  /-- The data the host's reads have returned, oldest first, each zero-extended (the model's own). -/
  replies : List (BitVec 64)
  deriving DecidableEq, Repr

/-- Why the machine stops with a fault. No command of the opcode table faults: an error of a command is an error completion
(60_exceptions.md R266), which is a next state. -/
inductive Fault where
  /-- Raised by a host access at a host address that lies in neither window of the block (20_memory.md R83): no such
  address exists on this block. Safe: the model stops where another device of the platform would answer. -/
  | noSuchAddress (addr : Nat)
  deriving DecidableEq, Repr

/-- Why a step has no meaning. -/
inductive Refusal where
  /-- Raised by `exec` for an instruction with no meaning yet. No arm of this model raises it. Safe. -/
  | notModelled (mnemonic : String)
  /-- Raised by a host access to the register window that is not an aligned 32-bit access within its 256 bytes: the spec has
  a model refuse it (10_state.md R31, 20_memory.md R79). Safe. -/
  | registerAccess (offset bytes : Nat)
  /-- Raised by a host access to the sample memory that is not 1, 2, 4 or 8 bytes, naturally aligned and wholly below
  MEM_BYTES: the spec has a model refuse it (20_memory.md R79). Safe. -/
  | memoryAccess (offset bytes : Nat)
  deriving DecidableEq, Repr

/-- A pair holding 0, the pattern of +0. -/
def Pair.zero : Pair := ⟨0, 0⟩

/-- STATUS after both resets (10_state.md R63). -/
def Status.reset : Status := ⟨false, false, false, false, 0, 0, 0⟩

/-- The operand registers after both resets (10_state.md R63). -/
def Args.reset : Args := ⟨0, 0, 0, 0, 0, 0, 0, Pair.zero, Pair.zero, Pair.zero⟩

/-- The latched command after reset. The spec calls it unspecified and unobservable (10_state.md R63): DESIGN CHOICE, unsafe
(notes/assumptions/8.md). -/
def Latched.reset : Latched := ⟨0, 0, 0, 0, 0, 0, 0, 0, 0, 0, 0⟩

/-- The machine right after a power-on reset (10_state.md R63, 70_reset_and_hazards.md R291), with the parameters' defaults
of 00_scope.md R6 and nothing done by the host. -/
def State.reset : State where
  params := Params.default
  irqEn := false
  status := Status.reset
  cmd := 0
  errIdx := 0
  outLen := 0
  clampCnt := 0
  args := Args.reset
  resF0 := Pair.zero
  resF1 := Pair.zero
  latched := Latched.reset
  frame := []
  mem := []
  powerOns := 0
  abandons := 0
  inputs := []
  held := []
  replies := []

end Sys2Proof.Machine
end

