-- ==== Sys2Proof/Machine/Flags.lean ====
section
/-! DEFINITION. STATUS: its flags and what sets and clears each (10_state.md R42 to R47), the error codes (60_exceptions.md
R263), the word the host reads, and the interrupt output (R270). -/

namespace Sys2Proof.Machine

/-- The error classes (60_exceptions.md R263). -/
inductive ErrClass where
  | lengthMismatch
  | invalidSymbol
  | filterDesign
  | frameConfig
  | range
  | illegalCmd
  | param
  | address
  | align
  | overlap
  deriving DecidableEq, Repr

/-- `raise E(sub, idx)` (00_scope.md R13). -/
structure Raise where
  cls : ErrClass
  sub : Nat
  idx : Nat
  deriving DecidableEq, Repr

/-- The value of STATUS.ERRCODE for an error class (60_exceptions.md R263). -/
def ErrClass.code : ErrClass → Nat
  | .lengthMismatch => 0x01
  | .invalidSymbol => 0x02
  | .filterDesign => 0x03
  | .frameConfig => 0x04
  | .range => 0x05
  | .illegalCmd => 0x10
  | .param => 0x11
  | .address => 0x12
  | .align => 0x13
  | .overlap => 0x14

/-- STATUS at an accepted START: BUSY set, DONE, ERR and the error fields cleared, MISSED unchanged (60_exceptions.md R261). -/
def Status.started (st : Status) : Status := ⟨true, false, false, st.missed, 0, 0, 0⟩

/-- STATUS at a START written while BUSY = 1: MISSED set (60_exceptions.md R262). -/
def Status.startMissed (st : Status) : Status := { st with missed := true }

/-- STATUS at a success completion (60_exceptions.md R269). -/
def Status.succeeded (st : Status) : Status := { st with busy := false, done := true, err := false }

/-- STATUS at an error completion with ERRCODE, ERRSUB and ERROP (60_exceptions.md R266, R268). -/
def Status.failed (st : Status) (code sub op : Nat) : Status :=
  ⟨false, true, true, st.missed, BitVec.ofNat 8 code, BitVec.ofNat 8 sub, BitVec.ofNat 8 op⟩

/-- STATUS after a host write of `w` to it: a 1 in bits 1 to 3 clears DONE, ERR and MISSED; BUSY and the error fields are
read-only (10_state.md R42, 60_exceptions.md R271). -/
def Status.w1c (st : Status) (w : Word) : Status :=
  { st with
    done := st.done && !w.getLsbD 1
    err := st.err && !w.getLsbD 2
    missed := st.missed && !w.getLsbD 3 }

/-- A flag as a number. -/
def flagNat (b : Bool) : Nat := if b then 1 else 0

/-- The word a read of STATUS returns (10_state.md R42); bits 7:4 read as zero. -/
def Status.word (st : Status) : Word :=
  BitVec.ofNat 32 (flagNat st.busy + 2 * flagNat st.done + 4 * flagNat st.err + 8 * flagNat st.missed
    + 2 ^ 8 * st.errCode.toNat + 2 ^ 16 * st.errSub.toNat + 2 ^ 24 * st.errOp.toNat)

/-- The word a read of CTRL returns: IRQ_EN in bit 2; START and SRST always read 0 (10_state.md R38, R40). -/
def ctrlWord (irqEn : Bool) : Word := BitVec.ofNat 32 (4 * flagNat irqEn)

/-- The interrupt output: IRQ = CTRL.IRQ_EN AND STATUS.DONE at every instant (10_state.md R61, 60_exceptions.md R270). -/
def State.irq (s : State) : Bool := s.irqEn && s.status.done

/-- The level of the host's interrupt line `n`, as far as this block drives it: IRQ is wired to HOST_IRQ_LINE
(60_exceptions.md R270). -/
def State.hostIrq (s : State) (n : Nat) : Bool := decide (n = s.params.hostIrqLine) && s.irq

end Sys2Proof.Machine
end

