-- ==== Sys2Proof/Machine/Ops.lean ====
section
/-! DEFINITION. The named operations over the sample memory (00_scope.md R12, 20_memory.md R71 to R74), the register pairs,
and the completions of a command: success, error and range (60_exceptions.md R266 to R269). The error completion is the
hardware's trap entry; there is no return from it (R274). -/

namespace Sys2Proof.Machine

/-! ## The sample memory -/

/-- The byte written at an offset, if a write has reached it. -/
def Memory.lookup : Memory → Nat → Option Byte
  | [], _ => none
  | (b, v) :: rest, a => if b = a then some v else Memory.lookup rest a

/-- The memory with one byte written, in its canonical form: strictly rising offsets. -/
def Memory.insert : Memory → Nat → Byte → Memory
  | [], a, v => [(a, v)]
  | (b, w) :: rest, a, v =>
    if a < b then (a, v) :: (b, w) :: rest
    else if a = b then (a, v) :: rest
    else (b, w) :: Memory.insert rest a v

/-- The canonical form: offsets strictly rising. An unlisted byte has no written value, so no entry can equal one. -/
def Memory.wf : Memory → Bool
  | [] => true
  | [_] => true
  | (a, _) :: (b, w) :: rest => decide (a < b) && Memory.wf ((b, w) :: rest)

/-- `MemWrite(a, n, v)` on the memory, little-endian: byte `i` of `v` at `a + i` (00_scope.md R12, 20_memory.md R72). -/
def Memory.writeLE : Memory → Nat → Nat → Nat → Memory
  | m, _, 0, _ => m
  | m, a, n + 1, v => Memory.writeLE (Memory.insert m a (BitVec.ofNat 8 v)) (a + 1) n (v / 256)

/-- An array of elements of `size` bytes, each written by `put`, from base `a`: element `i` is at `a + i·size`
(20_memory.md R73). -/
def Memory.writeArray {α : Type} (put : Memory → Nat → α → Memory) (size : Nat) : Memory → Nat → List α → Memory
  | m, _, [] => m
  | m, a, x :: xs => Memory.writeArray put size (put m a x) (a + size) xs

/-- The bytes `f a` to `f (a + n - 1)` written at their offsets. -/
def Memory.fill (f : Nat → Byte) : Memory → Nat → Nat → Memory
  | m, _, 0 => m
  | m, a, n + 1 => Memory.fill f (Memory.insert m a (f a)) (a + 1) n

/-- The memory's part of `WriteF64(a, x)` (20_memory.md R74). -/
def Memory.putF64 (m : Memory) (a : Nat) (x : F64) : Memory := Memory.writeLE m a 8 x.toNat

/-- The memory's part of `WriteC128(a, z)`: re at +0, im at +8 (20_memory.md R73, R74). -/
def Memory.putSample (m : Memory) (a : Nat) (z : Sample) : Memory := Memory.putF64 (Memory.putF64 m a z.re) (a + 8) z.im

/-- The memory's part of `WriteU16(a, v)` (20_memory.md R74). -/
def Memory.putU16 (m : Memory) (a v : Nat) : Memory := Memory.writeLE m a 2 v

/-- The little-endian number in the `n` bytes from `a` (00_scope.md R12, 20_memory.md R72). -/
def readLE (byte : Nat → Byte) : Nat → Nat → Nat
  | _, 0 => 0
  | a, n + 1 => (byte a).toNat + 256 * readLE byte (a + 1) n

/-- What a read of one byte gives: the last byte written there, or, where no write has reached it since power-on, the
instance's unspecified byte (20_memory.md R85, R92). -/
def State.readByte (s : State) (a : Nat) : Byte := (Memory.lookup s.mem a).getD (Config.powerOnByte s.powerOns a)

/-- `MemRead(a, n)` (00_scope.md R12). -/
def State.memRead (s : State) (a n : Nat) : Nat := readLE s.readByte a n

/-- `MemWrite(a, n, v)` (00_scope.md R12). -/
def State.memWrite (s : State) (a n v : Nat) : State := { s with mem := Memory.writeLE s.mem a n v }

/-- `ReadBit(a)` (20_memory.md R74). -/
def State.readBit (s : State) (a : Nat) : Nat := s.memRead a 1

/-- `ReadF64(a)` (20_memory.md R74). -/
def State.readF64 (s : State) (a : Nat) : F64 := BitVec.ofNat 64 (s.memRead a 8)

/-- `ReadC128(a)` (20_memory.md R74). -/
def State.readSample (s : State) (a : Nat) : Sample := ⟨s.readF64 a, s.readF64 (a + 8)⟩

/-- `ReadU16(a)` (20_memory.md R74). -/
def State.readU16 (s : State) (a : Nat) : Nat := s.memRead a 2

/-- `WriteC128` of an array of complex elements (20_memory.md R73, R74). -/
def State.writeSamples (s : State) (a : Nat) (zs : List Sample) : State :=
  { s with mem := Memory.writeArray Memory.putSample 16 s.mem a zs }

/-- `WriteF64` of an array of real elements (20_memory.md R73, R74). -/
def State.writeReals (s : State) (a : Nat) (xs : List F64) : State :=
  { s with mem := Memory.writeArray Memory.putF64 8 s.mem a xs }

/-- `WriteU16` of an array of code elements (20_memory.md R73, R74). -/
def State.writeCodes (s : State) (a : Nat) (cs : List Nat) : State :=
  { s with mem := Memory.writeArray Memory.putU16 2 s.mem a cs }

/-! ## Register pairs -/

/-- The value of a pair: `{hi, lo}` (10_state.md R35). -/
def Pair.value (p : Pair) : F64 := p.hi ++ p.lo

/-- The pair that holds a value (10_state.md R35). -/
def Pair.ofF64 (x : F64) : Pair := ⟨x.extractLsb' 0 32, x.extractLsb' 32 32⟩

/-! ## Completion -/

/-- `success_completion()` (60_exceptions.md R269): OUTLEN, and the result registers where the command writes them. -/
def State.succeed (s : State) (outLen : Nat) : State :=
  { s with status := s.status.succeeded, outLen := BitVec.ofNat 32 outLen }

/-- The success completion of DAC_QUANT in min/max mode, which also writes RES_F0 and RES_F1 (45_dac.md R241). -/
def State.succeedMinMax (s : State) (outLen : Nat) (lo hi : F64) : State :=
  { s.succeed outLen with resF0 := Pair.ofF64 lo, resF1 := Pair.ofF64 hi }

/-- `error_completion(E, sub, idx)`, the hardware's trap entry (60_exceptions.md R266): the error class, subcode, opcode and
index are saved, the results are 0, and STATUS says ERR, DONE and not BUSY. Nothing else changes: no memory, no operand
register, no mask. -/
def State.fail (s : State) (r : Raise) : State :=
  { s with
    status := s.status.failed r.cls.code r.sub (s.latched.cmd.toNat % 2 ^ 8)
    errIdx := BitVec.ofNat 32 r.idx
    outLen := 0
    clampCnt := 0
    resF0 := Pair.zero
    resF1 := Pair.zero }

/-- `range_completion()` (60_exceptions.md R268), after the codes are written. -/
def State.failRange (s : State) (first clamped outLen : Nat) : State :=
  { s with
    status := s.status.failed ErrClass.range.code 1 0x50
    errIdx := BitVec.ofNat 32 first
    clampCnt := BitVec.ofNat 32 clamped
    outLen := BitVec.ofNat 32 outLen }

end Sys2Proof.Machine
end

