-- ==== Sys2Proof/Machine/Operands.lean ====
section
/-! DEFINITION. The operands of a command, assembled from the latched registers (30_encoding.md R107 to R109), its regions
(20_memory.md R75 to R78), its checks (60_exceptions.md R265), and the one way a command runs (R260). -/

namespace Sys2Proof.Machine

/-! ## Operand assembly (30_encoding.md R107, R108): the latched integers, zero-extended -/

/-- lat[ARG_SRC]. -/
def State.argSrc (s : State) : Nat := s.latched.src.toNat
/-- lat[ARG_DST]. -/
def State.argDst (s : State) : Nat := s.latched.dst.toNat
/-- lat[ARG_COUNT]. -/
def State.argCount (s : State) : Nat := s.latched.count.toNat
/-- lat[ARG_AUX]. -/
def State.argAux (s : State) : Nat := s.latched.aux.toNat
/-- lat[ARG_P0]. -/
def State.argP0 (s : State) : Nat := s.latched.p0.toNat
/-- lat[ARG_P1]. -/
def State.argP1 (s : State) : Nat := s.latched.p1.toNat
/-- lat[ARG_P2]. -/
def State.argP2 (s : State) : Nat := s.latched.p2.toNat

/-! ## Regions -/

/-- A byte range [base, base + len) of the sample memory (20_memory.md R75). -/
structure Region where
  base : Nat
  len : Nat
  deriving DecidableEq, Repr

/-- The region is within the sample memory; an empty one is exempt (20_memory.md R75, R77). -/
def Region.inBounds (r : Region) (memBytes : Nat) : Bool := decide (r.len = 0) || decide (r.base + r.len ≤ memBytes)

/-- The region's base is a multiple of `k`; an empty region is exempt (20_memory.md R76, R77). -/
def Region.aligned (r : Region) (k : Nat) : Bool := decide (r.len = 0) || decide (r.base % k = 0)

/-- Two regions overlap; an empty one overlaps nothing (20_memory.md R77, R78). -/
def Region.overlaps (r q : Region) : Bool :=
  decide (0 < r.len) && decide (0 < q.len) && decide (r.base < q.base + q.len) && decide (q.base < r.base + r.len)

/-- The offset lies in the region. -/
def Region.has (r : Region) (a : Nat) : Bool := decide (r.base ≤ a) && decide (a < r.base + r.len)

/-! ## Checks -/

/-- `require ok else err` (00_scope.md R13). -/
structure Check where
  ok : Bool
  err : Raise
  deriving DecidableEq, Repr

/-- The error of the first failing check, if one fails (60_exceptions.md R265). -/
def firstFailure : List Check → Option Raise
  | [] => none
  | c :: rest => if c.ok then firstFailure rest else some c.err

/-- ALIGN of a region (20_memory.md R76, 60_exceptions.md R264). -/
def alignCheck (sub k : Nat) (r : Region) : Check := ⟨r.aligned k, ⟨.align, sub, r.base⟩⟩

/-- ADDRESS of a region (20_memory.md R75, 60_exceptions.md R264). -/
def boundsCheck (sub memBytes : Nat) (r : Region) : Check := ⟨r.inBounds memBytes, ⟨.address, sub, r.base⟩⟩

/-- OVERLAP of the destination with a source region (20_memory.md R78, 60_exceptions.md R264). -/
def overlapCheck (sub : Nat) (dst r : Region) : Check := ⟨!dst.overlaps r, ⟨.overlap, sub, dst.base⟩⟩

/-! ## Running a command -/

/-- What a command does once it is decoded. -/
structure Plan where
  /-- The scalar-operand and region checks, in order (60_exceptions.md R265, 2 to 5). -/
  early : List Check
  /-- The destination region. -/
  dst : Region
  /-- The checks that read source memory or computed values, in order (R265, 6 and 7). -/
  late : State → List Check
  /-- The memory writes and the completion. -/
  act : State → State

/-- The state after the checks and the effect of a command (60_exceptions.md R260): the first failing check ends it with
an error completion and no write; otherwise its writes and its completion happen. -/
def Plan.run (p : Plan) (s : State) : State :=
  match firstFailure p.early with
  | some r => s.fail r
  | none =>
    match firstFailure (p.late s) with
    | some r => s.fail r
    | none => p.act s

end Sys2Proof.Machine
end

