-- ==== Sys2Proof/Machine/Chirp.lean ====
section
/-! DEFINITION. CHIRP (44_chirp.md). -/

namespace Sys2Proof.Machine

/-- NS = ceil(val(T)·val(fs)), exactly (44_chirp.md R221); the product of the two magnitudes counts units of 2^-2148. -/
def chirpCount (T fs : F64) : Nat := (F64.mag T * F64.mag fs + (2 ^ 2148 - 1)) / 2 ^ 2148

/-- K = Bw /. T (R220). -/
def chirpRate (T bw : F64) : F64 := F64.div bw T

/-- t[n] = f64(n) /. fs (R222). -/
def chirpTime (fs : F64) (n : Nat) : F64 := F64.div (F64.ofNat n) fs

/-- p[n] = K *. (t[n] *. t[n]) (R222). Where t² overflows and K is ±0 (Bw = 0) this is NaN by 00_scope.md R16, and the sample
the canonical NaN, though R220's corner case has a constant (1.0, ±0): DEDUCED, unsafe (notes/assumptions/22.md). -/
def chirpPhase (T fs bw : F64) (n : Nat) : F64 :=
  F64.mul (chirpRate T bw) (F64.mul (chirpTime fs n) (chirpTime fs n))

/-- Sample `n` (R223). -/
def chirpSample (tol : ℚ) (T fs bw : F64) (n : Nat) : Sample :=
  ⟨numCosPi tol (chirpPhase T fs bw n), numSinPi tol (chirpPhase T fs bw n)⟩

/-- The destination region (DST, 16·NS). -/
def chirpDst (s : State) : Region := ⟨s.argDst, 16 * chirpCount s.latched.f0 s.latched.f1⟩

/-- Checks 2 to 7 of R220. -/
def chirpChecks (s : State) : List Check :=
  [ ⟨F64.isFinite s.latched.f0 && F64.lt F64.zero s.latched.f0, ⟨.param, 2, 0⟩⟩,
    ⟨F64.isFinite s.latched.f1 && F64.lt F64.zero s.latched.f1, ⟨.param, 3, 0⟩⟩,
    ⟨F64.isFinite s.latched.f2, ⟨.param, 4, 0⟩⟩,
    ⟨F64.isFinite (chirpRate s.latched.f0 s.latched.f2), ⟨.param, 5, 0⟩⟩,
    alignCheck 3 8 (chirpDst s),
    boundsCheck 3 s.params.memBytes (chirpDst s) ]

/-- The samples written (R223). -/
def chirpSamples (s : State) : List Sample :=
  (List.range (chirpCount s.latched.f0 s.latched.f1)).map
    (chirpSample s.params.trigTol s.latched.f0 s.latched.f1 s.latched.f2)

/-- CHIRP before it runs (R220). -/
def planChirp (s : State) : Plan where
  early := chirpChecks s
  dst := chirpDst s
  late _ := []
  act s := (s.writeSamples s.argDst (chirpSamples s)).succeed (chirpCount s.latched.f0 s.latched.f1)

/-- CHIRP (R220). -/
def execChirp (s : State) : Host.Outcome State Fault Refusal := .next ((planChirp s).run s)

end Sys2Proof.Machine
end

