-- ==== Sys2Proof/Machine/Dac.lean ====
section
/-! DEFINITION. DAC_QUANT (45_dac.md). The arithmetic is exact: a finite sample is an integer count of 2^-1074, so the
rational (v - lo)·Q/(hi - lo) is a ratio of integers. -/

namespace Sys2Proof.Machine

/-- Q = 2^B - 1, the largest code (45_dac.md R235). -/
def dacTop (bits : Nat) : Nat := 2 ^ bits - 1

/-- The source region (SRC, 16·COUNT). -/
def dacSrc (s : State) : Region := ⟨s.argSrc, 16 * s.argCount⟩

/-- The destination region (DST, 2·COUNT). -/
def dacDst (s : State) : Region := ⟨s.argDst, 2 * s.argCount⟩

/-- v_i, the chosen channel of sample `i` (R236): im with CH = 1. -/
def dacValue (ch : Bool) (s : State) (i : Nat) : F64 :=
  if ch then (s.readSample (s.argSrc + 16 * i)).im else (s.readSample (s.argSrc + 16 * i)).re

/-- v_0 to v_(COUNT-1). -/
def dacValues (ch : Bool) (s : State) : List F64 := (List.range s.argCount).map (dacValue ch s)

/-- Check 3 of R235, for the fixed range only. -/
def dacRangeCheck (fixed : Bool) (s : State) : Check :=
  ⟨!fixed || (F64.isFinite s.latched.f0 && F64.isFinite s.latched.f1 && F64.lt s.latched.f0 s.latched.f1),
    ⟨.param, 7, 0⟩⟩

/-- Checks 2 to 6 of R235. -/
def dacChecks (fixed : Bool) (bits : Nat) (s : State) : List Check :=
  [ ⟨decide (1 ≤ bits) && decide (bits ≤ Config.dacMaxBits), ⟨.param, 6, bits⟩⟩,
    dacRangeCheck fixed s,
    alignCheck 1 8 (dacSrc s),
    alignCheck 3 2 (dacDst s),
    boundsCheck 1 s.params.memBytes (dacSrc s),
    boundsCheck 3 s.params.memBytes (dacDst s),
    overlapCheck 1 (dacDst s) (dacSrc s) ]

/-- Check 7 of R235: the finiteness scan of min/max mode (R237). -/
def dacLate (ch fixed : Bool) (s : State) : List Check :=
  if fixed then []
  else (List.range s.argCount).map fun i => ⟨F64.isFinite (dacValue ch s i), ⟨.range, 2, i⟩⟩

/-- The code of an exact value `v` in the range [lo, hi], all in units of 2^-1074: rne((v - lo)·Q / (hi - lo))
(R237, R238). -/
def affineCode (top : Nat) (lo hi v : Int) : Nat := rneDiv ((v - lo).toNat * top) (hi - lo).toNat

/-- The least of the values, in units of 2^-1074 (R237). -/
def minScaled : List F64 → Int
  | [] => 0
  | v :: vs => vs.foldl (fun m w => min m (F64.scaled w)) (F64.scaled v)

/-- The greatest of the values, in units of 2^-1074 (R237). -/
def maxScaled : List F64 → Int
  | [] => 0
  | v :: vs => vs.foldl (fun m w => max m (F64.scaled w)) (F64.scaled v)

/-- The first value with the given exact value (R237). -/
def firstWith (vs : List F64) (x : Int) : F64 := (vs.find? fun v => decide (F64.scaled v = x)).getD F64.zero

/-- The code of `v` under the min/max policy (R237): 0 for a constant waveform. The codes can be those of the fixed range where
the ranges differ, against R242 (d): DEDUCED, unsafe (notes/assumptions/23.md). -/
def minMaxCode (top : Nat) (vs : List F64) (v : F64) : Nat :=
  if maxScaled vs = minScaled vs then 0 else affineCode top (minScaled vs) (maxScaled vs) (F64.scaled v)

/-- The sample is out of the fixed range: NaN, below LO or above HI (R238). -/
def outOfRange (lo hi v : F64) : Bool := F64.isNaN v || F64.lt v lo || F64.lt hi v

/-- The code of `v` under the fixed-range policy (R238): clamped to 0 or Q, a NaN to 0. For R242 (d) see `minMaxCode`
(DEDUCED, unsafe, notes/assumptions/23.md). -/
def fixedCode (top : Nat) (lo hi v : F64) : Nat :=
  if F64.isNaN v || F64.lt v lo then 0
  else if F64.lt hi v then top
  else affineCode top (F64.scaled lo) (F64.scaled hi) (F64.scaled v)

/-- DAC_QUANT's writes and completion in min/max mode (R237, R240, R241). -/
def dacMinMax (ch : Bool) (bits : Nat) (s : State) : State :=
  if s.argCount = 0 then s.succeed 0
  else
    (s.writeCodes s.argDst ((dacValues ch s).map (minMaxCode (dacTop bits) (dacValues ch s)))).succeedMinMax s.argCount
      (firstWith (dacValues ch s) (minScaled (dacValues ch s)))
      (firstWith (dacValues ch s) (maxScaled (dacValues ch s)))

/-- How many samples are clamped (R238). -/
def dacClamped (ch : Bool) (s : State) : Nat := (dacValues ch s).countP (outOfRange s.latched.f0 s.latched.f1)

/-- The index of the first clamped sample (R238). -/
def dacFirstClamped (ch : Bool) (s : State) : Nat := (dacValues ch s).findIdx (outOfRange s.latched.f0 s.latched.f1)

/-- DAC_QUANT's writes and completion in fixed mode (R238 to R241): every code is written, and a clamped sample ends the
command with RANGE(1, first). -/
def dacFixed (ch : Bool) (bits : Nat) (s : State) : State :=
  let t := s.writeCodes s.argDst ((dacValues ch s).map (fixedCode (dacTop bits) s.latched.f0 s.latched.f1))
  if dacClamped ch s = 0 then t.succeed s.argCount
  else t.failRange (dacFirstClamped ch s) (dacClamped ch s) s.argCount

/-- DAC_QUANT before it runs (R235). -/
def planDacQuant (ch fixed : Bool) (bits : Nat) (s : State) : Plan where
  early := dacChecks fixed bits s
  dst := dacDst s
  late := dacLate ch fixed
  act s := if fixed then dacFixed ch bits s else dacMinMax ch bits s

/-- DAC_QUANT (R235). -/
def execDacQuant (ch fixed : Bool) (bits : Nat) (s : State) : Host.Outcome State Fault Refusal :=
  .next ((planDacQuant ch fixed bits s).run s)

end Sys2Proof.Machine
end

