-- ==== Sys2Proof/Machine/FilterDesign.lean ====
section
/-! DEFINITION. FIR_LOWPASS and FIR_RCOS (41_filter_design.md). There is no root-raised-cosine command (R163). -/

namespace Sys2Proof.Machine

/-! ## Common part -/

/-- The destination region (DST, 8·N) of a design of N taps (41_filter_design.md R150). -/
def tapsDst (N : Nat) (s : State) : Region := ⟨s.argDst, 8 * N⟩

/-- A sum from +0 in ascending order (R154, R159). -/
def sumF64 (xs : List F64) : F64 := xs.foldl F64.add F64.zero

/-! ## FIR_LOWPASS -/

/-- 0.54_64 (R153). -/
def hamming054 : F64 := 0x3FE147AE147AE148

/-- 0.46_64 (R153). -/
def hamming046 : F64 := 0x3FDD70A3D70A3D71

/-- d = n - (N-1)/2 (R152). -/
def tapOffset (N n : Nat) : Int := (n : Int) - ((N - 1) / 2 : Nat)

/-- hd[n], the tap before windowing (R152). -/
def lowpassIdeal (tol : ℚ) (N : Nat) (c : F64) (n : Nat) : F64 :=
  F64.mul c (sinc tol (F64.mul c (F64.ofInt (tapOffset N n))))

/-- w[n], the Hamming window (R153). -/
def hammingWindow (tol : ℚ) (N n : Nat) : F64 :=
  if N = 1 then F64.one
  else
    F64.add hamming054
      (F64.mul hamming046
        (numCosPi tol (F64.div (F64.ofNat (2 * (tapOffset N n).natAbs)) (F64.ofNat (N - 1)))))

/-- h[n], the taps with DCNORM = 0 (R153). -/
def lowpassTaps (tol : ℚ) (N : Nat) (c : F64) : List F64 :=
  (List.range N).map fun n => F64.mul (lowpassIdeal tol N c n) (hammingWindow tol N n)

/-- The taps written (R154): unscaled, or divided by their sum. -/
def lowpassOut (tol : ℚ) (dcnorm : Bool) (N : Nat) (c : F64) : List F64 :=
  if dcnorm then (lowpassTaps tol N c).map (fun h => F64.div h (sumF64 (lowpassTaps tol N c)))
  else lowpassTaps tol N c

/-- Checks 2 to 7 of R151. -/
def lowpassChecks (s : State) : List Check :=
  [ ⟨decide (s.argP1 ≠ 0), ⟨.filterDesign, 1, 0⟩⟩,
    ⟨decide (s.argP1 % 2 = 1), ⟨.filterDesign, 2, s.argP1⟩⟩,
    ⟨decide (s.argP1 ≤ s.params.maxTaps), ⟨.filterDesign, 3, s.argP1⟩⟩,
    ⟨F64.lt F64.zero s.latched.f0 && F64.lt s.latched.f0 F64.one, ⟨.filterDesign, 4, 0⟩⟩,
    alignCheck 3 8 (tapsDst s.argP1 s),
    boundsCheck 3 s.params.memBytes (tapsDst s.argP1 s) ]

/-- The DCNORM check of R154. -/
def lowpassLate (dcnorm : Bool) (s : State) : List Check :=
  if dcnorm then
    [⟨F64.lt F64.zero (sumF64 (lowpassTaps s.params.trigTol s.argP1 s.latched.f0)), ⟨.filterDesign, 5, 0⟩⟩]
  else []

/-- FIR_LOWPASS before it runs (R151). -/
def planFirLowpass (dcnorm : Bool) (s : State) : Plan where
  early := lowpassChecks s
  dst := tapsDst s.argP1 s
  late := lowpassLate dcnorm
  act s := (s.writeReals s.argDst (lowpassOut s.params.trigTol dcnorm s.argP1 s.latched.f0)).succeed s.argP1

/-- FIR_LOWPASS (R151). -/
def execFirLowpass (dcnorm : Bool) (s : State) : Host.Outcome State Fault Refusal :=
  .next ((planFirLowpass dcnorm s).run s)

/-! ## FIR_RCOS -/

/-- PI4_64, the binary64 number nearest π/4 (R158). -/
def pi4 : F64 := 0x3FE921FB54442D18

/-- N = L·S + 1 (R156). -/
def rcosCount (s : State) : Nat := s.argP1 * s.argP0 + 1

/-- a[n] = |t_n| (R157). -/
def rcosTime (S L n : Nat) : F64 :=
  F64.div (F64.ofNat ((2 * n : Int) - (L * S : Nat)).natAbs) (F64.ofNat (2 * S))

/-- den = 1 - (2βt)² (R158). -/
def rcosDen (beta a : F64) : F64 :=
  F64.sub F64.one (F64.mul (F64.mul (F64.mul F64.two beta) a) (F64.mul (F64.mul F64.two beta) a))

/-- raw[n] at the time `a`, with the singularity branch (R158). -/
def rcosPoint (tol : ℚ) (eps beta a : F64) : F64 :=
  if F64.lt (F64.abs (rcosDen beta a)) eps then
    F64.mul pi4 (sinc tol (F64.div F64.one (F64.mul F64.two beta)))
  else F64.div (F64.mul (sinc tol a) (numCosPi tol (F64.mul beta a))) (rcosDen beta a)

/-- raw[n], the taps before normalization (R157, R158). -/
def rcosRaw (tol : ℚ) (eps beta : F64) (S L : Nat) : List F64 :=
  (List.range (L * S + 1)).map fun n => rcosPoint tol eps beta (rcosTime S L n)

/-- E, the energy of the raw taps (R159). -/
def rcosEnergy (raw : List F64) : F64 := sumF64 (raw.map fun x => F64.mul x x)

/-- The taps written (R159). Their energy is near 1, as R161 (b) says, unless NUM_SINPI or NUM_COSPI is so far from exact that
the squares in E underflow: DEDUCED, unsafe (notes/assumptions/24.md). -/
def rcosOut (raw : List F64) : List F64 := raw.map fun x => F64.div x (F64.sqrt (rcosEnergy raw))

/-- The raw taps of the latched command. -/
def rcosLatched (s : State) : List F64 := rcosRaw s.params.trigTol s.params.rcEps s.latched.f0 s.argP0 s.argP1

/-- Checks 2 to 7 of R156. -/
def rcosChecks (s : State) : List Check :=
  [ ⟨F64.le F64.zero s.latched.f0 && F64.le s.latched.f0 F64.one, ⟨.filterDesign, 6, 0⟩⟩,
    ⟨decide (s.argP1 ≠ 0), ⟨.filterDesign, 7, 0⟩⟩,
    ⟨decide (s.argP0 ≠ 0), ⟨.filterDesign, 8, 0⟩⟩,
    ⟨decide (rcosCount s ≤ s.params.maxTaps), ⟨.filterDesign, 3, rcosCount s⟩⟩,
    alignCheck 3 8 (tapsDst (rcosCount s) s),
    boundsCheck 3 s.params.memBytes (tapsDst (rcosCount s) s) ]

/-- The energy check of R159. -/
def rcosLate (s : State) : List Check :=
  [⟨F64.lt F64.zero (rcosEnergy (rcosLatched s)) && F64.isFinite (rcosEnergy (rcosLatched s)),
    ⟨.filterDesign, 9, 0⟩⟩]

/-- FIR_RCOS before it runs (R156). -/
def planFirRcos (s : State) : Plan where
  early := rcosChecks s
  dst := tapsDst (rcosCount s) s
  late := rcosLate
  act s := (s.writeReals s.argDst (rcosOut (rcosLatched s))).succeed (rcosCount s)

/-- FIR_RCOS (R156). -/
def execFirRcos (s : State) : Host.Outcome State Fault Refusal := .next ((planFirRcos s).run s)

end Sys2Proof.Machine
end

