-- ==== Sys2Proof/Machine/Ofdm.lean ====
section
/-! DEFINITION. OFDM_MOD (43_ofdm.md). -/

namespace Sys2Proof.Machine

/-- NACT, the number of active subcarriers (43_ofdm.md R200, R201). -/
def ofdmNact (refset : Bool) (s : State) : Nat := if refset then 52 else s.argP2

/-- NSYM = COUNT div NACT (R200). -/
def ofdmNsym (refset : Bool) (s : State) : Nat := s.argCount / ofdmNact refset s

/-- OUT = NSYM·(NFFT + CP) (R200). -/
def ofdmOut (refset : Bool) (s : State) : Nat := ofdmNsym refset s * (s.argP0 + s.argP1)

/-- The source region (SRC, 16·COUNT). -/
def ofdmSrc (s : State) : Region := ⟨s.argSrc, 16 * s.argCount⟩

/-- The auxiliary region (AUX, 2·NACT); with REFSET = 1 there is none (R200). -/
def ofdmAux (refset : Bool) (s : State) : Region := ⟨s.argAux, if refset then 0 else 2 * s.argP2⟩

/-- The destination region (DST, 16·OUT). -/
def ofdmDst (refset : Bool) (s : State) : Region := ⟨s.argDst, 16 * ofdmOut refset s⟩

/-- A power of two. -/
def isPow2 (n : Nat) : Bool := decide (n ≠ 0) && decide (2 ^ Nat.log2 n = n)

/-- Check 4 of R201. -/
def ofdmActiveCheck (refset : Bool) (s : State) : Check :=
  if refset then ⟨decide (s.argP0 = 64), ⟨.frameConfig, 3, s.argP0⟩⟩
  else ⟨decide (1 ≤ s.argP2) && decide (s.argP2 ≤ s.argP0), ⟨.frameConfig, 4, s.argP2⟩⟩

/-- Checks 2 to 8 of R201. -/
def ofdmChecks (refset : Bool) (s : State) : List Check :=
  [ ⟨isPow2 s.argP0 && decide (s.argP0 ≤ s.params.maxFft), ⟨.frameConfig, 1, s.argP0⟩⟩,
    ⟨decide (s.argP1 ≤ s.argP0), ⟨.frameConfig, 2, s.argP1⟩⟩,
    ofdmActiveCheck refset s,
    ⟨decide (s.argCount % ofdmNact refset s = 0), ⟨.frameConfig, 5, s.argCount % ofdmNact refset s⟩⟩,
    alignCheck 1 8 (ofdmSrc s),
    alignCheck 2 2 (ofdmAux refset s),
    alignCheck 3 8 (ofdmDst refset s),
    boundsCheck 1 s.params.memBytes (ofdmSrc s),
    boundsCheck 2 s.params.memBytes (ofdmAux refset s),
    boundsCheck 3 s.params.memBytes (ofdmDst refset s),
    overlapCheck 1 (ofdmDst refset s) (ofdmSrc s),
    overlapCheck 2 (ofdmDst refset s) (ofdmAux refset s) ]

/-- ACT[j]: the built-in reference set (R202), or the host's list (R203). -/
def activeIndex (refset : Bool) (s : State) (j : Nat) : Nat :=
  if refset then (if j < 26 then j + 1 else j + 12) else s.readU16 (s.argAux + 2 * j)

/-- The checks of entry `j` of the host's list (R203). -/
def activeEntryChecks (s : State) (j : Nat) : List Check :=
  [ ⟨decide (activeIndex false s j < s.argP0), ⟨.frameConfig, 6, j⟩⟩,
    ⟨decide (j = 0) || decide (activeIndex false s (j - 1) < activeIndex false s j), ⟨.frameConfig, 7, j⟩⟩ ]

/-- Check 9 of R201: the list checks, for a host list only (R203). -/
def ofdmLate (refset : Bool) (s : State) : List Check :=
  if refset then [] else (List.range s.argP2).flatMap (activeEntryChecks s)

/-- The scatter of OFDM symbol `b` into a frame of NFFT zero samples (R204). -/
def ofdmFrame (refset : Bool) (s : State) (b : Nat) : List Sample :=
  (List.range (ofdmNact refset s)).foldl
    (fun X j => X.set (activeIndex refset s j)
      (s.readSample (s.argSrc + 16 * (b * ofdmNact refset s + j))))
    (List.replicate s.argP0 ⟨F64.zero, F64.zero⟩)

/-- x, the inverse transform of OFDM symbol `b` (R205). -/
def ofdmTime (refset : Bool) (s : State) (b : Nat) : List Sample :=
  numIdft s.params.idftTol s.argP0 (ofdmFrame refset s b)

/-- Block `b` of the output: the last CP samples, then all of them (R206). -/
def ofdmBlock (refset : Bool) (s : State) (b : Nat) : List Sample :=
  (ofdmTime refset s b).drop (s.argP0 - s.argP1) ++ ofdmTime refset s b

/-- The output samples, block after block (R206). -/
def ofdmSamples (refset : Bool) (s : State) : List Sample :=
  (List.range (ofdmNsym refset s)).flatMap (ofdmBlock refset s)

/-- The frame buffer after the command: the last symbol's frame in its first NFFT positions (10_state.md R60). -/
def ofdmBuffer (refset : Bool) (s : State) : List Sample :=
  if ofdmNsym refset s = 0 then s.frame
  else ofdmFrame refset s (ofdmNsym refset s - 1) ++ s.frame.drop s.argP0

/-- OFDM_MOD before it runs (R200). -/
def planOfdmMod (refset : Bool) (s : State) : Plan where
  early := ofdmChecks refset s
  dst := ofdmDst refset s
  late := ofdmLate refset
  act s :=
    { (s.writeSamples s.argDst (ofdmSamples refset s)).succeed (ofdmOut refset s) with
      frame := ofdmBuffer refset s }

/-- OFDM_MOD (R200). -/
def execOfdmMod (refset : Bool) (s : State) : Host.Outcome State Fault Refusal :=
  .next ((planOfdmMod refset s).run s)

end Sys2Proof.Machine
end

