-- ==== Sys2Proof/Machine/PulseShaper.lean ====
section
/-! DEFINITION. PULSE_SHAPE (42_pulse_shaper.md). -/

namespace Sys2Proof.Machine

/-- LIN = M·S (42_pulse_shaper.md R180). -/
def pulseLin (s : State) : Nat := s.argCount * s.argP0

/-- OUT, the output length (R180). -/
def pulseOut (same : Bool) (s : State) : Nat :=
  if s.argCount = 0 then 0 else if same then pulseLin s else pulseLin s + s.argP1 - 1

/-- The source region (SRC, 16·M). -/
def pulseSrc (s : State) : Region := ⟨s.argSrc, 16 * s.argCount⟩

/-- The auxiliary region (AUX, 8·N). -/
def pulseAux (s : State) : Region := ⟨s.argAux, 8 * s.argP1⟩

/-- The destination region (DST, 16·OUT). -/
def pulseDst (same : Bool) (s : State) : Region := ⟨s.argDst, 16 * pulseOut same s⟩

/-- Checks 2 to 7 of R180. -/
def pulseChecks (same : Bool) (s : State) : List Check :=
  [ ⟨decide (s.argP0 ≠ 0), ⟨.param, 1, 0⟩⟩,
    ⟨decide (s.argP1 ≠ 0), ⟨.filterDesign, 1, 0⟩⟩,
    ⟨decide (s.argP1 ≤ s.params.maxTaps), ⟨.filterDesign, 3, s.argP1⟩⟩,
    alignCheck 1 8 (pulseSrc s),
    alignCheck 2 8 (pulseAux s),
    alignCheck 3 8 (pulseDst same s),
    boundsCheck 1 s.params.memBytes (pulseSrc s),
    boundsCheck 2 s.params.memBytes (pulseAux s),
    boundsCheck 3 s.params.memBytes (pulseDst same s),
    overlapCheck 1 (pulseDst same s) (pulseSrc s),
    overlapCheck 2 (pulseDst same s) (pulseAux s) ]

/-- xu[i], the zero-inserted sequence (R181). -/
def upsampled (s : State) (i : Nat) : Sample :=
  if i % s.argP0 = 0 then s.readSample (s.argSrc + 16 * (i / s.argP0)) else ⟨F64.zero, F64.zero⟩

/-- h[k], a tap of the kernel (R182). -/
def pulseTap (s : State) (k : Nat) : F64 := s.readF64 (s.argAux + 8 * k)

/-- ACC_n(term) over `taps` taps and an input of length `lin` (R184): ascending k from +0, each product rounded on its own,
the terms outside the input skipped. An infinite tap times a nonzero component is an infinity here, though R184's prose makes
every output that such a tap reaches a NaN: DEDUCED, unsafe (notes/assumptions/25.md). -/
def accumulate (lin taps n : Nat) (term : Nat → F64) : F64 :=
  (List.range taps).foldl
    (fun acc k => if k ≤ n ∧ n - k < lin then F64.add acc (term k) else acc) F64.zero

/-- yfull[n], the full linear convolution (R182). -/
def convFull (s : State) (n : Nat) : Sample :=
  ⟨accumulate (pulseLin s) s.argP1 n (fun k => F64.mul (upsampled s (n - k)).re (pulseTap s k)),
   accumulate (pulseLin s) s.argP1 n (fun k => F64.mul (upsampled s (n - k)).im (pulseTap s k))⟩

/-- out[n] (R182, R183): yfull[n], or with SAME = 1 yfull[n + (N-1) div 2]. -/
def pulseSample (same : Bool) (s : State) (n : Nat) : Sample :=
  if same then convFull s (n + (s.argP1 - 1) / 2) else convFull s n

/-- PULSE_SHAPE before it runs (R180). -/
def planPulseShape (same : Bool) (s : State) : Plan where
  early := pulseChecks same s
  dst := pulseDst same s
  late _ := []
  act s :=
    (s.writeSamples s.argDst ((List.range (pulseOut same s)).map (pulseSample same s))).succeed (pulseOut same s)

/-- PULSE_SHAPE (R180). -/
def execPulseShape (same : Bool) (s : State) : Host.Outcome State Fault Refusal :=
  .next ((planPulseShape same s).run s)

end Sys2Proof.Machine
end

