-- ==== Sys2Proof/Machine/SymbolMapper.lean ====
section
/-! DEFINITION. MAP_BPSK, MAP_QPSK and MAP_QAM16 (40_symbol_mapper.md). -/

namespace Sys2Proof.Machine

/-! ## Common part -/

/-- The source region (SRC, COUNT) of a mapper command (40_symbol_mapper.md R130). -/
def mapperSrc (s : State) : Region := ⟨s.argSrc, s.argCount⟩

/-- The destination region (DST, 16·NS), with NS = COUNT div k (R130). -/
def mapperDst (k : Nat) (s : State) : Region := ⟨s.argDst, 16 * (s.argCount / k)⟩

/-- Checks 2 to 5 of R131. -/
def mapperChecks (k : Nat) (s : State) : List Check :=
  [ ⟨decide (s.argCount % k = 0), ⟨.lengthMismatch, 1, s.argCount % k⟩⟩,
    alignCheck 3 8 (mapperDst k s),
    boundsCheck 1 s.params.memBytes (mapperSrc s),
    boundsCheck 3 s.params.memBytes (mapperDst k s),
    overlapCheck 1 (mapperDst k s) (mapperSrc s) ]

/-- The bit-validity scan (R132), in increasing index order. -/
def bitScan (s : State) : List Check :=
  (List.range s.argCount).map fun i => ⟨decide (s.readBit (s.argSrc + i) ≤ 1), ⟨.invalidSymbol, 1, i⟩⟩

/-- A mapper command of `k` bits per symbol whose symbol `j` is `symbol s j` (R131, R140). -/
def mapperPlan (k : Nat) (symbol : State → Nat → Sample) (s : State) : Plan where
  early := mapperChecks k s
  dst := mapperDst k s
  late := bitScan
  act s := (s.writeSamples s.argDst ((List.range (s.argCount / k)).map (symbol s))).succeed (s.argCount / k)

/-! ## MAP_BPSK -/

/-- The BPSK table (R133): bit 0 to -1, bit 1 to +1, with im = +0. -/
def bpskPoint (b0 : Nat) : Sample :=
  if b0 = 0 then ⟨0xBFF0000000000000, 0x0000000000000000⟩ else ⟨0x3FF0000000000000, 0x0000000000000000⟩

/-- Symbol `j` of MAP_BPSK (R133). -/
def bpskSymbol (s : State) (j : Nat) : Sample := bpskPoint (s.readBit (s.argSrc + j))

/-- MAP_BPSK before it runs (R133). -/
def planMapBpsk (s : State) : Plan := mapperPlan 1 bpskSymbol s

/-- MAP_BPSK (R133). -/
def execMapBpsk (s : State) : Host.Outcome State Fault Refusal := .next ((planMapBpsk s).run s)

/-! ## MAP_QPSK -/

/-- QPSK_SIGN(b0, b1) (R135): the signs of re and im. -/
def qpskSign (b0 b1 : Nat) : Int × Int :=
  match b0, b1 with
  | 0, 0 => (1, 1)
  | 0, _ => (-1, 1)
  | _, 0 => (1, -1)
  | _, _ => (-1, -1)

/-- `a` with the given sign (R134). -/
def signed (sign : Int) (a : F64) : F64 := if sign = 1 then a else F64.neg a

/-- The amplitude of a QPSK component (R134): the binary64 number nearest 1/√2 with NORM = 1, else 1. -/
def qpskAmplitude (norm : Bool) : F64 := if norm then 0x3FE6A09E667F3BCD else 0x3FF0000000000000

/-- The QPSK symbol of a bit pair (R134, R135). -/
def qpskPoint (norm : Bool) (b0 b1 : Nat) : Sample :=
  ⟨signed (qpskSign b0 b1).1 (qpskAmplitude norm), signed (qpskSign b0 b1).2 (qpskAmplitude norm)⟩

/-- Symbol `j` of MAP_QPSK (R134). -/
def qpskSymbol (norm : Bool) (s : State) (j : Nat) : Sample :=
  qpskPoint norm (s.readBit (s.argSrc + 2 * j)) (s.readBit (s.argSrc + 2 * j + 1))

/-- MAP_QPSK before it runs (R134). -/
def planMapQpsk (norm : Bool) (s : State) : Plan := mapperPlan 2 (qpskSymbol norm) s

/-- MAP_QPSK (R134). -/
def execMapQpsk (norm : Bool) (s : State) : Host.Outcome State Fault Refusal := .next ((planMapQpsk norm s).run s)

/-! ## MAP_QAM16 -/

/-- PAM4(x, y) (R137), the level of a bit pair. -/
def pam4 (x y : Nat) : Int :=
  match x, y with
  | 0, 0 => -3
  | 0, _ => -1
  | _, 0 => 3
  | _, _ => 1

/-- QAM16_VAL(L), the binary64 number nearest L/√10 (R137). -/
def qam16Val (level : Int) : F64 :=
  if level = -3 then 0xBFEE5B9D136C6D96
  else if level = -1 then 0xBFD43D136248490F
  else if level = 1 then 0x3FD43D136248490F
  else 0x3FEE5B9D136C6D96

/-- The 16-QAM symbol of four bits (R136). -/
def qam16Point (b0 b1 b2 b3 : Nat) : Sample := ⟨qam16Val (pam4 b0 b1), qam16Val (pam4 b2 b3)⟩

/-- Symbol `j` of MAP_QAM16 (R136). -/
def qam16Symbol (s : State) (j : Nat) : Sample :=
  qam16Point (s.readBit (s.argSrc + 4 * j)) (s.readBit (s.argSrc + 4 * j + 1))
    (s.readBit (s.argSrc + 4 * j + 2)) (s.readBit (s.argSrc + 4 * j + 3))

/-- MAP_QAM16 before it runs (R136). -/
def planMapQam16 (s : State) : Plan := mapperPlan 4 qam16Symbol s

/-- MAP_QAM16 (R136). -/
def execMapQam16 (s : State) : Host.Outcome State Fault Refusal := .next ((planMapQam16 s).run s)

end Sys2Proof.Machine
end

