-- ==== Sys2Proof/Machine/Dispatch.lean ====
section
/-! DEFINITION. The meaning of each command: one arm per constructor of Instr. -/

namespace Sys2Proof.Machine

/-- What ENGINE's step does with a decoded command (60_exceptions.md R260). -/
def exec (i : Instr) (s : State) : Host.Outcome State Fault Refusal :=
  match i with
  | .mapBpsk => Sys2Proof.Machine.execMapBpsk s
  | .mapQpsk norm => Sys2Proof.Machine.execMapQpsk norm s
  | .mapQam16 => Sys2Proof.Machine.execMapQam16 s
  | .firLowpass dcnorm => Sys2Proof.Machine.execFirLowpass dcnorm s
  | .firRcos => Sys2Proof.Machine.execFirRcos s
  | .pulseShape same => Sys2Proof.Machine.execPulseShape same s
  | .ofdmMod refset => Sys2Proof.Machine.execOfdmMod refset s
  | .chirp => Sys2Proof.Machine.execChirp s
  | .dacQuant ch fixed bits => Sys2Proof.Machine.execDacQuant ch fixed bits s

end Sys2Proof.Machine
end

