-- ==== Sys2Proof/Machine/Registers.lean ====
section
/-! DEFINITION. The register window (10_state.md R31 to R37, R50 to R55): its map, what a read of each register returns and
what a write of each does, but for CTRL, whose write starts a command or resets the block (Machine/Host.lean). -/

namespace Sys2Proof.Machine

/-- The registers of the map (10_state.md R33). -/
inductive Reg where
  | id | version | ctrl | status | cmd | errIdx | outLen | clampCnt
  | argSrc | argDst | argCount | argAux | argP0 | argP1 | argP2
  | argF0Lo | argF0Hi | argF1Lo | argF1Hi | argF2Lo | argF2Hi
  | resF0Lo | resF0Hi | resF1Lo | resF1Hi
  | memSize | caps
  deriving DecidableEq, Repr

/-- The registers and their offsets in the window (10_state.md R33). -/
def regMap : List (Nat × Reg) :=
  [ (0x000, .id), (0x004, .version), (0x008, .ctrl), (0x00C, .status), (0x010, .cmd), (0x014, .errIdx),
    (0x018, .outLen), (0x01C, .clampCnt), (0x020, .argSrc), (0x024, .argDst), (0x028, .argCount), (0x02C, .argAux),
    (0x030, .argP0), (0x034, .argP1), (0x038, .argP2), (0x040, .argF0Lo), (0x044, .argF0Hi), (0x048, .argF1Lo),
    (0x04C, .argF1Hi), (0x050, .argF2Lo), (0x054, .argF2Hi), (0x060, .resF0Lo), (0x064, .resF0Hi),
    (0x068, .resF1Lo), (0x06C, .resF1Hi), (0x080, .memSize), (0x084, .caps) ]

/-- The register at an offset, if one occupies it (10_state.md R33). -/
def regAt (offset : Nat) : Option Reg := (regMap.find? fun e => e.1 == offset).map Prod.snd

/-- CAPS (10_state.md R51). -/
def capsWord (p : Params) : Word :=
  BitVec.ofNat 32 (Nat.log2 p.maxFft % 2 ^ 5 + 2 ^ 8 * (Config.dacMaxBits % 2 ^ 5) + 2 ^ 16 * (p.maxTaps % 2 ^ 16))

/-- What a read of a register returns (10_state.md R32, R33). Reads change nothing. -/
def State.readReg (s : State) : Reg → Word
  | .id => 0x49514D31
  | .version => 0x00070001
  | .ctrl => ctrlWord s.irqEn
  | .status => s.status.word
  | .cmd => s.cmd
  | .errIdx => s.errIdx
  | .outLen => s.outLen
  | .clampCnt => s.clampCnt
  | .argSrc => s.args.src
  | .argDst => s.args.dst
  | .argCount => s.args.count
  | .argAux => s.args.aux
  | .argP0 => s.args.p0
  | .argP1 => s.args.p1
  | .argP2 => s.args.p2
  | .argF0Lo => s.args.f0.lo
  | .argF0Hi => s.args.f0.hi
  | .argF1Lo => s.args.f1.lo
  | .argF1Hi => s.args.f1.hi
  | .argF2Lo => s.args.f2.lo
  | .argF2Hi => s.args.f2.hi
  | .resF0Lo => s.resF0.lo
  | .resF0Hi => s.resF0.hi
  | .resF1Lo => s.resF1.lo
  | .resF1Hi => s.resF1.hi
  | .memSize => BitVec.ofNat 32 s.params.memBytes
  | .caps => capsWord s.params

/-- What a read of the window at an offset returns: 0 where no register is (10_state.md R31). -/
def State.readWindow (s : State) (offset : Nat) : Word :=
  match regAt offset with
  | some r => s.readReg r
  | none => 0

/-- The operand registers with some of them changed. -/
def State.setArgs (s : State) (f : Args → Args) : State := { s with args := f s.args }

/-- A write of a register other than CTRL (10_state.md R32, R34): STATUS is write-1-to-clear, CMD and the operand registers
take the word, and a read-only register ignores it. -/
def State.writeReg (s : State) (r : Reg) (w : Word) : State :=
  match r with
  | .status => { s with status := s.status.w1c w }
  | .cmd => { s with cmd := w }
  | .argSrc => s.setArgs fun a => { a with src := w }
  | .argDst => s.setArgs fun a => { a with dst := w }
  | .argCount => s.setArgs fun a => { a with count := w }
  | .argAux => s.setArgs fun a => { a with aux := w }
  | .argP0 => s.setArgs fun a => { a with p0 := w }
  | .argP1 => s.setArgs fun a => { a with p1 := w }
  | .argP2 => s.setArgs fun a => { a with p2 := w }
  | .argF0Lo => s.setArgs fun a => { a with f0 := ⟨w, a.f0.hi⟩ }
  | .argF0Hi => s.setArgs fun a => { a with f0 := ⟨a.f0.lo, w⟩ }
  | .argF1Lo => s.setArgs fun a => { a with f1 := ⟨w, a.f1.hi⟩ }
  | .argF1Hi => s.setArgs fun a => { a with f1 := ⟨a.f1.lo, w⟩ }
  | .argF2Lo => s.setArgs fun a => { a with f2 := ⟨w, a.f2.hi⟩ }
  | .argF2Hi => s.setArgs fun a => { a with f2 := ⟨a.f2.lo, w⟩ }
  | .id | .version | .ctrl | .errIdx | .outLen | .clampCnt => s
  | .resF0Lo | .resF0Hi | .resF1Lo | .resF1Hi | .memSize | .caps => s

end Sys2Proof.Machine
end

