-- ==== Sys2Proof/Machine/Host.lean ====
section
/-! DEFINITION. The host's side: START (60_exceptions.md R261, R262), the two resets (70_reset_and_hazards.md R290 to R293),
the writes of CTRL (10_state.md R39), and the accesses to both windows (20_memory.md R79, R80). -/

namespace Sys2Proof.Machine

/-! ## START -/

/-- The copies an accepted START latches (10_state.md R58, 60_exceptions.md R261). -/
def State.latch (s : State) : Latched :=
  ⟨s.cmd, s.args.src, s.args.dst, s.args.count, s.args.aux, s.args.p0, s.args.p1, s.args.p2,
   s.args.f0.value, s.args.f1.value, s.args.f2.value⟩

/-- START (60_exceptions.md R261, R262): accepted when BUSY = 0; while BUSY = 1 it only sets MISSED. -/
def State.start (s : State) : State :=
  if s.status.busy then { s with status := s.status.startMissed }
  else
    { s with
      latched := s.latch
      status := s.status.started
      errIdx := 0
      outLen := 0
      clampCnt := 0
      resF0 := Pair.zero
      resF1 := Pair.zero }

/-! ## Held accesses -/

/-- A sample-memory access takes effect (20_memory.md R79, R81): a read returns its bytes, a write stores them, little-endian. -/
def State.memEffect (s : State) : MemAccess → State
  | .read a n => { s with replies := s.replies ++ [BitVec.ofNat 64 (s.memRead a n)] }
  | .write a n v => s.memWrite a n v.toNat

/-- The accesses take effect, oldest first. -/
def State.memEffects (s : State) (l : List MemAccess) : State := l.foldl State.memEffect s

/-- BUSY is 0 again: every held access takes effect (20_memory.md R80). -/
def State.release (s : State) : State := State.memEffects { s with held := [] } s.held

/-! ## Resets -/

/-- Every register at its value of 10_state.md R63 and the engine state IDLE; the sample memory is not touched. The latched
command and the frame buffer, unspecified there, take the values of State.reset: DESIGN CHOICE, unsafe
(notes/assumptions/8.md). -/
def State.resetRegisters (s : State) : State :=
  { s with
    irqEn := State.reset.irqEn
    status := State.reset.status
    cmd := State.reset.cmd
    errIdx := State.reset.errIdx
    outLen := State.reset.outLen
    clampCnt := State.reset.clampCnt
    args := State.reset.args
    resF0 := State.reset.resF0
    resF1 := State.reset.resF1
    latched := State.reset.latched
    frame := State.reset.frame }

/-- A command as its arm of exec runs it: its checks and its destination region. -/
def planOf (i : Instr) (s : State) : Plan :=
  match i with
  | .mapBpsk => planMapBpsk s
  | .mapQpsk norm => planMapQpsk norm s
  | .mapQam16 => planMapQam16 s
  | .firLowpass dcnorm => planFirLowpass dcnorm s
  | .firRcos => planFirRcos s
  | .pulseShape same => planPulseShape same s
  | .ofdmMod refset => planOfdmMod refset s
  | .chirp => planChirp s
  | .dacQuant ch fixed bits => planDacQuant ch fixed bits s

/-- The bytes a soft reset during BUSY leaves unspecified (70_reset_and_hazards.md R293): the destination region of the
latched command, or none where its word is illegal or its operands or regions fail a check. -/
def State.abandonedRegion (s : State) : Region :=
  match decode s.latched.cmd with
  | .illegal _ _ => ⟨0, 0⟩
  | .command i =>
    match firstFailure (planOf i s).early with
    | some _ => ⟨0, 0⟩
    | none => (planOf i s).dst

/-- The latched command is abandoned: each byte of its destination region is set to a free value
(70_reset_and_hazards.md R293). -/
def State.abandon (s : State) : State :=
  { s with
    mem := Memory.fill (Config.abandonedByte s.abandons) s.mem s.abandonedRegion.base s.abandonedRegion.len
    abandons := s.abandons + 1 }

/-- The soft reset (70_reset_and_hazards.md R292). -/
def State.softReset (s : State) : State :=
  (if s.status.busy then s.abandon else s).resetRegisters.release

/-- The power-on reset (70_reset_and_hazards.md R291): the registers as after reset, and every byte of the sample memory
unspecified again. -/
def State.powerOnReset (s : State) : State :=
  State.release { s.resetRegisters with mem := State.reset.mem, powerOns := s.powerOns + 1 }

/-! ## Register accesses -/

/-- A write of CTRL (10_state.md R39): a soft reset first, and alone; otherwise IRQ_EN, and then START. -/
def State.writeCtrl (s : State) (w : Word) : State :=
  if w.getLsbD 1 then s.softReset
  else if w.getLsbD 0 then State.start { s with irqEn := w.getLsbD 2 }
  else { s with irqEn := w.getLsbD 2 }

/-- A write of the register window at an offset (10_state.md R31, R34): nothing happens where no register is. -/
def State.writeWindow (s : State) (offset : Nat) (w : Word) : State :=
  match regAt offset with
  | some .ctrl => s.writeCtrl w
  | some r => s.writeReg r w
  | none => s

/-- A register-window access the host can make: 32 bits, aligned, within the window (10_state.md R31). -/
def regAccessOk (offset bytes : Nat) : Bool :=
  decide (bytes = 4) && decide (offset % 4 = 0) && decide (offset < Config.regWindowBytes)

/-- A register-window access (10_state.md R31, R33). -/
def State.regAccess (s : State) : RegAccess → Host.Outcome State Fault Refusal
  | .read off n =>
    if regAccessOk off n then .next { s with replies := s.replies ++ [(s.readWindow off).setWidth 64] }
    else .refused (.registerAccess off n)
  | .write off n w => if regAccessOk off n then .next (s.writeWindow off w) else .refused (.registerAccess off n)

/-! ## Sample-memory accesses -/

/-- The offset and width of an access. -/
def MemAccess.span : MemAccess → Nat × Nat
  | .read a n => (a, n)
  | .write a n _ => (a, n)

/-- A sample-memory access the host can make: 1, 2, 4 or 8 bytes, naturally aligned, wholly below MEM_BYTES
(20_memory.md R79). -/
def memAccessOk (memBytes offset bytes : Nat) : Bool :=
  [1, 2, 4, 8].contains bytes && decide (offset % bytes = 0) && decide (offset + bytes ≤ memBytes)

/-- A sample-memory access (20_memory.md R79, R80): held while BUSY = 1, otherwise performed. -/
def State.memAccess (s : State) (a : MemAccess) : Host.Outcome State Fault Refusal :=
  if memAccessOk s.params.memBytes a.span.1 a.span.2 then
    (if s.status.busy then .next { s with held := s.held ++ [a] } else .next (s.memEffect a))
  else .refused (.memoryAccess a.span.1 a.span.2)

/-! ## Host addresses -/

/-- The host address lies in the register window (20_memory.md R83). -/
def inRegWindow (p : Params) (addr : Nat) : Bool :=
  decide (p.hostRegBase ≤ addr) && decide (addr < p.hostRegBase + Config.regWindowBytes)

/-- The host address lies in the sample-memory window (20_memory.md R71, R83). -/
def inMemWindow (p : Params) (addr : Nat) : Bool :=
  decide (p.hostMemBase ≤ addr) && decide (addr < p.hostMemBase + p.memBytes)

/-- A read at a host address, of the window the address lies in (20_memory.md R71, R83). -/
def State.busRead (s : State) (addr n : Nat) : Host.Outcome State Fault Refusal :=
  if inRegWindow s.params addr then s.regAccess (.read (addr - s.params.hostRegBase) n)
  else if inMemWindow s.params addr then s.memAccess (.read (addr - s.params.hostMemBase) n)
  else .fault (.noSuchAddress addr)

/-- A write at a host address, of the window the address lies in (20_memory.md R71, R83). -/
def State.busWrite (s : State) (addr n : Nat) (v : BitVec 64) : Host.Outcome State Fault Refusal :=
  if inRegWindow s.params addr then s.regAccess (.write (addr - s.params.hostRegBase) n (v.setWidth 32))
  else if inMemWindow s.params addr then s.memAccess (.write (addr - s.params.hostMemBase) n v)
  else .fault (.noSuchAddress addr)

/-- One poll of WAIT (30_encoding.md R114): RD32 STATUS, and, while DONE = 0, ENGINE moves before the next poll. -/
def State.poll (s : State) : State :=
  { s with
    replies := s.replies ++ [s.status.word.setWidth 64]
    inputs := if s.status.done then s.inputs else .engine :: .wait :: s.inputs }

end Sys2Proof.Machine
end

