-- ==== Sys2Proof/Machine/Engine.lean ====
section
/-! DEFINITION. ENGINE's step (60_exceptions.md R260), and which agent moves next. -/

namespace Sys2Proof.Machine

/-- ILLEGAL_CMD(sub, idx) (30_encoding.md R105, R110). -/
def illegalCommand (sub idx : Nat) : Raise := ⟨.illegalCmd, sub, idx⟩

/-- The command part of ENGINE's step: the latched word is decoded and its rule runs (60_exceptions.md R260). -/
def State.runLatched (s : State) : Host.Outcome State Fault Refusal :=
  match decode s.latched.cmd with
  | .command i => exec i s
  | .illegal sub idx => .next (s.fail (illegalCommand sub idx))

/-- The accesses held while BUSY = 1 take effect after the step (60_exceptions.md R260, 20_memory.md R80). -/
def releaseAfter : Host.Outcome State Fault Refusal → Host.Outcome State Fault Refusal
  | .next s => .next s.release
  | .fault r => .fault r
  | .refused r => .refused r

/-- ENGINE's step (60_exceptions.md R260); an IDLE engine has none. -/
def State.engineStep (s : State) : Host.Outcome State Fault Refusal :=
  if s.status.busy then releaseAfter s.runLatched else .next s

/-- The host must wait before its next access: it issues in order, and an access of its is held (20_memory.md R80). -/
def State.hostStalled (s : State) : Bool := s.status.busy && !s.held.isEmpty && !s.params.hostOverlap

/-- The input comes from the host, which waits where an earlier access of its is held. -/
def Input.fromHost : Input → Bool
  | .reg _ | .mem _ | .busRead _ _ | .busWrite _ _ _ | .wait => true
  | .engine | .powerOn => false

/-- The effect of the next input, which is already taken off the list. -/
def State.takeInput (s : State) : Input → Host.Outcome State Fault Refusal
  | .reg a => s.regAccess a
  | .mem a => s.memAccess a
  | .busRead addr n => s.busRead addr n
  | .busWrite addr n v => s.busWrite addr n v
  | .engine => s.engineStep
  | .wait => .next s.poll
  | .powerOn => .next s.powerOnReset

/-- One step of the block (60_exceptions.md R273: one total order of host accesses and ENGINE steps). With nothing else to
happen, or the host stalled, ENGINE moves (70_reset_and_hazards.md R296, R303). -/
def State.advance (s : State) : Host.Outcome State Fault Refusal :=
  match s.inputs with
  | [] => s.engineStep
  | x :: rest => if s.hostStalled && x.fromHost then s.engineStep else State.takeInput { s with inputs := rest } x

end Sys2Proof.Machine
end

