-- ==== Sys2Proof/Machine/Step.lean ====
section
/-! DEFINITION. The step function, and how a command word is placed where the next step runs it. -/

namespace Sys2Proof.Machine

/-- One step of IQ-CORE (Machine/Engine.lean). -/
def step (s : State) : Host.Outcome State Fault Refusal := s.advance

/-- The state right after an accepted START of the command word `w` (60_exceptions.md R261), with ENGINE to move next: the
word in LCMD, BUSY set, and no host access before ENGINE's step. The block fetches nothing (10_state.md R57): a program is
the host's accesses, and comes from outside (notes/assumptions/1.md). A command word has 32 bits (30_encoding.md R111). -/
def State.withFetchWord (s : State) (nbits w : Nat) : State :=
  { s with
    latched := { s.latched with cmd := BitVec.ofNat 32 (w % 2 ^ nbits) }
    status := { s.status with busy := true }
    inputs := [] }

end Sys2Proof.Machine
end

