-- ==== Sys2Proof/Machine/Program.lean ====
section
/-! DEFINITION. The assembler syntax of host programs: the written forms of the commands (30_encoding.md R112), the host's
primitive actions (R113) and the pseudo-instructions with their expansions (R114). A program is the list of inputs it
expands to. -/

namespace Sys2Proof.Machine

/-- The written form of a command; the bit depth of DAC is written apart, as `bits=` (30_encoding.md R112). -/
def writtenForm : Instr → String
  | .mapBpsk => "MAP.BPSK"
  | .mapQpsk false => "MAP.QPSK"
  | .mapQpsk true => "MAP.QPSK.NORM"
  | .mapQam16 => "MAP.QAM16"
  | .firLowpass false => "FIR.LP"
  | .firLowpass true => "FIR.LP.DCNORM"
  | .firRcos => "FIR.RC"
  | .pulseShape false => "PSHAPE.FULL"
  | .pulseShape true => "PSHAPE.SAME"
  | .ofdmMod false => "OFDM"
  | .ofdmMod true => "OFDM.REF"
  | .chirp => "CHIRP"
  | .dacQuant false false _ => "DAC.MM.I"
  | .dacQuant true false _ => "DAC.MM.Q"
  | .dacQuant false true _ => "DAC.FX.I"
  | .dacQuant true true _ => "DAC.FX.Q"

/-- The command a written form and a `bits=` value stand for, if the form is one (30_encoding.md R112). -/
def readForm (form : String) (bits : Nat) : Option Instr :=
  [ .mapBpsk, .mapQpsk false, .mapQpsk true, .mapQam16, .firLowpass false, .firLowpass true, .firRcos,
    .pulseShape false, .pulseShape true, .ofdmMod false, .ofdmMod true, .chirp, .dacQuant false false bits,
    .dacQuant true false bits, .dacQuant false true bits, .dacQuant true true bits ].find?
    fun i => writtenForm i == form

/-- The offset of a register (10_state.md R33). -/
def regOffset (r : Reg) : Nat := ((regMap.find? fun e => decide (e.2 = r)).map Prod.fst).getD 0

/-- `WR32 REG, v` (30_encoding.md R113). -/
def wr32 (r : Reg) (v : Word) : Input := .reg (.write (regOffset r) 4 v)

/-- `RD32 REG` (R113). -/
def rd32 (r : Reg) : Input := .reg (.read (regOffset r) 4)

/-- `WRM8 a, v` to `WRM64 a, v`: a write of 1, 2, 4 or 8 bytes (R113). -/
def wrm (bytes a : Nat) (v : BitVec 64) : Input := .mem (.write a bytes v)

/-- `RDM8 a` to `RDM64 a` (R113). -/
def rdm (bytes a : Nat) : Input := .mem (.read a bytes)

/-- The operands given on a command line; one left out is not written (R114). -/
structure LineOperands where
  src : Option Word := none
  dst : Option Word := none
  count : Option Word := none
  aux : Option Word := none
  p0 : Option Word := none
  p1 : Option Word := none
  p2 : Option Word := none
  f0 : Option F64 := none
  f1 : Option F64 := none
  f2 : Option F64 := none
  deriving DecidableEq, Repr

/-- The write of one integer operand, if it is given (R114). -/
def intOperand (r : Reg) : Option Word → List Input
  | some v => [wr32 r v]
  | none => []

/-- The writes of one f64 operand, the low half first, if it is given (R114). -/
def floatOperand (lo hi : Reg) : Option F64 → List Input
  | some v => [wr32 lo (v.extractLsb' 0 32), wr32 hi (v.extractLsb' 32 32)]
  | none => []

/-- The expansion of a command line (R114); `ie` is the IRQ_EN value the program last wrote. -/
def commandLine (i : Instr) (o : LineOperands) (ie : Bool) : List Input :=
  intOperand .argSrc o.src ++ intOperand .argDst o.dst ++ intOperand .argCount o.count ++ intOperand .argAux o.aux
    ++ intOperand .argP0 o.p0 ++ intOperand .argP1 o.p1 ++ intOperand .argP2 o.p2
    ++ floatOperand .argF0Lo .argF0Hi o.f0 ++ floatOperand .argF1Lo .argF1Hi o.f1 ++ floatOperand .argF2Lo .argF2Hi o.f2
    ++ [wr32 .cmd (encode i), wr32 .ctrl (BitVec.ofNat 32 (4 * bitOf ie + 1))]

/-- `WAIT` (R114). -/
def waitLine : List Input := [.wait]

/-- `CLEAR` (R114): clears DONE, ERR and MISSED. -/
def clearLine : List Input := [wr32 .status 0x0000000E]

/-- `FILL a, b0, b1, ...` (R114). -/
def fillLine : Nat → List Byte → List Input
  | _, [] => []
  | a, b :: bs => wrm 1 a (b.setWidth 64) :: fillLine (a + 1) bs

end Sys2Proof.Machine
end

