-- ==== Sys2Proof/Safety.lean ====
section
/-! DEFINITION. What counts as a good state and a good run, in the terms the statements use: the invariant every step keeps,
how a command ends, what it leaves alone, and the spec's formulas written out apart from the machine. -/

namespace Sys2Proof.Machine

/-! ## The invariant -/

/-- The (ERRCODE, ERRSUB) pairs of 60_exceptions.md R264, and (0, 0) for no error. -/
def reportPairs : List (Nat × Nat) :=
  [(0x00, 0), (0x01, 1), (0x02, 1), (0x03, 1), (0x03, 2), (0x03, 3), (0x03, 4), (0x03, 5), (0x03, 6), (0x03, 7),
   (0x03, 8), (0x03, 9), (0x04, 1), (0x04, 2), (0x04, 3), (0x04, 4), (0x04, 5), (0x04, 6), (0x04, 7), (0x05, 1),
   (0x05, 2), (0x10, 1), (0x10, 2), (0x11, 1), (0x11, 2), (0x11, 3), (0x11, 4), (0x11, 5), (0x11, 6), (0x11, 7),
   (0x12, 1), (0x12, 2), (0x12, 3), (0x13, 1), (0x13, 2), (0x13, 3), (0x14, 1), (0x14, 2)]

/-- The registers a START clears are clear (60_exceptions.md R261). -/
def State.reportClear (s : State) : Prop :=
  s.status.done = false ∧ s.status.err = false ∧ s.status.errCode = 0 ∧ s.status.errSub = 0 ∧ s.status.errOp = 0 ∧
    s.errIdx = 0 ∧ s.outLen = 0 ∧ s.clampCnt = 0 ∧ s.resF0 = Pair.zero ∧ s.resF1 = Pair.zero

/-- The invariant: the memory is in its canonical form, an access is held only while BUSY = 1 (20_memory.md R80), a running
command's report is clear (60_exceptions.md R261), no pair outside R264 is ever in STATUS, ERR = 1 only with an error code,
and the frame buffer holds at most MAX_FFT samples (10_state.md R60). -/
def State.Inv (s : State) : Prop :=
  Memory.wf s.mem = true ∧
  (s.status.busy = false → s.held = []) ∧
  (s.status.busy = true → s.reportClear) ∧
  (s.status.errCode.toNat, s.status.errSub.toNat) ∈ reportPairs ∧
  (s.status.err = true → s.status.errCode ≠ 0) ∧
  s.frame.length ≤ s.params.maxFft

/-! ## How a command ends -/

/-- Outside [base, base + len) every byte of the sample memory reads as before. -/
def BytesKeptOutside (s t : State) (base len : Nat) : Prop :=
  ∀ a, a < base ∨ base + len ≤ a → t.readByte a = s.readByte a

/-- Every byte of the sample memory reads as before. -/
def BytesKept (s t : State) : Prop := ∀ a, t.readByte a = s.readByte a

/-- A host access of the sample memory takes effect (20_memory.md R79, R94): a read returns the bytes from its offset,
little-endian, and a write stores its bytes and no other. -/
def AccessDone (s : State) : MemAccess → State → Prop
  | .read a n, t => t = { s with replies := s.replies ++ [BitVec.ofNat 64 (s.memRead a n)] }
  | .write a n v, t => t = { s with mem := t.mem } ∧ BytesKeptOutside s t a n ∧
      ∀ k < n, t.readByte (a + k) = BitVec.ofNat 8 (v.toNat / 2 ^ (8 * k))

/-- The accesses take effect one after another, in the order listed (20_memory.md R80, R87). -/
def AccessesDone : State → List MemAccess → State → Prop
  | s, [], t => t = s
  | s, m :: rest, t => ∃ u, AccessDone s m u ∧ AccessesDone u rest t

/-- What no command changes: the parameters, IRQ_EN, CMD, the operand registers, the latched command, MISSED, and the host's
side (10_state.md R41, R53, R54, R58, R64). -/
def CommandKeeps (s t : State) : Prop :=
  t.params = s.params ∧ t.irqEn = s.irqEn ∧ t.cmd = s.cmd ∧ t.args = s.args ∧ t.latched = s.latched ∧
    t.status.missed = s.status.missed ∧ t.powerOns = s.powerOns ∧ t.abandons = s.abandons ∧ t.inputs = s.inputs ∧
    t.held = s.held ∧ t.replies = s.replies

/-- The command has completed without error and written `n` elements (60_exceptions.md R269): BUSY and ERR are 0, DONE is 1,
OUTLEN is `n`, and the error fields, ERRIDX, CLAMPCNT and everything `CommandKeeps` names are as they were. -/
def EndsWell (s t : State) (n : Nat) : Prop :=
  CommandKeeps s t ∧ t.status.busy = false ∧ t.status.done = true ∧ t.status.err = false ∧
    t.status.errCode = s.status.errCode ∧ t.status.errSub = s.status.errSub ∧ t.status.errOp = s.status.errOp ∧
    t.errIdx = s.errIdx ∧ t.clampCnt = s.clampCnt ∧ t.outLen = BitVec.ofNat 32 n

/-- RES_F0 and RES_F1 are as they were. -/
def ResultsKept (s t : State) : Prop := t.resF0 = s.resF0 ∧ t.resF1 = s.resF1

/-- The error completion of 60_exceptions.md R266, with ERRCODE, ERRSUB and ERRIDX: nothing is written to memory, and no
other register changes. -/
def EndsBadly (s t : State) (code sub idx : Nat) : Prop :=
  CommandKeeps s t ∧ BytesKept s t ∧ t.frame = s.frame ∧
    t.status.busy = false ∧ t.status.done = true ∧ t.status.err = true ∧
    t.status.errCode.toNat = code ∧ t.status.errSub.toNat = sub ∧
    t.status.errOp.toNat = s.latched.cmd.toNat % 256 ∧ t.errIdx.toNat = idx % 2 ^ 32 ∧
    t.outLen = 0 ∧ t.clampCnt = 0 ∧ t.resF0 = Pair.zero ∧ t.resF1 = Pair.zero

/-! ## Sources -/

/-- The byte at `a` lies in a source region of the command (30_encoding.md R107, 43_ofdm.md R200). -/
def IsSource (i : Instr) (s : State) (a : Nat) : Prop :=
  match i with
  | .mapBpsk | .mapQpsk _ | .mapQam16 => s.argSrc ≤ a ∧ a < s.argSrc + s.argCount
  | .firLowpass _ | .firRcos | .chirp => False
  | .pulseShape _ =>
    (s.argSrc ≤ a ∧ a < s.argSrc + 16 * s.argCount) ∨ (s.argAux ≤ a ∧ a < s.argAux + 8 * s.argP1)
  | .ofdmMod refset =>
    (s.argSrc ≤ a ∧ a < s.argSrc + 16 * s.argCount) ∨ (refset = false ∧ s.argAux ≤ a ∧ a < s.argAux + 2 * s.argP2)
  | .dacQuant _ _ _ => s.argSrc ≤ a ∧ a < s.argSrc + 16 * s.argCount

/-- A host input that the spec gives a meaning (10_state.md R31, 20_memory.md R79, R83). -/
def inputOk (p : Params) : Input → Bool
  | .reg (.read off n) => regAccessOk off n
  | .reg (.write off n _) => regAccessOk off n
  | .mem a => memAccessOk p.memBytes a.span.1 a.span.2
  | .busRead addr n | .busWrite addr n _ =>
    if inRegWindow p addr then regAccessOk (addr - p.hostRegBase) n
    else inMemWindow p addr && memAccessOk p.memBytes (addr - p.hostMemBase) n
  | .engine | .wait | .powerOn => true

/-! ## The spec's formulas -/

/-- The sinc of 00_scope.md R22. -/
def specSinc (tol : ℚ) (x : F64) : F64 :=
  if F64.val x = 0 ∧ F64.isFinite x = true then 0x3FF0000000000000
  else F64.div (numSinPi tol x) (F64.mul 0x400921FB54442D18 x)

/-- h[n] of 41_filter_design.md R152 and R153. -/
def specLowpassTap (tol : ℚ) (N : Nat) (c : F64) (n : Nat) : F64 :=
  let d : Int := n - ((N : Int) - 1) / 2
  let hd := F64.mul c (specSinc tol (F64.mul c (F64.ofInt d)))
  let w := if N = 1 then 0x3FF0000000000000
    else F64.add 0x3FE147AE147AE148
      (F64.mul 0x3FDD70A3D70A3D71 (numCosPi tol (F64.div (F64.ofInt (2 * |d|)) (F64.ofInt (N - 1)))))
  F64.mul hd w

/-- The sum of f 0 to f (n - 1), from +0 in ascending order (41_filter_design.md R154, R159). -/
def specSum (f : Nat → F64) : Nat → F64
  | 0 => 0x0000000000000000
  | n + 1 => F64.add (specSum f n) (f n)

/-- raw[n] of 41_filter_design.md R157 and R158. -/
def specRcosRaw (tol : ℚ) (eps beta : F64) (S L n : Nat) : F64 :=
  let a := F64.div (F64.ofInt |2 * (n : Int) - L * S|) (F64.ofInt (2 * S))
  let cb := numCosPi tol (F64.mul beta a)
  let u := F64.mul (F64.mul 0x4000000000000000 beta) a
  let den := F64.sub 0x3FF0000000000000 (F64.mul u u)
  if F64.lt (F64.abs den) eps then
    F64.mul 0x3FE921FB54442D18 (specSinc tol (F64.div 0x3FF0000000000000 (F64.mul 0x4000000000000000 beta)))
  else F64.div (F64.mul (specSinc tol a) cb) den

/-- xu[i] of 42_pulse_shaper.md R181: symbol i div S at the first position of its block of S, zero elsewhere. -/
def specUpsampled (s : State) (i : Nat) : Sample :=
  if i % s.argP0 = 0 then s.readSample (s.argSrc + 16 * (i / s.argP0)) else ⟨0x0000000000000000, 0x0000000000000000⟩

/-- ACC_n over the first `k` taps (42_pulse_shaper.md R184), of the channel `part` of xu. -/
def specAcc (s : State) (part : Sample → F64) (n : Nat) : Nat → F64
  | 0 => 0x0000000000000000
  | k + 1 =>
    if k ≤ n ∧ n < s.argCount * s.argP0 + k then
      F64.add (specAcc s part n k)
        (F64.mul (part (specUpsampled s (n - k))) (s.readF64 (s.argAux + 8 * k)))
    else specAcc s part n k

/-- yfull[n] of 42_pulse_shaper.md R182. -/
def specConv (s : State) (n : Nat) : Sample := ⟨specAcc s Sample.re n s.argP1, specAcc s Sample.im n s.argP1⟩

/-- ACT[j] of 43_ofdm.md R202 and R203. -/
def specActive (refset : Bool) (s : State) (j : Nat) : Nat :=
  if refset then (if j < 26 then j + 1 else j + 12) else s.readU16 (s.argAux + 2 * j)

/-- `X` is the frame of OFDM symbol `b` (43_ofdm.md R204): NFFT samples, symbol j of the block at ACT[j], zero elsewhere. -/
def IsFrame (refset : Bool) (s : State) (nact b : Nat) (X : List Sample) : Prop :=
  X.length = s.argP0 ∧
  (∀ j < nact, X[specActive refset s j]? = some (s.readSample (s.argSrc + 16 * (b * nact + j)))) ∧
  (∀ k < s.argP0, (∀ j < nact, specActive refset s j ≠ k) → X[k]? = some ⟨0x0000000000000000, 0x0000000000000000⟩)

/-- NACT of 43_ofdm.md R200 and R201. -/
def specNact (refset : Bool) (s : State) : Nat := if refset then 52 else s.argP2

/-- `c` is rne(q) (00_scope.md R18): the integer nearest the rational `q`, the even one of two. -/
def IsRne (q : ℚ) (c : Nat) : Prop := |(c : ℚ) - q| ≤ 1 / 2 ∧ (|(c : ℚ) - q| = 1 / 2 → c % 2 = 0)

/-- v_i of 45_dac.md R236. -/
def specChannel (ch : Bool) (s : State) (i : Nat) : F64 := s.readF64 (s.argSrc + 16 * i + if ch then 8 else 0)

/-- `r` is the binary64 number nearest the rational `q`, ties to even, ∞ past the largest (00_scope.md R16). -/
def RoundsTo (q : ℚ) (r : F64) : Prop :=
  if |q| < 2 ^ 1024 - 2 ^ 970 then
    F64.isFinite r = true ∧
      ∀ z : F64, F64.isFinite z = true →
        |F64.val r - q| ≤ |F64.val z - q| ∧
          (|F64.val r - q| = |F64.val z - q| → F64.val z ≠ F64.val r → r.toNat % 2 = 0)
  else r = F64.inf (decide (q < 0))

/-! ## The checks of a command, as what it reports -/

/-- What a failing check reports: ERRCODE, ERRSUB and the index before it is taken modulo 2^32 (60_exceptions.md R264). -/
abbrev Report := Nat × Nat × Nat

/-- The two regions share no byte, or one of them is empty (20_memory.md R77, R78). -/
abbrev Apart (b1 l1 b2 l2 : Nat) : Prop := l1 = 0 ∨ l2 = 0 ∨ b1 + l1 ≤ b2 ∨ b2 + l2 ≤ b1

/-- The alignment checks in order, then the bounds checks in order (60_exceptions.md R265, 3 and 4; 20_memory.md R75 to
R77). Each region is (subcode, alignment, base, length). -/
def regionReport (memBytes : Nat) (rs : List (Nat × Nat × Nat × Nat)) : Option Report :=
  match rs.find? (fun r => decide (r.2.2.2 ≠ 0 ∧ r.2.2.1 % r.2.1 ≠ 0)) with
  | some r => some (0x13, r.1, r.2.2.1)
  | none =>
    match rs.find? (fun r => decide (r.2.2.2 ≠ 0 ∧ memBytes < r.2.2.1 + r.2.2.2)) with
    | some r => some (0x12, r.1, r.2.2.1)
    | none => none

/-- The overlap checks of a destination with its source regions, each (subcode, base, length), in order (60_exceptions.md
R265, 5). -/
def overlapReport (dst len : Nat) (rs : List (Nat × Nat × Nat)) : Option Report :=
  (rs.find? fun r => decide (¬ Apart dst len r.2.1 r.2.2)).map fun r => (0x14, r.1, dst)

/-- The checks of a mapper command with k bits per symbol (40_symbol_mapper.md R131, R132). -/
def mapperReport (k : Nat) (s : State) : Option Report :=
  if s.argCount % k ≠ 0 then some (0x01, 1, s.argCount % k)
  else
    (regionReport s.params.memBytes [(1, 1, s.argSrc, s.argCount), (3, 8, s.argDst, 16 * (s.argCount / k))]).or
      ((overlapReport s.argDst (16 * (s.argCount / k)) [(1, s.argSrc, s.argCount)]).or
        (((List.range s.argCount).find? fun i => decide (1 < s.readBit (s.argSrc + i))).map fun i => (0x02, 1, i)))

/-- The checks of FIR_LOWPASS (41_filter_design.md R151, R154). A NaN pattern has no value between 0 and 1. -/
def lowpassReport (dcnorm : Bool) (s : State) : Option Report :=
  if s.argP1 = 0 then some (0x03, 1, 0)
  else if s.argP1 % 2 = 0 then some (0x03, 2, s.argP1)
  else if s.params.maxTaps < s.argP1 then some (0x03, 3, s.argP1)
  else if ¬ (0 < F64.val s.latched.f0 ∧ F64.val s.latched.f0 < 1) then some (0x03, 4, 0)
  else
    (regionReport s.params.memBytes [(3, 8, s.argDst, 8 * s.argP1)]).or
      (if dcnorm = true ∧
          F64.lt F64.zero (specSum (specLowpassTap s.params.trigTol s.argP1 s.latched.f0) s.argP1) = false
        then some (0x03, 5, 0) else none)

/-- raw[n] of the latched command. -/
def specRcosLatched (s : State) (n : Nat) : F64 :=
  specRcosRaw s.params.trigTol s.params.rcEps s.latched.f0 s.argP0 s.argP1 n

/-- E of 41_filter_design.md R159, of the latched command. -/
def specRcosEnergy (s : State) : F64 :=
  specSum (fun n => F64.mul (specRcosLatched s n) (specRcosLatched s n)) (s.argP1 * s.argP0 + 1)

/-- The checks of FIR_RCOS (41_filter_design.md R156, R159). -/
def rcosReport (s : State) : Option Report :=
  if ¬ (0 ≤ F64.val s.latched.f0 ∧ F64.val s.latched.f0 ≤ 1) then some (0x03, 6, 0)
  else if s.argP1 = 0 then some (0x03, 7, 0)
  else if s.argP0 = 0 then some (0x03, 8, 0)
  else if s.params.maxTaps < s.argP1 * s.argP0 + 1 then some (0x03, 3, s.argP1 * s.argP0 + 1)
  else
    (regionReport s.params.memBytes [(3, 8, s.argDst, 8 * (s.argP1 * s.argP0 + 1))]).or
      (if F64.lt F64.zero (specRcosEnergy s) = true ∧ F64.isFinite (specRcosEnergy s) = true then none
        else some (0x03, 9, 0))

/-- OUT of 42_pulse_shaper.md R180. -/
def specPulseOut (same : Bool) (s : State) : Nat :=
  if s.argCount = 0 then 0 else if same then s.argCount * s.argP0 else s.argCount * s.argP0 + s.argP1 - 1

/-- The checks of PULSE_SHAPE (42_pulse_shaper.md R180). -/
def pulseReport (same : Bool) (s : State) : Option Report :=
  if s.argP0 = 0 then some (0x11, 1, 0)
  else if s.argP1 = 0 then some (0x03, 1, 0)
  else if s.params.maxTaps < s.argP1 then some (0x03, 3, s.argP1)
  else
    (regionReport s.params.memBytes
      [(1, 8, s.argSrc, 16 * s.argCount), (2, 8, s.argAux, 8 * s.argP1),
       (3, 8, s.argDst, 16 * specPulseOut same s)]).or
      (overlapReport s.argDst (16 * specPulseOut same s)
        [(1, s.argSrc, 16 * s.argCount), (2, s.argAux, 8 * s.argP1)])

/-- OUT of 43_ofdm.md R200. -/
def specOfdmOut (refset : Bool) (s : State) : Nat := s.argCount / specNact refset s * (s.argP0 + s.argP1)

/-- The list checks of 43_ofdm.md R203: the first entry that fails, and how. -/
def activeReport (s : State) : Option Report :=
  ((List.range s.argP2).find? fun j =>
      decide (s.argP0 ≤ specActive false s j ∨ (0 < j ∧ specActive false s j ≤ specActive false s (j - 1)))).map
    fun j => if s.argP0 ≤ specActive false s j then (0x04, 6, j) else (0x04, 7, j)

/-- The checks of OFDM_MOD (43_ofdm.md R201). NFFT is a power of two when it is 2 to the number of times it halves. -/
def ofdmReport (refset : Bool) (s : State) : Option Report :=
  if ¬ (s.argP0 = 2 ^ Nat.log2 s.argP0 ∧ s.argP0 ≤ s.params.maxFft) then some (0x04, 1, s.argP0)
  else if s.argP0 < s.argP1 then some (0x04, 2, s.argP1)
  else if refset = true ∧ s.argP0 ≠ 64 then some (0x04, 3, s.argP0)
  else if refset = false ∧ ¬ (1 ≤ s.argP2 ∧ s.argP2 ≤ s.argP0) then some (0x04, 4, s.argP2)
  else if s.argCount % specNact refset s ≠ 0 then some (0x04, 5, s.argCount % specNact refset s)
  else
    (regionReport s.params.memBytes
      [(1, 8, s.argSrc, 16 * s.argCount), (2, 2, s.argAux, if refset then 0 else 2 * s.argP2),
       (3, 8, s.argDst, 16 * specOfdmOut refset s)]).or
      ((overlapReport s.argDst (16 * specOfdmOut refset s)
          [(1, s.argSrc, 16 * s.argCount), (2, s.argAux, if refset then 0 else 2 * s.argP2)]).or
        (if refset then none else activeReport s))

/-- NS of 44_chirp.md R221: ceil(val(T)·val(fs)). -/
def specChirpCount (s : State) : Nat := ⌈F64.val s.latched.f0 * F64.val s.latched.f1⌉.toNat

/-- The checks of CHIRP (44_chirp.md R220). -/
def chirpReport (s : State) : Option Report :=
  if ¬ (F64.isFinite s.latched.f0 = true ∧ 0 < F64.val s.latched.f0) then some (0x11, 2, 0)
  else if ¬ (F64.isFinite s.latched.f1 = true ∧ 0 < F64.val s.latched.f1) then some (0x11, 3, 0)
  else if F64.isFinite s.latched.f2 = false then some (0x11, 4, 0)
  else if F64.isFinite (F64.div s.latched.f2 s.latched.f0) = false then some (0x11, 5, 0)
  else regionReport s.params.memBytes [(3, 8, s.argDst, 16 * specChirpCount s)]

/-- The checks of DAC_QUANT before its first write (45_dac.md R235, R237). -/
def dacReport (ch fixed : Bool) (bits : Nat) (s : State) : Option Report :=
  if bits < 1 ∨ 16 < bits then some (0x11, 6, bits)
  else if fixed = true ∧ ¬ (F64.isFinite s.latched.f0 = true ∧ F64.isFinite s.latched.f1 = true ∧
      F64.val s.latched.f0 < F64.val s.latched.f1) then some (0x11, 7, 0)
  else
    (regionReport s.params.memBytes [(1, 8, s.argSrc, 16 * s.argCount), (3, 2, s.argDst, 2 * s.argCount)]).or
      ((overlapReport s.argDst (2 * s.argCount) [(1, s.argSrc, 16 * s.argCount)]).or
        (if fixed then none
          else ((List.range s.argCount).find? fun i => !F64.isFinite (specChannel ch s i)).map fun i => (0x05, 2, i)))

/-- Sample `i` is out of the fixed range (45_dac.md R238); an infinite pattern is beyond every finite value. -/
def specClamps (ch : Bool) (s : State) (i : Nat) : Bool :=
  F64.isNaN (specChannel ch s i) || decide (F64.val (specChannel ch s i) < F64.val s.latched.f0) ||
    decide (F64.val s.latched.f1 < F64.val (specChannel ch s i))

/-- `c` is the code of sample `i` under the fixed-range policy (45_dac.md R238). -/
def IsFixedCode (ch : Bool) (bits : Nat) (s : State) (i c : Nat) : Prop :=
  if F64.isNaN (specChannel ch s i) = true ∨ F64.val (specChannel ch s i) < F64.val s.latched.f0 then c = 0
  else if F64.val s.latched.f1 < F64.val (specChannel ch s i) then c = 2 ^ bits - 1
  else IsRne ((F64.val (specChannel ch s i) - F64.val s.latched.f0) * (2 ^ bits - 1) /
    (F64.val s.latched.f1 - F64.val s.latched.f0)) c

end Sys2Proof.Machine
end

