-- ==== Sys2Proof/Certificates/Slice0/Obligations.lean ====
section
/-! DEFINITION. The statements for the provers, one definition each. A docstring names the rules of spec/ a statement rests
on, and the log entry where it rests on a choice of the model. -/

section

open Sys2Proof Sys2Proof.Machine

/-! ## Decoding and encoding (30_encoding.md) -/

/-- The encoding examples of 30_encoding.md R115 and the decoding vectors of 95_test_vectors.md section 8. -/
def Obligations.DecodesWrittenWords : Prop :=
  decode 0x00000001 = .command .mapBpsk ∧
  decode 0x00000102 = .command (.mapQpsk true) ∧
  decode 0x00000003 = .command .mapQam16 ∧
  decode 0x00000110 = .command (.firLowpass true) ∧
  decode 0x00000011 = .command .firRcos ∧
  decode 0x00000120 = .command (.pulseShape true) ∧
  decode 0x00000130 = .command (.ofdmMod true) ∧
  decode 0x00000040 = .command .chirp ∧
  decode 0x00080250 = .command (.dacQuant false true 8) ∧
  decode 0x00100150 = .command (.dacQuant true false 16) ∧
  decode 0x00000000 = .illegal 1 0x00 ∧
  decode 0x00000012 = .illegal 1 0x12 ∧
  decode 0x00010001 = .illegal 2 0x01 ∧
  decode 0x80000040 = .illegal 2 0x40 ∧
  decode 0x00080650 = .illegal 2 0x50

/-- A word decodes to a command exactly when the command is well formed and the word is its encoding: no bit of a legal word
is dropped, and no two words share a command (30_encoding.md R101 to R106, R111). -/
def Obligations.DecodeAndEncodeAgree : Prop :=
  ∀ (w : Word) (i : Instr), decode w = .command i ↔ i.wellFormed = true ∧ encode i = w

/-- Which words are legal, field by field, and what every other word raises (30_encoding.md R101 to R105, R110). -/
def Obligations.IllegalWordsAreReported : Prop :=
  ∀ w : Word,
    let opc := w.toNat % 256
    let flags := w.toNat / 2 ^ 8 % 256
    let bits := w.toNat / 2 ^ 16 % 32
    let rsvd := w.toNat / 2 ^ 21
    let known := opc ∈ [0x01, 0x02, 0x03, 0x10, 0x11, 0x20, 0x30, 0x40, 0x50]
    let legal := rsvd = 0 ∧
      ((opc ∈ [0x01, 0x03, 0x11, 0x40] ∧ flags = 0 ∧ bits = 0) ∨
       (opc ∈ [0x02, 0x10, 0x20, 0x30] ∧ flags ≤ 1 ∧ bits = 0) ∨ (opc = 0x50 ∧ flags ≤ 3))
    (legal → ∃ i, decode w = .command i) ∧
    (¬ legal → decode w = .illegal (if known then 2 else 1) opc)

/-! ## Reset and the invariant -/

/-- What the host reads from every register right after a power-on reset, and the rest of the state the spec gives a value
(10_state.md R31, R33, R63; with the defaults of 00_scope.md R6). -/
def Obligations.ResetState : Prop :=
  (∀ off, State.reset.readWindow off =
    if off = 0x000 then 0x49514D31 else if off = 0x004 then 0x00070001
    else if off = 0x080 then 0x00100000 else if off = 0x084 then 0x0FFF100A else 0) ∧
  State.reset.status.busy = false ∧ State.reset.irq = false ∧ State.reset.mem = [] ∧ State.reset.held = []

/-- The invariant holds right after reset (10_state.md R63). -/
def Obligations.ResetMeetsInvariant : Prop := State.reset.Inv

/-- Every step keeps the invariant: canonical memory, no held access while IDLE, a clear report while BUSY, no error pair
outside 60_exceptions.md R264, ERR only with an error code, at most MAX_FFT frame samples (20_memory.md R80, 60_exceptions.md
R261, R264, 10_state.md R47, R60); and no step changes a parameter (00_scope.md R6). -/
def Obligations.StepKeepsInvariant : Prop :=
  ∀ s t : State, s.Inv → step s = .next t → t.Inv ∧ t.params = s.params

/-! ## The engine (60_exceptions.md R260 to R269) -/

/-- A step runs the latched command: when ENGINE moves (no input is left, ENGINE's turn is next, or the host waits behind a
held access) and LCMD decodes to `i`, the step is exec of `i`, and the held accesses then take effect (60_exceptions.md R260;
which agent moves is the model's choice, notes/assumptions/9.md). -/
def Obligations.StepRunsLatchedCommand : Prop :=
  ∀ (s : State) (i : Instr), s.status.busy = true → decode s.latched.cmd = .command i →
    (s.inputs = [] → step s = releaseAfter (exec i s)) ∧
    (∀ rest, s.inputs = .engine :: rest → step s = releaseAfter (exec i { s with inputs := rest })) ∧
    (∀ x rest, s.inputs = x :: rest → x.fromHost = true → s.hostStalled = true → step s = releaseAfter (exec i s))

/-- ENGINE's step on an illegal word ends the command with ILLEGAL_CMD and its subcode, and the held accesses then take effect
(30_encoding.md R105, R110, 60_exceptions.md R264, R266). When ENGINE moves (no input is left, ENGINE's turn is next, or the
host waits behind a held access) is the model's choice, notes/assumptions/9.md. -/
def Obligations.StepReportsIllegalWord : Prop :=
  ∀ (s : State) (sub idx : Nat), s.status.busy = true → decode s.latched.cmd = .illegal sub idx →
    (s.inputs = [] → ∃ t, EndsBadly s t 0x10 sub idx ∧ step s = .next t.release) ∧
    (∀ rest, s.inputs = .engine :: rest →
      ∃ t, EndsBadly { s with inputs := rest } t 0x10 sub idx ∧ step s = .next t.release) ∧
    (∀ x rest, s.inputs = x :: rest → x.fromHost = true → s.hostStalled = true →
      ∃ t, EndsBadly s t 0x10 sub idx ∧ step s = .next t.release)

/-- ENGINE's step always completes: it ends with BUSY = 0 and DONE = 1, no access is held any more, IRQ is IRQ_EN, and nothing
the host owns has changed; an IDLE engine does nothing (60_exceptions.md R260, 10_state.md R41, R53, R61, R64; what an
ENGINE turn does while IDLE is the model's, notes/assumptions/18.md). -/
def Obligations.EngineStepCompletes : Prop :=
  ∀ s : State,
    (s.status.busy = true →
      ∃ t, s.engineStep = .next t ∧ t.status.busy = false ∧ t.status.done = true ∧ t.held = [] ∧ t.irq = s.irqEn ∧
        t.irqEn = s.irqEn ∧ t.cmd = s.cmd ∧ t.args = s.args ∧ t.latched = s.latched ∧
        t.status.missed = s.status.missed ∧ t.params = s.params ∧ t.inputs = s.inputs) ∧
    (s.status.busy = false → s.engineStep = .next s)

/-- With legal host accesses left to do, BUSY falls within as many steps as there are inputs, and one (70_reset_and_hazards.md
R303). That the inputs are a finite list, after which ENGINE moves, and that ENGINE moves between two polls of a WAIT, are
the model's choices (notes/assumptions/9.md, 13.md). -/
def Obligations.BusyEventuallyEnds : Prop :=
  ∀ s : State, (∀ x ∈ s.inputs, inputOk s.params x = true) →
    ∃ k t, k ≤ s.inputs.length + 1 ∧ Sys2Proof.core.run k s = .next t ∧ (State.status t).busy = false

/-- The frame of every command: memory changes in its destination region at most, the frame buffer only under OFDM_MOD, and
none of the registers the host owns (10_state.md R41, R53, R54, R58, R60, R64, 20_memory.md R84). -/
def Obligations.CommandsWriteOnlyTheirDestination : Prop :=
  ∀ (i : Instr) (s t : State), exec i s = .next t →
    CommandKeeps s t ∧ BytesKeptOutside s t (planOf i s).dst.base (planOf i s).dst.len ∧
      ((∀ refset, i ≠ .ofdmMod refset) → t.frame = s.frame)

/-- Every error but RANGE 1 is precise: the sample memory and every register are as before the step, but for the ones R266
names (60_exceptions.md R266, R267). -/
def Obligations.ErrorsArePrecise : Prop :=
  ∀ (i : Instr) (s t : State), exec i s = .next t → t.status.err = true →
    ¬ (t.status.errCode = 0x05 ∧ t.status.errSub = 0x01) →
      EndsBadly s t t.status.errCode.toNat t.status.errSub.toNat t.errIdx.toNat

/-- Two runs of one command that agree on the parameters, the latched operands and the bytes of the source regions give the
same report, the same results and the same writes: every byte ends the same in both, or is written by neither (60_exceptions.md
R283, 00_scope.md R23). -/
def Obligations.CommandsDependOnTheirSourcesAlone : Prop :=
  ∀ (i : Instr) (s s' t t' : State), s.params = s'.params → s.latched = s'.latched → s.reportClear → s'.reportClear →
    (∀ a, IsSource i s a → s.readByte a = s'.readByte a) → exec i s = .next t → exec i s' = .next t' →
      t.status.err = t'.status.err ∧ t.status.errCode = t'.status.errCode ∧ t.status.errSub = t'.status.errSub ∧
      t.status.errOp = t'.status.errOp ∧ t.errIdx = t'.errIdx ∧ t.outLen = t'.outLen ∧ t.clampCnt = t'.clampCnt ∧
      t.resF0 = t'.resF0 ∧ t.resF1 = t'.resF1 ∧
      ∀ a, t.readByte a = t'.readByte a ∨ (t.readByte a = s.readByte a ∧ t'.readByte a = s'.readByte a)

/-! ## Which error a command reports (60_exceptions.md R265) -/

/-- The mapper commands report their first failing check and write nothing (40_symbol_mapper.md R131, R132, 60_exceptions.md
R264 to R266). -/
def Obligations.MappersReportTheFirstFailingCheck : Prop :=
  ∀ (s : State) (code sub idx : Nat),
    (mapperReport 1 s = some (code, sub, idx) → ∃ t, exec .mapBpsk s = .next t ∧ EndsBadly s t code sub idx) ∧
    (∀ norm, mapperReport 2 s = some (code, sub, idx) →
      ∃ t, exec (.mapQpsk norm) s = .next t ∧ EndsBadly s t code sub idx) ∧
    (mapperReport 4 s = some (code, sub, idx) → ∃ t, exec .mapQam16 s = .next t ∧ EndsBadly s t code sub idx)

/-- The filter designs report their first failing check and write nothing (41_filter_design.md R151, R154, R156, R159). -/
def Obligations.FilterDesignsReportTheFirstFailingCheck : Prop :=
  ∀ (s : State) (code sub idx : Nat),
    (∀ dcnorm, lowpassReport dcnorm s = some (code, sub, idx) →
      ∃ t, exec (.firLowpass dcnorm) s = .next t ∧ EndsBadly s t code sub idx) ∧
    (rcosReport s = some (code, sub, idx) → ∃ t, exec .firRcos s = .next t ∧ EndsBadly s t code sub idx)

/-- PULSE_SHAPE reports its first failing check and writes nothing (42_pulse_shaper.md R180). -/
def Obligations.PulseShapeReportsTheFirstFailingCheck : Prop :=
  ∀ (s : State) (same : Bool) (code sub idx : Nat), pulseReport same s = some (code, sub, idx) →
    ∃ t, exec (.pulseShape same) s = .next t ∧ EndsBadly s t code sub idx

/-- OFDM_MOD reports its first failing check and writes nothing (43_ofdm.md R201, R203). -/
def Obligations.OfdmReportsTheFirstFailingCheck : Prop :=
  ∀ (s : State) (refset : Bool) (code sub idx : Nat), ofdmReport refset s = some (code, sub, idx) →
    ∃ t, exec (.ofdmMod refset) s = .next t ∧ EndsBadly s t code sub idx

/-- CHIRP reports its first failing check and writes nothing (44_chirp.md R220). -/
def Obligations.ChirpReportsTheFirstFailingCheck : Prop :=
  ∀ (s : State) (code sub idx : Nat), chirpReport s = some (code, sub, idx) →
    ∃ t, exec .chirp s = .next t ∧ EndsBadly s t code sub idx

/-- DAC_QUANT reports its first failing check, RANGE 2 among them, and writes nothing (45_dac.md R235, R237, R241). -/
def Obligations.DacReportsTheFirstFailingCheck : Prop :=
  ∀ (s : State) (ch fixed : Bool) (bits code sub idx : Nat), dacReport ch fixed bits s = some (code, sub, idx) →
    ∃ t, exec (.dacQuant ch fixed bits) s = .next t ∧ EndsBadly s t code sub idx

/-! ## What each command computes, where its checks pass -/

/-- MAP_BPSK: bit 0 gives -1, bit 1 gives +1, with im = +0; nothing else changes (40_symbol_mapper.md R130 to R133, R140). -/
def Obligations.MapBpskResult : Prop :=
  ∀ s : State, mapperReport 1 s = none →
    ∃ t, exec .mapBpsk s = .next t ∧ EndsWell s t s.argCount ∧ ResultsKept s t ∧ t.frame = s.frame ∧
      BytesKeptOutside s t s.argDst (16 * s.argCount) ∧
      ∀ j < s.argCount, t.readSample (s.argDst + 16 * j) =
        ⟨if s.readBit (s.argSrc + j) = 0 then 0xBFF0000000000000 else 0x3FF0000000000000, 0x0000000000000000⟩

/-- MAP_QPSK: the second bit of a pair decides the sign of re, the first the sign of im, and NORM the amplitude; nothing
else changes (40_symbol_mapper.md R134, R135, R140). -/
def Obligations.MapQpskResult : Prop :=
  ∀ (s : State) (norm : Bool), mapperReport 2 s = none →
    ∃ t, exec (.mapQpsk norm) s = .next t ∧ EndsWell s t (s.argCount / 2) ∧ ResultsKept s t ∧ t.frame = s.frame ∧
      BytesKeptOutside s t s.argDst (16 * (s.argCount / 2)) ∧
      ∀ j < s.argCount / 2, t.readSample (s.argDst + 16 * j) =
        (let part (b : Nat) : F64 :=
          if norm then (if b = 0 then 0x3FE6A09E667F3BCD else 0xBFE6A09E667F3BCD)
          else (if b = 0 then 0x3FF0000000000000 else 0xBFF0000000000000)
        ⟨part (s.readBit (s.argSrc + 2 * j + 1)), part (s.readBit (s.argSrc + 2 * j))⟩)

/-- MAP_QAM16: bits (0,0), (0,1), (1,1), (1,0) give the levels -3, -1, +1, +3 over √10, the first pair in re and the second
in im; nothing else changes (40_symbol_mapper.md R136, R137, R140). -/
def Obligations.MapQam16Result : Prop :=
  ∀ s : State, mapperReport 4 s = none →
    ∃ t, exec .mapQam16 s = .next t ∧ EndsWell s t (s.argCount / 4) ∧ ResultsKept s t ∧ t.frame = s.frame ∧
      BytesKeptOutside s t s.argDst (16 * (s.argCount / 4)) ∧
      ∀ j < s.argCount / 4, t.readSample (s.argDst + 16 * j) =
        (let level (x y : Nat) : F64 :=
          if x = 0 then (if y = 0 then 0xBFEE5B9D136C6D96 else 0xBFD43D136248490F)
          else (if y = 0 then 0x3FEE5B9D136C6D96 else 0x3FD43D136248490F)
        ⟨level (s.readBit (s.argSrc + 4 * j)) (s.readBit (s.argSrc + 4 * j + 1)),
         level (s.readBit (s.argSrc + 4 * j + 2)) (s.readBit (s.argSrc + 4 * j + 3))⟩)

/-- FIR_LOWPASS: the Hamming-windowed sinc taps, unscaled or divided by their sum; nothing else changes (41_filter_design.md
R150 to R154). -/
def Obligations.FirLowpassResult : Prop :=
  ∀ (s : State) (dcnorm : Bool), lowpassReport dcnorm s = none →
    ∃ t, exec (.firLowpass dcnorm) s = .next t ∧ EndsWell s t s.argP1 ∧ ResultsKept s t ∧ t.frame = s.frame ∧
      BytesKeptOutside s t s.argDst (8 * s.argP1) ∧
      ∀ n < s.argP1, t.readF64 (s.argDst + 8 * n) =
        (let h := specLowpassTap s.params.trigTol s.argP1 s.latched.f0
        if dcnorm then F64.div (h n) (specSum h s.argP1) else h n)

/-- FIR_RCOS: the raised-cosine taps with the singularity branch, divided by the root of their energy; nothing else changes
(41_filter_design.md R150, R156 to R159). The bound of R161 (b) on the energy of the taps written is not stated: for a large
TRIG_TOL it can fail by R159, which the model follows (notes/assumptions/24.md). -/
def Obligations.FirRcosResult : Prop :=
  ∀ s : State, rcosReport s = none →
    ∃ t, exec .firRcos s = .next t ∧ EndsWell s t (s.argP1 * s.argP0 + 1) ∧ ResultsKept s t ∧ t.frame = s.frame ∧
      BytesKeptOutside s t s.argDst (8 * (s.argP1 * s.argP0 + 1)) ∧
      ∀ n < s.argP1 * s.argP0 + 1, t.readF64 (s.argDst + 8 * n) =
        F64.div (specRcosLatched s n) (F64.sqrt (specRcosEnergy s))

/-- PULSE_SHAPE: zero insertion and the convolution of each channel in the fixed order, whole or centred; nothing else
changes (42_pulse_shaper.md R180 to R185). An infinite tap that meets no zero component gives an infinity by R184's ACC, though
R184's prose has a NaN: the model follows ACC (notes/assumptions/25.md). -/
def Obligations.PulseShapeResult : Prop :=
  ∀ (s : State) (same : Bool), pulseReport same s = none →
    ∃ t, exec (.pulseShape same) s = .next t ∧ EndsWell s t (specPulseOut same s) ∧ ResultsKept s t ∧
      t.frame = s.frame ∧ BytesKeptOutside s t s.argDst (16 * specPulseOut same s) ∧
      ∀ n < specPulseOut same s, t.readSample (s.argDst + 16 * n) =
        specConv s (n + if same then (s.argP1 - 1) / 2 else 0)

/-- OFDM_MOD: each block's symbols at the active positions, NUM_IDFT of the frame, the last CP samples ahead of all of them,
block after block; the frame buffer keeps the last frame; nothing else changes (43_ofdm.md R200 to R206, 10_state.md R60;
what the buffer holds past the frame is unobservable). -/
def Obligations.OfdmModResult : Prop :=
  ∀ (s : State) (refset : Bool), ofdmReport refset s = none →
    ∃ t, exec (.ofdmMod refset) s = .next t ∧ EndsWell s t (specOfdmOut refset s) ∧ ResultsKept s t ∧
      BytesKeptOutside s t s.argDst (16 * specOfdmOut refset s) ∧
      (s.argCount = 0 → t.frame = s.frame) ∧
      ∀ b < s.argCount / specNact refset s, ∃ X, IsFrame refset s (specNact refset s) b X ∧
        (b + 1 = s.argCount / specNact refset s → t.frame.take s.argP0 = X) ∧
        (∀ i < s.argP1, some (t.readSample (s.argDst + 16 * (b * (s.argP0 + s.argP1) + i))) =
          (numIdft s.params.idftTol s.argP0 X)[s.argP0 - s.argP1 + i]?) ∧
        (∀ n < s.argP0, some (t.readSample (s.argDst + 16 * (b * (s.argP0 + s.argP1) + s.argP1 + n))) =
          (numIdft s.params.idftTol s.argP0 X)[n]?)

/-- CHIRP: sample n is (NUM_COSPI(p), NUM_SINPI(p)) with p = K·t² in the order given, for ceil(T·fs) samples; nothing else
changes (44_chirp.md R221 to R223). Where K is ±0 and t² overflows, p is NaN by R222 and 00_scope.md R16, though R220's corner
case has (1.0, ±0): that the sample is then a pair of NaNs is the model's reading (notes/assumptions/22.md). -/
def Obligations.ChirpResult : Prop :=
  ∀ s : State, chirpReport s = none →
    ∃ t, exec .chirp s = .next t ∧ EndsWell s t (specChirpCount s) ∧ ResultsKept s t ∧ t.frame = s.frame ∧
      BytesKeptOutside s t s.argDst (16 * specChirpCount s) ∧
      ∀ n < specChirpCount s, t.readSample (s.argDst + 16 * n) =
        (let time := F64.div (F64.ofInt n) s.latched.f1
        let p := F64.mul (F64.div s.latched.f2 s.latched.f0) (F64.mul time time)
        ⟨numCosPi s.params.trigTol p, numSinPi s.params.trigTol p⟩)

/-- DAC_QUANT in min/max mode: exact affine codes over the observed range, 0 for a constant waveform, and the first least and
first greatest samples in RES_F0 and RES_F1; nothing else changes (45_dac.md R235 to R237, R240, R241). -/
def Obligations.DacMinMaxResult : Prop :=
  ∀ (s : State) (ch : Bool) (bits : Nat), dacReport ch false bits s = none →
    ∃ t, exec (.dacQuant ch false bits) s = .next t ∧ EndsWell s t s.argCount ∧ t.frame = s.frame ∧
      BytesKeptOutside s t s.argDst (2 * s.argCount) ∧
      (s.argCount = 0 → ResultsKept s t) ∧
      (s.argCount ≠ 0 → ∃ m M, m < s.argCount ∧ M < s.argCount ∧
        (∀ i < s.argCount, F64.val (specChannel ch s m) ≤ F64.val (specChannel ch s i) ∧
          F64.val (specChannel ch s i) ≤ F64.val (specChannel ch s M)) ∧
        (∀ i < m, F64.val (specChannel ch s i) ≠ F64.val (specChannel ch s m)) ∧
        (∀ i < M, F64.val (specChannel ch s i) ≠ F64.val (specChannel ch s M)) ∧
        t.resF0.value = specChannel ch s m ∧ t.resF1.value = specChannel ch s M ∧
        ∀ i < s.argCount,
          if F64.val (specChannel ch s M) = F64.val (specChannel ch s m) then t.readU16 (s.argDst + 2 * i) = 0
          else IsRne ((F64.val (specChannel ch s i) - F64.val (specChannel ch s m)) * (2 ^ bits - 1) /
              (F64.val (specChannel ch s M) - F64.val (specChannel ch s m))) (t.readU16 (s.argDst + 2 * i)))

/-- DAC_QUANT in fixed mode with every sample in range: exact affine codes over [LO, HI]; nothing else changes (45_dac.md
R235, R236, R238, R240, R241). -/
def Obligations.DacFixedResult : Prop :=
  ∀ (s : State) (ch : Bool) (bits : Nat), dacReport ch true bits s = none → (∀ i < s.argCount, specClamps ch s i = false) →
    ∃ t, exec (.dacQuant ch true bits) s = .next t ∧ EndsWell s t s.argCount ∧ ResultsKept s t ∧ t.frame = s.frame ∧
      BytesKeptOutside s t s.argDst (2 * s.argCount) ∧
      ∀ i < s.argCount,
        IsRne ((F64.val (specChannel ch s i) - F64.val s.latched.f0) * (2 ^ bits - 1) /
          (F64.val s.latched.f1 - F64.val s.latched.f0)) (t.readU16 (s.argDst + 2 * i))

/-- DAC_QUANT in fixed mode with a sample out of range: every code is written, clamped where it is out of range, and the
command ends with RANGE(1, first) (45_dac.md R238 to R240, 60_exceptions.md R268). -/
def Obligations.DacFixedRangeError : Prop :=
  ∀ (s : State) (ch : Bool) (bits first : Nat), dacReport ch true bits s = none → first < s.argCount →
    specClamps ch s first = true → (∀ i < first, specClamps ch s i = false) →
    ∃ t, exec (.dacQuant ch true bits) s = .next t ∧ CommandKeeps s t ∧ ResultsKept s t ∧ t.frame = s.frame ∧
      BytesKeptOutside s t s.argDst (2 * s.argCount) ∧
      t.status = { s.status with
        busy := false, done := true, err := true, errCode := 0x05, errSub := 0x01, errOp := 0x50 } ∧
      t.errIdx.toNat = first ∧ t.outLen.toNat = s.argCount ∧
      t.clampCnt.toNat = (List.range s.argCount).countP (specClamps ch s) ∧
      ∀ i < s.argCount, IsFixedCode ch bits s i (t.readU16 (s.argDst + 2 * i))

/-! ## Properties the spec derives of the results -/

/-- The taps of FIR_LOWPASS are symmetric, bit for bit (41_filter_design.md R155). -/
def Obligations.LowpassTapsSymmetric : Prop :=
  ∀ (s t : State) (dcnorm : Bool) (n : Nat), exec (.firLowpass dcnorm) s = .next t → t.status.err = false → n < s.argP1 →
    t.readF64 (s.argDst + 8 * n) = t.readF64 (s.argDst + 8 * (s.argP1 - 1 - n))

/-- The taps of FIR_RCOS are symmetric, bit for bit (41_filter_design.md R161 (a)). -/
def Obligations.RcosTapsSymmetric : Prop :=
  ∀ (s t : State) (n : Nat), exec .firRcos s = .next t → t.status.err = false → n ≤ s.argP1 * s.argP0 →
    t.readF64 (s.argDst + 8 * n) = t.readF64 (s.argDst + 8 * (s.argP1 * s.argP0 - n))

/-- No output component of PULSE_SHAPE is -0 (42_pulse_shaper.md R184). -/
def Obligations.PulseShapeHasNoNegativeZero : Prop :=
  ∀ (s t : State) (same : Bool) (n : Nat), exec (.pulseShape same) s = .next t → t.status.err = false →
    n < specPulseOut same s →
      (t.readSample (s.argDst + 16 * n)).re ≠ 0x8000000000000000 ∧
      (t.readSample (s.argDst + 16 * n)).im ≠ 0x8000000000000000

/-- PULSE_SHAPE with the one tap 1.0 is zero insertion, in both modes: a component that is no NaN and not -0 is copied bit
for bit, and a -0 becomes +0 (42_pulse_shaper.md R187; a NaN becomes the canonical one, 00_scope.md R16, notes/assumptions/19.md). -/
def Obligations.PulseShapeUnitKernel : Prop :=
  ∀ (s t : State) (same : Bool) (n : Nat), exec (.pulseShape same) s = .next t → t.status.err = false →
    s.argP1 = 1 → s.readF64 s.argAux = 0x3FF0000000000000 → n < s.argCount * s.argP0 →
      let copy (x y : F64) : Prop :=
        y = if F64.isNaN x then 0x7FF8000000000000 else if x = 0x8000000000000000 then 0 else x
      copy (specUpsampled s n).re (t.readSample (s.argDst + 16 * n)).re ∧
      copy (specUpsampled s n).im (t.readSample (s.argDst + 16 * n)).im

/-- The cyclic prefix is a bit-for-bit copy of the block's last CP samples (43_ofdm.md R206, R207 (a)). -/
def Obligations.OfdmPrefixCopiesTheTail : Prop :=
  ∀ (s t : State) (refset : Bool) (b i : Nat), exec (.ofdmMod refset) s = .next t → t.status.err = false →
    b < s.argCount / specNact refset s → i < s.argP1 →
      t.readSample (s.argDst + 16 * (b * (s.argP0 + s.argP1) + i)) =
        t.readSample (s.argDst + 16 * (b * (s.argP0 + s.argP1) + s.argP0 + i))

/-- A block whose symbols all have value zero gives samples of value zero, of either sign (43_ofdm.md R207 (b)). -/
def Obligations.OfdmZeroBlockIsZero : Prop :=
  ∀ (s t : State) (refset : Bool) (b n : Nat), exec (.ofdmMod refset) s = .next t → t.status.err = false →
    b < s.argCount / specNact refset s → n < s.argP0 + s.argP1 →
    (∀ j < specNact refset s,
      F64.isZero (s.readSample (s.argSrc + 16 * (b * specNact refset s + j))).re = true ∧
      F64.isZero (s.readSample (s.argSrc + 16 * (b * specNact refset s + j))).im = true) →
      F64.isZero (t.readSample (s.argDst + 16 * (b * (s.argP0 + s.argP1) + n))).re = true ∧
      F64.isZero (t.readSample (s.argDst + 16 * (b * (s.argP0 + s.argP1) + n))).im = true

/-- NS is the number of integers n ≥ 0 with n/fs < T, which is ceil(T·fs), at least 1, and T·fs where that is an integer
(44_chirp.md R221). -/
def Obligations.ChirpCount : Prop :=
  ∀ T fs : F64, F64.isFinite T = true → F64.isFinite fs = true → 0 < F64.val T → 0 < F64.val fs →
    (∀ n : Nat, n < chirpCount T fs ↔ (n : ℚ) / F64.val fs < F64.val T) ∧
    (chirpCount T fs : Int) = ⌈F64.val T * F64.val fs⌉ ∧ 1 ≤ chirpCount T fs ∧
    (∀ k : Int, F64.val T * F64.val fs = k → (chirpCount T fs : Int) = k)

/-- Sample 0 of a chirp is (1.0, +0), or (1.0, -0) where K has the minus sign; both channels of a sample whose phase is finite
are at most 1 within TRIG_TOL, for a TRIG_TOL of at least 2^-52, from which on some binary64 number is that close
(notes/assumptions/6.md); and a sample whose phase is not finite is a pair of NaNs (44_chirp.md R224 (a), (c), 00_scope.md
R20). R224 (c) has no NaN, and R220 has (1.0, ±0) for Bw = 0: that last case is the model's reading, notes/assumptions/22.md. -/
def Obligations.ChirpStartsAtOneAndIsBounded : Prop :=
  ∀ (s t : State) (n : Nat), exec .chirp s = .next t → t.status.err = false → n < chirpCount s.latched.f0 s.latched.f1 →
    (t.readSample s.argDst = ⟨0x3FF0000000000000,
      if F64.sign (F64.div s.latched.f2 s.latched.f0) then 0x8000000000000000 else 0x0000000000000000⟩) ∧
    (let time := F64.div (F64.ofInt n) s.latched.f1
    let p := F64.mul (F64.div s.latched.f2 s.latched.f0) (F64.mul time time)
    let z := t.readSample (s.argDst + 16 * n)
    (F64.isFinite p = false → z = ⟨F64.nan, F64.nan⟩) ∧
    (F64.isFinite p = true → 1 / 2 ^ 52 ≤ s.params.trigTol →
      F64.isFinite z.re = true ∧ F64.isFinite z.im = true ∧
        |F64.val z.re| ≤ 1 + s.params.trigTol ∧ |F64.val z.im| ≤ 1 + s.params.trigTol))

/-- Under both policies every code is at most 2^B - 1, that of a NaN too; among samples that are no NaN codes do not fall as the sample value rises, and the least and the
greatest value of the range give 0 and 2^B - 1 (45_dac.md R240, R242 (a) to (c)). R242 (d) is not stated: by R237 and R238 the
two policies can give the same codes where their ranges differ, and the model follows them (notes/assumptions/23.md). -/
def Obligations.DacCodesFollowTheSamples : Prop :=
  ∀ (s t : State) (ch fixed : Bool) (bits i j : Nat), exec (.dacQuant ch fixed bits) s = .next t →
    (t.status.err = false ∨ (t.status.errCode = 0x05 ∧ t.status.errSub = 0x01)) → i < s.argCount → j < s.argCount →
    t.readU16 (s.argDst + 2 * i) ≤ 2 ^ bits - 1 ∧
    (F64.isNaN (specChannel ch s i) = false → F64.isNaN (specChannel ch s j) = false →
      (F64.val (specChannel ch s i) ≤ F64.val (specChannel ch s j) →
        t.readU16 (s.argDst + 2 * i) ≤ t.readU16 (s.argDst + 2 * j)) ∧
      (fixed = true → F64.val (specChannel ch s i) = F64.val s.latched.f0 → t.readU16 (s.argDst + 2 * i) = 0) ∧
      (fixed = true → F64.val (specChannel ch s i) = F64.val s.latched.f1 →
        t.readU16 (s.argDst + 2 * i) = 2 ^ bits - 1) ∧
      (fixed = false → F64.val (specChannel ch s i) < F64.val (specChannel ch s j) →
        (∀ k < s.argCount, F64.val (specChannel ch s i) ≤ F64.val (specChannel ch s k) ∧
          F64.val (specChannel ch s k) ≤ F64.val (specChannel ch s j)) →
        t.readU16 (s.argDst + 2 * i) = 0 ∧ t.readU16 (s.argDst + 2 * j) = 2 ^ bits - 1))

/-! ## The numeric primitives (00_scope.md R16 to R21) -/

/-- Addition, subtraction, multiplication and division of finite numbers give the nearest binary64 number, ties to even,
and ∞ past the largest (00_scope.md R16). -/
def Obligations.ArithmeticRoundsToNearest : Prop :=
  ∀ x y : F64, F64.isFinite x = true → F64.isFinite y = true →
    RoundsTo (F64.val x + F64.val y) (F64.add x y) ∧
    RoundsTo (F64.val x - F64.val y) (F64.sub x y) ∧
    RoundsTo (F64.val x * F64.val y) (F64.mul x y) ∧
    (F64.val y ≠ 0 → RoundsTo (F64.val x / F64.val y) (F64.div x y))

/-- The square root of a finite number that is not below 0 is the binary64 number nearest the real root (00_scope.md R16). -/
def Obligations.SquareRootRoundsToNearest : Prop :=
  ∀ x : F64, F64.isFinite x = true → 0 ≤ F64.val x →
    F64.isFinite (F64.sqrt x) = true ∧
    ∀ z : F64, F64.isFinite z = true →
      |(F64.val (F64.sqrt x) : ℝ) - Real.sqrt (F64.val x)| ≤ |(F64.val z : ℝ) - Real.sqrt (F64.val x)|

/-- The special values of the arithmetic (00_scope.md R16, by IEEE 754): every NaN an operation produces is the canonical one,
and which operations produce it; the results with an infinite operand and of a division by zero; the sign of a product, a
quotient and an exact zero sum; and the roots of the zeros and of +∞. -/
def Obligations.SpecialValuesOfArithmetic : Prop :=
  ∀ x y : F64,
    (F64.isNaN (F64.add x y) = true ↔
      (F64.isNaN x = true ∨ F64.isNaN y = true ∨
        (F64.isInf x = true ∧ F64.isInf y = true ∧ F64.sign x ≠ F64.sign y))) ∧
    (F64.isNaN (F64.mul x y) = true ↔
      (F64.isNaN x = true ∨ F64.isNaN y = true ∨ (F64.isInf x = true ∧ F64.isZero y = true) ∨
        (F64.isZero x = true ∧ F64.isInf y = true))) ∧
    (F64.isNaN (F64.div x y) = true ↔
      (F64.isNaN x = true ∨ F64.isNaN y = true ∨ (F64.isInf x = true ∧ F64.isInf y = true) ∨
        (F64.isZero x = true ∧ F64.isZero y = true))) ∧
    (F64.isNaN (F64.sqrt x) = true ↔ (F64.isNaN x = true ∨ (F64.sign x = true ∧ F64.isZero x = false))) ∧
    (∀ r ∈ [F64.add x y, F64.sub x y, F64.mul x y, F64.div x y, F64.sqrt x],
      F64.isNaN r = true → r = 0x7FF8000000000000) ∧
    (F64.isFinite x = true → F64.isFinite y = true → F64.val x + F64.val y = 0 →
      F64.add x y = if F64.sign x && F64.sign y then 0x8000000000000000 else 0x0000000000000000) ∧
    F64.sub x y = F64.add x (F64.neg y) ∧
    (F64.isInf x = true → F64.isFinite y = true → F64.add x y = x ∧ F64.add y x = x) ∧
    (F64.isInf x = true → F64.add x x = x) ∧
    (F64.isNaN (F64.mul x y) = false →
      F64.sign (F64.mul x y) = (F64.sign x != F64.sign y) ∧
      ((F64.isInf x = true ∨ F64.isInf y = true) → F64.isInf (F64.mul x y) = true) ∧
      ((F64.isZero x = true ∨ F64.isZero y = true) → F64.isZero (F64.mul x y) = true)) ∧
    (F64.isNaN (F64.div x y) = false →
      F64.sign (F64.div x y) = (F64.sign x != F64.sign y) ∧
      ((F64.isInf x = true ∨ F64.isZero y = true) → F64.isInf (F64.div x y) = true) ∧
      ((F64.isZero x = true ∨ F64.isInf y = true) → F64.isZero (F64.div x y) = true)) ∧
    (F64.isZero x = true → F64.sqrt x = x) ∧
    F64.sqrt 0x7FF0000000000000 = 0x7FF0000000000000

/-- Integers up to 2^53 convert exactly, and the comparisons are those of the values, false with a NaN, with +0 = -0
(00_scope.md R17). -/
def Obligations.IntegersAndComparisonsAreExact : Prop :=
  (∀ n : Int, |n| ≤ 2 ^ 53 → F64.isFinite (F64.ofInt n) = true ∧ F64.val (F64.ofInt n) = n) ∧
  (∀ x y : F64, (F64.isNaN x = true ∨ F64.isNaN y = true) →
    F64.lt x y = false ∧ F64.le x y = false ∧ F64.eq x y = false) ∧
  (∀ x y : F64, F64.isNaN x = false → F64.isNaN y = false →
    (F64.lt x y = true ↔ F64.val x < F64.val y) ∧ (F64.le x y = true ↔ F64.val x ≤ F64.val y) ∧
    (F64.eq x y = true ↔ F64.val x = F64.val y)) ∧
  (∀ x : F64, F64.isFinite x = true →
    F64.lt x (F64.inf false) = true ∧ F64.lt (F64.inf true) x = true) ∧
  F64.eq 0x0000000000000000 0x8000000000000000 = true

/-- TRIG-SYM, TRIG-HALF and TRIG-NAN (00_scope.md R20). TRIG-SYM is stated for finite arguments: a NaN has no sign to keep
(notes/assumptions/6.md). -/
def Obligations.TrigExactProperties : Prop :=
  ∀ (tol : ℚ) (x : F64),
    (F64.isFinite x = true →
      numSinPi tol (F64.neg x) = F64.neg (numSinPi tol x) ∧ numCosPi tol (F64.neg x) = numCosPi tol x) ∧
    (F64.isFinite x = false → numSinPi tol x = 0x7FF8000000000000 ∧ numCosPi tol x = 0x7FF8000000000000) ∧
    (∀ k : Int, F64.isFinite x = true → F64.val x = k →
      numSinPi tol x = (if F64.sign x then 0x8000000000000000 else 0x0000000000000000) ∧
      numCosPi tol x = if k % 2 = 0 then 0x3FF0000000000000 else 0xBFF0000000000000) ∧
    (∀ k : Int, F64.isFinite x = true → F64.val x = k + 1 / 2 →
      numSinPi tol x = (if k % 2 = 0 then 0x3FF0000000000000 else 0xBFF0000000000000) ∧
      numCosPi tol x = 0x0000000000000000)

/-- TRIG-ACC (00_scope.md R20): for a TRIG_TOL of at least 2^-52, and for every smaller one wherever some binary64 number is
that close; where none is, no function has the property (notes/assumptions/6.md). -/
def Obligations.TrigAccuracy : Prop :=
  ∀ (tol : ℚ) (x : F64), F64.isFinite x = true →
    (1 / 2 ^ 52 ≤ tol →
      |(F64.val (numSinPi tol x) : ℝ) - Real.sin (Real.pi * F64.val x)| ≤ tol ∧
      |(F64.val (numCosPi tol x) : ℝ) - Real.cos (Real.pi * F64.val x)| ≤ tol) ∧
    (∀ z : F64, F64.isFinite z = true → |(F64.val z : ℝ) - Real.sin (Real.pi * F64.val x)| ≤ tol →
      F64.isFinite (numSinPi tol x) = true ∧
        |(F64.val (numSinPi tol x) : ℝ) - Real.sin (Real.pi * F64.val x)| ≤ tol) ∧
    (∀ z : F64, F64.isFinite z = true → |(F64.val z : ℝ) - Real.cos (Real.pi * F64.val x)| ≤ tol →
      F64.isFinite (numCosPi tol x) = true ∧
        |(F64.val (numCosPi tol x) : ℝ) - Real.cos (Real.pi * F64.val x)| ≤ tol)

/-- IDFT-ACC (00_scope.md R21): for a bound of at least 2^-40 and inputs whose greatest modulus lies in [2^-960, 2^1000], and
for every other bound and finite input wherever some binary64 sample is that close; where none is, no function has the
property (notes/assumptions/7.md). -/
def Obligations.IdftAccuracy : Prop :=
  ∀ (tol : ℚ) (j : Nat) (X : List Sample) (n : Nat), X.length = 2 ^ j → n < 2 ^ j → allFinite X = true →
    ∃ z, (numIdft tol (2 ^ j) X)[n]? = some z ∧
      (1 / 2 ^ 40 ≤ tol → (1 / 2 ^ 960 : ℝ) ≤ Config.maxModulus X → Config.maxModulus X ≤ 2 ^ 1000 →
        |(F64.val z.re : ℝ) - Config.idealRe (2 ^ j) X n| ≤ tol * Config.maxModulus X ∧
        |(F64.val z.im : ℝ) - Config.idealIm (2 ^ j) X n| ≤ tol * Config.maxModulus X) ∧
      (∀ w, Config.IdftClose tol (2 ^ j) X n w → Config.IdftClose tol (2 ^ j) X n z)

/-- IDFT-ZERO and IDFT-ONE, and N samples come out (00_scope.md R21). -/
def Obligations.IdftExactProperties : Prop :=
  ∀ (tol : ℚ) (N : Nat) (X : List Sample), X.length = N →
    (numIdft tol N X).length = N ∧
    (N = 1 → numIdft tol N X = X) ∧
    ((∀ z ∈ X, F64.val z.re = 0 ∧ F64.val z.im = 0) →
      ∀ z ∈ numIdft tol N X, F64.val z.re = 0 ∧ F64.val z.im = 0)

/-! ## The host's side -/

/-- A CTRL write with START and no SRST, while BUSY = 0: the latched copies, the cleared report, BUSY; MISSED stays, IRQ_EN
takes bit 2, IRQ falls, and nothing is checked: an illegal word is accepted too, and ENGINE's step reports it
(60_exceptions.md R261). -/
def Obligations.StartIsAccepted : Prop :=
  ∀ (s : State) (w : Word), s.status.busy = false → w.getLsbD 0 = true → w.getLsbD 1 = false →
    ∃ t, s.regAccess (.write 0x008 4 w) = .next t ∧ t.irq = false ∧
      t = { s with
        irqEn := w.getLsbD 2
        latched := ⟨s.cmd, s.args.src, s.args.dst, s.args.count, s.args.aux, s.args.p0, s.args.p1, s.args.p2,
          s.args.f0.hi ++ s.args.f0.lo, s.args.f1.hi ++ s.args.f1.lo, s.args.f2.hi ++ s.args.f2.lo⟩
        status := ⟨true, false, false, s.status.missed, 0, 0, 0⟩
        errIdx := 0, outLen := 0, clampCnt := 0, resF0 := ⟨0, 0⟩, resF1 := ⟨0, 0⟩ } ∧
      ∀ sub idx, decode s.cmd = .illegal sub idx → ∃ u, t.runLatched = .next u ∧ EndsBadly t u 0x10 sub idx

/-- A CTRL write with START and no SRST, while BUSY = 1, sets MISSED and IRQ_EN and nothing else (60_exceptions.md R262). -/
def Obligations.StartWhileBusyIsMissed : Prop :=
  ∀ (s : State) (w : Word), s.status.busy = true → w.getLsbD 0 = true → w.getLsbD 1 = false →
    s.regAccess (.write 0x008 4 w) =
      .next { s with irqEn := w.getLsbD 2, status := { s.status with missed := true } }

/-- The soft reset: every register at its reset value, IDLE, IRQ low, whatever bits 0 and 2 of the write, and then the held
accesses take effect, oldest first. Before they do (in `u`), while IDLE the sample memory is as it was; while BUSY the command
is abandoned, no byte outside its destination region has changed, and none at all where its word is illegal or its operands
or regions fail a check (70_reset_and_hazards.md R290, R292, R293, 10_state.md R39, R63, 20_memory.md R80; which checks count
is notes/assumptions/5.md; the latched command and the frame buffer are not mentioned). -/
def Obligations.SoftReset : Prop :=
  ∀ (s : State) (w : Word), w.getLsbD 1 = true →
    ∃ u t, s.regAccess (.write 0x008 4 w) = .next t ∧ AccessesDone u s.held t ∧
      (∀ off, off ≠ 0x080 → off ≠ 0x084 → t.readWindow off = State.reset.readWindow off) ∧
      t.status = ⟨false, false, false, false, 0, 0, 0⟩ ∧ t.irq = false ∧ t.powerOns = s.powerOns ∧
      t.params = s.params ∧ t.inputs = s.inputs ∧ t.held = [] ∧ u.replies = s.replies ∧
      (s.status.busy = false → u.mem = s.mem) ∧
      (s.status.busy = true →
        (∀ sub idx, decode s.latched.cmd = .illegal sub idx → BytesKept s u) ∧
        (∀ i, decode s.latched.cmd = .command i →
          BytesKeptOutside s u (planOf i s).dst.base (planOf i s).dst.len ∧
          (firstFailure (planOf i s).early ≠ none → BytesKept s u)))

/-- The power-on reset: every register at its reset value, IDLE, IRQ low, and no byte of the memory written yet
(70_reset_and_hazards.md R291, 20_memory.md R92). That the accesses held before it then take effect, on the fresh memory of
`u`, is the model's reading of 20_memory.md R80 (notes/assumptions/10.md). -/
def Obligations.PowerOnReset : Prop :=
  ∀ (s : State) (rest : List Input), s.inputs = .powerOn :: rest →
    ∃ u t, step s = .next t ∧ AccessesDone u s.held t ∧ u.mem = [] ∧ u.replies = s.replies ∧
      (∀ off, off ≠ 0x080 → off ≠ 0x084 → t.readWindow off = State.reset.readWindow off) ∧
      t.status = ⟨false, false, false, false, 0, 0, 0⟩ ∧ t.irq = false ∧ t.inputs = rest ∧ t.held = [] ∧
      t.params = s.params

/-- CMD and the operand registers: which one each offset writes and reads, the halves of an f64 operand among them; each reads
back what is written, at any time, and no other register, the memory or the running command changes (10_state.md R33, R35, R52
to R54, R58, 70_reset_and_hazards.md R297). -/
def Obligations.OperandRegistersHoldWhatIsWritten : Prop :=
  (∀ (s : State) (w : Word),
    let takes (off : Nat) (a : Args) : Prop := s.regAccess (.write off 4 w) = .next { s with args := a }
    s.regAccess (.write 0x010 4 w) = .next { s with cmd := w } ∧
    takes 0x020 { s.args with src := w } ∧ takes 0x024 { s.args with dst := w } ∧
    takes 0x028 { s.args with count := w } ∧ takes 0x02C { s.args with aux := w } ∧
    takes 0x030 { s.args with p0 := w } ∧ takes 0x034 { s.args with p1 := w } ∧ takes 0x038 { s.args with p2 := w } ∧
    takes 0x040 { s.args with f0 := ⟨w, s.args.f0.hi⟩ } ∧ takes 0x044 { s.args with f0 := ⟨s.args.f0.lo, w⟩ } ∧
    takes 0x048 { s.args with f1 := ⟨w, s.args.f1.hi⟩ } ∧ takes 0x04C { s.args with f1 := ⟨s.args.f1.lo, w⟩ } ∧
    takes 0x050 { s.args with f2 := ⟨w, s.args.f2.hi⟩ } ∧ takes 0x054 { s.args with f2 := ⟨s.args.f2.lo, w⟩ }) ∧
  (∀ s : State,
    [0x010, 0x020, 0x024, 0x028, 0x02C, 0x030, 0x034, 0x038].map s.readWindow =
      [s.cmd, s.args.src, s.args.dst, s.args.count, s.args.aux, s.args.p0, s.args.p1, s.args.p2] ∧
    [0x040, 0x044, 0x048, 0x04C, 0x050, 0x054].map s.readWindow =
      [s.args.f0.lo, s.args.f0.hi, s.args.f1.lo, s.args.f1.hi, s.args.f2.lo, s.args.f2.hi]) ∧
  ∀ (s : State) (off : Nat) (w : Word),
    off ∈ [0x010, 0x020, 0x024, 0x028, 0x02C, 0x030, 0x034, 0x038, 0x040, 0x044, 0x048, 0x04C, 0x050, 0x054] →
    ∃ t, s.regAccess (.write off 4 w) = .next t ∧ t.readWindow off = w ∧
      (∀ other, other ≠ off → t.readWindow other = s.readWindow other) ∧
      t.mem = s.mem ∧ t.latched = s.latched ∧ t.status = s.status ∧ t.irqEn = s.irqEn ∧ t.inputs = s.inputs ∧
      t.held = s.held ∧ t.replies = s.replies ∧ t.frame = s.frame ∧ t.powerOns = s.powerOns ∧ t.params = s.params

/-- A write of a read-only register or of an offset no register occupies changes nothing, and neither do the read-only and
reserved bits of a write to CTRL or STATUS (10_state.md R34). -/
def Obligations.ReadOnlyWritesChangeNothing : Prop :=
  (∀ (s : State) (off : Nat) (w : Word), off % 4 = 0 → off < 256 →
    off ∉ [0x008, 0x00C, 0x010, 0x020, 0x024, 0x028, 0x02C, 0x030, 0x034, 0x038, 0x040, 0x044, 0x048, 0x04C, 0x050,
      0x054] → s.regAccess (.write off 4 w) = .next s) ∧
  (∀ (s : State) (w : Word), s.regAccess (.write 0x008 4 w) = s.regAccess (.write 0x008 4 (w &&& 0x00000007))) ∧
  (∀ (s : State) (w : Word), s.regAccess (.write 0x00C 4 w) = s.regAccess (.write 0x00C 4 (w &&& 0x0000000E)))

/-- The constants the host reads: ID, VERSION, MEMSIZE and the fields of CAPS, with legal parameters (10_state.md R36, R37,
R50, R51); reading changes nothing but what the host has read. -/
def Obligations.IdentityRegistersReadTheirConstants : Prop :=
  ∀ (s : State) (k : Nat), s.params.maxFft = 2 ^ k → k < 16 → s.params.maxTaps < 2 ^ 16 →
    let reads (off : Nat) (v : Word) : Prop :=
      s.regAccess (.read off 4) = .next { s with replies := s.replies ++ [v.setWidth 64] }
    reads 0x000 0x49514D31 ∧ reads 0x004 0x00070001 ∧
    (∃ v, reads 0x080 v ∧ v.toNat = s.params.memBytes % 2 ^ 32) ∧
    (∃ v, reads 0x084 v ∧ v.toNat = k + 2 ^ 8 * 16 + 2 ^ 16 * s.params.maxTaps)

/-- START and SRST read 0; a write of CTRL with both 0 changes IRQ_EN alone, and one with SRST does the same whatever START is
(10_state.md R38 to R40). -/
def Obligations.ControlBitsReadZero : Prop :=
  ∀ (s : State) (w : Word),
    (s.readWindow 0x008).toNat = (if s.irqEn then 4 else 0) ∧
    (w.getLsbD 0 = false → w.getLsbD 1 = false →
      s.regAccess (.write 0x008 4 w) = .next { s with irqEn := w.getLsbD 2 }) ∧
    (w.getLsbD 1 = true → s.regAccess (.write 0x008 4 w) = s.regAccess (.write 0x008 4 0x00000002))

/-- STATUS: where each flag and field stands in the word the host reads, with bits 7:4 as 0; a write clears DONE, ERR and
MISSED where its bits 1, 2 and 3 are 1 and leaves everything else, so that clearing DONE drops IRQ (10_state.md R42 to R46,
60_exceptions.md R270, R271); and a read of ERRIDX, OUTLEN, CLAMPCNT or a half of RES_F0 or RES_F1 returns that register and
changes nothing but what the host has read (10_state.md R33, R35, R48, R49, R55). -/
def Obligations.StatusReadsAndAcknowledges : Prop :=
  ∀ (s : State) (w : Word),
    (let r := s.readWindow 0x00C
    r.getLsbD 0 = s.status.busy ∧ r.getLsbD 1 = s.status.done ∧ r.getLsbD 2 = s.status.err ∧
      r.getLsbD 3 = s.status.missed ∧ r.extractLsb' 4 4 = 0 ∧ r.extractLsb' 8 8 = s.status.errCode ∧
      r.extractLsb' 16 8 = s.status.errSub ∧ r.extractLsb' 24 8 = s.status.errOp) ∧
    (∃ t, s.regAccess (.write 0x00C 4 w) = .next t ∧
      t = { s with status := { s.status with
        done := s.status.done && !w.getLsbD 1, err := s.status.err && !w.getLsbD 2,
        missed := s.status.missed && !w.getLsbD 3 } } ∧
      (w.getLsbD 1 = true → t.irq = false)) ∧
    (let reads (off : Nat) (v : Word) : Prop :=
      s.regAccess (.read off 4) = .next { s with replies := s.replies ++ [v.setWidth 64] }
    reads 0x00C (s.readWindow 0x00C) ∧ reads 0x014 s.errIdx ∧ reads 0x018 s.outLen ∧ reads 0x01C s.clampCnt ∧
      reads 0x060 s.resF0.lo ∧ reads 0x064 s.resF0.hi ∧ reads 0x068 s.resF1.lo ∧ reads 0x06C s.resF1.hi)

/-- A host access of the sample memory while BUSY = 0: a write puts its bytes little-endian and leaves every other byte, a
read returns the bytes; both leave every register (20_memory.md R71, R72, R79, R81, R94). -/
def Obligations.HostMemoryAccess : Prop :=
  ∀ (s : State) (a n : Nat) (v : BitVec 64), n ∈ [1, 2, 4, 8] → a % n = 0 → a + n ≤ s.params.memBytes →
    s.status.busy = false →
    (∃ t, s.memAccess (.write a n v) = .next t ∧ t = { s with mem := t.mem } ∧ BytesKeptOutside s t a n ∧
      (∀ k < n, t.readByte (a + k) = BitVec.ofNat 8 (v.toNat / 2 ^ (8 * k))) ∧
      t.memRead a n = v.toNat % 2 ^ (8 * n)) ∧
    (∃ r : BitVec 64, s.memAccess (.read a n) = .next { s with replies := s.replies ++ [r] } ∧
      ∀ k < 8, r.extractLsb' (8 * k) 8 = if k < n then s.readByte (a + k) else 0)

/-- A host access of the sample memory while BUSY = 1 is held behind those already held: nothing happens until ENGINE's step,
after which every held access takes effect on what the command left, oldest first (20_memory.md R80, R87, 60_exceptions.md
R260). -/
def Obligations.AccessesAreHeldWhileBusy : Prop :=
  ∀ s : State, s.status.busy = true →
    (∀ m : MemAccess, memAccessOk s.params.memBytes m.span.1 m.span.2 = true →
      s.memAccess m = .next { s with held := s.held ++ [m] }) ∧
    ∃ t u, s.runLatched = .next t ∧ s.engineStep = .next u ∧ t.status.busy = false ∧ t.held = s.held ∧
      u.held = [] ∧ u.status = t.status ∧ AccessesDone { t with held := [] } s.held u

/-- Accesses the spec has a model refuse are refused by name, and change nothing (10_state.md R31, 20_memory.md R79). -/
def Obligations.MalformedAccessesAreRefused : Prop :=
  ∀ (s : State) (off n : Nat) (w : Word) (v : BitVec 64),
    ((n ≠ 4 ∨ off % 4 ≠ 0 ∨ 256 ≤ off) →
      s.regAccess (.read off n) = .refused (.registerAccess off n) ∧
      s.regAccess (.write off n w) = .refused (.registerAccess off n)) ∧
    ((n ∉ [1, 2, 4, 8] ∨ off % n ≠ 0 ∨ s.params.memBytes < off + n) →
      s.memAccess (.read off n) = .refused (.memoryAccess off n) ∧
      s.memAccess (.write off n v) = .refused (.memoryAccess off n))

/-- Where the host's next access leads. A step takes it off the list and performs it, in the order the host issues its accesses
(20_memory.md R87, 60_exceptions.md R273); a WAIT reads STATUS, and is over where DONE = 1 (30_encoding.md R114); and where an
access is held and the interconnect lets none pass it, the host waits and ENGINE moves (20_memory.md R80). A host address leads
to the register window at HOST_REG_BASE, to the sample memory at HOST_MEM_BASE, and nowhere else (20_memory.md R71, R83). The
list of inputs and who moves, the ENGINE turn between two polls and the idle one, the fault, and the low 32 bits of a register
write are the model's choices (notes/assumptions/9.md, 13.md, 18.md, 3.md, 15.md); the bases are the platform's. -/
def Obligations.BusAddressesReachTheWindows : Prop :=
  (∀ (s : State) (x : Input) (rest : List Input), s.inputs = x :: rest →
    (x = .engine → step s = State.engineStep { s with inputs := rest }) ∧
    ((s.status.busy = false ∨ s.held = [] ∨ s.params.hostOverlap = true) →
      (∀ a, x = .reg a → step s = State.regAccess { s with inputs := rest } a) ∧
      (∀ a, x = .mem a → step s = State.memAccess { s with inputs := rest } a) ∧
      (∀ addr n, x = .busRead addr n → step s = State.busRead { s with inputs := rest } addr n) ∧
      (∀ addr n v, x = .busWrite addr n v → step s = State.busWrite { s with inputs := rest } addr n v) ∧
      (x = .wait → step s = .next { s with
        replies := s.replies ++ [(s.readWindow 0x00C).setWidth 64]
        inputs := if s.status.done then rest else .engine :: .wait :: rest })) ∧
    (s.status.busy = true → s.held ≠ [] → s.params.hostOverlap = false → x ≠ .engine → x ≠ .powerOn →
      step s = s.engineStep)) ∧
  ∀ (s : State) (off n : Nat) (v : BitVec 64), s.params.legal →
    (off < 256 → s.busRead (s.params.hostRegBase + off) n = s.regAccess (.read off n) ∧
      s.busWrite (s.params.hostRegBase + off) n v = s.regAccess (.write off n (v.setWidth 32))) ∧
    (off < s.params.memBytes → s.busRead (s.params.hostMemBase + off) n = s.memAccess (.read off n) ∧
      s.busWrite (s.params.hostMemBase + off) n v = s.memAccess (.write off n v)) ∧
    (∀ addr, (addr < s.params.hostRegBase ∨ s.params.hostRegBase + 256 ≤ addr) →
      (addr < s.params.hostMemBase ∨ s.params.hostMemBase + s.params.memBytes ≤ addr) →
      s.busRead addr n = .fault (.noSuchAddress addr) ∧ s.busWrite addr n v = .fault (.noSuchAddress addr))

end
end

