-- ==== Sys2Proof/Laws/State.lean ====
section
/-! SUPPORT. What each update of the state leaves and what it sets, field by field. -/

namespace Sys2Proof.Machine

/-! ## memWrite -/

@[simp] theorem State.memWrite_params (s : State) (a n v : Nat) : (s.memWrite a n v).params = s.params := rfl
@[simp] theorem State.memWrite_irqEn (s : State) (a n v : Nat) : (s.memWrite a n v).irqEn = s.irqEn := rfl
@[simp] theorem State.memWrite_status (s : State) (a n v : Nat) : (s.memWrite a n v).status = s.status := rfl
@[simp] theorem State.memWrite_cmd (s : State) (a n v : Nat) : (s.memWrite a n v).cmd = s.cmd := rfl
@[simp] theorem State.memWrite_errIdx (s : State) (a n v : Nat) : (s.memWrite a n v).errIdx = s.errIdx := rfl
@[simp] theorem State.memWrite_outLen (s : State) (a n v : Nat) : (s.memWrite a n v).outLen = s.outLen := rfl
@[simp] theorem State.memWrite_clampCnt (s : State) (a n v : Nat) : (s.memWrite a n v).clampCnt = s.clampCnt := rfl
@[simp] theorem State.memWrite_args (s : State) (a n v : Nat) : (s.memWrite a n v).args = s.args := rfl
@[simp] theorem State.memWrite_resF0 (s : State) (a n v : Nat) : (s.memWrite a n v).resF0 = s.resF0 := rfl
@[simp] theorem State.memWrite_resF1 (s : State) (a n v : Nat) : (s.memWrite a n v).resF1 = s.resF1 := rfl
@[simp] theorem State.memWrite_latched (s : State) (a n v : Nat) : (s.memWrite a n v).latched = s.latched := rfl
@[simp] theorem State.memWrite_frame (s : State) (a n v : Nat) : (s.memWrite a n v).frame = s.frame := rfl
@[simp] theorem State.memWrite_mem (s : State) (a n v : Nat) : (s.memWrite a n v).mem = Memory.writeLE s.mem a n v := rfl
@[simp] theorem State.memWrite_powerOns (s : State) (a n v : Nat) : (s.memWrite a n v).powerOns = s.powerOns := rfl
@[simp] theorem State.memWrite_abandons (s : State) (a n v : Nat) : (s.memWrite a n v).abandons = s.abandons := rfl
@[simp] theorem State.memWrite_inputs (s : State) (a n v : Nat) : (s.memWrite a n v).inputs = s.inputs := rfl
@[simp] theorem State.memWrite_held (s : State) (a n v : Nat) : (s.memWrite a n v).held = s.held := rfl
@[simp] theorem State.memWrite_replies (s : State) (a n v : Nat) : (s.memWrite a n v).replies = s.replies := rfl

/-! ## writeSamples -/

@[simp] theorem State.writeSamples_params (s : State) (a : Nat) (l : List Sample) : (s.writeSamples a l).params = s.params := rfl
@[simp] theorem State.writeSamples_irqEn (s : State) (a : Nat) (l : List Sample) : (s.writeSamples a l).irqEn = s.irqEn := rfl
@[simp] theorem State.writeSamples_status (s : State) (a : Nat) (l : List Sample) : (s.writeSamples a l).status = s.status := rfl
@[simp] theorem State.writeSamples_cmd (s : State) (a : Nat) (l : List Sample) : (s.writeSamples a l).cmd = s.cmd := rfl
@[simp] theorem State.writeSamples_errIdx (s : State) (a : Nat) (l : List Sample) : (s.writeSamples a l).errIdx = s.errIdx := rfl
@[simp] theorem State.writeSamples_outLen (s : State) (a : Nat) (l : List Sample) : (s.writeSamples a l).outLen = s.outLen := rfl
@[simp] theorem State.writeSamples_clampCnt (s : State) (a : Nat) (l : List Sample) : (s.writeSamples a l).clampCnt = s.clampCnt := rfl
@[simp] theorem State.writeSamples_args (s : State) (a : Nat) (l : List Sample) : (s.writeSamples a l).args = s.args := rfl
@[simp] theorem State.writeSamples_resF0 (s : State) (a : Nat) (l : List Sample) : (s.writeSamples a l).resF0 = s.resF0 := rfl
@[simp] theorem State.writeSamples_resF1 (s : State) (a : Nat) (l : List Sample) : (s.writeSamples a l).resF1 = s.resF1 := rfl
@[simp] theorem State.writeSamples_latched (s : State) (a : Nat) (l : List Sample) : (s.writeSamples a l).latched = s.latched := rfl
@[simp] theorem State.writeSamples_frame (s : State) (a : Nat) (l : List Sample) : (s.writeSamples a l).frame = s.frame := rfl
@[simp] theorem State.writeSamples_mem (s : State) (a : Nat) (l : List Sample) : (s.writeSamples a l).mem = Memory.writeArray Memory.putSample 16 s.mem a l := rfl
@[simp] theorem State.writeSamples_powerOns (s : State) (a : Nat) (l : List Sample) : (s.writeSamples a l).powerOns = s.powerOns := rfl
@[simp] theorem State.writeSamples_abandons (s : State) (a : Nat) (l : List Sample) : (s.writeSamples a l).abandons = s.abandons := rfl
@[simp] theorem State.writeSamples_inputs (s : State) (a : Nat) (l : List Sample) : (s.writeSamples a l).inputs = s.inputs := rfl
@[simp] theorem State.writeSamples_held (s : State) (a : Nat) (l : List Sample) : (s.writeSamples a l).held = s.held := rfl
@[simp] theorem State.writeSamples_replies (s : State) (a : Nat) (l : List Sample) : (s.writeSamples a l).replies = s.replies := rfl

/-! ## writeReals -/

@[simp] theorem State.writeReals_params (s : State) (a : Nat) (l : List F64) : (s.writeReals a l).params = s.params := rfl
@[simp] theorem State.writeReals_irqEn (s : State) (a : Nat) (l : List F64) : (s.writeReals a l).irqEn = s.irqEn := rfl
@[simp] theorem State.writeReals_status (s : State) (a : Nat) (l : List F64) : (s.writeReals a l).status = s.status := rfl
@[simp] theorem State.writeReals_cmd (s : State) (a : Nat) (l : List F64) : (s.writeReals a l).cmd = s.cmd := rfl
@[simp] theorem State.writeReals_errIdx (s : State) (a : Nat) (l : List F64) : (s.writeReals a l).errIdx = s.errIdx := rfl
@[simp] theorem State.writeReals_outLen (s : State) (a : Nat) (l : List F64) : (s.writeReals a l).outLen = s.outLen := rfl
@[simp] theorem State.writeReals_clampCnt (s : State) (a : Nat) (l : List F64) : (s.writeReals a l).clampCnt = s.clampCnt := rfl
@[simp] theorem State.writeReals_args (s : State) (a : Nat) (l : List F64) : (s.writeReals a l).args = s.args := rfl
@[simp] theorem State.writeReals_resF0 (s : State) (a : Nat) (l : List F64) : (s.writeReals a l).resF0 = s.resF0 := rfl
@[simp] theorem State.writeReals_resF1 (s : State) (a : Nat) (l : List F64) : (s.writeReals a l).resF1 = s.resF1 := rfl
@[simp] theorem State.writeReals_latched (s : State) (a : Nat) (l : List F64) : (s.writeReals a l).latched = s.latched := rfl
@[simp] theorem State.writeReals_frame (s : State) (a : Nat) (l : List F64) : (s.writeReals a l).frame = s.frame := rfl
@[simp] theorem State.writeReals_mem (s : State) (a : Nat) (l : List F64) : (s.writeReals a l).mem = Memory.writeArray Memory.putF64 8 s.mem a l := rfl
@[simp] theorem State.writeReals_powerOns (s : State) (a : Nat) (l : List F64) : (s.writeReals a l).powerOns = s.powerOns := rfl
@[simp] theorem State.writeReals_abandons (s : State) (a : Nat) (l : List F64) : (s.writeReals a l).abandons = s.abandons := rfl
@[simp] theorem State.writeReals_inputs (s : State) (a : Nat) (l : List F64) : (s.writeReals a l).inputs = s.inputs := rfl
@[simp] theorem State.writeReals_held (s : State) (a : Nat) (l : List F64) : (s.writeReals a l).held = s.held := rfl
@[simp] theorem State.writeReals_replies (s : State) (a : Nat) (l : List F64) : (s.writeReals a l).replies = s.replies := rfl

/-! ## writeCodes -/

@[simp] theorem State.writeCodes_params (s : State) (a : Nat) (l : List Nat) : (s.writeCodes a l).params = s.params := rfl
@[simp] theorem State.writeCodes_irqEn (s : State) (a : Nat) (l : List Nat) : (s.writeCodes a l).irqEn = s.irqEn := rfl
@[simp] theorem State.writeCodes_status (s : State) (a : Nat) (l : List Nat) : (s.writeCodes a l).status = s.status := rfl
@[simp] theorem State.writeCodes_cmd (s : State) (a : Nat) (l : List Nat) : (s.writeCodes a l).cmd = s.cmd := rfl
@[simp] theorem State.writeCodes_errIdx (s : State) (a : Nat) (l : List Nat) : (s.writeCodes a l).errIdx = s.errIdx := rfl
@[simp] theorem State.writeCodes_outLen (s : State) (a : Nat) (l : List Nat) : (s.writeCodes a l).outLen = s.outLen := rfl
@[simp] theorem State.writeCodes_clampCnt (s : State) (a : Nat) (l : List Nat) : (s.writeCodes a l).clampCnt = s.clampCnt := rfl
@[simp] theorem State.writeCodes_args (s : State) (a : Nat) (l : List Nat) : (s.writeCodes a l).args = s.args := rfl
@[simp] theorem State.writeCodes_resF0 (s : State) (a : Nat) (l : List Nat) : (s.writeCodes a l).resF0 = s.resF0 := rfl
@[simp] theorem State.writeCodes_resF1 (s : State) (a : Nat) (l : List Nat) : (s.writeCodes a l).resF1 = s.resF1 := rfl
@[simp] theorem State.writeCodes_latched (s : State) (a : Nat) (l : List Nat) : (s.writeCodes a l).latched = s.latched := rfl
@[simp] theorem State.writeCodes_frame (s : State) (a : Nat) (l : List Nat) : (s.writeCodes a l).frame = s.frame := rfl
@[simp] theorem State.writeCodes_mem (s : State) (a : Nat) (l : List Nat) : (s.writeCodes a l).mem = Memory.writeArray Memory.putU16 2 s.mem a l := rfl
@[simp] theorem State.writeCodes_powerOns (s : State) (a : Nat) (l : List Nat) : (s.writeCodes a l).powerOns = s.powerOns := rfl
@[simp] theorem State.writeCodes_abandons (s : State) (a : Nat) (l : List Nat) : (s.writeCodes a l).abandons = s.abandons := rfl
@[simp] theorem State.writeCodes_inputs (s : State) (a : Nat) (l : List Nat) : (s.writeCodes a l).inputs = s.inputs := rfl
@[simp] theorem State.writeCodes_held (s : State) (a : Nat) (l : List Nat) : (s.writeCodes a l).held = s.held := rfl
@[simp] theorem State.writeCodes_replies (s : State) (a : Nat) (l : List Nat) : (s.writeCodes a l).replies = s.replies := rfl

/-! ## succeed -/

@[simp] theorem State.succeed_params (s : State) (n : Nat) : (s.succeed n).params = s.params := rfl
@[simp] theorem State.succeed_irqEn (s : State) (n : Nat) : (s.succeed n).irqEn = s.irqEn := rfl
@[simp] theorem State.succeed_status (s : State) (n : Nat) : (s.succeed n).status = s.status.succeeded := rfl
@[simp] theorem State.succeed_cmd (s : State) (n : Nat) : (s.succeed n).cmd = s.cmd := rfl
@[simp] theorem State.succeed_errIdx (s : State) (n : Nat) : (s.succeed n).errIdx = s.errIdx := rfl
@[simp] theorem State.succeed_outLen (s : State) (n : Nat) : (s.succeed n).outLen = BitVec.ofNat 32 n := rfl
@[simp] theorem State.succeed_clampCnt (s : State) (n : Nat) : (s.succeed n).clampCnt = s.clampCnt := rfl
@[simp] theorem State.succeed_args (s : State) (n : Nat) : (s.succeed n).args = s.args := rfl
@[simp] theorem State.succeed_resF0 (s : State) (n : Nat) : (s.succeed n).resF0 = s.resF0 := rfl
@[simp] theorem State.succeed_resF1 (s : State) (n : Nat) : (s.succeed n).resF1 = s.resF1 := rfl
@[simp] theorem State.succeed_latched (s : State) (n : Nat) : (s.succeed n).latched = s.latched := rfl
@[simp] theorem State.succeed_frame (s : State) (n : Nat) : (s.succeed n).frame = s.frame := rfl
@[simp] theorem State.succeed_mem (s : State) (n : Nat) : (s.succeed n).mem = s.mem := rfl
@[simp] theorem State.succeed_powerOns (s : State) (n : Nat) : (s.succeed n).powerOns = s.powerOns := rfl
@[simp] theorem State.succeed_abandons (s : State) (n : Nat) : (s.succeed n).abandons = s.abandons := rfl
@[simp] theorem State.succeed_inputs (s : State) (n : Nat) : (s.succeed n).inputs = s.inputs := rfl
@[simp] theorem State.succeed_held (s : State) (n : Nat) : (s.succeed n).held = s.held := rfl
@[simp] theorem State.succeed_replies (s : State) (n : Nat) : (s.succeed n).replies = s.replies := rfl

/-! ## succeedMinMax -/

@[simp] theorem State.succeedMinMax_params (s : State) (n : Nat) (lo hi : F64) : (s.succeedMinMax n lo hi).params = s.params := rfl
@[simp] theorem State.succeedMinMax_irqEn (s : State) (n : Nat) (lo hi : F64) : (s.succeedMinMax n lo hi).irqEn = s.irqEn := rfl
@[simp] theorem State.succeedMinMax_status (s : State) (n : Nat) (lo hi : F64) : (s.succeedMinMax n lo hi).status = s.status.succeeded := rfl
@[simp] theorem State.succeedMinMax_cmd (s : State) (n : Nat) (lo hi : F64) : (s.succeedMinMax n lo hi).cmd = s.cmd := rfl
@[simp] theorem State.succeedMinMax_errIdx (s : State) (n : Nat) (lo hi : F64) : (s.succeedMinMax n lo hi).errIdx = s.errIdx := rfl
@[simp] theorem State.succeedMinMax_outLen (s : State) (n : Nat) (lo hi : F64) : (s.succeedMinMax n lo hi).outLen = BitVec.ofNat 32 n := rfl
@[simp] theorem State.succeedMinMax_clampCnt (s : State) (n : Nat) (lo hi : F64) : (s.succeedMinMax n lo hi).clampCnt = s.clampCnt := rfl
@[simp] theorem State.succeedMinMax_args (s : State) (n : Nat) (lo hi : F64) : (s.succeedMinMax n lo hi).args = s.args := rfl
@[simp] theorem State.succeedMinMax_resF0 (s : State) (n : Nat) (lo hi : F64) : (s.succeedMinMax n lo hi).resF0 = Pair.ofF64 lo := rfl
@[simp] theorem State.succeedMinMax_resF1 (s : State) (n : Nat) (lo hi : F64) : (s.succeedMinMax n lo hi).resF1 = Pair.ofF64 hi := rfl
@[simp] theorem State.succeedMinMax_latched (s : State) (n : Nat) (lo hi : F64) : (s.succeedMinMax n lo hi).latched = s.latched := rfl
@[simp] theorem State.succeedMinMax_frame (s : State) (n : Nat) (lo hi : F64) : (s.succeedMinMax n lo hi).frame = s.frame := rfl
@[simp] theorem State.succeedMinMax_mem (s : State) (n : Nat) (lo hi : F64) : (s.succeedMinMax n lo hi).mem = s.mem := rfl
@[simp] theorem State.succeedMinMax_powerOns (s : State) (n : Nat) (lo hi : F64) : (s.succeedMinMax n lo hi).powerOns = s.powerOns := rfl
@[simp] theorem State.succeedMinMax_abandons (s : State) (n : Nat) (lo hi : F64) : (s.succeedMinMax n lo hi).abandons = s.abandons := rfl
@[simp] theorem State.succeedMinMax_inputs (s : State) (n : Nat) (lo hi : F64) : (s.succeedMinMax n lo hi).inputs = s.inputs := rfl
@[simp] theorem State.succeedMinMax_held (s : State) (n : Nat) (lo hi : F64) : (s.succeedMinMax n lo hi).held = s.held := rfl
@[simp] theorem State.succeedMinMax_replies (s : State) (n : Nat) (lo hi : F64) : (s.succeedMinMax n lo hi).replies = s.replies := rfl

/-! ## fail -/

@[simp] theorem State.fail_params (s : State) (r : Raise) : (s.fail r).params = s.params := rfl
@[simp] theorem State.fail_irqEn (s : State) (r : Raise) : (s.fail r).irqEn = s.irqEn := rfl
@[simp] theorem State.fail_status (s : State) (r : Raise) : (s.fail r).status = s.status.failed r.cls.code r.sub (s.latched.cmd.toNat % 2 ^ 8) := rfl
@[simp] theorem State.fail_cmd (s : State) (r : Raise) : (s.fail r).cmd = s.cmd := rfl
@[simp] theorem State.fail_errIdx (s : State) (r : Raise) : (s.fail r).errIdx = BitVec.ofNat 32 r.idx := rfl
@[simp] theorem State.fail_outLen (s : State) (r : Raise) : (s.fail r).outLen = 0 := rfl
@[simp] theorem State.fail_clampCnt (s : State) (r : Raise) : (s.fail r).clampCnt = 0 := rfl
@[simp] theorem State.fail_args (s : State) (r : Raise) : (s.fail r).args = s.args := rfl
@[simp] theorem State.fail_resF0 (s : State) (r : Raise) : (s.fail r).resF0 = Pair.zero := rfl
@[simp] theorem State.fail_resF1 (s : State) (r : Raise) : (s.fail r).resF1 = Pair.zero := rfl
@[simp] theorem State.fail_latched (s : State) (r : Raise) : (s.fail r).latched = s.latched := rfl
@[simp] theorem State.fail_frame (s : State) (r : Raise) : (s.fail r).frame = s.frame := rfl
@[simp] theorem State.fail_mem (s : State) (r : Raise) : (s.fail r).mem = s.mem := rfl
@[simp] theorem State.fail_powerOns (s : State) (r : Raise) : (s.fail r).powerOns = s.powerOns := rfl
@[simp] theorem State.fail_abandons (s : State) (r : Raise) : (s.fail r).abandons = s.abandons := rfl
@[simp] theorem State.fail_inputs (s : State) (r : Raise) : (s.fail r).inputs = s.inputs := rfl
@[simp] theorem State.fail_held (s : State) (r : Raise) : (s.fail r).held = s.held := rfl
@[simp] theorem State.fail_replies (s : State) (r : Raise) : (s.fail r).replies = s.replies := rfl

/-! ## failRange -/

@[simp] theorem State.failRange_params (s : State) (i n k : Nat) : (s.failRange i n k).params = s.params := rfl
@[simp] theorem State.failRange_irqEn (s : State) (i n k : Nat) : (s.failRange i n k).irqEn = s.irqEn := rfl
@[simp] theorem State.failRange_status (s : State) (i n k : Nat) : (s.failRange i n k).status = s.status.failed ErrClass.range.code 1 0x50 := rfl
@[simp] theorem State.failRange_cmd (s : State) (i n k : Nat) : (s.failRange i n k).cmd = s.cmd := rfl
@[simp] theorem State.failRange_errIdx (s : State) (i n k : Nat) : (s.failRange i n k).errIdx = BitVec.ofNat 32 i := rfl
@[simp] theorem State.failRange_outLen (s : State) (i n k : Nat) : (s.failRange i n k).outLen = BitVec.ofNat 32 k := rfl
@[simp] theorem State.failRange_clampCnt (s : State) (i n k : Nat) : (s.failRange i n k).clampCnt = BitVec.ofNat 32 n := rfl
@[simp] theorem State.failRange_args (s : State) (i n k : Nat) : (s.failRange i n k).args = s.args := rfl
@[simp] theorem State.failRange_resF0 (s : State) (i n k : Nat) : (s.failRange i n k).resF0 = s.resF0 := rfl
@[simp] theorem State.failRange_resF1 (s : State) (i n k : Nat) : (s.failRange i n k).resF1 = s.resF1 := rfl
@[simp] theorem State.failRange_latched (s : State) (i n k : Nat) : (s.failRange i n k).latched = s.latched := rfl
@[simp] theorem State.failRange_frame (s : State) (i n k : Nat) : (s.failRange i n k).frame = s.frame := rfl
@[simp] theorem State.failRange_mem (s : State) (i n k : Nat) : (s.failRange i n k).mem = s.mem := rfl
@[simp] theorem State.failRange_powerOns (s : State) (i n k : Nat) : (s.failRange i n k).powerOns = s.powerOns := rfl
@[simp] theorem State.failRange_abandons (s : State) (i n k : Nat) : (s.failRange i n k).abandons = s.abandons := rfl
@[simp] theorem State.failRange_inputs (s : State) (i n k : Nat) : (s.failRange i n k).inputs = s.inputs := rfl
@[simp] theorem State.failRange_held (s : State) (i n k : Nat) : (s.failRange i n k).held = s.held := rfl
@[simp] theorem State.failRange_replies (s : State) (i n k : Nat) : (s.failRange i n k).replies = s.replies := rfl

/-! ## setArgs -/

@[simp] theorem State.setArgs_params (s : State) (f : Args → Args) : (s.setArgs f).params = s.params := rfl
@[simp] theorem State.setArgs_irqEn (s : State) (f : Args → Args) : (s.setArgs f).irqEn = s.irqEn := rfl
@[simp] theorem State.setArgs_status (s : State) (f : Args → Args) : (s.setArgs f).status = s.status := rfl
@[simp] theorem State.setArgs_cmd (s : State) (f : Args → Args) : (s.setArgs f).cmd = s.cmd := rfl
@[simp] theorem State.setArgs_errIdx (s : State) (f : Args → Args) : (s.setArgs f).errIdx = s.errIdx := rfl
@[simp] theorem State.setArgs_outLen (s : State) (f : Args → Args) : (s.setArgs f).outLen = s.outLen := rfl
@[simp] theorem State.setArgs_clampCnt (s : State) (f : Args → Args) : (s.setArgs f).clampCnt = s.clampCnt := rfl
@[simp] theorem State.setArgs_args (s : State) (f : Args → Args) : (s.setArgs f).args = f s.args := rfl
@[simp] theorem State.setArgs_resF0 (s : State) (f : Args → Args) : (s.setArgs f).resF0 = s.resF0 := rfl
@[simp] theorem State.setArgs_resF1 (s : State) (f : Args → Args) : (s.setArgs f).resF1 = s.resF1 := rfl
@[simp] theorem State.setArgs_latched (s : State) (f : Args → Args) : (s.setArgs f).latched = s.latched := rfl
@[simp] theorem State.setArgs_frame (s : State) (f : Args → Args) : (s.setArgs f).frame = s.frame := rfl
@[simp] theorem State.setArgs_mem (s : State) (f : Args → Args) : (s.setArgs f).mem = s.mem := rfl
@[simp] theorem State.setArgs_powerOns (s : State) (f : Args → Args) : (s.setArgs f).powerOns = s.powerOns := rfl
@[simp] theorem State.setArgs_abandons (s : State) (f : Args → Args) : (s.setArgs f).abandons = s.abandons := rfl
@[simp] theorem State.setArgs_inputs (s : State) (f : Args → Args) : (s.setArgs f).inputs = s.inputs := rfl
@[simp] theorem State.setArgs_held (s : State) (f : Args → Args) : (s.setArgs f).held = s.held := rfl
@[simp] theorem State.setArgs_replies (s : State) (f : Args → Args) : (s.setArgs f).replies = s.replies := rfl

/-! ## resetRegisters -/

@[simp] theorem State.resetRegisters_params (s : State)  : (s.resetRegisters).params = s.params := rfl
@[simp] theorem State.resetRegisters_irqEn (s : State)  : (s.resetRegisters).irqEn = State.reset.irqEn := rfl
@[simp] theorem State.resetRegisters_status (s : State)  : (s.resetRegisters).status = State.reset.status := rfl
@[simp] theorem State.resetRegisters_cmd (s : State)  : (s.resetRegisters).cmd = State.reset.cmd := rfl
@[simp] theorem State.resetRegisters_errIdx (s : State)  : (s.resetRegisters).errIdx = State.reset.errIdx := rfl
@[simp] theorem State.resetRegisters_outLen (s : State)  : (s.resetRegisters).outLen = State.reset.outLen := rfl
@[simp] theorem State.resetRegisters_clampCnt (s : State)  : (s.resetRegisters).clampCnt = State.reset.clampCnt := rfl
@[simp] theorem State.resetRegisters_args (s : State)  : (s.resetRegisters).args = State.reset.args := rfl
@[simp] theorem State.resetRegisters_resF0 (s : State)  : (s.resetRegisters).resF0 = State.reset.resF0 := rfl
@[simp] theorem State.resetRegisters_resF1 (s : State)  : (s.resetRegisters).resF1 = State.reset.resF1 := rfl
@[simp] theorem State.resetRegisters_latched (s : State)  : (s.resetRegisters).latched = State.reset.latched := rfl
@[simp] theorem State.resetRegisters_frame (s : State)  : (s.resetRegisters).frame = State.reset.frame := rfl
@[simp] theorem State.resetRegisters_mem (s : State)  : (s.resetRegisters).mem = s.mem := rfl
@[simp] theorem State.resetRegisters_powerOns (s : State)  : (s.resetRegisters).powerOns = s.powerOns := rfl
@[simp] theorem State.resetRegisters_abandons (s : State)  : (s.resetRegisters).abandons = s.abandons := rfl
@[simp] theorem State.resetRegisters_inputs (s : State)  : (s.resetRegisters).inputs = s.inputs := rfl
@[simp] theorem State.resetRegisters_held (s : State)  : (s.resetRegisters).held = s.held := rfl
@[simp] theorem State.resetRegisters_replies (s : State)  : (s.resetRegisters).replies = s.replies := rfl

/-! ## abandon -/

@[simp] theorem State.abandon_params (s : State)  : (s.abandon).params = s.params := rfl
@[simp] theorem State.abandon_irqEn (s : State)  : (s.abandon).irqEn = s.irqEn := rfl
@[simp] theorem State.abandon_status (s : State)  : (s.abandon).status = s.status := rfl
@[simp] theorem State.abandon_cmd (s : State)  : (s.abandon).cmd = s.cmd := rfl
@[simp] theorem State.abandon_errIdx (s : State)  : (s.abandon).errIdx = s.errIdx := rfl
@[simp] theorem State.abandon_outLen (s : State)  : (s.abandon).outLen = s.outLen := rfl
@[simp] theorem State.abandon_clampCnt (s : State)  : (s.abandon).clampCnt = s.clampCnt := rfl
@[simp] theorem State.abandon_args (s : State)  : (s.abandon).args = s.args := rfl
@[simp] theorem State.abandon_resF0 (s : State)  : (s.abandon).resF0 = s.resF0 := rfl
@[simp] theorem State.abandon_resF1 (s : State)  : (s.abandon).resF1 = s.resF1 := rfl
@[simp] theorem State.abandon_latched (s : State)  : (s.abandon).latched = s.latched := rfl
@[simp] theorem State.abandon_frame (s : State)  : (s.abandon).frame = s.frame := rfl
@[simp] theorem State.abandon_mem (s : State)  : (s.abandon).mem = Memory.fill (Config.abandonedByte s.abandons) s.mem s.abandonedRegion.base s.abandonedRegion.len := rfl
@[simp] theorem State.abandon_powerOns (s : State)  : (s.abandon).powerOns = s.powerOns := rfl
@[simp] theorem State.abandon_abandons (s : State)  : (s.abandon).abandons = s.abandons + 1 := rfl
@[simp] theorem State.abandon_inputs (s : State)  : (s.abandon).inputs = s.inputs := rfl
@[simp] theorem State.abandon_held (s : State)  : (s.abandon).held = s.held := rfl
@[simp] theorem State.abandon_replies (s : State)  : (s.abandon).replies = s.replies := rfl

/-! ## poll -/

@[simp] theorem State.poll_params (s : State)  : (s.poll).params = s.params := rfl
@[simp] theorem State.poll_irqEn (s : State)  : (s.poll).irqEn = s.irqEn := rfl
@[simp] theorem State.poll_status (s : State)  : (s.poll).status = s.status := rfl
@[simp] theorem State.poll_cmd (s : State)  : (s.poll).cmd = s.cmd := rfl
@[simp] theorem State.poll_errIdx (s : State)  : (s.poll).errIdx = s.errIdx := rfl
@[simp] theorem State.poll_outLen (s : State)  : (s.poll).outLen = s.outLen := rfl
@[simp] theorem State.poll_clampCnt (s : State)  : (s.poll).clampCnt = s.clampCnt := rfl
@[simp] theorem State.poll_args (s : State)  : (s.poll).args = s.args := rfl
@[simp] theorem State.poll_resF0 (s : State)  : (s.poll).resF0 = s.resF0 := rfl
@[simp] theorem State.poll_resF1 (s : State)  : (s.poll).resF1 = s.resF1 := rfl
@[simp] theorem State.poll_latched (s : State)  : (s.poll).latched = s.latched := rfl
@[simp] theorem State.poll_frame (s : State)  : (s.poll).frame = s.frame := rfl
@[simp] theorem State.poll_mem (s : State)  : (s.poll).mem = s.mem := rfl
@[simp] theorem State.poll_powerOns (s : State)  : (s.poll).powerOns = s.powerOns := rfl
@[simp] theorem State.poll_abandons (s : State)  : (s.poll).abandons = s.abandons := rfl
@[simp] theorem State.poll_inputs (s : State)  : (s.poll).inputs = if s.status.done then s.inputs else .engine :: .wait :: s.inputs := rfl
@[simp] theorem State.poll_held (s : State)  : (s.poll).held = s.held := rfl
@[simp] theorem State.poll_replies (s : State)  : (s.poll).replies = s.replies ++ [s.status.word.setWidth 64] := rfl

/-! ## STATUS -/

@[simp] theorem Status.started_busy (st : Status) : st.started.busy = true := rfl
@[simp] theorem Status.started_done (st : Status) : st.started.done = false := rfl
@[simp] theorem Status.started_err (st : Status) : st.started.err = false := rfl
@[simp] theorem Status.started_missed (st : Status) : st.started.missed = st.missed := rfl
@[simp] theorem Status.started_errCode (st : Status) : st.started.errCode = 0 := rfl
@[simp] theorem Status.started_errSub (st : Status) : st.started.errSub = 0 := rfl
@[simp] theorem Status.started_errOp (st : Status) : st.started.errOp = 0 := rfl
@[simp] theorem Status.startMissed_missed (st : Status) : st.startMissed.missed = true := rfl
@[simp] theorem Status.startMissed_busy (st : Status) : st.startMissed.busy = st.busy := rfl
@[simp] theorem Status.startMissed_done (st : Status) : st.startMissed.done = st.done := rfl
@[simp] theorem Status.startMissed_err (st : Status) : st.startMissed.err = st.err := rfl
@[simp] theorem Status.startMissed_errCode (st : Status) : st.startMissed.errCode = st.errCode := rfl
@[simp] theorem Status.startMissed_errSub (st : Status) : st.startMissed.errSub = st.errSub := rfl
@[simp] theorem Status.startMissed_errOp (st : Status) : st.startMissed.errOp = st.errOp := rfl
@[simp] theorem Status.succeeded_busy (st : Status) : st.succeeded.busy = false := rfl
@[simp] theorem Status.succeeded_done (st : Status) : st.succeeded.done = true := rfl
@[simp] theorem Status.succeeded_err (st : Status) : st.succeeded.err = false := rfl
@[simp] theorem Status.succeeded_missed (st : Status) : st.succeeded.missed = st.missed := rfl
@[simp] theorem Status.succeeded_errCode (st : Status) : st.succeeded.errCode = st.errCode := rfl
@[simp] theorem Status.succeeded_errSub (st : Status) : st.succeeded.errSub = st.errSub := rfl
@[simp] theorem Status.succeeded_errOp (st : Status) : st.succeeded.errOp = st.errOp := rfl
@[simp] theorem Status.failed_busy (st : Status) (c u o : Nat) : (st.failed c u o).busy = false := rfl
@[simp] theorem Status.failed_done (st : Status) (c u o : Nat) : (st.failed c u o).done = true := rfl
@[simp] theorem Status.failed_err (st : Status) (c u o : Nat) : (st.failed c u o).err = true := rfl
@[simp] theorem Status.failed_missed (st : Status) (c u o : Nat) : (st.failed c u o).missed = st.missed := rfl
@[simp] theorem Status.failed_errCode (st : Status) (c u o : Nat) :
    (st.failed c u o).errCode = BitVec.ofNat 8 c := rfl
@[simp] theorem Status.failed_errSub (st : Status) (c u o : Nat) : (st.failed c u o).errSub = BitVec.ofNat 8 u := rfl
@[simp] theorem Status.failed_errOp (st : Status) (c u o : Nat) : (st.failed c u o).errOp = BitVec.ofNat 8 o := rfl
@[simp] theorem Status.w1c_busy (st : Status) (w : Word) : (st.w1c w).busy = st.busy := rfl
@[simp] theorem Status.w1c_errCode (st : Status) (w : Word) : (st.w1c w).errCode = st.errCode := rfl
@[simp] theorem Status.w1c_errSub (st : Status) (w : Word) : (st.w1c w).errSub = st.errSub := rfl
@[simp] theorem Status.w1c_errOp (st : Status) (w : Word) : (st.w1c w).errOp = st.errOp := rfl

end Sys2Proof.Machine
end

