-- ==== Sys2Proof/Laws/Memory.lean ====
section
/-! SUPPORT. The laws of the sample memory: read after write, what a write leaves, and the canonical form, which every
memory operation keeps. -/

namespace Sys2Proof.Machine

/-! ## One byte -/

@[simp] theorem Memory.lookup_insert_self (m : Memory) (a : Nat) (v : Byte) :
    Memory.lookup (Memory.insert m a v) a = some v := by
  induction m with
  | nil => simp [Memory.insert, Memory.lookup]
  | cons e m ih =>
    obtain ⟨b, w⟩ := e
    simp only [Memory.insert]
    split
    · simp [Memory.lookup]
    · split
      · simp [Memory.lookup]
      · simp only [Memory.lookup, ih]
        rw [if_neg (by omega)]

theorem Memory.lookup_insert_ne (m : Memory) {a b : Nat} (v : Byte) (h : b ≠ a) :
    Memory.lookup (Memory.insert m a v) b = Memory.lookup m b := by
  induction m with
  | nil => simp [Memory.insert, Memory.lookup, h.symm]
  | cons e m ih =>
    obtain ⟨c, w⟩ := e
    simp only [Memory.insert]
    split
    · simp [Memory.lookup, h.symm]
    · split
      · next hac => subst hac; simp [Memory.lookup, h.symm]
      · simp only [Memory.lookup, ih]

/-- The canonical form, one entry at a time. -/
theorem Memory.wf_cons (e : Host.Cell) (m : Memory) :
    Memory.wf (e :: m) = true ↔ (∀ f ∈ m.head?, e.1 < f.1) ∧ Memory.wf m = true := by
  cases m with
  | nil => simp [Memory.wf]
  | cons f m => simp [Memory.wf]

/-- Where the memory begins after a write. -/
theorem Memory.head_insert (m : Memory) (a : Nat) (v : Byte) :
    ∀ f ∈ (Memory.insert m a v).head?, f.1 = a ∨ ∃ g ∈ m.head?, f.1 = g.1 := by
  cases m with
  | nil => simp [Memory.insert]
  | cons e m =>
    simp only [Memory.insert]
    split
    · simp
    · split <;> simp_all

theorem Memory.insert_wf {m : Memory} (h : Memory.wf m = true) (a : Nat) (v : Byte) :
    Memory.wf (Memory.insert m a v) = true := by
  induction m with
  | nil => rfl
  | cons e m ih =>
    obtain ⟨b, w⟩ := e
    rw [Memory.wf_cons] at h
    simp only [Memory.insert]
    split
    · rw [Memory.wf_cons, Memory.wf_cons]
      exact ⟨by simpa using ‹a < b›, h⟩
    · split
      · next hab => subst hab; rw [Memory.wf_cons]; exact h
      · rw [Memory.wf_cons]
        refine ⟨fun f hf => ?_, ih h.2⟩
        rcases Memory.head_insert m a v f hf with hfa | ⟨g, hg, hfg⟩
        · simp only [hfa]; omega
        · rw [hfg]; exact h.1 g hg

/-! ## Little-endian numbers -/

theorem Memory.writeLE_wf {m : Memory} (h : Memory.wf m = true) (a n v : Nat) :
    Memory.wf (Memory.writeLE m a n v) = true := by
  induction n generalizing m a v with
  | zero => exact h
  | succ n ih => exact ih (Memory.insert_wf h _ _) _ _

theorem Memory.lookup_writeLE_outside (m : Memory) {a n b : Nat} (v : Nat) (h : b < a ∨ a + n ≤ b) :
    Memory.lookup (Memory.writeLE m a n v) b = Memory.lookup m b := by
  induction n generalizing m a v with
  | zero => rfl
  | succ n ih =>
    rw [Memory.writeLE, ih _ _ (by omega), Memory.lookup_insert_ne _ _ (by omega)]

theorem Memory.lookup_writeLE_inside (m : Memory) (a : Nat) {n i : Nat} (v : Nat) (h : i < n) :
    Memory.lookup (Memory.writeLE m a n v) (a + i) = some (BitVec.ofNat 8 (v / 256 ^ i)) := by
  induction n generalizing m a v i with
  | zero => omega
  | succ n ih =>
    rw [Memory.writeLE]
    cases i with
    | zero => rw [Memory.lookup_writeLE_outside _ _ (by omega)]; simp
    | succ i =>
      rw [show a + (i + 1) = (a + 1) + i by omega, ih _ _ _ (by omega), Nat.div_div_eq_div_mul, pow_succ']

/-- Reading `n` bytes that hold the digits of `v` gives `v`, modulo `256^n`. -/
theorem readLE_digits (f : Nat → Byte) (a n v : Nat) (h : ∀ i < n, f (a + i) = BitVec.ofNat 8 (v / 256 ^ i)) :
    readLE f a n = v % 256 ^ n := by
  induction n generalizing a v with
  | zero => simp [readLE, Nat.mod_one]
  | succ n ih =>
    have h0 := h 0 (by omega)
    have hs : ∀ i < n, f ((a + 1) + i) = BitVec.ofNat 8 (v / 256 / 256 ^ i) := fun i hi => by
      rw [Nat.div_div_eq_div_mul, ← pow_succ', ← h (i + 1) (by omega)]
      congr 1; omega
    rw [readLE, ih (a + 1) (v / 256) hs]
    simp only [Nat.add_zero, pow_zero, Nat.div_one] at h0
    have e : v % (256 * 256 ^ n) = v % 256 + 256 * (v / 256 % 256 ^ n) := Nat.mod_mul
    rw [h0, BitVec.toNat_ofNat, pow_succ' 256 n, e]

/-- A read depends on the bytes it covers alone. -/
theorem readLE_congr {f g : Nat → Byte} {a n : Nat} (h : ∀ b, a ≤ b → b < a + n → f b = g b) :
    readLE f a n = readLE g a n := by
  induction n generalizing a with
  | zero => rfl
  | succ n ih => rw [readLE, readLE, h a (by omega) (by omega), ih fun b h1 h2 => h b (by omega) (by omega)]

theorem readLE_lt (f : Nat → Byte) (a n : Nat) : readLE f a n < 256 ^ n := by
  induction n generalizing a with
  | zero => simp [readLE]
  | succ n ih =>
    have h1 := (f a).isLt
    have h2 := ih (a + 1)
    rw [readLE, pow_succ]
    omega

/-! ## Arrays -/

section Arrays

variable {α : Type} {put : Memory → Nat → α → Memory} {size : Nat}

theorem Memory.writeArray_wf (hput : ∀ m a x, Memory.wf m = true → Memory.wf (put m a x) = true)
    {m : Memory} (h : Memory.wf m = true) (a : Nat) (l : List α) :
    Memory.wf (Memory.writeArray put size m a l) = true := by
  induction l generalizing m a with
  | nil => exact h
  | cons x l ih => exact ih (hput m a x h) _

theorem Memory.lookup_writeArray_outside
    (hput : ∀ m a x b, b < a ∨ a + size ≤ b → Memory.lookup (put m a x) b = Memory.lookup m b)
    (m : Memory) {a b : Nat} (l : List α) (h : b < a ∨ a + size * l.length ≤ b) :
    Memory.lookup (Memory.writeArray put size m a l) b = Memory.lookup m b := by
  induction l generalizing m a with
  | nil => rfl
  | cons x l ih =>
    have hlen : size * (x :: l).length = size + size * l.length := by simp [Nat.mul_add, Nat.add_comm]
    rw [Memory.writeArray, ih _ (by omega), hput _ _ _ _ (by omega)]

/-- Element `i` of an array is where its own write put it. -/
theorem Memory.lookup_writeArray_inside
    (hput : ∀ m a x b, b < a ∨ a + size ≤ b → Memory.lookup (put m a x) b = Memory.lookup m b)
    (hin : ∀ m m' a x b, a ≤ b → b < a + size → Memory.lookup (put m a x) b = Memory.lookup (put m' a x) b)
    (m m' : Memory) (a : Nat) (l : List α) (i : Nat) (hi : i < l.length) {b : Nat}
    (h1 : a + size * i ≤ b) (h2 : b < a + size * i + size) :
    Memory.lookup (Memory.writeArray put size m a l) b = Memory.lookup (put m' (a + size * i) l[i]) b := by
  induction l generalizing m a i with
  | nil => simp at hi
  | cons x l ih =>
    rw [Memory.writeArray]
    cases i with
    | zero =>
      rw [Memory.lookup_writeArray_outside hput _ _ (by simp only [Nat.mul_zero] at h2; omega)]
      simpa using hin m m' a x b (by simpa using h1) (by simpa using h2)
    | succ i =>
      have e : a + size * (i + 1) = (a + size) + size * i := by rw [Nat.mul_add]; omega
      rw [ih (put m a x) (a + size) i (by simpa using hi) (by omega) (by omega)]
      simp [e]

end Arrays

/-! ## Elements -/

theorem Memory.putF64_wf {m : Memory} (a : Nat) (x : F64) (h : Memory.wf m = true) :
    Memory.wf (Memory.putF64 m a x) = true := Memory.writeLE_wf h _ _ _

theorem Memory.putSample_wf {m : Memory} (a : Nat) (z : Sample) (h : Memory.wf m = true) :
    Memory.wf (Memory.putSample m a z) = true := Memory.putF64_wf _ _ (Memory.putF64_wf _ _ h)

theorem Memory.putU16_wf {m : Memory} (a v : Nat) (h : Memory.wf m = true) :
    Memory.wf (Memory.putU16 m a v) = true := Memory.writeLE_wf h _ _ _

theorem Memory.fill_wf (f : Nat → Byte) {m : Memory} (h : Memory.wf m = true) (a n : Nat) :
    Memory.wf (Memory.fill f m a n) = true := by
  induction n generalizing m a with
  | zero => exact h
  | succ n ih => exact ih (Memory.insert_wf h _ _) _

theorem Memory.lookup_fill_outside (f : Nat → Byte) (m : Memory) {a n b : Nat} (h : b < a ∨ a + n ≤ b) :
    Memory.lookup (Memory.fill f m a n) b = Memory.lookup m b := by
  induction n generalizing m a with
  | zero => rfl
  | succ n ih => rw [Memory.fill, ih _ (by omega), Memory.lookup_insert_ne _ _ (by omega)]

theorem Memory.lookup_fill_inside (f : Nat → Byte) (m : Memory) {a n b : Nat} (h1 : a ≤ b) (h2 : b < a + n) :
    Memory.lookup (Memory.fill f m a n) b = some (f b) := by
  induction n generalizing m a with
  | zero => omega
  | succ n ih =>
    rw [Memory.fill]
    by_cases h : b = a
    · subst h; rw [Memory.lookup_fill_outside _ _ (by omega)]; simp
    · exact ih _ (by omega) (by omega)

theorem Memory.lookup_putF64_outside (m : Memory) (a : Nat) (x : F64) (b : Nat) (h : b < a ∨ a + 8 ≤ b) :
    Memory.lookup (Memory.putF64 m a x) b = Memory.lookup m b := Memory.lookup_writeLE_outside m _ h

theorem Memory.lookup_putU16_outside (m : Memory) (a v : Nat) (b : Nat) (h : b < a ∨ a + 2 ≤ b) :
    Memory.lookup (Memory.putU16 m a v) b = Memory.lookup m b := Memory.lookup_writeLE_outside m _ h

theorem Memory.lookup_putSample_outside (m : Memory) (a : Nat) (z : Sample) (b : Nat) (h : b < a ∨ a + 16 ≤ b) :
    Memory.lookup (Memory.putSample m a z) b = Memory.lookup m b := by
  rw [Memory.putSample, Memory.lookup_putF64_outside _ _ _ _ (by omega),
    Memory.lookup_putF64_outside _ _ _ _ (by omega)]

theorem Memory.lookup_writeLE_any (m m' : Memory) (a n v b : Nat) (h1 : a ≤ b) (h2 : b < a + n) :
    Memory.lookup (Memory.writeLE m a n v) b = Memory.lookup (Memory.writeLE m' a n v) b := by
  obtain ⟨i, rfl⟩ := Nat.exists_eq_add_of_le h1
  rw [Memory.lookup_writeLE_inside _ _ _ (by omega), Memory.lookup_writeLE_inside _ _ _ (by omega)]

theorem Memory.lookup_putSample_any (m m' : Memory) (a : Nat) (z : Sample) (b : Nat) (h1 : a ≤ b) (h2 : b < a + 16) :
    Memory.lookup (Memory.putSample m a z) b = Memory.lookup (Memory.putSample m' a z) b := by
  rw [Memory.putSample, Memory.putSample]
  by_cases h : b < a + 8
  · rw [Memory.lookup_putF64_outside (Memory.putF64 m a z.re) (a + 8) z.im b (Or.inl h),
      Memory.lookup_putF64_outside (Memory.putF64 m' a z.re) (a + 8) z.im b (Or.inl h)]
    exact Memory.lookup_writeLE_any m m' a 8 z.re.toNat b h1 h
  · exact Memory.lookup_writeLE_any _ _ (a + 8) 8 z.im.toNat b (by omega) (by omega)

/-! ## What the state reads -/

/-- Two states that hold the same bytes at `b` and have the same power-on count read the same byte there. -/
theorem State.readByte_of_lookup {s t : State} {b : Nat} (hm : Memory.lookup t.mem b = Memory.lookup s.mem b)
    (hp : t.powerOns = s.powerOns) : t.readByte b = s.readByte b := by
  rw [State.readByte, State.readByte, hm, hp]

theorem State.readByte_memWrite_outside (s : State) {a n b : Nat} (v : Nat) (h : b < a ∨ a + n ≤ b) :
    (s.memWrite a n v).readByte b = s.readByte b :=
  State.readByte_of_lookup (Memory.lookup_writeLE_outside _ _ h) rfl

/-- A read of what was just written gives the number written, modulo its width. -/
theorem State.memRead_memWrite (s : State) (a n v : Nat) : (s.memWrite a n v).memRead a n = v % 256 ^ n := by
  refine readLE_digits _ _ _ _ fun i hi => ?_
  rw [State.readByte, State.memWrite_mem, Memory.lookup_writeLE_inside _ _ _ hi, Option.getD_some]

theorem State.readByte_writeSamples_outside (s : State) {a b : Nat} (l : List Sample)
    (h : b < a ∨ a + 16 * l.length ≤ b) : (s.writeSamples a l).readByte b = s.readByte b :=
  State.readByte_of_lookup (Memory.lookup_writeArray_outside Memory.lookup_putSample_outside _ _ h) rfl

theorem State.readByte_writeReals_outside (s : State) {a b : Nat} (l : List F64)
    (h : b < a ∨ a + 8 * l.length ≤ b) : (s.writeReals a l).readByte b = s.readByte b :=
  State.readByte_of_lookup (Memory.lookup_writeArray_outside Memory.lookup_putF64_outside _ _ h) rfl

theorem State.readByte_writeCodes_outside (s : State) {a b : Nat} (l : List Nat)
    (h : b < a ∨ a + 2 * l.length ≤ b) : (s.writeCodes a l).readByte b = s.readByte b :=
  State.readByte_of_lookup (Memory.lookup_writeArray_outside Memory.lookup_putU16_outside _ _ h) rfl

/-- An f64 reads back bit for bit where its 8 bytes are listed. -/
theorem State.readF64_of_lookup (s : State) (m : Memory) (a : Nat) (x : F64)
    (h : ∀ b, a ≤ b → b < a + 8 → Memory.lookup s.mem b = Memory.lookup (Memory.putF64 m a x) b) :
    s.readF64 a = x := by
  have hr : s.memRead a 8 = x.toNat := by
    have hd : ∀ i < 8, s.readByte (a + i) = BitVec.ofNat 8 (x.toNat / 256 ^ i) := fun i hi => by
      rw [State.readByte, h _ (by omega) (by omega), Memory.putF64, Memory.lookup_writeLE_inside _ _ _ hi,
        Option.getD_some]
    rw [State.memRead, readLE_digits _ _ _ _ hd]
    exact Nat.mod_eq_of_lt x.isLt
  rw [State.readF64, hr, BitVec.ofNat_toNat, BitVec.setWidth_eq]

/-- Tap `i` of a written array of reals reads back bit for bit. -/
theorem State.readF64_writeReals (s : State) (a : Nat) (l : List F64) (i : Nat) (hi : i < l.length) :
    (s.writeReals a l).readF64 (a + 8 * i) = l[i] :=
  State.readF64_of_lookup _ [] _ _ fun _ h1 h2 =>
    Memory.lookup_writeArray_inside Memory.lookup_putF64_outside
      (fun m m' a x b => Memory.lookup_writeLE_any m m' a 8 x.toNat b) _ _ _ _ _ hi h1 h2

/-- Sample `i` of a written array of samples reads back bit for bit. -/
theorem State.readSample_writeSamples (s : State) (a : Nat) (l : List Sample) (i : Nat) (hi : i < l.length) :
    (s.writeSamples a l).readSample (a + 16 * i) = l[i] := by
  have hb : ∀ b, a + 16 * i ≤ b → b < a + 16 * i + 16 →
      Memory.lookup (s.writeSamples a l).mem b = Memory.lookup (Memory.putSample [] (a + 16 * i) l[i]) b :=
    fun b h1 h2 => Memory.lookup_writeArray_inside Memory.lookup_putSample_outside Memory.lookup_putSample_any
      _ _ _ _ _ hi h1 h2
  have h1 : (s.writeSamples a l).readF64 (a + 16 * i) = l[i].re :=
    State.readF64_of_lookup _ [] _ _ fun b hb1 hb2 => by
      rw [hb b hb1 (by omega), Memory.putSample, Memory.lookup_putF64_outside _ _ _ _ (by omega)]
  have h2 : (s.writeSamples a l).readF64 (a + 16 * i + 8) = l[i].im :=
    State.readF64_of_lookup _ (Memory.putF64 [] (a + 16 * i) l[i].re) _ _ fun b hb1 hb2 => by
      rw [hb b (by omega) (by omega), Memory.putSample]
  rw [State.readSample, h1, h2]

/-- Code `i` of a written array of codes reads back, modulo 2^16. -/
theorem State.readU16_writeCodes (s : State) (a : Nat) (l : List Nat) (i : Nat) (hi : i < l.length) :
    (s.writeCodes a l).readU16 (a + 2 * i) = l[i] % 2 ^ 16 := by
  have hd : ∀ j < 2, (s.writeCodes a l).readByte (a + 2 * i + j) = BitVec.ofNat 8 (l[i] / 256 ^ j) := fun j hj => by
    rw [State.readByte, State.writeCodes_mem, Memory.lookup_writeArray_inside Memory.lookup_putU16_outside
      (fun m m' a x b => Memory.lookup_writeLE_any m m' a 2 x b) _ [] _ _ _ hi (by omega) (by omega),
      Memory.putU16, Memory.lookup_writeLE_inside _ _ _ hj, Option.getD_some]
  rw [State.readU16, State.memRead, readLE_digits _ _ _ _ hd, show (256 : Nat) ^ 2 = 2 ^ 16 by norm_num]

end Sys2Proof.Machine
end

