-- ==== Sys2Proof/Laws/Numeric.lean ====
section
/-! SUPPORT. The fields of a binary64 pattern under negation and absolute value, the rounded quotient, and the shape of the
numeric configuration functions. -/

namespace Sys2Proof

/-! ## The rounded quotient -/

/-- The quotient rounds down exactly when the remainder is less than half the divisor, or half of it with an even quotient. -/
theorem rneDiv_cases (num den : Nat) :
    (2 * (num % den) < den ∧ rneDiv num den = num / den) ∨
    (den < 2 * (num % den) ∧ rneDiv num den = num / den + 1) ∨
    (2 * (num % den) = den ∧ rneDiv num den = num / den + num / den % 2) := by
  unfold rneDiv
  rcases Nat.lt_trichotomy (2 * (num % den)) den with h | h | h
  · exact .inl ⟨h, by simp [h]⟩
  · refine .inr (.inr ⟨h, ?_⟩)
    simp [h]
  · refine .inr (.inl ⟨h, ?_⟩)
    have h' : ¬ 2 * (num % den) < den := by omega
    simp [h, h']

/-- The rounded quotient is within half a unit of the quotient, in integers. -/
theorem rneDiv_bounds (num : Nat) {den : Nat} (h : 0 < den) :
    2 * num ≤ 2 * (rneDiv num den * den) + den ∧ 2 * (rneDiv num den * den) ≤ 2 * num + den := by
  have hd := Nat.div_add_mod num den
  have hm := Nat.mod_lt num h
  have hc : num / den * den = den * (num / den) := Nat.mul_comm _ _
  rcases rneDiv_cases num den with ⟨h1, h2⟩ | ⟨h1, h2⟩ | ⟨h1, h2⟩
  · rw [h2, hc]; omega
  · rw [h2, Nat.add_mul, hc]; omega
  · rw [h2, Nat.add_mul, hc]
    rcases Nat.mod_two_eq_zero_or_one (num / den) with h3 | h3 <;> rw [h3] <;> omega

/-- The rounded quotient is monotone in the numerator. -/
theorem rneDiv_mono {m n : Nat} (den : Nat) (h : m ≤ n) : rneDiv m den ≤ rneDiv n den := by
  rcases Nat.eq_zero_or_pos den with rfl | hd
  · unfold rneDiv
    simp only [Nat.mod_zero, Nat.not_lt_zero, if_false, Nat.div_zero]
    split <;> split <;> omega
  · have hm := Nat.div_add_mod m den
    have hn := Nat.div_add_mod n den
    have hlm := Nat.mod_lt m hd
    have hln := Nat.mod_lt n hd
    rcases Nat.lt_or_ge (m / den) (n / den) with hq | hq
    · have hstep : m / den + 1 ≤ n / den := hq
      rcases rneDiv_cases m den with ⟨_, a⟩ | ⟨_, a⟩ | ⟨_, a⟩ <;>
        rcases rneDiv_cases n den with ⟨_, b⟩ | ⟨_, b⟩ | ⟨_, b⟩ <;> rw [a, b] <;> omega
    · have hqe : m / den = n / den := le_antisymm (Nat.div_le_div_right h) hq
      have hr : m % den ≤ n % den := by
        rw [hqe] at hm; omega
      rcases rneDiv_cases m den with ⟨_, a⟩ | ⟨_, a⟩ | ⟨_, a⟩ <;>
        rcases rneDiv_cases n den with ⟨_, b⟩ | ⟨_, b⟩ | ⟨_, b⟩ <;> rw [a, b, hqe] <;> omega

/-- A whole quotient is itself. -/
theorem rneDiv_mul_self (q : Nat) {den : Nat} (h : 0 < den) : rneDiv (q * den) den = q := by
  unfold rneDiv
  simp [Nat.mul_mod_left, h]

/-! ## The sign bit -/

@[simp] theorem F64.sign_neg (x : F64) : F64.sign (F64.neg x) = !F64.sign x := by
  simp [F64.sign, F64.neg]

@[simp] theorem F64.sign_abs (x : F64) : F64.sign (F64.abs x) = false := by
  simp [F64.sign, F64.abs]

@[simp] theorem F64.neg_neg (x : F64) : F64.neg (F64.neg x) = x := by
  simp [F64.neg]

/-- Two patterns with the same low 63 bits have the same fields. -/
theorem F64.low_eq_neg (x : F64) : (F64.neg x).toNat % 2 ^ 63 = x.toNat % 2 ^ 63 := by
  simp only [F64.neg, BitVec.toNat_xor, Nat.xor_mod_two_pow]
  simp

theorem F64.low_eq_abs (x : F64) : (F64.abs x).toNat = x.toNat % 2 ^ 63 := by
  simp only [F64.abs, BitVec.toNat_and]
  exact Nat.and_two_pow_sub_one_eq_mod x.toNat 63

theorem F64.expField_of_low {x y : F64} (h : x.toNat % 2 ^ 63 = y.toNat % 2 ^ 63) :
    F64.expField x = F64.expField y := by unfold F64.expField; omega

theorem F64.fracField_of_low {x y : F64} (h : x.toNat % 2 ^ 63 = y.toNat % 2 ^ 63) :
    F64.fracField x = F64.fracField y := by unfold F64.fracField; omega

@[simp] theorem F64.expField_neg (x : F64) : F64.expField (F64.neg x) = F64.expField x :=
  F64.expField_of_low (F64.low_eq_neg x)

@[simp] theorem F64.fracField_neg (x : F64) : F64.fracField (F64.neg x) = F64.fracField x :=
  F64.fracField_of_low (F64.low_eq_neg x)

@[simp] theorem F64.expField_abs (x : F64) : F64.expField (F64.abs x) = F64.expField x :=
  F64.expField_of_low (by rw [F64.low_eq_abs]; omega)

@[simp] theorem F64.fracField_abs (x : F64) : F64.fracField (F64.abs x) = F64.fracField x :=
  F64.fracField_of_low (by rw [F64.low_eq_abs]; omega)

@[simp] theorem F64.abs_neg (x : F64) : F64.abs (F64.neg x) = F64.abs x := by
  apply BitVec.eq_of_toNat_eq
  rw [F64.low_eq_abs, F64.low_eq_abs, F64.low_eq_neg]

@[simp] theorem F64.isFinite_neg (x : F64) : F64.isFinite (F64.neg x) = F64.isFinite x := by simp [F64.isFinite]

@[simp] theorem F64.isFinite_abs (x : F64) : F64.isFinite (F64.abs x) = F64.isFinite x := by simp [F64.isFinite]

@[simp] theorem F64.isNaN_neg (x : F64) : F64.isNaN (F64.neg x) = F64.isNaN x := by simp [F64.isNaN]

@[simp] theorem F64.isInf_neg (x : F64) : F64.isInf (F64.neg x) = F64.isInf x := by simp [F64.isInf]

@[simp] theorem F64.mag_neg (x : F64) : F64.mag (F64.neg x) = F64.mag x := by simp [F64.mag]

@[simp] theorem F64.mag_abs (x : F64) : F64.mag (F64.abs x) = F64.mag x := by simp [F64.mag]

@[simp] theorem F64.isZero_neg (x : F64) : F64.isZero (F64.neg x) = F64.isZero x := by simp [F64.isZero]

@[simp] theorem F64.scaled_neg (x : F64) : F64.scaled (F64.neg x) = -F64.scaled x := by
  unfold F64.scaled; cases h : F64.sign x <;> simp [h]

@[simp] theorem F64.val_neg (x : F64) : F64.val (F64.neg x) = -F64.val x := by
  show (F64.scaled (F64.neg x) : ℚ) / _ = -((F64.scaled x : ℚ) / _)
  rw [F64.scaled_neg, Int.cast_neg, neg_div]

@[simp] theorem F64.halves_neg (x : F64) : F64.halves (F64.neg x) = F64.halves x := by simp [F64.halves]

/-- A pattern is its sign bit over its low 63 bits. -/
theorem F64.toNat_eq (x : F64) : x.toNat = (if F64.sign x then 2 ^ 63 else 0) + x.toNat % 2 ^ 63 := by
  have h := x.isLt
  have hs : F64.sign x = decide (2 ^ 63 ≤ x.toNat) := by
    unfold F64.sign
    rw [BitVec.getLsbD, Nat.testBit_eq_decide_div_mod_eq]
    simp only [decide_eq_decide]
    omega
  rw [hs]
  by_cases h2 : 2 ^ 63 ≤ x.toNat
  · simp only [h2, decide_true, if_true]; omega
  · simp only [h2, decide_false]
    simp only [Bool.false_eq_true, if_false]
    omega

/-! ## The numeric configuration functions -/

theorem allZero_iff (X : List Sample) :
    allZero X = true ↔ ∀ z ∈ X, F64.isZero z.re = true ∧ F64.isZero z.im = true := by
  simp [allZero]

theorem numIdft_one (tol : ℚ) (X : List Sample) : numIdft tol 1 X = X := rfl

theorem numIdft_of_ne_one (tol : ℚ) {N : Nat} (h : N ≠ 1) (X : List Sample) :
    numIdft tol N X = (List.range N).map (idftSample tol N X) := by simp [numIdft, h]

end Sys2Proof
end

