-- ==== Sys2Proof/Laws/Nearest.lean ====
section
/-! SUPPORT. What the exact comparisons of Machine/Numeric.lean can do, once each: the cosine of a dyadic angle, a sum of
cosines over a period of a power of two, and the finite binary64 number nearest a real. -/

namespace Sys2Proof

/-! ## The greatest number with a property -/

/-- `greatestFrom` adds bits below `2^n`, and gives its start or a number with the property. -/
theorem greatestFrom_bounds (p : Nat → Bool) (n r : Nat) :
    r ≤ greatestFrom p n r ∧ greatestFrom p n r < r + 2 ^ n ∧
      (greatestFrom p n r = r ∨ p (greatestFrom p n r) = true) := by
  induction n generalizing r with
  | zero => simp [greatestFrom]
  | succ n ih =>
    rw [greatestFrom, pow_succ]
    by_cases h : p (r + 2 ^ n) = true
    · rw [if_pos h]
      obtain ⟨h1, h2, h3⟩ := ih (r + 2 ^ n)
      refine ⟨by omega, by omega, .inr ?_⟩
      rcases h3 with h3 | h3
      · rw [h3]; exact h
      · exact h3
    · rw [if_neg h]
      obtain ⟨h1, h2, h3⟩ := ih r
      exact ⟨h1, by have := Nat.two_pow_pos n; omega, h3⟩

/-- Nothing above `greatestFrom`'s answer has the property, where smaller numbers have it too. -/
theorem greatestFrom_greatest {p : Nat → Bool} (hp : ∀ a b, a ≤ b → p b = true → p a = true) (n r b : Nat)
    (h1 : greatestFrom p n r < b) (h2 : b < r + 2 ^ n) : p b = false := by
  induction n generalizing r with
  | zero => simp only [greatestFrom, pow_zero] at h1 h2; omega
  | succ n ih =>
    rw [greatestFrom] at h1
    rw [pow_succ] at h2
    by_cases h : p (r + 2 ^ n) = true
    · rw [if_pos h] at h1
      exact ih (r + 2 ^ n) h1 (by omega)
    · rw [if_neg h] at h1
      rcases Nat.lt_or_ge b (r + 2 ^ n) with hb | hb
      · exact ih r h1 hb
      · rw [Bool.eq_false_iff]
        exact fun hpb => h (hp _ _ hb hpb)

/-! ## The cosine of a dyadic angle -/

theorem compare_ratCast (a b : ℚ) : compare (a : ℝ) (b : ℝ) = compare a b := by
  rcases lt_trichotomy a b with h | h | h
  · rw [compare_lt_iff_lt.2 h, compare_lt_iff_lt.2 (Rat.cast_lt.2 h)]
  · rw [h, compare_eq_iff_eq.2 rfl, compare_eq_iff_eq.2 rfl]
  · rw [compare_gt_iff_gt.2 h, compare_gt_iff_gt.2 (Rat.cast_lt.2 h)]

/-- Two pairs compare alike where each order of the one goes with the same order of the other. -/
theorem compare_congr {α β : Type} [LinearOrder α] [LinearOrder β] {a b : α} {c d : β} (h1 : a < b ↔ c < d)
    (h2 : b < a ↔ d < c) : compare a b = compare c d := by
  rcases lt_trichotomy a b with h | h | h
  · rw [compare_lt_iff_lt.2 h, compare_lt_iff_lt.2 (h1.1 h)]
  · rw [compare_eq_iff_eq.2 h, compare_eq_iff_eq.2]
    exact le_antisymm (not_lt.1 fun hh => (h2.2 hh).ne h.symm) (not_lt.1 fun hh => (h1.2 hh).ne h)
  · rw [compare_gt_iff_gt.2 h, compare_gt_iff_gt.2 (h2.1 h)]

theorem swap_compare {α : Type} [LinearOrder α] (a b : α) : (compare a b).swap = compare b a := by
  rcases lt_trichotomy a b with h | h | h
  · rw [compare_lt_iff_lt.2 h, compare_gt_iff_gt.2 h]; rfl
  · rw [compare_eq_iff_eq.2 h, compare_eq_iff_eq.2 h.symm]; rfl
  · rw [compare_gt_iff_gt.2 h, compare_lt_iff_lt.2 h]; rfl

/-- The cosine of an angle πm/2^(j+1) and its sign, by the quadrant of `m`. -/
theorem cos_quadrant (j m : Nat) :
    (m % 2 ^ (j + 2) ≤ 2 ^ j ∨ 3 * 2 ^ j ≤ m % 2 ^ (j + 2) → 0 ≤ Real.cos (Real.pi * m / 2 ^ (j + 1))) ∧
    (¬ (m % 2 ^ (j + 2) ≤ 2 ^ j ∨ 3 * 2 ^ j ≤ m % 2 ^ (j + 2)) → Real.cos (Real.pi * m / 2 ^ (j + 1)) < 0) := by
  set r := m % 2 ^ (j + 2) with hr
  have hlt : r < 2 ^ (j + 2) := Nat.mod_lt _ (by positivity)
  have hpos : (0 : ℝ) < 2 ^ j := by positivity
  have hcos : Real.cos (Real.pi * m / 2 ^ (j + 1)) = Real.cos (Real.pi * r / 2 ^ (j + 1)) := by
    have hm : (m : ℝ) = r + 2 ^ (j + 2) * (m / 2 ^ (j + 2) : Nat) := by
      rw [hr]; exact_mod_cast (Nat.mod_add_div m (2 ^ (j + 2))).symm
    have : Real.pi * m / 2 ^ (j + 1) = Real.pi * r / 2 ^ (j + 1) + (m / 2 ^ (j + 2) : Nat) * (2 * Real.pi) := by
      rw [hm]; field_simp; ring
    rw [this, Real.cos_add_nat_mul_two_pi]
  rw [hcos]
  have e : Real.pi * r / 2 ^ (j + 1) = Real.pi / 2 * (r / 2 ^ j) := by rw [pow_succ]; field_simp
  have hpi := Real.pi_pos
  rw [e]
  constructor
  · rintro (h | h)
    · apply Real.cos_nonneg_of_neg_pi_div_two_le_of_le
      · have : 0 ≤ Real.pi / 2 * ((r : ℝ) / 2 ^ j) := by positivity
        linarith
      · have : (r : ℝ) / 2 ^ j ≤ 1 := by rw [div_le_one hpos]; exact_mod_cast h
        nlinarith
    · rw [← Real.cos_sub_two_pi]
      have h1 : (3 : ℝ) ≤ (r : ℝ) / 2 ^ j := by rw [le_div_iff₀ hpos]; exact_mod_cast h
      have h2 : (r : ℝ) / 2 ^ j ≤ 4 := by
        rw [div_le_iff₀ hpos]; have : r ≤ 4 * 2 ^ j := by rw [pow_add] at hlt; omega
        exact_mod_cast this
      apply Real.cos_nonneg_of_neg_pi_div_two_le_of_le <;> nlinarith
  · intro h
    push Not at h
    have h1 : (1 : ℝ) < (r : ℝ) / 2 ^ j := by rw [one_lt_div hpos]; exact_mod_cast h.1
    have h2 : (r : ℝ) / 2 ^ j < 3 := by rw [div_lt_iff₀ hpos]; exact_mod_cast h.2
    apply Real.cos_neg_of_pi_div_two_lt_of_lt <;> nlinarith

/-- `cosCmp` compares the cosine with the rational. -/
theorem cosCmp_eq (j m : Nat) (q : ℚ) : cosCmp j m q = compare (Real.cos (Real.pi * m / 2 ^ j)) (q : ℝ) := by
  induction j generalizing m q with
  | zero =>
    rw [cosCmp]
    have hc : Real.cos (Real.pi * m / 2 ^ 0) = ((if m % 2 = 0 then 1 else -1 : ℚ) : ℝ) := by
      rw [pow_zero, div_one, mul_comm]
      rcases Nat.mod_two_eq_zero_or_one m with h | h
      · rw [if_pos h, Real.cos_nat_mul_pi, Even.neg_one_pow (Nat.even_iff.2 h)]; norm_num
      · rw [if_neg (by omega), Real.cos_nat_mul_pi, Odd.neg_one_pow (Nat.odd_iff.2 h)]; norm_num
    rw [hc, compare_ratCast]
  | succ j ih =>
    rw [cosCmp]
    set c := Real.cos (Real.pi * m / 2 ^ (j + 1)) with hcdef
    have hdouble : Real.cos (Real.pi * m / 2 ^ j) = 2 * c ^ 2 - 1 := by
      rw [hcdef, ← Real.cos_two_mul]; congr 1; rw [pow_succ]; field_simp
    have hrec : cosCmp j m (2 * q ^ 2 - 1) = compare (c ^ 2) ((q : ℝ) ^ 2) := by
      rw [ih, hdouble]
      push_cast
      exact compare_congr (by constructor <;> intro h <;> linarith) (by constructor <;> intro h <;> linarith)
    split_ifs with h1 h2 h3 h4 h5 h6
    · rw [ih, hcdef]
      congr 2
      have : (m : ℝ) = 2 * (m / 2 : Nat) := by exact_mod_cast (Nat.mul_div_cancel' (Nat.dvd_of_mod_eq_zero h1)).symm
      rw [this, pow_succ]; field_simp
    · refine (compare_lt_iff_lt.2 ((Real.cos_le_one _).trans_lt ?_)).symm
      exact_mod_cast h2
    · refine (compare_gt_iff_gt.2 (lt_of_lt_of_le ?_ (Real.neg_one_le_cos _))).symm
      exact_mod_cast h3
    · have := (cos_quadrant j m).1 h4
      exact (compare_gt_iff_gt.2 (lt_of_lt_of_le (by exact_mod_cast h5) this)).symm
    · have hc := (cos_quadrant j m).1 h4
      have hq : (0 : ℝ) ≤ q := by exact_mod_cast not_lt.1 h5
      rw [hrec]
      exact compare_congr (sq_lt_sq₀ hc hq) (sq_lt_sq₀ hq hc)
    · have hc := (cos_quadrant j m).2 h4
      exact (compare_lt_iff_lt.2 (lt_of_lt_of_le hc (by exact_mod_cast h6))).symm
    · have hc := (cos_quadrant j m).2 h4
      have hq : (q : ℝ) < 0 := by exact_mod_cast not_le.1 h6
      rw [hrec, swap_compare]
      refine compare_congr ?_ ?_
      · rw [← neg_sq, ← neg_sq c, sq_lt_sq₀ (by linarith) (by linarith)]; constructor <;> intro h <;> linarith
      · rw [← neg_sq c, ← neg_sq (q : ℝ), sq_lt_sq₀ (by linarith) (by linarith)]; constructor <;> intro h <;> linarith

/-! ## A sum of cosines over a period -/

/-- The sum that `cosSumSign` gives the sign of: Σ w[t] cos(2πt/P) over a period P. -/
noncomputable def cosSum (P : Nat) (w : List Int) : ℝ :=
  ∑ t ∈ Finset.range P, (w.getD t 0 : ℝ) * Real.cos (2 * Real.pi * t / P)

/-- `n` is the sign of `x`. -/
def IsSign (n : Int) (x : ℝ) : Prop := (n = 1 ∧ 0 < x) ∨ (n = 0 ∧ x = 0) ∨ (n = -1 ∧ x < 0)

theorem isSign_int (n : Int) : IsSign n.sign (n : ℝ) := by
  rcases lt_trichotomy n 0 with h | h | h
  · exact .inr (.inr ⟨Int.sign_eq_neg_one_of_neg h, by exact_mod_cast h⟩)
  · exact .inr (.inl ⟨by rw [h]; rfl, by exact_mod_cast h⟩)
  · exact .inl ⟨Int.sign_eq_one_of_pos h, by exact_mod_cast h⟩

theorem IsSign.of_mul {n : Int} {c x : ℝ} (hc : 0 < c) (h : IsSign n (c * x)) : IsSign n x := by
  rcases h with ⟨h, k⟩ | ⟨h, k⟩ | ⟨h, k⟩
  · exact .inl ⟨h, pos_of_mul_pos_right k hc.le⟩
  · exact .inr (.inl ⟨h, (mul_eq_zero.1 k).resolve_left hc.ne'⟩)
  · exact .inr (.inr ⟨h, neg_of_mul_neg_right k hc.le⟩)

/-- The sign of a sum from the signs of its terms and of the difference of their squares. -/
theorem IsSign.add {a b n : Int} {x y : ℝ} (ha : IsSign a x) (hb : IsSign b y) (hn : IsSign n (x ^ 2 - y ^ 2)) :
    IsSign (if b = 0 ∨ a = b then a else if a = 0 ∨ n < 0 then b else if 0 < n then a else 0) (x + y) := by
  have hsq : x ^ 2 - y ^ 2 = (x + y) * (x - y) := by ring
  rcases ha with ⟨rfl, hx⟩ | ⟨rfl, hx⟩ | ⟨rfl, hx⟩ <;> rcases hb with ⟨rfl, hy⟩ | ⟨rfl, hy⟩ | ⟨rfl, hy⟩ <;>
    rcases hn with ⟨rfl, h⟩ | ⟨rfl, h⟩ | ⟨rfl, h⟩ <;> simp [IsSign] <;> nlinarith

/-- A rotation of the even steps of a period meets each number of one parity once. -/
theorem sum_rotate {H a : Nat} (ha : a < 2 * H) (g : Nat → ℝ) :
    ∑ u ∈ Finset.range H, g ((2 * u + (2 * H - a)) % (2 * H)) =
      ∑ b ∈ (Finset.range (2 * H)).filter (fun b => b % 2 = a % 2), g b := by
  have hmod : ∀ x < 2 * (2 * H), x % (2 * H) = if x < 2 * H then x else x - 2 * H := by
    intro x hx
    split
    · next h => exact Nat.mod_eq_of_lt h
    · next h => rw [Nat.mod_eq_sub_mod (not_lt.1 h), Nat.mod_eq_of_lt (by omega)]
  refine Finset.sum_nbij' (fun u => (2 * u + (2 * H - a)) % (2 * H)) (fun b => (a + b) % (2 * H) / 2) ?_ ?_ ?_ ?_ ?_
  · intro u hu
    simp only [Finset.mem_range] at hu
    simp only [Finset.mem_filter, Finset.mem_range]
    rw [hmod _ (by omega)]
    split <;> omega
  · intro b hb
    simp only [Finset.mem_filter, Finset.mem_range] at hb
    simp only [Finset.mem_range]
    rw [hmod _ (by omega)]
    split <;> omega
  · intro u hu
    simp only [Finset.mem_range] at hu
    rw [hmod (2 * u + (2 * H - a)) (by omega)]
    split
    · rw [hmod _ (by omega)]; split <;> omega
    · rw [hmod _ (by omega)]; split <;> omega
  · intro b hb
    simp only [Finset.mem_filter, Finset.mem_range] at hb
    rw [hmod (a + b) (by omega)]
    split
    · rw [hmod _ (by omega)]; split <;> omega
    · rw [hmod _ (by omega)]; split <;> omega
  · intro u _; rfl

/-- As `sum_rotate`, against the sense of the period. -/
theorem sum_rotate_neg {H a : Nat} (ha : a < 2 * H) (g : Nat → ℝ) :
    ∑ u ∈ Finset.range H, g ((a + (2 * H - 2 * u)) % (2 * H)) =
      ∑ b ∈ (Finset.range (2 * H)).filter (fun b => b % 2 = a % 2), g b := by
  have hmod : ∀ x ≤ 2 * (2 * H) - 1, x % (2 * H) = if x < 2 * H then x else x - 2 * H := by
    intro x hx
    split
    · next h => exact Nat.mod_eq_of_lt h
    · next h => rw [Nat.mod_eq_sub_mod (not_lt.1 h), Nat.mod_eq_of_lt (by omega)]
  refine Finset.sum_nbij' (fun u => (a + (2 * H - 2 * u)) % (2 * H)) (fun b => (a + (2 * H - b)) % (2 * H) / 2) ?_ ?_ ?_ ?_ ?_
  · intro u hu
    simp only [Finset.mem_range] at hu
    simp only [Finset.mem_filter, Finset.mem_range]
    rw [hmod _ (by omega)]
    split <;> omega
  · intro b hb
    simp only [Finset.mem_filter, Finset.mem_range] at hb
    simp only [Finset.mem_range]
    rw [hmod _ (by omega)]
    split <;> omega
  · intro u hu
    simp only [Finset.mem_range] at hu
    rw [hmod (a + (2 * H - 2 * u)) (by omega)]
    split
    · rw [hmod _ (by omega)]; split <;> omega
    · rw [hmod _ (by omega)]; split <;> omega
  · intro b hb
    simp only [Finset.mem_filter, Finset.mem_range] at hb
    rw [hmod (a + (2 * H - b)) (by omega)]
    split
    · rw [hmod _ (by omega)]; split <;> omega
    · rw [hmod _ (by omega)]; split <;> omega
  · intro u _; rfl

/-- The part of a sum over a period at one parity. -/
noncomputable def cosSumPart (H r : Nat) (w : List Int) : ℝ :=
  ∑ b ∈ (Finset.range (2 * H)).filter (fun b => b % 2 = r % 2),
    (w.getD b 0 : ℝ) * Real.cos (2 * Real.pi * b / (2 * H : Nat))

theorem cosSum_parts (H : Nat) (w : List Int) : cosSum (2 * H) w = cosSumPart H 0 w + cosSumPart H 1 w := by
  have h1 : (Finset.range (2 * H)).filter (fun b => b % 2 = 1 % 2) =
      (Finset.range (2 * H)).filter (fun b => ¬ b % 2 = 0 % 2) := by
    apply Finset.filter_congr; intro b _; omega
  rw [cosSum, cosSumPart, cosSumPart, h1, Finset.sum_filter_add_sum_filter_not]

theorem cos_period {P x y : Nat} (hP : 0 < P) (h : x % P = y % P) :
    Real.cos (2 * Real.pi * x / P) = Real.cos (2 * Real.pi * y / P) := by
  have key : ∀ z : Nat, Real.cos (2 * Real.pi * z / P) = Real.cos (2 * Real.pi * (z % P : Nat) / P) := by
    intro z
    have hz : (z : ℝ) = (z % P : Nat) + P * (z / P : Nat) := by exact_mod_cast (Nat.mod_add_div z P).symm
    have hP' : (P : ℝ) ≠ 0 := by exact_mod_cast hP.ne'
    have : 2 * Real.pi * z / P = 2 * Real.pi * (z % P : Nat) / P + (z / P : Nat) * (2 * Real.pi) := by
      rw [hz]; field_simp
    rw [this, Real.cos_add_nat_mul_two_pi]
  rw [key x, key y, h]

theorem getD_map_range (n : Nat) (f : Nat → Int) (t : Nat) (h : t < n) : ((List.range n).map f).getD t 0 = f t := by
  rw [List.getD_eq_getElem?_getD]; simp [h]

/-- The half period's cosines are those at even steps. -/
theorem cosSum_map_range {H : Nat} (hH : 0 < H) (f : Nat → Int) :
    cosSum H ((List.range H).map f) =
      ∑ u ∈ Finset.range H, (f u : ℝ) * Real.cos (2 * Real.pi * (2 * u : Nat) / (2 * H : Nat)) := by
  have hH' : (H : ℝ) ≠ 0 := by exact_mod_cast hH.ne'
  refine Finset.sum_congr rfl fun u hu => ?_
  rw [getD_map_range _ _ _ (Finset.mem_range.1 hu)]
  congr 2
  push_cast
  field_simp

theorem cosSum_even {H : Nat} (hH : 0 < H) (w : List Int) : cosSum H (cosSumEven H w) = cosSumPart H 0 w := by
  rw [cosSumEven, cosSum_map_range hH, cosSumPart,
    ← sum_rotate (by omega : 0 < 2 * H) fun b => (w.getD b 0 : ℝ) * Real.cos (2 * Real.pi * b / (2 * H : Nat))]
  refine Finset.sum_congr rfl fun u hu => ?_
  have hu := Finset.mem_range.1 hu
  have : (2 * u + (2 * H - 0)) % (2 * H) = 2 * u := by
    rw [Nat.sub_zero, Nat.add_mod_right, Nat.mod_eq_of_lt (by omega)]
  rw [this]

/-- Weights moved by `a` steps and multiplied by the cosine of the even step, summed over the even steps. -/
theorem sum_shift {H a : Nat} (hH : 0 < H) (ha : a < 2 * H) (w : List Int) :
    ∑ u ∈ Finset.range H, (cosSumShift H w a u : ℝ) * Real.cos (2 * Real.pi * (2 * u : Nat) / (2 * H : Nat)) =
      2 * Real.cos (2 * Real.pi * a / (2 * H : Nat)) * cosSumPart H a w := by
  have hP : 0 < 2 * H := by omega
  have h1 : ∑ u ∈ Finset.range H, (w.getD ((2 * u + (2 * H - a)) % (2 * H)) 0 : ℝ)
      * Real.cos (2 * Real.pi * (2 * u : Nat) / (2 * H : Nat)) =
      ∑ b ∈ (Finset.range (2 * H)).filter (fun b => b % 2 = a % 2),
        (w.getD b 0 : ℝ) * Real.cos (2 * Real.pi * (a + b : Nat) / (2 * H : Nat)) := by
    rw [← sum_rotate ha fun b => (w.getD b 0 : ℝ) * Real.cos (2 * Real.pi * (a + b : Nat) / (2 * H : Nat))]
    refine Finset.sum_congr rfl fun u hu => ?_
    have hu := Finset.mem_range.1 hu
    congr 1
    refine cos_period hP ?_
    rw [Nat.add_mod_mod, show a + (2 * u + (2 * H - a)) = 2 * u + 2 * H by omega, Nat.add_mod_right]
  have h2 : ∑ u ∈ Finset.range H, (w.getD ((a + (2 * H - 2 * u)) % (2 * H)) 0 : ℝ)
      * Real.cos (2 * Real.pi * (2 * u : Nat) / (2 * H : Nat)) =
      ∑ b ∈ (Finset.range (2 * H)).filter (fun b => b % 2 = a % 2),
        (w.getD b 0 : ℝ) * Real.cos (2 * Real.pi * a / (2 * H : Nat) - 2 * Real.pi * b / (2 * H : Nat)) := by
    rw [← sum_rotate_neg ha fun b =>
      (w.getD b 0 : ℝ) * Real.cos (2 * Real.pi * a / (2 * H : Nat) - 2 * Real.pi * b / (2 * H : Nat))]
    refine Finset.sum_congr rfl fun u hu => ?_
    have hu := Finset.mem_range.1 hu
    congr 1
    set b := (a + (2 * H - 2 * u)) % (2 * H) with hb
    have hb2 : b < 2 * H := Nat.mod_lt _ hP
    have hc : Real.cos (2 * Real.pi * a / (2 * H : Nat) - 2 * Real.pi * b / (2 * H : Nat)) =
        Real.cos (2 * Real.pi * (a + (2 * H - b) : Nat) / (2 * H : Nat)) := by
      have hP' : ((2 * H : Nat) : ℝ) ≠ 0 := by exact_mod_cast hP.ne'
      have : 2 * Real.pi * (a + (2 * H - b) : Nat) / (2 * H : Nat) =
          2 * Real.pi * a / (2 * H : Nat) - 2 * Real.pi * b / (2 * H : Nat) + 2 * Real.pi := by
        rw [Nat.cast_add, Nat.cast_sub hb2.le]; field_simp; ring
      rw [this, Real.cos_add_two_pi]
    rw [hc]
    refine cos_period hP ?_
    rcases Nat.lt_or_ge (a + (2 * H - 2 * u)) (2 * H) with h | h
    · rw [Nat.mod_eq_of_lt h] at hb
      rw [show a + (2 * H - b) = 2 * u by omega]
    · rw [Nat.mod_eq_sub_mod h, Nat.mod_eq_of_lt (by omega)] at hb
      rw [show a + (2 * H - b) = 2 * u + 2 * H by omega, Nat.add_mod_right]
  simp only [cosSumShift, Int.cast_add, add_mul]
  rw [Finset.sum_add_distrib, h1, h2, ← Finset.sum_add_distrib, cosSumPart, Finset.mul_sum]
  refine Finset.sum_congr rfl fun b _ => ?_
  have : 2 * Real.pi * (a + b : Nat) / (2 * H : Nat) =
      2 * Real.pi * a / (2 * H : Nat) + 2 * Real.pi * b / (2 * H : Nat) := by push_cast; ring
  rw [this, Real.cos_add, Real.cos_sub]; ring

theorem cosSum_odd {H : Nat} (hH : 0 < H) (w : List Int) :
    cosSum H (cosSumOdd H w) = 2 * Real.cos (2 * Real.pi * (1 : Nat) / (2 * H : Nat)) * cosSumPart H 1 w := by
  rw [cosSumOdd, cosSum_map_range hH, sum_shift hH (by omega)]

theorem cosSum_norm {H : Nat} (hH : 0 < H) (w : List Int) :
    cosSum H (cosSumNorm H w) = 2 * (cosSumPart H 0 w ^ 2 - cosSumPart H 1 w ^ 2) := by
  rw [cosSumNorm, cosSum_map_range hH]
  have hsum : ∀ (f : Nat → Int), ((List.range (2 * H)).map f).sum = ∑ a ∈ Finset.range (2 * H), f a := by
    intro f; rfl
  simp only [hsum, Int.cast_sum, Finset.sum_mul]
  rw [Finset.sum_comm]
  have : ∀ a ∈ Finset.range (2 * H),
      ∑ u ∈ Finset.range H, (((-1) ^ a * w.getD a 0 * cosSumShift H w a u : Int) : ℝ) *
          Real.cos (2 * Real.pi * (2 * u : Nat) / (2 * H : Nat)) =
      2 * ((-1) ^ a * ((w.getD a 0 : ℝ) * Real.cos (2 * Real.pi * a / (2 * H : Nat))) * cosSumPart H a w) := by
    intro a ha
    have hs := sum_shift hH (Finset.mem_range.1 ha) w
    calc _ = ∑ u ∈ Finset.range H, (-1) ^ a * (w.getD a 0 : ℝ) *
          ((cosSumShift H w a u : ℝ) * Real.cos (2 * Real.pi * (2 * u : Nat) / (2 * H : Nat))) := by
          refine Finset.sum_congr rfl fun u _ => ?_
          push_cast; ring
      _ = _ := by rw [← Finset.mul_sum, hs]; ring
  rw [Finset.sum_congr rfl this, ← Finset.mul_sum,
    ← Finset.sum_filter_add_sum_filter_not (Finset.range (2 * H)) (fun b => b % 2 = 0 % 2)]
  congr 1
  have e0 : ∀ a ∈ (Finset.range (2 * H)).filter (fun b => b % 2 = 0 % 2),
      (-1) ^ a * ((w.getD a 0 : ℝ) * Real.cos (2 * Real.pi * a / (2 * H : Nat))) * cosSumPart H a w =
      (w.getD a 0 : ℝ) * Real.cos (2 * Real.pi * a / (2 * H : Nat)) * cosSumPart H 0 w := by
    intro a ha
    have h := (Finset.mem_filter.1 ha).2
    have hp : cosSumPart H a w = cosSumPart H 0 w := by simp only [cosSumPart, h]
    rw [hp, Even.neg_one_pow (Nat.even_iff.2 (by omega)), one_mul]
  have e1 : ∀ a ∈ (Finset.range (2 * H)).filter (fun b => ¬ b % 2 = 0 % 2),
      (-1) ^ a * ((w.getD a 0 : ℝ) * Real.cos (2 * Real.pi * a / (2 * H : Nat))) * cosSumPart H a w =
      -((w.getD a 0 : ℝ) * Real.cos (2 * Real.pi * a / (2 * H : Nat)) * cosSumPart H 1 w) := by
    intro a ha
    have h := (Finset.mem_filter.1 ha).2
    have h1 : a % 2 = 1 % 2 := by omega
    have hp : cosSumPart H a w = cosSumPart H 1 w := by simp only [cosSumPart, h1]
    rw [hp, Odd.neg_one_pow (Nat.odd_iff.2 (by omega))]; ring
  have hf : (Finset.range (2 * H)).filter (fun b => ¬ b % 2 = 0 % 2) =
      (Finset.range (2 * H)).filter (fun b => b % 2 = 1 % 2) := by
    apply Finset.filter_congr; intro b _; omega
  rw [Finset.sum_congr rfl e0, Finset.sum_congr rfl e1, Finset.sum_neg_distrib, ← Finset.sum_mul, ← Finset.sum_mul, hf]
  rw [← cosSumPart, ← cosSumPart]; ring

/-- `cosSumSign` is the sign of the sum. -/
theorem cosSumSign_isSign (j : Nat) (w : List Int) : IsSign (cosSumSign j w) (cosSum (2 ^ j) w) := by
  induction j using Nat.strong_induction_on generalizing w with
  | _ j ih =>
    match j with
    | 0 => simpa [cosSum, cosSumSign] using isSign_int (w.getD 0 0)
    | 1 =>
      have : cosSum (2 ^ 1) w = ((w.getD 0 0 - w.getD 1 0 : Int) : ℝ) := by
        rw [cosSum, pow_one, Finset.sum_range_succ, Finset.sum_range_one]
        have : 2 * Real.pi * (1 : Nat) / (2 : Nat) = Real.pi := by push_cast; ring
        rw [this]; simp; ring
      rw [this]; exact isSign_int _
    | 2 =>
      have : cosSum (2 ^ 2) w = ((w.getD 0 0 - w.getD 2 0 : Int) : ℝ) := by
        rw [cosSum, show 2 ^ 2 = 4 by norm_num, Finset.sum_range_succ, Finset.sum_range_succ, Finset.sum_range_succ,
          Finset.sum_range_one]
        have h1 : 2 * Real.pi * (1 : Nat) / (4 : Nat) = Real.pi / 2 := by push_cast; ring
        have h2 : 2 * Real.pi * (2 : Nat) / (4 : Nat) = Real.pi := by push_cast; ring
        have h3 : 2 * Real.pi * (3 : Nat) / (4 : Nat) = Real.pi / 2 + Real.pi := by push_cast; ring
        rw [h1, h2, h3, Real.cos_add_pi]; simp; ring
      rw [this]; exact isSign_int _
    | j + 3 =>
      have hH : 0 < 2 ^ (j + 2) := by positivity
      have hP : 2 ^ (j + 3) = 2 * 2 ^ (j + 2) := by rw [pow_succ 2 (j + 2)]; ring
      rw [hP, cosSum_parts, cosSumSign]
      refine IsSign.add ?_ ?_ ?_
      · rw [← cosSum_even hH]; exact ih _ (by omega) _
      · refine IsSign.of_mul (c := 2 * Real.cos (2 * Real.pi * (1 : Nat) / (2 * 2 ^ (j + 2) : Nat))) ?_ ?_
        · have : 0 < Real.cos (2 * Real.pi * (1 : Nat) / (2 * 2 ^ (j + 2) : Nat)) := by
            have hpi := Real.pi_pos
            have h4 : (4 : ℝ) ≤ 2 ^ (j + 2) := by
              have : (4 : Nat) ≤ 2 ^ (j + 2) := by rw [pow_add]; have := Nat.two_pow_pos j; omega
              exact_mod_cast this
            have e : 2 * Real.pi * (1 : Nat) / (2 * 2 ^ (j + 2) : Nat) = Real.pi * (1 / 2 ^ (j + 2)) := by
              push_cast; field_simp
            have hle : (1 : ℝ) / 2 ^ (j + 2) ≤ 1 / 4 := one_div_le_one_div_of_le (by norm_num) h4
            have hpos : (0 : ℝ) < 1 / 2 ^ (j + 2) := by positivity
            rw [e]
            apply Real.cos_pos_of_mem_Ioo
            constructor <;> nlinarith
          positivity
        · rw [← cosSum_odd hH]; exact ih _ (by omega) _
      · refine IsSign.of_mul (c := 2) (by norm_num) ?_
        rw [← cosSum_norm hH]; exact ih _ (by omega) _

/-! ## The nearest binary64 number -/

/-- The fields of a pattern with the bits `b` below its sign. -/
theorem F64.toNat_pack (neg : Bool) {b : Nat} (h : b < 2 ^ 63) :
    (F64.pack neg b).toNat = (if neg then 2 ^ 63 else 0) + b := by
  rw [F64.pack, BitVec.toNat_ofNat, Nat.mod_eq_of_lt]
  split <;> omega

theorem F64.expField_pack (neg : Bool) {b : Nat} (h : b < 2 ^ 63) : F64.expField (F64.pack neg b) = b / 2 ^ 52 := by
  rw [F64.expField, F64.toNat_pack neg h]
  split <;> omega

theorem F64.fracField_pack (neg : Bool) {b : Nat} (h : b < 2 ^ 63) : F64.fracField (F64.pack neg b) = b % 2 ^ 52 := by
  rw [F64.fracField, F64.toNat_pack neg h]
  split <;> omega

theorem F64.sign_pack (neg : Bool) {b : Nat} (h : b < 2 ^ 63) : F64.sign (F64.pack neg b) = neg := by
  have h1 := F64.toNat_eq (F64.pack neg b)
  rw [F64.toNat_pack neg h] at h1
  have h2 : ((if neg then 2 ^ 63 else 0) + b) % 2 ^ 63 = b := by cases neg <;> simp <;> omega
  rw [h2] at h1
  generalize F64.sign (F64.pack neg b) = t at h1 ⊢
  cases neg <;> cases t <;> simp at h1 ⊢

theorem F64.isFinite_pack (neg : Bool) {b : Nat} (h : b < 2047 * 2 ^ 52) : F64.isFinite (F64.pack neg b) = true := by
  rw [F64.isFinite, F64.expField_pack neg (by omega), decide_eq_true_eq]
  omega

theorem F64.pack_sign (x : F64) : F64.pack (F64.sign x) (x.toNat % 2 ^ 63) = x := by
  apply BitVec.eq_of_toNat_eq
  rw [F64.toNat_pack _ (Nat.mod_lt _ (by norm_num)), ← F64.toNat_eq]

theorem F64.low_of_isFinite {x : F64} (h : F64.isFinite x = true) : x.toNat % 2 ^ 63 < 2047 * 2 ^ 52 := by
  rw [F64.isFinite, decide_eq_true_eq, F64.expField] at h
  omega

/-- The magnitude of the pattern whose bits 62 to 0 are `b`. -/
def magAt (b : Nat) : Nat := F64.mag (BitVec.ofNat 64 b)

theorem F64.mag_pack (neg : Bool) {b : Nat} (h : b < 2 ^ 63) : F64.mag (F64.pack neg b) = magAt b := by
  have e : (BitVec.ofNat 64 b : F64) = F64.pack false b := by simp [F64.pack]
  rw [magAt, e, F64.mag, F64.mag, F64.expField_pack neg h, F64.expField_pack false h, F64.fracField_pack neg h,
    F64.fracField_pack false h]

theorem magAt_eq {b : Nat} (h : b < 2 ^ 63) :
    magAt b = if b / 2 ^ 52 = 0 then b % 2 ^ 52 else (2 ^ 52 + b % 2 ^ 52) * 2 ^ (b / 2 ^ 52 - 1) := by
  rw [← F64.mag_pack false h, F64.mag, F64.expField_pack false h, F64.fracField_pack false h]

theorem magAt_zero : magAt 0 = 0 := by rw [magAt_eq (by norm_num)]; rfl

/-- The magnitudes of consecutive patterns rise. -/
theorem magAt_lt_succ {b : Nat} (h : b + 1 < 2 ^ 63) : magAt b < magAt (b + 1) := by
  rw [magAt_eq h, magAt_eq (by omega)]
  rcases Nat.lt_or_ge (b % 2 ^ 52 + 1) (2 ^ 52) with hb | hb
  · have h1 : (b + 1) / 2 ^ 52 = b / 2 ^ 52 := by omega
    have h2 : (b + 1) % 2 ^ 52 = b % 2 ^ 52 + 1 := by omega
    rw [h1, h2]
    split
    · omega
    · exact Nat.mul_lt_mul_of_pos_right (by omega) (Nat.two_pow_pos _)
  · have h1 : (b + 1) / 2 ^ 52 = b / 2 ^ 52 + 1 := by omega
    have h2 : (b + 1) % 2 ^ 52 = 0 := by omega
    have h3 : b % 2 ^ 52 = 2 ^ 52 - 1 := by omega
    rw [h1, h2, h3, if_neg (Nat.succ_ne_zero _), Nat.add_sub_cancel]
    rcases Nat.eq_zero_or_pos (b / 2 ^ 52) with h0 | h0
    · rw [h0]; norm_num
    · obtain ⟨e, he⟩ : ∃ e, b / 2 ^ 52 = e + 1 := ⟨b / 2 ^ 52 - 1, by omega⟩
      rw [he, if_neg (Nat.succ_ne_zero e), Nat.add_sub_cancel, show 2 ^ (e + 1) = 2 * 2 ^ e from Nat.pow_succ', ← Nat.mul_assoc]
      exact Nat.mul_lt_mul_of_pos_right (by norm_num) (Nat.two_pow_pos e)

theorem magAt_mono {a b : Nat} (h : a ≤ b) (hb : b < 2 ^ 63) : magAt a ≤ magAt b := by
  induction b, h using Nat.le_induction with
  | base => exact le_rfl
  | succ b _ ih => exact (ih (by omega)).trans (magAt_lt_succ hb).le

theorem F64.val_pack (neg : Bool) {b : Nat} (h : b < 2 ^ 63) :
    F64.val (F64.pack neg b) = (if neg then -1 else 1) * ((magAt b : ℚ) / 2 ^ 1074) := by
  rw [F64.val, F64.scaled, F64.sign_pack neg h, F64.mag_pack neg h]
  cases neg <;> simp [neg_div]

/-- The magnitude with bits 62 to 0 `b`, as a real. -/
noncomputable def realAt (b : Nat) : ℝ := (magAt b : ℝ) / 2 ^ 1074

theorem realAt_mono {a b : Nat} (h : a ≤ b) (hb : b < 2 ^ 63) : realAt a ≤ realAt b :=
  div_le_div_of_nonneg_right (by exact_mod_cast magAt_mono h hb) (by positivity)

theorem realAt_nonneg (b : Nat) : 0 ≤ realAt b := by unfold realAt; positivity

theorem realAt_zero : realAt 0 = 0 := by rw [realAt, magAt_zero]; simp

theorem midpointBelow_eq (b : Nat) : ((midpointBelow b : ℚ) : ℝ) = (realAt (b - 1) + realAt b) / 2 := by
  have : midpointBelow b = ((magAt (b - 1) + magAt b : Nat) : ℚ) / 2 ^ 1075 := rfl
  rw [this, realAt, realAt, Rat.cast_div, Rat.cast_natCast, Rat.cast_pow, Rat.cast_ofNat, Nat.cast_add,
    show (1075 : Nat) = 1074 + 1 by norm_num, pow_succ, ← add_div, div_div]

theorem nearestBits_lt (cmp : ℚ → Ordering) : nearestBits cmp < 2047 * 2 ^ 52 := by
  rcases (greatestFrom_bounds (fun b => decide (b < 2047 * 2 ^ 52) && (cmp (midpointBelow b) != .lt)) 63 0).2.2 with h | h
  · rw [nearestBits, h]; norm_num
  · simp only [Bool.and_eq_true, decide_eq_true_eq] at h
    exact h.1

/-- `nearestBits` gives a finite magnitude no farther from a real than any other. -/
theorem nearestBits_nearest {s : ℝ} (hs : 0 ≤ s) {c : Nat} (hc : c < 2047 * 2 ^ 52) :
    |realAt (nearestBits fun q => compare s q) - s| ≤ |realAt c - s| := by
  set p : Nat → Bool := fun b => decide (b < 2047 * 2 ^ 52) && (compare s ((midpointBelow b : ℚ) : ℝ) != .lt) with hp
  have hpiff : ∀ b, p b = true ↔ b < 2047 * 2 ^ 52 ∧ (realAt (b - 1) + realAt b) / 2 ≤ s := by
    intro b
    simp only [hp, Bool.and_eq_true, decide_eq_true_eq, bne_iff_ne, ne_eq, compare_lt_iff_lt, midpointBelow_eq, not_lt]
  have hb0 := greatestFrom_bounds p 63 0
  have hb1 := greatestFrom_greatest (p := p) (fun a b hab hb => by
    rw [hpiff] at hb ⊢
    have h1 := realAt_mono hab (by omega)
    have h2 := realAt_mono (Nat.sub_le_sub_right hab 1) (by omega)
    exact ⟨by omega, by linarith⟩) 63 0
  have hdef : (nearestBits fun q => compare s (q : ℝ)) = greatestFrom p 63 0 := rfl
  have hlt := nearestBits_lt fun q => compare s (q : ℝ)
  rw [hdef] at hlt ⊢
  set b := greatestFrom p 63 0
  have hlow : (realAt (b - 1) + realAt b) / 2 ≤ s := by
    rcases hb0.2.2 with h | h
    · rw [h]; simpa [realAt_zero] using hs
    · exact ((hpiff b).1 h).2
  rcases lt_trichotomy c b with h | h | h
  · have h1 := realAt_mono (show c ≤ b - 1 by omega) (by omega)
    have h2 := realAt_mono (show b - 1 ≤ b by omega) (by omega)
    rw [abs_sub_comm (realAt c), abs_of_nonneg (by linarith : 0 ≤ s - realAt c), abs_le]
    constructor <;> linarith
  · rw [h]
  · have h0 := hb1 (b + 1) (by omega) (by omega)
    rw [Bool.eq_false_iff, Ne, hpiff, not_and, not_le] at h0
    have h1 := h0 (by omega)
    rw [Nat.add_sub_cancel] at h1
    have h2 := realAt_mono (show b + 1 ≤ c by omega) (by omega)
    have h3 := realAt_mono (show b ≤ b + 1 by omega) (by omega)
    rw [abs_of_nonneg (by linarith : 0 ≤ realAt c - s), abs_le]
    constructor <;> linarith

theorem F64.val_pack_real (neg : Bool) {b : Nat} (h : b < 2 ^ 63) :
    ((F64.val (F64.pack neg b) : ℚ) : ℝ) = (if neg then -1 else 1) * realAt b := by
  rw [F64.val_pack neg h, realAt]
  rw [Rat.cast_mul, Rat.cast_div, Rat.cast_natCast, Rat.cast_pow, Rat.cast_ofNat]
  cases neg <;> simp

/-- `nearestF64` is finite, and no finite binary64 number is nearer to the real. -/
theorem nearestF64_nearest (s : ℝ) (z : F64) (hz : F64.isFinite z = true) :
    F64.isFinite (nearestF64 fun q => compare s q) = true ∧
      |(F64.val (nearestF64 fun q => compare s q) : ℝ) - s| ≤ |(F64.val z : ℝ) - s| := by
  have hzl := F64.low_of_isFinite hz
  have hzv : ((F64.val z : ℚ) : ℝ) = (if F64.sign z then -1 else 1) * realAt (z.toNat % 2 ^ 63) := by
    conv_lhs => rw [← F64.pack_sign z]
    exact F64.val_pack_real _ (by omega)
  have hz0 := realAt_nonneg (z.toNat % 2 ^ 63)
  have key : ∀ {r : ℝ}, 0 ≤ r → |realAt (nearestBits fun q => compare r q) - r| ≤ |(F64.val z : ℝ) - r| ∧
      |realAt (nearestBits fun q => compare r q) - r| ≤ |-(F64.val z : ℝ) - r| := by
    intro r hr
    have h1 := nearestBits_nearest hr hzl
    have h2 := nearestBits_nearest hr (c := 0) (by norm_num)
    rw [realAt_zero, zero_sub, abs_neg, abs_of_nonneg hr] at h2
    have h3 : r ≤ |-realAt (z.toNat % 2 ^ 63) - r| := by rw [abs_of_nonpos (by linarith)]; linarith
    rw [hzv]
    cases F64.sign z <;> simp <;> constructor <;> first | exact h1 | exact h2.trans h3
  rw [nearestF64]
  have hcmp : compare s ((0 : ℚ) : ℝ) = .lt ↔ s < 0 := by rw [compare_lt_iff_lt, Rat.cast_zero]
  by_cases hs : s < 0
  · rw [if_pos (hcmp.2 hs)]
    have e : (fun q : ℚ => (compare s ((-q : ℚ) : ℝ)).swap) = fun q : ℚ => compare (-s) (q : ℝ) := by
      funext q
      rw [swap_compare]
      exact compare_congr (by push_cast; constructor <;> intro h <;> linarith)
        (by push_cast; constructor <;> intro h <;> linarith)
    rw [e]
    have hlt := nearestBits_lt fun q => compare (-s) (q : ℝ)
    refine ⟨F64.isFinite_pack _ hlt, ?_⟩
    rw [F64.val_pack_real _ (by omega)]
    have := (key (r := -s) (by linarith)).2
    have e1 : |-(F64.val z : ℝ) - -s| = |(F64.val z : ℝ) - s| := by rw [← abs_neg]; congr 1; ring
    rw [e1] at this
    refine le_trans (le_of_eq ?_) this
    rw [← abs_neg]; congr 1; simp; ring
  · rw [if_neg (fun h => hs (hcmp.1 h))]
    have hlt := nearestBits_lt fun q => compare s (q : ℝ)
    refine ⟨F64.isFinite_pack _ hlt, ?_⟩
    rw [F64.val_pack_real _ (by omega)]
    simpa using (key (not_lt.1 hs)).1

/-! ## The values nearest the ideal -/

/-- The magnitude of a value, as a real. -/
theorem F64.abs_val (x : F64) : |(F64.val x : ℝ)| = (F64.mag x : ℝ) / 2 ^ 1074 := by
  have h : F64.val x = (if F64.sign x then -1 else 1) * ((F64.mag x : ℚ) / 2 ^ 1074) := by
    rw [F64.val, F64.scaled]; cases F64.sign x <;> simp [neg_div]
  have hpos : (0 : ℝ) ≤ (F64.mag x : ℝ) / 2 ^ 1074 := by positivity
  rw [h, Rat.cast_mul, Rat.cast_div, Rat.cast_natCast, Rat.cast_pow, Rat.cast_ofNat, abs_mul, abs_of_nonneg hpos]
  cases F64.sign x <;> simp

/-- `nearestCosPi` is finite, and no finite binary64 number is nearer to cos(π|x|). -/
theorem nearestCosPi_nearest (x z : F64) (hz : F64.isFinite z = true) :
    F64.isFinite (nearestCosPi x) = true ∧
      |(F64.val (nearestCosPi x) : ℝ) - Real.cos (Real.pi * |(F64.val x : ℝ)|)| ≤
        |(F64.val z : ℝ) - Real.cos (Real.pi * |(F64.val x : ℝ)|)| := by
  have e : nearestCosPi x = nearestF64 fun q => compare (Real.cos (Real.pi * |(F64.val x : ℝ)|)) (q : ℝ) := by
    rw [nearestCosPi, F64.abs_val]
    congr 1; funext q
    rw [cosCmp_eq, mul_div_assoc]
  rw [e]
  exact nearestF64_nearest _ z hz

/-- A sine is the cosine three quarters of a turn further on. -/
theorem cos_three_quarters (j m : Nat) :
    Real.cos (Real.pi * (m + 3 * 2 ^ j : Nat) / 2 ^ (j + 1)) = Real.sin (Real.pi * ((m : ℝ) / 2 ^ (j + 1))) := by
  have h : Real.pi * (m + 3 * 2 ^ j : Nat) / 2 ^ (j + 1) =
      Real.pi * ((m : ℝ) / 2 ^ (j + 1)) - Real.pi / 2 + 2 * Real.pi := by
    push_cast; rw [pow_succ]; field_simp; ring
  rw [h, Real.cos_add_two_pi, Real.cos_sub_pi_div_two]

theorem cosCmp_three_quarters (j m : Nat) (q : ℚ) :
    cosCmp (j + 1) (m + 3 * 2 ^ j) q = compare (Real.sin (Real.pi * ((m : ℝ) / 2 ^ (j + 1)))) (q : ℝ) := by
  rw [cosCmp_eq, cos_three_quarters]

/-- `nearestSinPi` is finite, and no finite binary64 number is nearer to sin(π|x|). -/
theorem nearestSinPi_nearest (x z : F64) (hz : F64.isFinite z = true) :
    F64.isFinite (nearestSinPi x) = true ∧
      |(F64.val (nearestSinPi x) : ℝ) - Real.sin (Real.pi * |(F64.val x : ℝ)|)| ≤
        |(F64.val z : ℝ) - Real.sin (Real.pi * |(F64.val x : ℝ)|)| := by
  have e : nearestSinPi x = nearestF64 fun q => compare (Real.sin (Real.pi * |(F64.val x : ℝ)|)) (q : ℝ) := by
    unfold nearestSinPi
    rw [F64.abs_val]
    exact congrArg nearestF64 (funext (cosCmp_three_quarters 1073 (F64.mag x)))
  rw [e]
  exact nearestF64_nearest _ z hz

theorem IsSign.compare {n : Int} {x : ℝ} (h : IsSign n x) : compare n 0 = compare x 0 := by
  rcases h with ⟨rfl, h⟩ | ⟨rfl, h⟩ | ⟨rfl, h⟩
  · rw [compare_gt_iff_gt.2 h]; rfl
  · rw [compare_eq_iff_eq.2 h]; rfl
  · rw [compare_lt_iff_lt.2 h]; rfl

/-- `cosSumCmp` compares the scaled sum with the rational. -/
theorem cosSumCmp_eq (j : Nat) (w : List Int) (hw : w ≠ []) {scale : Nat} (hs : 0 < scale) (q : ℚ) :
    cosSumCmp j w scale q = compare (cosSum (2 ^ j) w / scale) (q : ℝ) := by
  have hsr : (0 : ℝ) < scale := by exact_mod_cast hs
  have hd : (0 : ℝ) < q.den := by exact_mod_cast q.den_pos
  have hsum : cosSum (2 ^ j) ((w.map fun c : Int => (q.den : Int) * c).modifyHead fun c => c - q.num * (scale : Int)) =
      q.den * cosSum (2 ^ j) w - q.num * scale := by
    obtain ⟨P, hP⟩ : ∃ P, 2 ^ j = P + 1 := ⟨2 ^ j - 1, by have := Nat.two_pow_pos j; omega⟩
    obtain ⟨c, l, rfl⟩ := List.exists_cons_of_ne_nil hw
    rw [hP, cosSum, cosSum, Finset.sum_range_succ', Finset.sum_range_succ']
    simp only [List.map_cons, List.modifyHead_cons, List.getD_cons_succ, List.getD_cons_zero]
    have hl : ∀ t, ((l.map fun c : Int => (q.den : Int) * c).getD t 0 : ℝ) = q.den * (l.getD t 0 : ℝ) := by
      intro t
      rw [List.getD_eq_getElem?_getD, List.getD_eq_getElem?_getD, List.getElem?_map]
      cases l[t]? <;> simp
    simp only [hl]
    rw [mul_add, Finset.mul_sum]
    simp only [mul_assoc]
    push_cast
    simp
    ring
  rw [cosSumCmp, (cosSumSign_isSign j _).compare, hsum]
  have hq : (q : ℝ) = q.num / q.den := by exact_mod_cast (Rat.num_div_den q).symm
  refine compare_congr ?_ ?_
  · rw [hq, div_lt_div_iff₀ hsr hd]; constructor <;> intro h <;> linarith
  · rw [hq, div_lt_div_iff₀ hd hsr]; constructor <;> intro h <;> linarith

/-- The weighted period of a transform is its sum of cosines and sines. -/
theorem cosSum_dftWeights {N : Nat} (hN : 0 < N) (n : Nat) (f g : Nat → Int) :
    cosSum (4 * N) (dftWeights N n f g) =
      ∑ k ∈ Finset.range N, ((f k : ℝ) * Real.cos (2 * Real.pi * k * n / N) + g k * Real.sin (2 * Real.pi * k * n / N)) := by
  have hP : 0 < 4 * N := by omega
  have hN' : (N : ℝ) ≠ 0 := by exact_mod_cast hN.ne'
  have hsum : ∀ (h : Nat → Int), ((List.range N).map h).sum = ∑ k ∈ Finset.range N, h k := fun _ => rfl
  have hpick : ∀ (x : Nat) (v : Int),
      ∑ t ∈ Finset.range (4 * N), (if x % (4 * N) = t then (v : ℝ) else 0) * Real.cos (2 * Real.pi * t / (4 * N : Nat)) =
        v * Real.cos (2 * Real.pi * x / (4 * N : Nat)) := by
    intro x v
    simp only [ite_mul, zero_mul]
    rw [Finset.sum_ite_eq, if_pos (Finset.mem_range.2 (Nat.mod_lt _ hP)), cos_period hP (Nat.mod_mod _ _)]
  have hterm : ∀ t ∈ Finset.range (4 * N), ((dftWeights N n f g).getD t 0 : ℝ) * Real.cos (2 * Real.pi * t / (4 * N : Nat)) =
      ∑ k ∈ Finset.range N, (((if 4 * k * n % (4 * N) = t then (f k : ℝ) else 0) * Real.cos (2 * Real.pi * t / (4 * N : Nat)))
        + ((if (4 * k * n + 3 * N) % (4 * N) = t then (g k : ℝ) else 0) * Real.cos (2 * Real.pi * t / (4 * N : Nat)))) := by
    intro t ht
    rw [dftWeights, getD_map_range _ _ _ (Finset.mem_range.1 ht), hsum, Int.cast_sum, Finset.sum_mul]
    refine Finset.sum_congr rfl fun k _ => ?_
    push_cast
    rw [add_mul]
  rw [cosSum, Finset.sum_congr rfl hterm, Finset.sum_comm]
  refine Finset.sum_congr rfl fun k _ => ?_
  rw [Finset.sum_add_distrib, hpick, hpick]
  have h1 : 2 * Real.pi * (4 * k * n : Nat) / (4 * N : Nat) = 2 * Real.pi * k * n / N := by
    push_cast; field_simp
  have h2 : 2 * Real.pi * (4 * k * n + 3 * N : Nat) / (4 * N : Nat) =
      2 * Real.pi * k * n / N - Real.pi / 2 + 2 * Real.pi := by
    push_cast; field_simp; ring
  rw [h1, h2, Real.cos_add_two_pi, Real.cos_sub_pi_div_two]

theorem dftWeights_ne_nil {N : Nat} (hN : 0 < N) (n : Nat) (f g : Nat → Int) : dftWeights N n f g ≠ [] := by
  intro h
  have : (dftWeights N n f g).length = 4 * N := by simp [dftWeights]
  rw [h] at this
  simp at this
  omega

/-- Both components of `nearestIdft` are finite, and no finite binary64 number is nearer to the ideal. -/
theorem nearestIdft_nearest (j : Nat) (X : List Sample) (n : Nat) (z : F64) (hz : F64.isFinite z = true) :
    (F64.isFinite (nearestIdft (2 ^ j) X n).re = true ∧
      |(F64.val (nearestIdft (2 ^ j) X n).re : ℝ) - Config.idealRe (2 ^ j) X n| ≤
        |(F64.val z : ℝ) - Config.idealRe (2 ^ j) X n|) ∧
    (F64.isFinite (nearestIdft (2 ^ j) X n).im = true ∧
      |(F64.val (nearestIdft (2 ^ j) X n).im : ℝ) - Config.idealIm (2 ^ j) X n| ≤
        |(F64.val z : ℝ) - Config.idealIm (2 ^ j) X n|) := by
  have hN : 0 < 2 ^ j := Nat.two_pow_pos j
  have hp : (0 : ℝ) < 2 ^ 1074 := by positivity
  have hcmp : ∀ (f g : Nat → Int),
      cosSumCmp (Nat.log2 (2 ^ j) + 2) (dftWeights (2 ^ j) n f g) (2 ^ j * 2 ^ 1074) =
        fun q : ℚ => compare (α := ℝ) ((∑ k ∈ Finset.range (2 ^ j), ((f k : ℝ) / 2 ^ 1074 * Real.cos (2 * Real.pi * k * n / (2 ^ j : Nat))
          + g k / 2 ^ 1074 * Real.sin (2 * Real.pi * k * n / (2 ^ j : Nat)))) / (2 ^ j : Nat)) (q : ℝ) := by
    intro f g; funext q
    rw [cosSumCmp_eq _ _ (dftWeights_ne_nil hN n f g) (Nat.mul_pos hN (Nat.two_pow_pos 1074)), Nat.log2_two_pow,
      show 2 ^ (j + 2) = 4 * 2 ^ j by rw [pow_add]; ring, cosSum_dftWeights hN]
    congr 1
    rw [Nat.cast_mul, mul_comm ((2 ^ j : Nat) : ℝ), ← div_div, Finset.sum_div, show (((2 ^ 1074 : Nat) : ℝ)) = 2 ^ 1074 by
      rw [Nat.cast_pow, Nat.cast_ofNat]]
    congr 1
    refine Finset.sum_congr rfl fun k _ => ?_
    rw [add_div, mul_div_right_comm (f k : ℝ), mul_div_right_comm (g k : ℝ)]
  have hval : ∀ x : F64, (F64.val x : ℝ) = (F64.scaled x : ℝ) / 2 ^ 1074 := by
    intro x; rw [F64.val, Rat.cast_div, Rat.cast_intCast, Rat.cast_pow, Rat.cast_ofNat]
  have hre : (nearestIdft (2 ^ j) X n).re = nearestF64 fun q => compare (Config.idealRe (2 ^ j) X n) (q : ℝ) := by
    simp only [nearestIdft, hcmp, Config.idealRe, Config.sumSamples, hval, Int.cast_neg, neg_div, neg_mul, ← sub_eq_add_neg]
  have him : (nearestIdft (2 ^ j) X n).im = nearestF64 fun q => compare (Config.idealIm (2 ^ j) X n) (q : ℝ) := by
    simp only [nearestIdft, hcmp, Config.idealIm, Config.sumSamples, hval]
    congr 1; funext q; congr 2
    exact Finset.sum_congr rfl fun k _ => add_comm _ _
  rw [hre, him]
  exact ⟨nearestF64_nearest _ z hz, nearestF64_nearest _ z hz⟩

end Sys2Proof
end

