-- ==== Sys2Proof/Laws/Ops.lean ====
section
/-! SUPPORT. What each shared operation can do, once: the checks, the one way a command runs, START, the resets, the
release of held accesses, and the step. -/

namespace Sys2Proof.Machine

/-! ## Checks -/

@[simp] theorem firstFailure_nil : firstFailure [] = none := rfl

theorem firstFailure_cons_ok {c : Check} (h : c.ok = true) (cs : List Check) :
    firstFailure (c :: cs) = firstFailure cs := by simp [firstFailure, h]

theorem firstFailure_cons_bad {c : Check} (h : c.ok = false) (cs : List Check) :
    firstFailure (c :: cs) = some c.err := by simp [firstFailure, h]

theorem firstFailure_eq_none_iff (cs : List Check) : firstFailure cs = none ↔ ∀ c ∈ cs, c.ok = true := by
  induction cs with
  | nil => simp
  | cons c cs ih => cases h : c.ok <;> simp [firstFailure, h, ih]

/-- The reported error is that of a check that fails, and every check before it passes. -/
theorem firstFailure_eq_some_iff (cs : List Check) (r : Raise) :
    firstFailure cs = some r ↔
      ∃ before c after, cs = before ++ c :: after ∧ (∀ d ∈ before, d.ok = true) ∧ c.ok = false ∧ c.err = r := by
  induction cs with
  | nil => simp
  | cons c cs ih =>
    cases h : c.ok with
    | false =>
      rw [firstFailure_cons_bad h]
      constructor
      · intro e; exact ⟨[], c, cs, rfl, by simp, h, by simpa using e⟩
      · rintro ⟨before, d, after, e, hb, hd, rfl⟩
        cases before with
        | nil => simp only [List.nil_append, List.cons.injEq] at e; simp [e.1]
        | cons b bs =>
          simp only [List.cons_append, List.cons.injEq] at e
          have := hb b (by simp)
          rw [← e.1, h] at this
          cases this
    | true =>
      rw [firstFailure_cons_ok h, ih]
      constructor
      · rintro ⟨before, d, after, rfl, hb, hd, rfl⟩
        refine ⟨c :: before, d, after, rfl, ?_, hd, rfl⟩
        intro x hx
        rcases List.mem_cons.1 hx with rfl | hx
        · exact h
        · exact hb x hx
      · rintro ⟨before, d, after, e, hb, hd, rfl⟩
        cases before with
        | nil =>
          simp only [List.nil_append, List.cons.injEq] at e
          rw [← e.1, h] at hd
          cases hd
        | cons b bs =>
          simp only [List.cons_append, List.cons.injEq] at e
          exact ⟨bs, d, after, e.2, fun x hx => hb x (by simp [hx]), hd, rfl⟩

theorem firstFailure_append (as bs : List Check) :
    firstFailure (as ++ bs) = (firstFailure as).or (firstFailure bs) := by
  induction as with
  | nil => simp
  | cons c cs ih => cases h : c.ok <;> simp [firstFailure, h, ih]

/-! ## Regions -/

theorem Region.inBounds_iff (r : Region) (m : Nat) : r.inBounds m = true ↔ r.len = 0 ∨ r.base + r.len ≤ m := by
  simp [Region.inBounds]

theorem Region.aligned_iff (r : Region) (k : Nat) : r.aligned k = true ↔ r.len = 0 ∨ r.base % k = 0 := by
  simp [Region.aligned]

theorem Region.overlaps_iff (r q : Region) :
    r.overlaps q = true ↔ 0 < r.len ∧ 0 < q.len ∧ r.base < q.base + q.len ∧ q.base < r.base + r.len := by
  simp [Region.overlaps, and_assoc]

theorem Region.has_iff (r : Region) (a : Nat) : r.has a = true ↔ r.base ≤ a ∧ a < r.base + r.len := by
  simp [Region.has]

/-! ## Running a command -/

/-- A command ends in an error completion, of its first failing check, or in its own writes and completion. -/
theorem Plan.run_cases (p : Plan) (s : State) :
    (∃ r, (firstFailure p.early = some r ∨ (firstFailure p.early = none ∧ firstFailure (p.late s) = some r)) ∧
      p.run s = s.fail r) ∨
    (firstFailure p.early = none ∧ firstFailure (p.late s) = none ∧ p.run s = p.act s) := by
  unfold Plan.run
  cases h1 : firstFailure p.early with
  | some r => exact .inl ⟨r, .inl rfl, rfl⟩
  | none =>
    cases h2 : firstFailure (p.late s) with
    | some r => exact .inl ⟨r, .inr ⟨rfl, rfl⟩, rfl⟩
    | none => exact .inr ⟨rfl, rfl, rfl⟩

theorem Plan.run_of_early {p : Plan} {r : Raise} (h : firstFailure p.early = some r) (s : State) :
    p.run s = s.fail r := by simp [Plan.run, h]

theorem Plan.run_of_late {p : Plan} {s : State} {r : Raise} (h1 : firstFailure p.early = none)
    (h2 : firstFailure (p.late s) = some r) : p.run s = s.fail r := by simp [Plan.run, h1, h2]

theorem Plan.run_of_pass {p : Plan} {s : State} (h1 : firstFailure p.early = none)
    (h2 : firstFailure (p.late s) = none) : p.run s = p.act s := by simp [Plan.run, h1, h2]

/-- Every command answers a next state: that of its plan. -/
theorem exec_eq_run (i : Instr) (s : State) : exec i s = .next ((planOf i s).run s) := by
  cases i <;> rfl

theorem exec_eq_next_iff (i : Instr) (s t : State) : exec i s = .next t ↔ t = (planOf i s).run s := by
  rw [exec_eq_run]
  constructor
  · intro h; injection h with h; exact h.symm
  · rintro rfl; rfl

/-! ## ENGINE's step -/

theorem State.runLatched_command {s : State} {i : Instr} (h : decode s.latched.cmd = .command i) :
    s.runLatched = exec i s := by simp [State.runLatched, h]

theorem State.runLatched_illegal {s : State} {sub idx : Nat} (h : decode s.latched.cmd = .illegal sub idx) :
    s.runLatched = .next (s.fail (illegalCommand sub idx)) := by simp [State.runLatched, h]

/-- ENGINE's step runs a command, reports an illegal word, or, in an IDLE engine, does nothing. -/
theorem State.engineStep_cases (s : State) :
    (s.status.busy = false ∧ s.engineStep = .next s) ∨
    (s.status.busy = true ∧ ∃ i, decode s.latched.cmd = .command i ∧
      s.engineStep = .next ((planOf i s).run s).release) ∨
    (s.status.busy = true ∧ ∃ sub idx, decode s.latched.cmd = .illegal sub idx ∧
      s.engineStep = .next (s.fail (illegalCommand sub idx)).release) := by
  cases hb : s.status.busy with
  | false => exact .inl ⟨rfl, by simp [State.engineStep, hb]⟩
  | true =>
    cases hd : decode s.latched.cmd with
    | command i =>
      exact .inr (.inl ⟨rfl, i, rfl, by
        simp [State.engineStep, hb, State.runLatched_command hd, exec_eq_run, releaseAfter]⟩)
    | illegal sub idx =>
      exact .inr (.inr ⟨rfl, sub, idx, rfl, by
        simp [State.engineStep, hb, State.runLatched_illegal hd, releaseAfter]⟩)

/-! ## START and the resets -/

theorem State.start_of_busy {s : State} (h : s.status.busy = true) :
    s.start = { s with status := s.status.startMissed } := by simp [State.start, h]

theorem State.start_of_idle {s : State} (h : s.status.busy = false) :
    s.start = { s with latched := s.latch, status := s.status.started, errIdx := 0, outLen := 0, clampCnt := 0,
                       resF0 := Pair.zero, resF1 := Pair.zero } := by simp [State.start, h]

theorem State.release_of_none {s : State} (h : s.held = []) : s.release = s := by
  cases s; simp only at h; subst h; rfl

theorem State.memEffect_eq (s : State) (m : MemAccess) :
    s.memEffect m = { s with mem := (s.memEffect m).mem, replies := (s.memEffect m).replies } := by
  cases m <;> rfl

/-- Performing accesses changes the memory and what the host has read, and nothing else. -/
theorem State.memEffects_eq (l : List MemAccess) (s : State) :
    s.memEffects l = { s with mem := (s.memEffects l).mem, replies := (s.memEffects l).replies } := by
  induction l generalizing s with
  | nil => rfl
  | cons m l ih =>
    have hcons : s.memEffects (m :: l) = (s.memEffect m).memEffects l := rfl
    rw [hcons, ih (s.memEffect m)]
    cases m <;> rfl

theorem State.release_eq (s : State) :
    s.release = { s with held := [], mem := s.release.mem, replies := s.release.replies } := by
  unfold State.release
  rw [State.memEffects_eq]

/-- A soft reset, of an IDLE block with nothing held. -/
theorem State.softReset_of_idle {s : State} (hb : s.status.busy = false) (hh : s.held = []) :
    s.softReset = s.resetRegisters := by
  have h : s.resetRegisters.held = [] := hh
  simp [State.softReset, hb, State.release_of_none h]

/-! ## The step -/

/-- What one step is: ENGINE's turn, or the effect of the next input. -/
theorem step_cases (s : State) :
    (s.inputs = [] ∧ step s = s.engineStep) ∨
    (∃ x rest, s.inputs = x :: rest ∧ s.hostStalled = true ∧ x.fromHost = true ∧ step s = s.engineStep) ∨
    (∃ x rest, s.inputs = x :: rest ∧ (s.hostStalled = false ∨ x.fromHost = false) ∧
      step s = State.takeInput { s with inputs := rest } x) := by
  unfold step State.advance
  cases hi : s.inputs with
  | nil => exact .inl ⟨rfl, rfl⟩
  | cons x rest =>
    cases h1 : s.hostStalled with
    | false => exact .inr (.inr ⟨x, rest, rfl, .inl rfl, by simp⟩)
    | true =>
      cases h2 : x.fromHost with
      | false => exact .inr (.inr ⟨x, rest, rfl, .inr h2, by simp [h2]⟩)
      | true => exact .inr (.inl ⟨x, rest, rfl, rfl, h2, by simp [h2]⟩)

end Sys2Proof.Machine
end

