-- ==== Sys2Proof/Laws/PerInstr.lean ====
section
/-! SUPPORT. The family EncodingFitsItsRow, one lemma per command: the word of a well-formed command has the OPC of a row of
the opcode map and that row's match value under its mask (30_encoding.md R104, R106). -/

namespace Sys2Proof.Laws

/-- The encoding of a well-formed command fits a row of the opcode map. -/
def EncodingFitsItsRow.Statement (i : Instr) : Prop :=
  i.wellFormed = true → ∃ r ∈ opcodeMap, r.opc = opcField (encode i) ∧ encode i &&& r.mask = r.value

theorem EncodingFitsItsRow.mapBpsk : EncodingFitsItsRow.Statement .mapBpsk := by
  intro _; exact ⟨opcodeMap[0], by simp [opcodeMap], by decide, by decide⟩

theorem EncodingFitsItsRow.mapQpsk (norm : Bool) : EncodingFitsItsRow.Statement (.mapQpsk norm) := by
  intro _; exact ⟨opcodeMap[1], by simp [opcodeMap], by cases norm <;> decide, by cases norm <;> decide⟩

theorem EncodingFitsItsRow.mapQam16 : EncodingFitsItsRow.Statement .mapQam16 := by
  intro _; exact ⟨opcodeMap[2], by simp [opcodeMap], by decide, by decide⟩

theorem EncodingFitsItsRow.firLowpass (dcnorm : Bool) : EncodingFitsItsRow.Statement (.firLowpass dcnorm) := by
  intro _; exact ⟨opcodeMap[3], by simp [opcodeMap], by cases dcnorm <;> decide, by cases dcnorm <;> decide⟩

theorem EncodingFitsItsRow.firRcos : EncodingFitsItsRow.Statement .firRcos := by
  intro _; exact ⟨opcodeMap[4], by simp [opcodeMap], by decide, by decide⟩

theorem EncodingFitsItsRow.pulseShape (same : Bool) : EncodingFitsItsRow.Statement (.pulseShape same) := by
  intro _; exact ⟨opcodeMap[5], by simp [opcodeMap], by cases same <;> decide, by cases same <;> decide⟩

theorem EncodingFitsItsRow.ofdmMod (refset : Bool) : EncodingFitsItsRow.Statement (.ofdmMod refset) := by
  intro _; exact ⟨opcodeMap[6], by simp [opcodeMap], by cases refset <;> decide, by cases refset <;> decide⟩

theorem EncodingFitsItsRow.chirp : EncodingFitsItsRow.Statement .chirp := by
  intro _; exact ⟨opcodeMap[7], by simp [opcodeMap], by decide, by decide⟩

theorem EncodingFitsItsRow.dacQuant (ch fixed : Bool) (bits : Nat) :
    EncodingFitsItsRow.Statement (.dacQuant ch fixed bits) := by
  intro h
  have hb : bits < 32 := by simpa [Instr.wellFormed] using h
  have key : ∀ b : Fin 32, ∀ c f : Bool, opcodeMap[8].opc = opcField (encode (.dacQuant c f b)) ∧
      encode (.dacQuant c f b) &&& opcodeMap[8].mask = opcodeMap[8].value := by decide
  exact ⟨opcodeMap[8], by simp [opcodeMap], (key ⟨bits, hb⟩ ch fixed).1, (key ⟨bits, hb⟩ ch fixed).2⟩

end Sys2Proof.Laws
end

