-- ==== Sys2Proof/Laws/Safety.lean ====
section
/-! SUPPORT. The completions of a command in the terms of Safety.lean: what an error completion and a success completion
leave and set, the frame of each array write, and the check chains as reports. -/

namespace Sys2Proof.Machine

/-! ## The frames -/

theorem CommandKeeps.refl (s : State) : CommandKeeps s s :=
  ⟨rfl, rfl, rfl, rfl, rfl, rfl, rfl, rfl, rfl, rfl, rfl⟩

theorem CommandKeeps.trans {s t u : State} (h : CommandKeeps s t) (k : CommandKeeps t u) : CommandKeeps s u := by
  obtain ⟨h1, h2, h3, h4, h5, h6, h7, h8, h9, h10, h11⟩ := h
  obtain ⟨k1, k2, k3, k4, k5, k6, k7, k8, k9, k10, k11⟩ := k
  exact ⟨k1.trans h1, k2.trans h2, k3.trans h3, k4.trans h4, k5.trans h5, k6.trans h6, k7.trans h7, k8.trans h8,
    k9.trans h9, k10.trans h10, k11.trans h11⟩

theorem commandKeeps_writeSamples (s : State) (a : Nat) (l : List Sample) : CommandKeeps s (s.writeSamples a l) :=
  ⟨rfl, rfl, rfl, rfl, rfl, rfl, rfl, rfl, rfl, rfl, rfl⟩

theorem commandKeeps_writeReals (s : State) (a : Nat) (l : List F64) : CommandKeeps s (s.writeReals a l) :=
  ⟨rfl, rfl, rfl, rfl, rfl, rfl, rfl, rfl, rfl, rfl, rfl⟩

theorem commandKeeps_writeCodes (s : State) (a : Nat) (l : List Nat) : CommandKeeps s (s.writeCodes a l) :=
  ⟨rfl, rfl, rfl, rfl, rfl, rfl, rfl, rfl, rfl, rfl, rfl⟩

theorem commandKeeps_succeed (s : State) (n : Nat) : CommandKeeps s (s.succeed n) :=
  ⟨rfl, rfl, rfl, rfl, rfl, rfl, rfl, rfl, rfl, rfl, rfl⟩

theorem commandKeeps_succeedMinMax (s : State) (n : Nat) (lo hi : F64) : CommandKeeps s (s.succeedMinMax n lo hi) :=
  ⟨rfl, rfl, rfl, rfl, rfl, rfl, rfl, rfl, rfl, rfl, rfl⟩

theorem commandKeeps_fail (s : State) (r : Raise) : CommandKeeps s (s.fail r) :=
  ⟨rfl, rfl, rfl, rfl, rfl, rfl, rfl, rfl, rfl, rfl, rfl⟩

theorem commandKeeps_failRange (s : State) (i n k : Nat) : CommandKeeps s (s.failRange i n k) :=
  ⟨rfl, rfl, rfl, rfl, rfl, rfl, rfl, rfl, rfl, rfl, rfl⟩

theorem bytesKeptOutside_writeSamples (s : State) (a : Nat) (l : List Sample) :
    BytesKeptOutside s (s.writeSamples a l) a (16 * l.length) := fun _ h =>
  State.readByte_writeSamples_outside s l (by omega)

theorem bytesKeptOutside_writeReals (s : State) (a : Nat) (l : List F64) :
    BytesKeptOutside s (s.writeReals a l) a (8 * l.length) := fun _ h =>
  State.readByte_writeReals_outside s l (by omega)

theorem bytesKeptOutside_writeCodes (s : State) (a : Nat) (l : List Nat) :
    BytesKeptOutside s (s.writeCodes a l) a (2 * l.length) := fun _ h =>
  State.readByte_writeCodes_outside s l (by omega)

/-! ## The completions -/

/-- Every class code fits the field ERRCODE. -/
theorem ErrClass.code_lt (c : ErrClass) : c.code < 256 := by cases c <;> decide

/-- The error completion is the one 60_exceptions.md R266 describes. -/
theorem fail_endsBadly (s : State) (r : Raise) (h : r.sub < 256) :
    EndsBadly s (s.fail r) r.cls.code r.sub r.idx := by
  have hc := r.cls.code_lt
  refine ⟨commandKeeps_fail s r, fun _ => rfl, rfl, rfl, rfl, rfl, ?_, ?_, ?_, ?_, rfl, rfl, rfl, rfl⟩
  · simp [Status.failed]; omega
  · simp [Status.failed]; omega
  · simp [Status.failed]
  · simp

/-- The success completion after writes that change the memory alone. -/
theorem succeed_endsWell {s t : State} (h : t = { s with mem := t.mem }) (n : Nat) : EndsWell s (t.succeed n) n := by
  rw [h]
  exact ⟨⟨rfl, rfl, rfl, rfl, rfl, rfl, rfl, rfl, rfl, rfl, rfl⟩, rfl, rfl, rfl, rfl, rfl, rfl, rfl, rfl, rfl⟩

/-! ## Held accesses -/

/-- An access of the sample memory does what its rule says. -/
theorem memEffect_accessDone (s : State) (m : MemAccess) : AccessDone s m (s.memEffect m) := by
  cases m with
  | read a n => rfl
  | write a n v =>
    refine ⟨rfl, fun b h => State.readByte_memWrite_outside s _ (by omega), fun k hk => ?_⟩
    show (Memory.lookup (Memory.writeLE s.mem a n v.toNat) (a + k)).getD _ = _
    rw [Memory.lookup_writeLE_inside _ _ _ hk, Option.getD_some, pow_mul]
    norm_num

/-- The accesses performed take effect in their order. -/
theorem memEffects_accessesDone (s : State) (l : List MemAccess) : AccessesDone s l (s.memEffects l) := by
  induction l generalizing s with
  | nil => rfl
  | cons m l ih => exact ⟨s.memEffect m, memEffect_accessDone s m, ih _⟩

/-- A release lets the held accesses take effect, oldest first, with nothing held any more. -/
theorem release_accessesDone (s : State) : AccessesDone { s with held := [] } s.held s.release :=
  memEffects_accessesDone _ _

/-! ## Chains of checks -/

theorem alignCheck_ok (sub k : Nat) (r : Region) :
    (alignCheck sub k r).ok = decide (r.len = 0 ∨ r.base % k = 0) := by simp [alignCheck, Region.aligned]

theorem boundsCheck_ok (sub m : Nat) (r : Region) :
    (boundsCheck sub m r).ok = decide (r.len = 0 ∨ r.base + r.len ≤ m) := by simp [boundsCheck, Region.inBounds]

theorem overlapCheck_ok (sub : Nat) (d r : Region) :
    (overlapCheck sub d r).ok = decide (Apart d.base d.len r.base r.len) := by
  rw [Bool.eq_iff_iff]
  simp only [overlapCheck, Bool.not_eq_true', decide_eq_true_eq, Apart]
  rw [Bool.eq_false_iff, Ne, Region.overlaps_iff]
  omega

/-- A run of the same kind of check over a list finds the first that fails. -/
theorem firstFailure_map {α : Type} (l : List α) (ok : α → Bool) (err : α → Raise) :
    firstFailure (l.map fun x => ⟨ok x, err x⟩) = (l.find? fun x => !ok x).map err := by
  induction l with
  | nil => rfl
  | cons x l ih => cases h : ok x <;> simp [firstFailure, h, ih]

end Sys2Proof.Machine
end

