-- ==== Sys2Proof/Tests/Slice0.lean ====
section
/-! SUPPORT. The model's own tests: expected values are from 95_test_vectors.md, 30_encoding.md R115 or worked by hand from
the rule named. Then, for each statement with hypotheses, a state that meets them. -/

namespace Sys2Proof.Tests

open Sys2Proof.Machine

-- One kernel evaluation at a time: many at once reserve a thread stack each, past the memory limit.
set_option Elab.async false

/-! ## Well-formedness and decoding -/

theorem test_wellFormed_refuses_bits_32 : (Instr.dacQuant false false 32).wellFormed = false := by decide
theorem test_wellFormed_accepts_bits_31 : (Instr.dacQuant true true 31).wellFormed = true := by decide

/-- 0000 0000 0000 0000 0000 0000 0000 0001: OPC = 0x01. -/
theorem test_decode_mapBpsk : decode 0b00000000000000000000000000000001 = .command .mapBpsk := by decide
/-- FLAGS[0] = 1, OPC = 0x02 (R115). -/
theorem test_decode_mapQpsk : decode 0b00000000000000000000000100000010 = .command (.mapQpsk true) := by decide
theorem test_decode_mapQam16 : decode 0b00000000000000000000000000000011 = .command .mapQam16 := by decide
theorem test_decode_firLowpass : decode 0b00000000000000000000000100010000 = .command (.firLowpass true) := by decide
theorem test_decode_firRcos : decode 0b00000000000000000000000000010001 = .command .firRcos := by decide
/-- FLAGS[0] = 1, OPC = 0x20 (R115). -/
theorem test_decode_pulseShape : decode 0b00000000000000000000000100100000 = .command (.pulseShape true) := by decide
theorem test_decode_ofdmMod : decode 0b00000000000000000000000100110000 = .command (.ofdmMod true) := by decide
theorem test_decode_chirp : decode 0b00000000000000000000000001000000 = .command .chirp := by decide
/-- BITS = 8, FLAGS[1] = 1, OPC = 0x50 (R115). -/
theorem test_decode_dacQuant_fixed : decode 0b00000000000010000000001001010000 = .command (.dacQuant false true 8) := by
  decide
/-- BITS = 16, FLAGS[0] = 1, OPC = 0x50 (R115). -/
theorem test_decode_dacQuant_q : decode 0b00000000000100000000000101010000 = .command (.dacQuant true false 16) := by
  decide
theorem test_decode_zero_is_illegal : decode 0x00000000 = .illegal 1 0x00 := by decide
theorem test_decode_reserved_bit_is_illegal : decode 0x80000040 = .illegal 2 0x40 := by decide
theorem test_encode_dacQuant : encode (.dacQuant false true 8) = 0x00080250 := by decide
theorem test_tableWord : decodeTableWord 32 0x102 = some (.mapQpsk true) := by decide

/-! ## Small states -/

/-- A BUSY state with the given operands latched. -/
def busyWith (src dst count aux p0 p1 p2 : Word) (f0 f1 f2 : F64) : State :=
  { State.reset with
    status := { Status.reset with busy := true }
    latched := ⟨0, src, dst, count, aux, p0, p1, p2, f0, f1, f2⟩ }

/-- What the command answers has the property. -/
def answers (i : Instr) (s : State) (p : State → Bool) : Bool :=
  match exec i s with
  | .next t => p t
  | .fault _ => false
  | .refused _ => false

/-- The bits 1, 0, 1, 1 at 0. -/
def bitState (count : Word) : State :=
  ((((busyWith 0 0x100 count 0 0 0 0 0 0 0).memWrite 0 1 1).memWrite 1 1 0).memWrite 2 1 1).memWrite 3 1 1

/-- The symbols (1, 1) and (-1, 1) at 0, and the taps +0, 1.0, +0 at 0x80. -/
def shapeState : State :=
  ((busyWith 0 0x100 2 0x80 2 3 0 0 0 0).writeSamples 0
    [⟨0x3FF0000000000000, 0x3FF0000000000000⟩, ⟨0xBFF0000000000000, 0x3FF0000000000000⟩]).writeReals 0x80
    [0, 0x3FF0000000000000, 0]

/-- The symbols (1.5, -2) and (0, 7) at 0, and the list [0] at 0x80, with NFFT = CP = NACT = 1. -/
def frameState : State :=
  ((busyWith 0 0x100 2 0x80 1 1 1 0 0 0).writeSamples 0
    [⟨0x3FF8000000000000, 0xC000000000000000⟩, ⟨0, 0x401C000000000000⟩]).writeCodes 0x80 [0]

/-- A chirp of T = 1, fs = 2.5, Bw = 0. -/
def chirpState : State := busyWith 0 0x100 0 0 0 0 0 0x3FF0000000000000 0x4004000000000000 0

/-- The samples 0, 1, 2, 3 at 0, and the range [-1, 1]. -/
def dacState : State :=
  (busyWith 0 0x100 4 0 0 0 0 0xBFF0000000000000 0x3FF0000000000000 0).writeSamples 0
    [⟨0, 0⟩, ⟨0x3FF0000000000000, 0⟩, ⟨0x4000000000000000, 0⟩, ⟨0x4008000000000000, 0⟩]

/-- A design of three low-pass taps at cutoff 0.5. -/
def lowpassState : State := busyWith 0 0x100 0 0 0 3 0 0x3FE0000000000000 0 0

/-- A raised-cosine design with S = 1, L = 2 and roll-off 0.5. -/
def rcosState : State := busyWith 0 0x100 0 0 1 2 0 0x3FE0000000000000 0 0

/-! ## One step of each command -/

/-- 40_symbol_mapper.md R133, the example: the second of the bits 1, 0, 1, 1 gives -1. -/
theorem test_mapBpsk_second_bit : answers .mapBpsk (bitState 4) (fun t =>
    t.readSample 0x110 == ⟨0xBFF0000000000000, 0⟩ && t.outLen == 4 && t.status.word == 0x00000002) = true := by
  decide +kernel

/-- M2-style: a bit of 2 at index 2 raises INVALID_SYMBOL(1, 2) (R132). -/
theorem test_mapBpsk_invalid_bit : answers .mapBpsk ((bitState 4).memWrite 2 1 2) (fun t =>
    t.status.errCode == 0x02 && t.errIdx == 2) = true := by decide +kernel

/-- R135: the pair (1, 0) gives (+, -). -/
theorem test_mapQpsk_pair : answers (.mapQpsk true) (bitState 2) (fun t =>
    t.readSample 0x100 == ⟨0x3FE6A09E667F3BCD, 0xBFE6A09E667F3BCD⟩) = true := by decide +kernel

/-- R134: COUNT = 3 raises LENGTH_MISMATCH(1, 1). -/
theorem test_mapQpsk_odd_count : answers (.mapQpsk false) (bitState 3) (fun t =>
    t.status.errCode == 0x01 && t.status.errSub == 1 && t.errIdx == 1) = true := by decide +kernel

/-- R137: (1, 0) is +3 and (1, 1) is +1. -/
theorem test_mapQam16_levels : answers .mapQam16 (bitState 4) (fun t =>
    t.readSample 0x100 == ⟨0x3FEE5B9D136C6D96, 0x3FD43D136248490F⟩ && t.outLen == 1) = true := by decide +kernel

/-- 41_filter_design.md R151, the example. -/
theorem test_firLowpass_three_taps : answers (.firLowpass false) lowpassState (fun t =>
    t.readF64 0x100 == 0x3F9A1371305E714D && t.readF64 0x108 == 0x3FE0000000000000 &&
      t.readF64 0x110 == 0x3F9A1371305E714D) = true := by decide +kernel

/-- R151: N = 2 raises FILTER_DESIGN(2, 2). -/
theorem test_firLowpass_even : answers (.firLowpass true) (busyWith 0 0x100 0 0 0 2 0 0x3FE0000000000000 0 0)
    (fun t => t.status.errCode == 0x03 && t.status.errSub == 2 && t.errIdx == 2) = true := by decide +kernel

/-- R156, the example: the outer taps take the singular branch and are +0. -/
theorem test_firRcos_singular : answers .firRcos rcosState (fun t =>
    t.readF64 0x100 == 0 && t.readF64 0x108 == 0x3FF0000000000000 && t.readF64 0x110 == 0) = true := by decide +kernel

/-- P1 of 95_test_vectors.md: sample 3 is (-1, 1), and six samples come out. -/
theorem test_pulseShape_full : answers (.pulseShape false) shapeState (fun t =>
    t.readSample 0x130 == ⟨0xBFF0000000000000, 0x3FF0000000000000⟩ && t.readSample 0x140 == ⟨0, 0⟩ && t.outLen == 6)
    = true := by decide +kernel

/-- P2: in SAME mode sample 2 is (-1, 1), and four samples come out. -/
theorem test_pulseShape_same : answers (.pulseShape true) shapeState (fun t =>
    t.readSample 0x120 == ⟨0xBFF0000000000000, 0x3FF0000000000000⟩ && t.outLen == 4) = true := by decide +kernel

/-- O1: each symbol comes out twice. -/
theorem test_ofdmMod_size_one : answers (.ofdmMod false) frameState (fun t =>
    t.readSample 0x110 == ⟨0x3FF8000000000000, 0xC000000000000000⟩ &&
      t.readSample 0x120 == ⟨0, 0x401C000000000000⟩ && t.outLen == 4) = true := by decide +kernel

/-- O10: NFFT = 32 with REFSET raises FRAME_CONFIG(3, 32). -/
theorem test_ofdmMod_reference_size : answers (.ofdmMod true) (busyWith 0 0x100 0 0 32 8 0 0 0 0) (fun t =>
    t.status.errCode == 0x04 && t.status.errSub == 3 && t.errIdx == 32) = true := by decide +kernel

/-- C2: three samples (1.0, +0). -/
theorem test_chirp_constant : answers .chirp chirpState (fun t =>
    t.readSample 0x120 == ⟨0x3FF0000000000000, 0⟩ && t.outLen == 3) = true := by decide +kernel

/-- D4: codes 0, 85, 170, 255 and the observed range. -/
theorem test_dacQuant_minMax : answers (.dacQuant false false 8) dacState (fun t =>
    [t.readU16 0x100, t.readU16 0x102, t.readU16 0x104, t.readU16 0x106] == [0, 85, 170, 255] &&
      t.resF1.value == 0x4008000000000000) = true := by decide +kernel

/-- R238 and R239: 0 is a tie that goes to 128, and the two samples above 1 are clamped; the first has index 2. -/
theorem test_dacQuant_clamps : answers (.dacQuant false true 8) dacState (fun t =>
    [t.readU16 0x100, t.readU16 0x102, t.readU16 0x104, t.readU16 0x106] == [128, 255, 255, 255] &&
      t.status.word == 0x50010506 && t.errIdx == 2 && t.clampCnt == 2) = true := by decide +kernel

/-! ## The exact comparisons -/

/-- cos(π/4)² = 1/2: 0.7071 is below cos(π/4), 0.7072 is above it. -/
theorem test_cosCmp_eighth_turn : cosCmp 2 1 (mkRat 7071 10000) = .gt ∧ cosCmp 2 1 (mkRat 7072 10000) = .lt := by
  decide +kernel

/-- 7 + 5·cos(π/4) + 5·cos(3π/4) = 7; -7 + 10·cos(π/4) = 0.07; the two cosines alone cancel. -/
theorem test_cosSumSign : cosSumSign 3 [7, 5, 0, 5, 0, 0, 0, 0] = 1 ∧ cosSumSign 3 [-7, 5, 0, 0, 0, 0, 0, 5] = 1 ∧
    cosSumSign 3 [0, 5, 0, 5, 0, 0, 0, 0] = 0 := by decide +kernel

/-- The samples 0 and i of size 2: sample 1 is -i/2, exactly. -/
theorem test_nearestIdft_two : nearestIdft 2 [⟨0, 0⟩, ⟨0, 0x3FF0000000000000⟩] 1 = ⟨0, 0xBFE0000000000000⟩ := by
  decide +kernel

/-! ## The step -/

/-- 95_test_vectors.md section 8: CMD = 0 after reset gives STATUS 0x00011006. -/
theorem test_step_illegal_word : (match step (State.reset.withFetchWord 32 0x00000000) with
    | .next t => t.status.word == 0x00011006
    | _ => false) = true := by decide +kernel

/-- A placed word is run by the very next step. -/
theorem test_step_runs_placed_word : (match step (State.reset.withFetchWord 32 0x00000050) with
    | .next t => t.status.word == 0x50061106
    | _ => false) = true := by decide +kernel

/-- Program 5 of 95_test_vectors.md, outcome (b): the second START comes before ENGINE's step. -/
theorem test_program5_missed : (match Sys2Proof.core.run 4 { State.reset with
      inputs := [wr32 .ctrl 1, wr32 .ctrl 1, .engine, rd32 .status] } with
    | .next t => State.replies t == [0x0001100E]
    | _ => false) = true := by decide +kernel

/-- Program 5, outcome (a): ENGINE's step comes first. -/
theorem test_program5_accepted : (match Sys2Proof.core.run 5 { State.reset with
      inputs := [wr32 .ctrl 1, .engine, wr32 .ctrl 1, .engine, rd32 .status] } with
    | .next t => State.replies t == [0x00011006]
    | _ => false) = true := by decide +kernel

/-! ## States that meet the hypotheses of the statements

Each theorem is named after a statement of Certificates/Slice0/Obligations.lean and meets its hypotheses together; a
statement of several clauses has a theorem, or a conjunct, for each. -/

theorem witness_IllegalWordsAreReported :
    decode 0x001F0350 = .command (.dacQuant true true 31) ∧ decode 0x00200050 = .illegal 2 0x50 ∧
    decode 0x00000450 = .illegal 2 0x50 ∧ decode 0x00000202 = .illegal 2 0x02 ∧ decode 0x00010002 = .illegal 2 0x02 ∧
    decode 0x00000103 = .illegal 2 0x03 ∧ decode 0x00000004 = .illegal 1 0x04 := by decide

theorem witness_StepKeepsInvariant : State.reset.Inv ∧ step State.reset = .next State.reset := by
  refine ⟨?_, rfl⟩
  unfold State.Inv State.reportClear
  decide

/-- A BUSY chirp with nothing held, with ENGINE next, and with the host stalled behind a held read. -/
theorem witness_StepRunsLatchedCommand :
    let s := { chirpState with latched := { chirpState.latched with cmd := 0x40 } }
    let held := { s with held := [.read 0 1], inputs := [.mem (.read 0 1)] }
    s.status.busy = true ∧ decode s.latched.cmd = .command .chirp ∧ s.inputs = [] ∧
      State.inputs { s with inputs := [.engine, .wait] } = .engine :: [.wait] ∧
      held.status.busy = true ∧ decode held.latched.cmd = .command .chirp ∧ held.inputs = [.mem (.read 0 1)] ∧
      Input.fromHost (.mem (.read 0 1)) = true ∧ held.hostStalled = true := by
  decide

/-- An illegal word with nothing left, with ENGINE next, and with the host stalled behind a held read. -/
theorem witness_StepReportsIllegalWord :
    let held := { chirpState with held := [.read 0 1], inputs := [.mem (.read 0 1)] }
    chirpState.status.busy = true ∧ chirpState.inputs = [] ∧ decode chirpState.latched.cmd = .illegal 1 0 ∧
      State.inputs { chirpState with inputs := [.engine, .wait] } = .engine :: [.wait] ∧
      held.status.busy = true ∧ decode held.latched.cmd = .illegal 1 0 ∧ held.inputs = [.mem (.read 0 1)] ∧
      Input.fromHost (.mem (.read 0 1)) = true ∧ held.hostStalled = true := by decide

theorem witness_EngineStepCompletes : chirpState.status.busy = true ∧ State.reset.status.busy = false := by decide

theorem witness_BusyEventuallyEnds :
    let s := { chirpState with inputs := [.wait, .mem (.write 0x100 8 1), wr32 .ctrl 1, .busRead 0 4, .powerOn] }
    s.status.busy = true ∧ ∀ x ∈ s.inputs, inputOk s.params x = true := by decide

theorem witness_CommandsWriteOnlyTheirDestination :
    ∃ t, exec .chirp chirpState = .next t ∧ ∀ refset, Instr.chirp ≠ .ofdmMod refset :=
  ⟨_, exec_eq_run _ _, by decide⟩

theorem witness_ErrorsArePrecise :
    ∃ t, exec .mapBpsk ((bitState 4).memWrite 2 1 2) = .next t ∧ t.status.err = true ∧
      ¬ (t.status.errCode = 0x05 ∧ t.status.errSub = 0x01) :=
  ⟨_, exec_eq_run _ _, by decide +kernel, by decide +kernel⟩

/-- Two states that differ outside the source region alone. -/
theorem witness_CommandsDependOnTheirSourcesAlone :
    let s := bitState 4
    let s' := (bitState 4).memWrite 0x80 1 7
    s.params = s'.params ∧ s.latched = s'.latched ∧ s.reportClear ∧ s'.reportClear ∧
      (∀ a, IsSource .mapBpsk s a → s.readByte a = s'.readByte a) ∧
      (∃ t, exec .mapBpsk s = .next t) ∧ (∃ t', exec .mapBpsk s' = .next t') ∧ s.mem ≠ s'.mem := by
  refine ⟨by decide, by decide, by unfold State.reportClear; decide, by unfold State.reportClear; decide, ?_,
    ⟨_, exec_eq_run _ _⟩, ⟨_, exec_eq_run _ _⟩, by decide +kernel⟩
  rintro a ⟨-, h⟩
  have key : ∀ b : Fin 4, Memory.lookup (bitState 4).mem b = Memory.lookup ((bitState 4).memWrite 0x80 1 7).mem b := by
    decide +kernel
  have h4 : a < 4 := h
  have := key ⟨a, h4⟩
  simp only at this
  unfold State.readByte
  rw [this]
  rfl

/-- A length error, a misaligned destination and an invalid last bit. -/
theorem witness_MappersReportTheFirstFailingCheck :
    mapperReport 2 (bitState 3) = some (0x01, 1, 1) ∧
    mapperReport 4 (bitState 3) = some (0x01, 1, 3) ∧
    mapperReport 1 (busyWith 0 0x104 1 0 0 0 0 0 0 0) = some (0x13, 3, 0x104) ∧
    mapperReport 1 (busyWith 0xFFFFF 0 2 0 0 0 0 0 0 0) = some (0x12, 1, 0xFFFFF) ∧
    mapperReport 1 (busyWith 0 0 1 0 0 0 0 0 0 0) = some (0x14, 1, 0) ∧
    mapperReport 1 ((bitState 4).memWrite 3 1 2) = some (0x02, 1, 3) := by decide +kernel

/-- The bounds of the cutoff, the tap counts and the roll-off, and a destination that does not fit. -/
theorem witness_FilterDesignsReportTheFirstFailingCheck :
    lowpassReport false (busyWith 0 0x100 0 0 0 4097 0 0x3FE0000000000000 0 0) = some (0x03, 3, 4097) ∧
    lowpassReport false (busyWith 0 0x100 0 0 0 3 0 0x3FF0000000000000 0 0) = some (0x03, 4, 0) ∧
    lowpassReport true (busyWith 0 0xFFFF8 0 0 0 3 0 0x3FE0000000000000 0 0) = some (0x12, 3, 0xFFFF8) ∧
    rcosReport (busyWith 0 0x100 0 0 1 2 0 0xBFF0000000000000 0 0) = some (0x03, 6, 0) ∧
    rcosReport (busyWith 0 0x100 0 0 65536 65536 0 0x3FE0000000000000 0 0) = some (0x03, 3, 2 ^ 32 + 1) := by
  decide +kernel

theorem witness_PulseShapeReportsTheFirstFailingCheck :
    pulseReport false (busyWith 0 0x100 1 0x80 0 1 0 0 0 0) = some (0x11, 1, 0) ∧
    pulseReport false (busyWith 0 0x100 1 0x84 1 1 0 0 0 0) = some (0x13, 2, 0x84) ∧
    pulseReport true (busyWith 0 0x80 1 0x80 1 1 0 0 0 0) = some (0x14, 2, 0x80) := by decide +kernel

/-- O9, O12, O13, O15 and O16 of 95_test_vectors.md. -/
theorem witness_OfdmReportsTheFirstFailingCheck :
    ofdmReport true (busyWith 0 0x100 0 0 64 65 0 0 0 0) = some (0x04, 2, 65) ∧
    ofdmReport true (busyWith 0 0x1000 53 0 64 16 0 0 0 0) = some (0x04, 5, 1) ∧
    ofdmReport false ((busyWith 0 0x100 2 0x80 4 1 2 0 0 0).writeCodes 0x80 [1, 4]) = some (0x04, 6, 1) ∧
    ofdmReport false ((busyWith 0 0x100 2 0x80 4 1 2 0 0 0).writeCodes 0x80 [3, 1]) = some (0x04, 7, 1) ∧
    ofdmReport false ((busyWith 0 0x100 2 0x80 4 1 2 0 0 0).writeCodes 0x80 [5, 1]) = some (0x04, 6, 0) := by
  decide +kernel

/-- C6, C7, C9 and C10 of 95_test_vectors.md. -/
theorem witness_ChirpReportsTheFirstFailingCheck :
    chirpReport (busyWith 0 0 0 0 0 0 0 0 0x4010000000000000 0) = some (0x11, 2, 0) ∧
    chirpReport (busyWith 0 0 0 0 0 0 0 0x3FF0000000000000 0x7FF8000000000000 0) = some (0x11, 3, 0) ∧
    chirpReport (busyWith 0 0 0 0 0 0 0 1 0x3FF0000000000000 0x3FF0000000000000) = some (0x11, 5, 0) ∧
    chirpReport (busyWith 0 8 0 0 0 0 0 0x41D0000000000000 0x41D0000000000000 0) = some (0x12, 3, 8) := by
  decide +kernel

/-- D10, D12 and D13 of 95_test_vectors.md. -/
theorem witness_DacReportsTheFirstFailingCheck :
    dacReport false true 17 dacState = some (0x11, 6, 17) ∧
    dacReport false true 8 (busyWith 0 0 0 0 0 0 0 0 0 0) = some (0x11, 7, 0) ∧
    dacReport false false 8 (dacState.writeSamples 0x10 [⟨0x7FF0000000000000, 0⟩]) = some (0x05, 2, 1) := by
  decide +kernel

theorem witness_MapBpskResult : mapperReport 1 (bitState 4) = none ∧ (bitState 4).argCount = 4 := by decide +kernel
theorem witness_MapQpskResult : mapperReport 2 (bitState 4) = none ∧ (bitState 4).argCount / 2 = 2 := by decide +kernel
theorem witness_MapQam16Result : mapperReport 4 (bitState 4) = none ∧ (bitState 4).argCount / 4 = 1 := by decide +kernel
theorem witness_FirLowpassResult :
    lowpassReport false lowpassState = none ∧ lowpassReport true lowpassState = none := by decide +kernel
theorem witness_FirRcosResult : rcosReport rcosState = none := by decide +kernel
theorem witness_PulseShapeResult : pulseReport false shapeState = none ∧ pulseReport true shapeState = none ∧
    specPulseOut false shapeState = 6 ∧ specPulseOut true shapeState = 4 := by decide +kernel
theorem witness_OfdmModResult : ofdmReport false frameState = none ∧
    ofdmReport true (busyWith 0 0x400 52 0 64 16 0 0 0 0) = none ∧
    ofdmReport false { frameState with latched := { frameState.latched with count := 0 } } = none := by decide +kernel
theorem witness_ChirpResult : chirpReport chirpState = none ∧ specChirpCount chirpState = 3 := by decide +kernel
theorem witness_DacMinMaxResult : dacReport false false 8 dacState = none ∧ dacReport true false 8 dacState = none ∧
    dacReport false false 8 { dacState with latched := { dacState.latched with count := 0 } } = none := by
  decide +kernel
theorem witness_DacFixedResult :
    dacReport true true 8 dacState = none ∧ ∀ i < dacState.argCount, specClamps true dacState i = false := by
  decide +kernel
theorem witness_DacFixedRangeError :
    dacReport false true 8 dacState = none ∧ 2 < dacState.argCount ∧ specClamps false dacState 2 = true ∧
      ∀ i < 2, specClamps false dacState i = false := by decide +kernel

theorem witness_LowpassTapsSymmetric :
    ∃ t, exec (.firLowpass true) lowpassState = .next t ∧ t.status.err = false ∧ 0 < lowpassState.argP1 :=
  ⟨_, exec_eq_run _ _, by decide +kernel, by decide⟩

theorem witness_RcosTapsSymmetric :
    ∃ t, exec .firRcos rcosState = .next t ∧ t.status.err = false ∧ 0 ≤ rcosState.argP1 * rcosState.argP0 :=
  ⟨_, exec_eq_run _ _, by decide +kernel, by decide⟩

theorem witness_PulseShapeHasNoNegativeZero :
    ∃ t, exec (.pulseShape true) shapeState = .next t ∧ t.status.err = false ∧ 3 < specPulseOut true shapeState :=
  ⟨_, exec_eq_run _ _, by decide +kernel, by decide⟩

/-- P5 of 95_test_vectors.md: the symbol (-0, 2), S = 3, one tap 1.0. -/
theorem witness_PulseShapeUnitKernel :
    let s := ((busyWith 0 0x100 1 0x80 3 1 0 0 0 0).writeSamples 0 [⟨0x8000000000000000, 0x4000000000000000⟩]).writeReals
      0x80 [0x3FF0000000000000]
    ∃ t, exec (.pulseShape false) s = .next t ∧ t.status.err = false ∧ s.argP1 = 1 ∧
      s.readF64 s.argAux = 0x3FF0000000000000 ∧ 0 < s.argCount * s.argP0 :=
  ⟨_, exec_eq_run _ _, by decide +kernel, by decide, by decide +kernel, by decide⟩

theorem witness_OfdmPrefixCopiesTheTail :
    ∃ t, exec (.ofdmMod false) frameState = .next t ∧ t.status.err = false ∧
      1 < frameState.argCount / specNact false frameState ∧ 0 < frameState.argP1 :=
  ⟨_, exec_eq_run _ _, by decide +kernel, by decide, by decide⟩

theorem witness_OfdmZeroBlockIsZero :
    let s := frameState.writeSamples 0 [⟨0, 0x8000000000000000⟩]
    ∃ t, exec (.ofdmMod false) s = .next t ∧ t.status.err = false ∧ 0 < s.argCount / specNact false s ∧
      1 < s.argP0 + s.argP1 ∧ ∀ j < specNact false s,
        F64.isZero (s.readSample (s.argSrc + 16 * (0 * specNact false s + j))).re = true ∧
        F64.isZero (s.readSample (s.argSrc + 16 * (0 * specNact false s + j))).im = true :=
  ⟨_, exec_eq_run _ _, by decide +kernel, by decide, by decide, by decide +kernel⟩

theorem witness_ChirpCount :
    F64.isFinite F64.one = true ∧ F64.isFinite F64.two = true ∧ 0 < F64.val F64.one ∧ 0 < F64.val F64.two ∧
      F64.val F64.one * F64.val F64.two = (2 : Int) := by decide +kernel

/-- A finite phase; and T = 2^600, fs = 2^-599, Bw = 0, where t[1] squared is infinite and the phase is NaN. -/
theorem witness_ChirpStartsAtOneAndIsBounded :
    let far := busyWith 0 0x100 0 0 0 0 0 0x6570000000000000 0x1A80000000000000 0
    let phase (s : State) (n : Int) : F64 := F64.mul (F64.div s.latched.f2 s.latched.f0)
      (F64.mul (F64.div (F64.ofInt n) s.latched.f1) (F64.div (F64.ofInt n) s.latched.f1))
    (∃ t, exec .chirp chirpState = .next t ∧ t.status.err = false ∧
      2 < chirpCount chirpState.latched.f0 chirpState.latched.f1 ∧ F64.isFinite (phase chirpState 2) = true ∧
      (1 / 2 ^ 52 : ℚ) ≤ chirpState.params.trigTol) ∧
    (∃ t, exec .chirp far = .next t ∧ t.status.err = false ∧ 1 < chirpCount far.latched.f0 far.latched.f1 ∧
      F64.isFinite (phase far 1) = false) :=
  ⟨⟨_, exec_eq_run _ _, by decide +kernel, by decide +kernel, by decide +kernel, by decide +kernel⟩,
    ⟨_, exec_eq_run _ _, by decide +kernel, by decide +kernel, by decide +kernel⟩⟩

/-- Both policies; in the fixed range sample 1 is HI, and the im channel of a changed sample 0 is LO. -/
theorem witness_DacCodesFollowTheSamples :
    let s := dacState.writeSamples 0 [⟨0xBFF0000000000000, 0⟩]
    (∃ t, exec (.dacQuant false true 8) s = .next t ∧
      (t.status.err = false ∨ (t.status.errCode = 0x05 ∧ t.status.errSub = 0x01))) ∧
    (∃ t, exec (.dacQuant false false 8) s = .next t ∧
      (t.status.err = false ∨ (t.status.errCode = 0x05 ∧ t.status.errSub = 0x01))) ∧
    0 < s.argCount ∧ 1 < s.argCount ∧ 3 < s.argCount ∧
    F64.isNaN (specChannel false s 0) = false ∧ F64.isNaN (specChannel false s 1) = false ∧
    F64.isNaN (specChannel false s 3) = false ∧
    F64.val (specChannel false s 0) = F64.val s.latched.f0 ∧ F64.val (specChannel false s 1) = F64.val s.latched.f1 ∧
    F64.val (specChannel false s 0) < F64.val (specChannel false s 3) ∧
    ∀ k < s.argCount, F64.val (specChannel false s 0) ≤ F64.val (specChannel false s k) ∧
      F64.val (specChannel false s k) ≤ F64.val (specChannel false s 3) :=
  ⟨⟨_, exec_eq_run _ _, by decide +kernel⟩, ⟨_, exec_eq_run _ _, by decide +kernel⟩, by decide +kernel⟩

theorem witness_ArithmeticRoundsToNearest :
    F64.isFinite F64.one = true ∧ F64.isFinite F64.two = true ∧ F64.val F64.two ≠ 0 := by decide +kernel

theorem witness_SquareRootRoundsToNearest : F64.isFinite F64.two = true ∧ 0 ≤ F64.val F64.two := by decide +kernel

/-- A NaN, an exact zero sum, an infinite operand, a zero operand, and a division by zero. -/
theorem witness_SpecialValuesOfArithmetic :
    F64.isNaN (F64.div F64.zero F64.zero) = true ∧ F64.isFinite F64.one = true ∧
      F64.val F64.one + F64.val (F64.neg F64.one) = 0 ∧ F64.isInf (F64.inf true) = true ∧
      F64.isNaN (F64.mul (F64.inf true) F64.one) = false ∧ F64.isNaN (F64.mul F64.zero (F64.neg F64.one)) = false ∧
      F64.isNaN (F64.div F64.one (F64.neg F64.zero)) = false ∧ F64.isZero (F64.neg F64.zero) = true ∧
      F64.isNaN (F64.div F64.one (F64.inf true)) = false := by decide +kernel

theorem witness_IntegersAndComparisonsAreExact :
    |(2 ^ 53 : Int)| ≤ 2 ^ 53 ∧ F64.isNaN F64.nan = true ∧ F64.isNaN F64.one = false ∧ F64.isFinite F64.one = true := by
  decide +kernel

/-- Finite, not finite, a negative whole argument and a negative half. -/
theorem witness_TrigExactProperties :
    F64.isFinite 0xBFF0000000000000 = true ∧ F64.isFinite F64.nan = false ∧ F64.val 0xBFF0000000000000 = (-1 : Int) ∧
      F64.isFinite 0xBFE0000000000000 = true ∧ F64.val 0xBFE0000000000000 = (-1 : Int) + 1 / 2 := by decide +kernel

/-- The default tolerance; and the tolerance 0 at 1/2, where 1 and 0 are exact. -/
theorem witness_TrigAccuracy :
    (1 / 2 ^ 52 : ℚ) ≤ Params.default.trigTol ∧ F64.isFinite 0x3FD0000000000000 = true ∧
      F64.isFinite 0x3FE0000000000000 = true ∧ F64.isFinite F64.one = true ∧ F64.isFinite F64.zero = true ∧
      |(F64.val F64.one : ℝ) - Real.sin (Real.pi * F64.val 0x3FE0000000000000)| ≤ ((0 : ℚ) : ℝ) ∧
      |(F64.val F64.zero : ℝ) - Real.cos (Real.pi * F64.val 0x3FE0000000000000)| ≤ ((0 : ℚ) : ℝ) := by
  have h1 : F64.val F64.one = 1 := by decide +kernel
  have h0 : F64.val F64.zero = 0 := by decide +kernel
  have hh : F64.val 0x3FE0000000000000 = 1 / 2 := by decide +kernel
  have hp : Real.pi * ((1 / 2 : ℚ) : ℝ) = Real.pi / 2 := by push_cast; ring
  refine ⟨by decide +kernel, by decide +kernel, by decide +kernel, by decide +kernel, by decide +kernel, ?_, ?_⟩
  · rw [h1, hh, hp, Real.sin_pi_div_two]; simp
  · rw [h0, hh, hp, Real.cos_pi_div_two]; simp

/-- N = 2 and the samples 0 and i: the default tolerance; and the tolerance 0 at n = 1, where -i/2 is exact. -/
theorem witness_IdftAccuracy :
    let X : List Sample := [⟨F64.zero, F64.zero⟩, ⟨F64.zero, F64.one⟩]
    (1 / 2 ^ 40 : ℚ) ≤ Params.default.idftTol ∧ X.length = 2 ^ 1 ∧ 1 < 2 ^ 1 ∧ allFinite X = true ∧
      (1 / 2 ^ 960 : ℝ) ≤ Config.maxModulus X ∧ Config.maxModulus X ≤ 2 ^ 1000 ∧
      Config.IdftClose 0 (2 ^ 1) X 1 ⟨F64.zero, 0xBFE0000000000000⟩ := by
  have h1 : F64.val F64.one = 1 := by decide +kernel
  have h0 : F64.val F64.zero = 0 := by decide +kernel
  have hh : F64.val 0xBFE0000000000000 = -1 / 2 := by decide +kernel
  have hm : Config.maxModulus [⟨F64.zero, F64.zero⟩, ⟨F64.zero, F64.one⟩] = 1 := by simp [Config.maxModulus, h1, h0]
  refine ⟨by decide +kernel, rfl, by decide, by decide +kernel, ?_, ?_, by decide +kernel, by decide +kernel, ?_, ?_⟩
  · rw [hm, div_le_one (by positivity)]
    exact one_le_pow₀ (by norm_num)
  · rw [hm]
    exact one_le_pow₀ (by norm_num)
  · rw [hm, Config.idealRe, Config.sumSamples]
    simp [Finset.sum_range_succ, h0, h1]
  · rw [hm, Config.idealIm, Config.sumSamples, hh]
    simp [Finset.sum_range_succ, h0, h1]

theorem witness_IdftExactProperties :
    ([⟨F64.zero, F64.zero⟩] : List Sample).length = 1 ∧
      ∀ z ∈ ([⟨F64.zero, F64.zero⟩] : List Sample), F64.val z.re = 0 ∧ F64.val z.im = 0 := by decide +kernel

theorem witness_StartIsAccepted :
    State.reset.status.busy = false ∧ (0x00000005 : Word).getLsbD 0 = true ∧ (0x00000005 : Word).getLsbD 1 = false ∧
      decode State.reset.cmd = .illegal 1 0 := by
  decide

theorem witness_ControlBitsReadZero :
    (0x00000004 : Word).getLsbD 0 = false ∧ (0x00000004 : Word).getLsbD 1 = false ∧
      (0x00000003 : Word).getLsbD 1 = true := by decide

theorem witness_StartWhileBusyIsMissed :
    chirpState.status.busy = true ∧ (0x00000005 : Word).getLsbD 0 = true ∧ (0x00000005 : Word).getLsbD 1 = false := by
  decide

/-- IDLE; BUSY with an illegal word; BUSY with a command whose checks pass; BUSY with one whose checks fail; and a state that a
run reaches with an access held and the host free to write CTRL. -/
theorem witness_SoftReset :
    let held := { chirpState with
      params := { Params.default with hostOverlap := true }, held := [.write 0x100 8 1], inputs := [wr32 .ctrl 2] }
    (0x00000007 : Word).getLsbD 1 = true ∧ State.reset.status.busy = false ∧
    chirpState.status.busy = true ∧ decode chirpState.latched.cmd = .illegal 1 0 ∧
    decode (State.latched { chirpState with latched := { chirpState.latched with cmd := 0x40 } }).cmd
      = .command .chirp ∧
    firstFailure (planOf .chirp chirpState).early = none ∧
    firstFailure (planOf .chirp (busyWith 0 0 0 0 0 0 0 0 0 0)).early ≠ none ∧
    held.held ≠ [] ∧ held.hostStalled = false := by decide +kernel

theorem witness_PowerOnReset :
    State.inputs { State.reset with inputs := [.powerOn, .engine] } = .powerOn :: [.engine] ∧
      State.held { chirpState with inputs := [.powerOn], held := [.read 0 1] } ≠ [] ∧
      State.inputs { chirpState with inputs := [.powerOn], held := [.read 0 1] } = .powerOn :: [] := by decide

theorem witness_OperandRegistersHoldWhatIsWritten :
    0x010 ∈ [0x010, 0x020, 0x024, 0x028, 0x02C, 0x030, 0x034, 0x038, 0x040, 0x044, 0x048, 0x04C, 0x050, 0x054] ∧
      0x054 ∈ [0x010, 0x020, 0x024, 0x028, 0x02C, 0x030, 0x034, 0x038, 0x040, 0x044, 0x048, 0x04C, 0x050, 0x054] := by
  decide

theorem witness_IdentityRegistersReadTheirConstants :
    State.reset.params.maxFft = 2 ^ 10 ∧ 10 < 16 ∧ State.reset.params.maxTaps < 2 ^ 16 := by decide

theorem witness_HostMemoryAccess :
    8 ∈ [1, 2, 4, 8] ∧ 0xFFFF8 % 8 = 0 ∧ 0xFFFF8 + 8 ≤ State.reset.params.memBytes ∧
      State.reset.status.busy = false := by decide

/-- A write and a read that are legal, and two writes of the same bytes held. -/
theorem witness_AccessesAreHeldWhileBusy :
    chirpState.status.busy = true ∧
    memAccessOk chirpState.params.memBytes (MemAccess.span (.write 0x100 8 1)).1 (MemAccess.span (.write 0x100 8 1)).2
      = true ∧
    memAccessOk chirpState.params.memBytes (MemAccess.span (.read 0x100 4)).1 (MemAccess.span (.read 0x100 4)).2
      = true ∧
    State.held { chirpState with held := [.write 0x100 8 1, .write 0x100 1 2, .read 0x100 4] } ≠ [] := by decide

/-- Each way an access is malformed, at its boundary. -/
theorem witness_MalformedAccessesAreRefused :
    regAccessOk 0x0FC 4 = true ∧ regAccessOk 0x100 4 = false ∧ regAccessOk 0x002 4 = false ∧ regAccessOk 0 2 = false ∧
    memAccessOk 64 56 8 = true ∧ memAccessOk 64 60 8 = false ∧ memAccessOk 64 64 1 = false ∧
    memAccessOk 64 0 3 = false := by decide

/-- The default parameters are legal, so each window and an address of neither exist. The host's next input is free to go, with
nothing held and past a held access, or it waits. -/
theorem witness_BusAddressesReachTheWindows :
    let busy := { chirpState with held := [.read 0 1], inputs := [.wait, .engine] }
    let passing := { busy with params := { Params.default with hostOverlap := true } }
    State.inputs { State.reset with inputs := [rd32 .status] } = rd32 .status :: [] ∧ State.reset.held = [] ∧
      busy.inputs = .wait :: [.engine] ∧ busy.status.busy = true ∧ busy.held ≠ [] ∧ busy.params.hostOverlap = false ∧
      passing.inputs = .wait :: [.engine] ∧ passing.held ≠ [] ∧ passing.params.hostOverlap = true ∧
      Params.default.legal ∧ inRegWindow Params.default 255 = true ∧ inRegWindow Params.default 256 = false ∧
      inMemWindow Params.default 0x100FFFFF = true ∧ inMemWindow Params.default 0x10100000 = false := by
  refine ⟨by decide, by decide, by decide, by decide, by decide, by decide, by decide, by decide, by decide,
    ⟨by decide, by decide, ⟨⟨10, by decide⟩, by decide, by decide⟩, by decide +kernel, by decide +kernel, by decide⟩,
    by decide, by decide, by decide, by decide⟩

end Sys2Proof.Tests
end

section
/-! PROOFS. What one rounding does (00_scope.md R16): the binary64 magnitude of `F64.roundMag`, the midpoints about it, and how
near it is. -/

namespace Sys2Proof

/-! ## The rounded quotient and its ties -/

/-- A quotient halfway between two integers rounds to the even one. -/
theorem rneDiv_even_of_tie {num den : Nat} (hd : 0 < den)
    (h : 2 * num = 2 * (rneDiv num den * den) + den ∨ 2 * (rneDiv num den * den) = 2 * num + den) :
    rneDiv num den % 2 = 0 := by
  have hdm := Nat.div_add_mod num den
  have hlt := Nat.mod_lt num hd
  have hc : den * (num / den) = num / den * den := Nat.mul_comm _ _
  rcases rneDiv_cases num den with ⟨h1, h2⟩ | ⟨h1, h2⟩ | ⟨h1, h2⟩
  · rw [h2] at h; omega
  · rw [h2, Nat.add_mul] at h; omega
  · omega

/-! ## Significand and last place of a rounding -/

/-- How far the last place of `num / den` lies above 2^-1074. -/
def F64.roundExp (num den : Nat) : Nat := Nat.log2 (num / den) - 52

/-- The rounded quotient counted in last places. -/
def F64.roundSig (num den : Nat) : Nat := rneDiv num (den * 2 ^ F64.roundExp num den)

theorem F64.roundMag_eq (num den : Nat) :
    F64.roundMag num den = min (2047 * 2 ^ 52) (F64.roundExp num den * 2 ^ 52 + F64.roundSig num den) := rfl

/-- The quotient has at most 53 bits above its last place, and exactly 53 where the last place lies above 2^-1074. -/
theorem F64.roundExp_bounds (num : Nat) {den : Nat} (hd : 0 < den) :
    num < 2 ^ 53 * (den * 2 ^ F64.roundExp num den) ∧
      (F64.roundExp num den = 0 ∨ 2 ^ 52 * (den * 2 ^ F64.roundExp num den) ≤ num) := by
  have hcomm : ∀ k, 2 ^ k * (den * 2 ^ F64.roundExp num den) = 2 ^ (k + F64.roundExp num den) * den := by
    intro k; rw [pow_add]; ring
  rw [hcomm, hcomm]
  constructor
  · rw [← Nat.div_lt_iff_lt_mul hd]
    exact Nat.lt_log2_self.trans_le (Nat.pow_le_pow_right (by norm_num) (by unfold F64.roundExp; omega))
  · rcases Nat.eq_zero_or_pos (F64.roundExp num den) with h | h
    · exact .inl h
    · right
      rw [← Nat.le_div_iff_mul_le hd]
      have hlog : 52 + F64.roundExp num den = Nat.log2 (num / den) := by unfold F64.roundExp at h ⊢; omega
      rw [hlog]
      refine Nat.log2_self_le fun h0 => ?_
      rw [F64.roundExp, h0] at h
      simp at h

theorem F64.roundSig_le (num : Nat) {den : Nat} (hd : 0 < den) : F64.roundSig num den ≤ 2 ^ 53 := by
  have hD : 0 < den * 2 ^ F64.roundExp num den := Nat.mul_pos hd (Nat.two_pow_pos _)
  calc F64.roundSig num den
      ≤ rneDiv (2 ^ 53 * (den * 2 ^ F64.roundExp num den)) (den * 2 ^ F64.roundExp num den) :=
        rneDiv_mono _ (F64.roundExp_bounds num hd).1.le
    _ = 2 ^ 53 := rneDiv_mul_self _ hD

theorem F64.le_roundSig (num : Nat) {den : Nat} (hd : 0 < den) :
    F64.roundExp num den = 0 ∨ 2 ^ 52 ≤ F64.roundSig num den := by
  have hD : 0 < den * 2 ^ F64.roundExp num den := Nat.mul_pos hd (Nat.two_pow_pos _)
  refine (F64.roundExp_bounds num hd).2.imp_right fun h => ?_
  calc 2 ^ 52 = rneDiv (2 ^ 52 * (den * 2 ^ F64.roundExp num den)) (den * 2 ^ F64.roundExp num den) :=
        (rneDiv_mul_self _ hD).symm
    _ ≤ F64.roundSig num den := rneDiv_mono _ h

/-- The significand is within half a last place of the quotient. -/
theorem F64.roundSig_bounds (num : Nat) {den : Nat} (hd : 0 < den) :
    2 * num ≤ (2 * F64.roundSig num den + 1) * (den * 2 ^ F64.roundExp num den) ∧
      2 * F64.roundSig num den * (den * 2 ^ F64.roundExp num den) ≤ 2 * num + den * 2 ^ F64.roundExp num den := by
  have h := rneDiv_bounds num (Nat.mul_pos hd (Nat.two_pow_pos (F64.roundExp num den)))
  rw [← F64.roundSig] at h
  rw [add_mul, one_mul, mul_assoc]
  exact h

/-- Halfway between two significands the even one is taken. -/
theorem F64.roundSig_even_of_tie {num den : Nat} (hd : 0 < den)
    (h : 2 * num = (2 * F64.roundSig num den + 1) * (den * 2 ^ F64.roundExp num den) ∨
      2 * F64.roundSig num den * (den * 2 ^ F64.roundExp num den) = 2 * num + den * 2 ^ F64.roundExp num den) :
    F64.roundSig num den % 2 = 0 := by
  rw [add_mul, one_mul, mul_assoc] at h
  exact rneDiv_even_of_tie (Nat.mul_pos hd (Nat.two_pow_pos _)) h

/-! ## Magnitudes by significand and last place -/

/-- A significand of 53 bits at its last place, the carry into a 54th bit included. -/
theorem magAt_significand {e r : Nat} (h : e = 0 ∨ 2 ^ 52 ≤ r) (hr : r ≤ 2 ^ 53) (hlt : e * 2 ^ 52 + r < 2 ^ 63) :
    magAt (e * 2 ^ 52 + r) = r * 2 ^ e := by
  rw [magAt_eq hlt]
  rcases Nat.lt_or_ge r (2 ^ 52) with h1 | h1
  · obtain rfl : e = 0 := h.resolve_right (by omega)
    rw [if_pos (by omega)]
    omega
  · rw [if_neg (by omega)]
    rcases hr.lt_or_eq with h2 | rfl
    · rw [show (e * 2 ^ 52 + r) / 2 ^ 52 - 1 = e by omega, show 2 ^ 52 + (e * 2 ^ 52 + r) % 2 ^ 52 = r by omega]
    · rw [show (e * 2 ^ 52 + 2 ^ 53) / 2 ^ 52 - 1 = e + 1 by omega, show (e * 2 ^ 52 + 2 ^ 53) % 2 ^ 52 = 0 by omega, pow_succ]
      ring

/-- Every magnitude from the exponent `e + 1` on is a multiple of `2^e`. -/
theorem two_pow_dvd_magAt {e b : Nat} (h : (e + 1) * 2 ^ 52 ≤ b) (hb : b < 2 ^ 63) : 2 ^ e ∣ magAt b := by
  rw [magAt_eq hb, if_neg (by omega)]
  exact (pow_dvd_pow 2 (by omega)).mul_left _

/-- The magnitude the pattern of an infinity is given. -/
theorem magAt_inf : magAt (2047 * 2 ^ 52) = 2 ^ 2098 := by
  rw [show 2047 * 2 ^ 52 = 2046 * 2 ^ 52 + 2 ^ 52 by norm_num, magAt_significand (.inr le_rfl) (by norm_num) (by norm_num),
    ← pow_add]

/-! ## The midpoints about a rounded magnitude -/

/-- `num / den` lies between the midpoints of the magnitude with bits 62 to 0 `b` and its neighbours, and on one of them only
where `b` is even: what makes `b` the nearest, ties to even. -/
structure NearestMag (num den b : Nat) : Prop where
  below : ∀ a, a + 1 = b → (magAt a + magAt b) * den ≤ 2 * num
  above : 2 * num ≤ (magAt b + magAt (b + 1)) * den
  even_of_below : ∀ a, a + 1 = b → (magAt a + magAt b) * den = 2 * num → b % 2 = 0
  even_of_above : 2 * num = (magAt b + magAt (b + 1)) * den → b % 2 = 0

/-- A quotient at or past the midpoint below `2^(k+53)` is rounded to that magnitude at least. -/
theorem F64.le_of_past_midpoint {num den k : Nat} (hd : 0 < den) (h : 2 ^ k * (2 ^ 54 - 1) * den ≤ 2 * num) :
    k * 2 ^ 52 + 2 ^ 53 ≤ F64.roundExp num den * 2 ^ 52 + F64.roundSig num den := by
  obtain ⟨hexp, -⟩ := F64.roundExp_bounds num hd
  have hsig := F64.le_roundSig num hd
  obtain ⟨hup, -⟩ := F64.roundSig_bounds num hd
  have htie := F64.roundSig_even_of_tie (num := num) hd
  set e := F64.roundExp num den
  set r := F64.roundSig num den
  have he : k ≤ e := by
    by_contra hlt
    have : 2 ^ (e + 1) * 2 ^ 53 * den ≤ 2 ^ k * (2 ^ 54 - 1) * den :=
      Nat.mul_le_mul_right _ (Nat.mul_le_mul (Nat.pow_le_pow_right (by norm_num) (by omega)) (by norm_num))
    rw [pow_succ] at this
    linarith
  rcases he.lt_or_eq with he | he
  · omega
  · rw [he] at h ⊢
    have h' : (2 ^ 54 - 1) * (den * 2 ^ e) ≤ 2 * num := h.trans' (le_of_eq (by ring))
    have hr : 2 ^ 54 - 1 ≤ 2 * r + 1 := Nat.le_of_mul_le_mul_right (h'.trans hup) (by positivity)
    rcases hr.lt_or_eq with hr | hr
    · omega
    · have := htie (.inl (le_antisymm hup (by rwa [← hr])))
      omega

/-- A quotient below that midpoint is rounded to a smaller magnitude. -/
theorem F64.lt_of_below_midpoint {num den k : Nat} (hd : 0 < den) (h : 2 * num < 2 ^ k * (2 ^ 54 - 1) * den) :
    F64.roundExp num den * 2 ^ 52 + F64.roundSig num den < k * 2 ^ 52 + 2 ^ 53 := by
  obtain ⟨-, hge⟩ := F64.roundExp_bounds num hd
  have hle := F64.roundSig_le num hd
  obtain ⟨-, hlo⟩ := F64.roundSig_bounds num hd
  set e := F64.roundExp num den
  set r := F64.roundSig num den
  have he : e ≤ k := by
    by_contra hgt
    have h1 := hge.resolve_left (by omega)
    have : 2 ^ (k + 1) * (2 ^ 52 * den) ≤ 2 ^ e * (2 ^ 52 * den) :=
      Nat.mul_le_mul_right _ (Nat.pow_le_pow_right (by norm_num) (by omega))
    rw [pow_succ] at this
    have h2 : 2 ^ k * (2 ^ 54 - 1) * den ≤ 2 ^ k * 2 ^ 54 * den :=
      Nat.mul_le_mul_right _ (Nat.mul_le_mul_left _ (by norm_num))
    linarith
  rcases he.lt_or_eq with he | he
  · omega
  · rw [← he] at h ⊢
    by_contra hcon
    have hr : r = 2 ^ 53 := by omega
    have h3 : (2 ^ 54 - 1) * (den * 2 ^ e) + den * 2 ^ e = 2 * 2 ^ 53 * (den * 2 ^ e) := by ring
    have h' : 2 * num < (2 ^ 54 - 1) * (den * 2 ^ e) := h.trans_le (le_of_eq (by ring))
    rw [hr] at hlo
    omega

/-- `num / den` is at least 2^2098 - 2^2044, the midpoint of the largest finite magnitude and the next. -/
def F64.Overflows (num den : Nat) : Prop := 2 ^ 2045 * (2 ^ 54 - 1) * den ≤ 2 * num

/-- A quotient from 2^2098 - 2^2044 on is rounded to an infinity. -/
theorem F64.roundMag_of_overflow {num den : Nat} (hd : 0 < den) (h : F64.Overflows num den) :
    F64.roundMag num den = 2047 * 2 ^ 52 := by
  rw [F64.roundMag_eq]
  exact min_eq_left (F64.le_of_past_midpoint (k := 2045) hd h)

/-- A smaller quotient is rounded to a finite magnitude. -/
theorem F64.roundMag_of_no_overflow {num den : Nat} (hd : 0 < den) (h : ¬ F64.Overflows num den) :
    F64.roundMag num den = F64.roundExp num den * 2 ^ 52 + F64.roundSig num den ∧
      F64.roundMag num den < 2047 * 2 ^ 52 := by
  have hlt : F64.roundExp num den * 2 ^ 52 + F64.roundSig num den < 2047 * 2 ^ 52 :=
    F64.lt_of_below_midpoint (k := 2045) hd (not_le.1 h)
  rw [F64.roundMag_eq, min_eq_right hlt.le]
  exact ⟨rfl, hlt⟩

/-- A finite rounded magnitude is its significand at its last place. -/
theorem F64.magAt_roundMag {num den : Nat} (hd : 0 < den) (h : ¬ F64.Overflows num den) :
    magAt (F64.roundMag num den) = F64.roundSig num den * 2 ^ F64.roundExp num den := by
  obtain ⟨heq, hlt⟩ := F64.roundMag_of_no_overflow hd h
  rw [heq]
  exact magAt_significand (F64.le_roundSig num hd) (F64.roundSig_le num hd) (by omega)

theorem succ_lt_of_finite {b : Nat} (h : b < 2047 * 2 ^ 52) : b + 1 < 2 ^ 63 :=
  (Nat.succ_le_of_lt h).trans_lt (by norm_num)

/-- The last place is no coarser than the step to the next magnitude. -/
theorem magAt_add_ulp_le {e r : Nat} (h : e = 0 ∨ 2 ^ 52 ≤ r) (hr : r ≤ 2 ^ 53) (hlt : e * 2 ^ 52 + r < 2047 * 2 ^ 52) :
    (r + 1) * 2 ^ e ≤ magAt (e * 2 ^ 52 + r + 1) := by
  rcases hr.lt_or_eq with hr | hr
  · have hnext := succ_lt_of_finite hlt
    rw [add_assoc] at hnext ⊢
    rw [magAt_significand (h.imp_right Nat.le_add_right_of_le) (Nat.succ_le_of_lt hr) hnext]
  · have hstep := magAt_lt_succ (succ_lt_of_finite hlt)
    rw [magAt_significand h (le_of_eq hr) (by omega)] at hstep
    have hexp : (e + 1) * 2 ^ 52 ≤ e * 2 ^ 52 + r := by omega
    obtain ⟨c, hc⟩ := two_pow_dvd_magAt (e := e) (b := e * 2 ^ 52 + r + 1) (Nat.le_succ_of_le hexp)
      (succ_lt_of_finite hlt)
    rw [hc, mul_comm] at hstep ⊢
    exact Nat.mul_le_mul_left _ (Nat.lt_of_mul_lt_mul_left hstep)

/-- Nor is it coarser than the step from the magnitude below, unless the significand is the least of its exponent. -/
theorem magAt_le_sub_ulp {e r a : Nat} (h : e = 0 ∨ 2 ^ 52 < r) (hr : r ≤ 2 ^ 53) (ha : a + 1 = e * 2 ^ 52 + r)
    (hlt : e * 2 ^ 52 + r < 2 ^ 63) : magAt a + 2 ^ e = r * 2 ^ e := by
  obtain ⟨q, rfl⟩ : ∃ q, r = q + 1 := ⟨r - 1, by omega⟩
  rw [show a = e * 2 ^ 52 + q by omega, magAt_significand (h.imp_right Nat.le_of_lt_succ) (by omega) (by omega)]
  ring

/-- A finite rounded magnitude is the nearest, ties to even. -/
theorem F64.roundMag_nearest {num den : Nat} (hd : 0 < den) (h : ¬ F64.Overflows num den) :
    NearestMag num den (F64.roundMag num den) := by
  obtain ⟨heq, hlt⟩ := F64.roundMag_of_no_overflow hd h
  have hmag := F64.magAt_roundMag hd h
  obtain ⟨hmax, hge⟩ := F64.roundExp_bounds num hd
  have hsig := F64.le_roundSig num hd
  have hle := F64.roundSig_le num hd
  obtain ⟨hup, hlo⟩ := F64.roundSig_bounds num hd
  have htie := F64.roundSig_even_of_tie (num := num) hd
  have hprev := fun a => magAt_le_sub_ulp (e := F64.roundExp num den) (r := F64.roundSig num den) (a := a)
  rw [heq] at hmag hlt ⊢
  have hnext := magAt_add_ulp_le hsig hle hlt
  set e := F64.roundExp num den
  set r := F64.roundSig num den
  set u := den * 2 ^ e with hu
  have hupos : 0 < u := Nat.mul_pos hd (Nat.two_pow_pos e)
  have hru : r * 2 ^ e * den = r * u := by rw [hu]; ring
  have hbelow : ∀ a, a + 1 = e * 2 ^ 52 + r →
      magAt a * den + u = r * u ∨ (magAt a * den < r * u ∧ r * u ≤ num) := by
    intro a ha
    by_cases h0 : e = 0 ∨ 2 ^ 52 < r
    · left
      rw [← hru, ← hprev a h0 hle ha (by omega), hu]
      ring
    · have hr : 2 ^ 52 = r := by omega
      right
      refine ⟨?_, hr ▸ hge.resolve_left (by omega)⟩
      rw [← hru, ← hmag, ← ha]
      exact Nat.mul_lt_mul_of_pos_right (magAt_lt_succ (by omega)) hd
  have habove : r * u + u ≤ magAt (e * 2 ^ 52 + r + 1) * den := by
    calc r * u + u = (r + 1) * 2 ^ e * den := by rw [hu]; ring
      _ ≤ _ := Nat.mul_le_mul_right _ hnext
  have hpar : (e * 2 ^ 52 + r) % 2 = r % 2 := by omega
  rw [mul_assoc] at hlo
  constructor
  · intro a ha
    rw [hmag, add_mul, hru]
    rcases hbelow a ha with h1 | ⟨h1, h2⟩ <;> omega
  · rw [hmag, add_mul, hru]
    linarith
  · intro a ha heven
    rw [hmag, add_mul, hru] at heven
    rw [hpar]
    exact htie (.inr (by rw [mul_assoc]; rcases hbelow a ha with h1 | ⟨h1, h2⟩ <;> omega))
  · intro heven
    rw [hmag, add_mul, hru] at heven
    rw [hpar]
    exact htie (.inl (by linarith))

end Sys2Proof
end

section
/-! PROOFS. Rounding to the nearest binary64 number (00_scope.md R16): what lies between the midpoints about a magnitude has it
as the nearest one, and so `F64.round` rounds to nearest. -/

namespace Sys2Proof

/-! ## Nearest by the midpoints -/

/-- A real between the midpoints of the magnitude with bits 62 to 0 `b` and its neighbours. -/
structure BetweenMidpoints (s : ℝ) (b : Nat) : Prop where
  below : ∀ a, a + 1 = b → realAt a + realAt b ≤ 2 * s
  above : 2 * s ≤ realAt b + realAt (b + 1)

/-- A real on one of those midpoints. -/
def OnMidpoint (s : ℝ) (b : Nat) : Prop :=
  (∃ a, a + 1 = b ∧ realAt a + realAt b = 2 * s) ∨ 2 * s = realAt b + realAt (b + 1)

theorem realAt_lt_succ {b : Nat} (h : b + 1 < 2 ^ 63) : realAt b < realAt (b + 1) :=
  div_lt_div_of_pos_right (by exact_mod_cast magAt_lt_succ h) (by positivity)

/-- No magnitude is nearer than the one between whose midpoints a real lies, and another is as near only from a midpoint. -/
theorem BetweenMidpoints.nearest_magnitude {s : ℝ} {b c : Nat} (h : BetweenMidpoints s b) (hb : b < 2047 * 2 ^ 52)
    (hc : c < 2 ^ 63) :
    |realAt b - s| ≤ |realAt c - s| ∧ (|realAt b - s| = |realAt c - s| → c ≠ b → OnMidpoint s b) := by
  have hnext := realAt_lt_succ (succ_lt_of_finite hb)
  have habove := h.above
  rcases lt_trichotomy c b with hcb | rfl | hbc
  · obtain ⟨a, ha⟩ : ∃ a, a + 1 = b := ⟨b - 1, by omega⟩
    have hbelow := h.below a ha
    have hstep : realAt a < realAt b := ha ▸ realAt_lt_succ (by omega)
    have hca := realAt_mono (show c ≤ a by omega) (by omega)
    rw [abs_sub_comm (realAt c), abs_of_nonneg (by linarith : 0 ≤ s - realAt c)]
    refine ⟨abs_le.2 ⟨by linarith, by linarith⟩, fun heq _ => .inl ⟨a, ha, ?_⟩⟩
    rcases abs_choice (realAt b - s) with h1 | h1 <;> rw [h1] at heq <;> linarith
  · exact ⟨le_rfl, fun _ hne => absurd rfl hne⟩
  · have hbc' := realAt_mono (show b + 1 ≤ c from hbc) hc
    rw [abs_of_nonneg (by linarith : 0 ≤ realAt c - s)]
    refine ⟨abs_le.2 ⟨by linarith, by linarith⟩, fun heq _ => .inr ?_⟩
    rcases abs_choice (realAt b - s) with h1 | h1 <;> rw [h1] at heq <;> linarith

/-- A finite value is its magnitude under its sign. -/
theorem F64.val_eq_realAt {z : F64} (hz : F64.isFinite z = true) :
    ∃ c < 2047 * 2 ^ 52, (F64.val z : ℝ) = realAt c ∨ (F64.val z : ℝ) = -realAt c := by
  have hlow := F64.low_of_isFinite hz
  refine ⟨_, hlow, ?_⟩
  have h := F64.val_pack_real (F64.sign z) (b := z.toNat % 2 ^ 63) (by omega)
  rw [F64.pack_sign] at h
  rw [h]
  cases F64.sign z <;> simp

/-- No finite binary64 number is nearer to a real that is not below 0. -/
theorem BetweenMidpoints.nearest_value {s : ℝ} {b : Nat} (h : BetweenMidpoints s b) (hs : 0 ≤ s) (hb : b < 2047 * 2 ^ 52)
    {z : F64} (hz : F64.isFinite z = true) :
    |realAt b - s| ≤ |(F64.val z : ℝ) - s| ∧
      (|realAt b - s| = |(F64.val z : ℝ) - s| → (F64.val z : ℝ) ≠ realAt b → OnMidpoint s b) := by
  obtain ⟨c, hc, hv | hv⟩ := F64.val_eq_realAt hz
  · obtain ⟨hle, htie⟩ := h.nearest_magnitude hb (show c < 2 ^ 63 by omega)
    rw [hv]
    exact ⟨hle, fun heq hne => htie heq fun hcb => hne (hcb ▸ rfl)⟩
  · obtain ⟨hle, htie⟩ := h.nearest_magnitude hb (show 0 < 2 ^ 63 by norm_num)
    have hc0 := realAt_nonneg c
    rw [realAt_zero, zero_sub, abs_neg, abs_of_nonneg hs] at hle htie
    have habs : |-realAt c - s| = realAt c + s := by rw [← abs_neg, abs_of_nonneg (by linarith)]; ring
    rw [hv, habs]
    refine ⟨by linarith, fun heq hne => htie (by linarith) ?_⟩
    rintro rfl
    rw [realAt_zero] at hle heq hne
    exact hne (by linarith)

/-- The sign of a pattern as a factor. -/
def signFactor (neg : Bool) : ℚ := if neg then -1 else 1

theorem abs_signFactor (neg : Bool) : |signFactor neg| = 1 := by cases neg <;> simp [signFactor]

theorem F64.val_pack_signFactor (neg : Bool) {b : Nat} (h : b < 2 ^ 63) :
    (F64.val (F64.pack neg b) : ℝ) = signFactor neg * realAt b := by
  rw [F64.val_pack_real neg h]
  cases neg <;> simp [signFactor]

/-- As `nearest_value`, for a real of either sign and the pattern of its sign. -/
theorem BetweenMidpoints.nearest_pack {s : ℝ} {b : Nat} (h : BetweenMidpoints s b) (hs : 0 ≤ s) (hb : b < 2047 * 2 ^ 52)
    (neg : Bool) {z : F64} (hz : F64.isFinite z = true) :
    |(F64.val (F64.pack neg b) : ℝ) - signFactor neg * s| ≤ |(F64.val z : ℝ) - signFactor neg * s| ∧
      (|(F64.val (F64.pack neg b) : ℝ) - signFactor neg * s| = |(F64.val z : ℝ) - signFactor neg * s| →
        F64.val z ≠ F64.val (F64.pack neg b) → OnMidpoint s b) := by
  rw [ne_eq, ← Rat.cast_inj (α := ℝ), F64.val_pack_signFactor neg (by omega)]
  cases neg
  · simpa [signFactor] using h.nearest_value hs hb hz
  · obtain ⟨hle, htie⟩ := h.nearest_value hs hb (z := F64.neg z) (by simpa using hz)
    have hflip : ∀ x : ℝ, |x - -s| = |-x - s| := fun x => by rw [← abs_neg]; congr 1; ring
    simp only [signFactor, if_true, Rat.cast_neg, Rat.cast_one, neg_mul, one_mul, hflip, neg_neg]
    rw [F64.val_neg, Rat.cast_neg] at hle htie
    exact ⟨hle, fun heq hne => htie heq fun hv => hne (by rw [← hv, neg_neg])⟩

/-! ## `F64.round` rounds to nearest -/

/-- The quotient `num / den`, counted in units of 2^-1074, as a value. -/
def unitQuotient (num den : Nat) : ℚ := (num : ℚ) / den / 2 ^ 1074

theorem unitQuotient_nonneg (num den : Nat) : 0 ≤ unitQuotient num den := by unfold unitQuotient; positivity

/-- The rational midpoints of `NearestMag` as those of the reals. -/
theorem realAt_add_le_iff (a b num : Nat) {den : Nat} (hd : 0 < den) :
    (realAt a + realAt b ≤ 2 * (unitQuotient num den : ℝ) ↔ (magAt a + magAt b) * den ≤ 2 * num) ∧
      (2 * (unitQuotient num den : ℝ) ≤ realAt a + realAt b ↔ 2 * num ≤ (magAt a + magAt b) * den) := by
  have hd' : (0 : ℝ) < den := by exact_mod_cast hd
  have hp : (0 : ℝ) < 2 ^ 1074 := by positivity
  have hsum : realAt a + realAt b = ((magAt a + magAt b : Nat) : ℝ) / 2 ^ 1074 := by
    rw [realAt, realAt, ← add_div, Nat.cast_add]
  have hq : 2 * (unitQuotient num den : ℝ) = ((2 * num : Nat) : ℝ) / den / 2 ^ 1074 := by
    rw [unitQuotient, Rat.cast_div, Rat.cast_div, Rat.cast_natCast, Rat.cast_natCast, Rat.cast_pow, Rat.cast_ofNat,
      Nat.cast_mul, Nat.cast_ofNat, mul_div_assoc, mul_div_assoc]
  rw [hsum, hq, div_le_div_iff_of_pos_right hp, div_le_div_iff_of_pos_right hp, le_div_iff₀ hd', div_le_iff₀ hd']
  exact ⟨by exact_mod_cast Iff.rfl, by exact_mod_cast Iff.rfl⟩

theorem NearestMag.between {num den b : Nat} (h : NearestMag num den b) (hd : 0 < den) :
    BetweenMidpoints (unitQuotient num den) b where
  below a ha := (realAt_add_le_iff a b num hd).1.2 (h.below a ha)
  above := (realAt_add_le_iff b (b + 1) num hd).2.2 h.above

theorem NearestMag.even_of_onMidpoint {num den b : Nat} (h : NearestMag num den b) (hd : 0 < den)
    (hm : OnMidpoint (unitQuotient num den) b) : b % 2 = 0 := by
  rcases hm with ⟨a, ha, heq⟩ | heq
  · have hiff := realAt_add_le_iff a b num hd
    exact h.even_of_below a ha (le_antisymm (hiff.1.1 heq.le) (hiff.2.1 heq.ge))
  · have hiff := realAt_add_le_iff b (b + 1) num hd
    exact h.even_of_above (le_antisymm (hiff.2.1 heq.le) (hiff.1.1 heq.ge))

/-- The overflow threshold of R16 is the one of `F64.Overflows`. -/
theorem unitQuotient_lt_iff (num : Nat) {den : Nat} (hd : 0 < den) :
    unitQuotient num den < 2 ^ 1024 - 2 ^ 970 ↔ ¬ F64.Overflows num den := by
  have hd' : (0 : ℚ) < den := by exact_mod_cast hd
  have hp : (0 : ℚ) < 2 ^ 1074 := by positivity
  have hthr : ((2 : ℚ) ^ 1024 - 2 ^ 970) * 2 ^ 1074 * 2 = 2 ^ 2045 * (2 ^ 54 - 1) := by
    rw [show 1024 = 970 + 54 by norm_num, show 2045 = 970 + 1074 + 1 by norm_num, pow_add, pow_add (2 : ℚ) (970 + 1074),
      pow_add (2 : ℚ) 970 1074]
    generalize (2 : ℚ) ^ 970 = x, (2 : ℚ) ^ 1074 = y
    ring
  have hcast : F64.Overflows num den ↔ (2 : ℚ) ^ 2045 * (2 ^ 54 - 1) * den ≤ 2 * num := by
    have h54 : ((2 ^ 54 - 1 : Nat) : ℚ) = 2 ^ 54 - 1 := by norm_num
    rw [F64.Overflows, ← Nat.cast_le (α := ℚ), Nat.cast_mul, Nat.cast_mul, Nat.cast_mul, h54, Nat.cast_pow, Nat.cast_ofNat]
  rw [hcast, ← hthr, not_le, unitQuotient, div_lt_iff₀ hp, div_lt_iff₀ hd']
  generalize ((2 : ℚ) ^ 1024 - 2 ^ 970) * 2 ^ 1074 = threshold
  constructor <;> intro h <;> linarith

open Machine in
/-- `F64.round` gives the nearest binary64 number, ties to even, and an infinity from the threshold of R16 on. -/
theorem F64.roundsTo_round (neg : Bool) (num : Nat) {den : Nat} (hd : 0 < den) :
    RoundsTo (signFactor neg * unitQuotient num den) (F64.round neg num den) := by
  have hq := unitQuotient_nonneg num den
  have habs : |signFactor neg * unitQuotient num den| = unitQuotient num den := by
    rw [abs_mul, abs_signFactor, one_mul, abs_of_nonneg hq]
  rw [RoundsTo, habs]
  split
  · next hlt =>
    have hno := (unitQuotient_lt_iff num hd).1 hlt
    obtain ⟨-, hb⟩ := F64.roundMag_of_no_overflow hd hno
    have hnear := F64.roundMag_nearest hd hno
    refine ⟨F64.isFinite_pack neg hb, fun z hz => ?_⟩
    obtain ⟨hle, htie⟩ := (hnear.between hd).nearest_pack (by exact_mod_cast hq) hb neg hz
    refine ⟨by exact_mod_cast hle, fun heq hne => ?_⟩
    have heven := hnear.even_of_onMidpoint hd (htie (by exact_mod_cast heq) hne)
    rw [F64.round, F64.toNat_pack neg (by omega)]
    cases neg <;> simp <;> omega
  · next hge =>
    have hov := not_not.1 (mt (unitQuotient_lt_iff num hd).2 hge)
    have hpos : 0 < unitQuotient num den := by
      refine lt_of_lt_of_le (sub_pos.2 ?_) (not_lt.1 hge)
      exact pow_lt_pow_right₀ (by norm_num) (by norm_num)
    rw [F64.round, F64.roundMag_of_overflow hd hov, F64.inf]
    congr 1
    cases neg <;> simp [signFactor, hpos, hq]

end Sys2Proof
end

section
/-! PROOFS. The four operations on finite numbers, exact conversions and the comparisons (00_scope.md R16, R17). -/

namespace Sys2Proof

open Machine

/-! ## Finite patterns -/

theorem F64.isNaN_of_isFinite {x : F64} (h : F64.isFinite x = true) : F64.isNaN x = false := by
  simp_all [F64.isFinite, F64.isNaN]

theorem F64.isInf_of_isFinite {x : F64} (h : F64.isFinite x = true) : F64.isInf x = false := by
  simp_all [F64.isFinite, F64.isInf]

/-- A value is its magnitude under its sign. -/
theorem F64.val_eq_signFactor (x : F64) : F64.val x = signFactor (F64.sign x) * unitQuotient (F64.mag x) 1 := by
  rw [F64.val, F64.scaled, unitQuotient]
  cases F64.sign x <;> simp [signFactor, neg_div]

theorem F64.val_eq_zero_iff (x : F64) : F64.val x = 0 ↔ F64.mag x = 0 := by
  rw [F64.val, F64.scaled]
  cases F64.sign x <;> simp

theorem F64.val_eq_zero_iff_isZero (x : F64) : F64.val x = 0 ↔ F64.isZero x = true := by
  rw [F64.val_eq_zero_iff, F64.isZero, decide_eq_true_eq]

@[simp] theorem F64.val_pack_zero (neg : Bool) : F64.val (F64.pack neg 0) = 0 := by
  rw [F64.val_pack neg (by norm_num), magAt_zero]
  simp

/-! ## Rounding an integer count of 2^-1074 -/

theorem signFactor_mul_natAbs (n : Int) : signFactor (decide (n < 0)) * unitQuotient n.natAbs 1 = (n : ℚ) / 2 ^ 1074 := by
  rw [unitQuotient, Nat.cast_one, div_one, Nat.cast_natAbs, ← mul_div_assoc]
  congr 1
  rcases lt_or_ge n 0 with h | h
  · simp [signFactor, h, abs_of_neg h]
  · simp [signFactor, h.not_gt, abs_of_nonneg h]

theorem F64.roundsTo_roundInt (n : Int) : RoundsTo ((n : ℚ) / 2 ^ 1074) (F64.roundInt n) := by
  rw [← signFactor_mul_natAbs]
  exact F64.roundsTo_round _ _ one_pos

theorem F64.not_overflows_of_lt {num den k : Nat} (hk : k ≤ 2045 + 52) (h : num < 2 ^ k * den) :
    ¬ F64.Overflows num den := by
  have hpow : ∀ j, k ≤ j + 52 → 2 ^ k ≤ 2 ^ j * 2 ^ 52 := fun j hj =>
    (Nat.pow_le_pow_right two_pos hj).trans_eq (pow_add 2 j 52)
  have h1 := hpow 2045 hk
  rw [F64.Overflows, not_le]
  generalize 2 ^ 2045 = top at h1 ⊢
  calc 2 * num < 2 * (2 ^ k * den) := by omega
    _ ≤ 2 * (top * 2 ^ 52 * den) := Nat.mul_le_mul_left _ (Nat.mul_le_mul_right _ h1)
    _ = top * 2 ^ 53 * den := by ring
    _ ≤ top * (2 ^ 54 - 1) * den := Nat.mul_le_mul_right _ (Nat.mul_le_mul_left _ (by norm_num))

/-- A count with at most 53 significant bits is a multiple of its last place. -/
theorem F64.two_pow_roundExp_dvd {r : Nat} (t : Nat) (hr : r ≤ 2 ^ 53) : 2 ^ F64.roundExp (r * 2 ^ t) 1 ∣ r * 2 ^ t := by
  rcases le_or_gt (F64.roundExp (r * 2 ^ t) 1) t with he | he
  · exact (pow_dvd_pow 2 he).mul_left r
  · have hge := (F64.roundExp_bounds (r * 2 ^ t) one_pos).2.resolve_left (by omega)
    rw [one_mul] at hge
    generalize F64.roundExp (r * 2 ^ t) 1 = e at he hge ⊢
    have hup : r * 2 ^ t ≤ 2 ^ 53 * 2 ^ t := Nat.mul_le_mul_right _ hr
    have hstep : 2 ^ 52 * 2 ^ (t + 1) ≤ 2 ^ 52 * 2 ^ e := Nat.mul_le_mul_left _ (Nat.pow_le_pow_right (by norm_num) he)
    have heq : 2 ^ 52 * 2 ^ (t + 1) = 2 ^ 53 * 2 ^ t := by rw [pow_succ]; ring
    have : r * 2 ^ t = 2 ^ 52 * 2 ^ e := by omega
    exact this ▸ dvd_mul_left _ _

theorem natAbs_mul_two_pow (n : Int) (t : Nat) : (n * 2 ^ t).natAbs = n.natAbs * 2 ^ t := by
  simp [Int.natAbs_mul, Int.natAbs_pow]

/-- A count with at most 53 significant bits rounds to itself. -/
theorem F64.val_roundInt_of_significant {n : Int} {t : Nat} (hn : n.natAbs ≤ 2 ^ 53) (ht : t ≤ 1074) :
    F64.isFinite (F64.roundInt (n * 2 ^ t)) = true ∧ F64.val (F64.roundInt (n * 2 ^ t)) = (n * 2 ^ t : Int) / 2 ^ 1074 := by
  have habs := natAbs_mul_two_pow n t
  have hlt : n.natAbs * 2 ^ t < 2 ^ (54 + t) * 1 := by
    rw [mul_one, pow_add]
    exact Nat.mul_lt_mul_of_pos_right (by omega) (Nat.two_pow_pos t)
  have hno := F64.not_overflows_of_lt (by omega) hlt
  have hmag : magAt (F64.roundMag (n.natAbs * 2 ^ t) 1) = n.natAbs * 2 ^ t := by
    obtain ⟨c, hc⟩ := F64.two_pow_roundExp_dvd t hn
    rw [F64.magAt_roundMag one_pos hno, F64.roundSig, one_mul]
    have hpos := Nat.two_pow_pos (F64.roundExp (n.natAbs * 2 ^ t) 1)
    generalize 2 ^ F64.roundExp (n.natAbs * 2 ^ t) 1 = ulp at hc hpos ⊢
    rw [hc, mul_comm ulp c, rneDiv_mul_self c hpos]
  obtain ⟨-, hb⟩ := F64.roundMag_of_no_overflow one_pos hno
  rw [F64.roundInt, F64.round, habs]
  refine ⟨F64.isFinite_pack _ hb, ?_⟩
  rw [← signFactor_mul_natAbs, habs, F64.val_pack _ (by omega), hmag, unitQuotient, signFactor, Nat.cast_one, div_one]

@[simp] theorem F64.roundMag_zero (den : Nat) : F64.roundMag 0 den = 0 := by
  simp [F64.roundMag, rneDiv]

theorem F64.roundsTo_zero (neg : Bool) : RoundsTo 0 (F64.pack neg 0) := by
  have h := F64.roundsTo_round neg 0 one_pos
  rwa [F64.round, F64.roundMag_zero, unitQuotient, Nat.cast_zero, zero_div, zero_div, mul_zero] at h

/-! ## The four operations -/

theorem F64.roundsTo_add {x y : F64} (hx : F64.isFinite x = true) (hy : F64.isFinite y = true) :
    RoundsTo (F64.val x + F64.val y) (F64.add x y) := by
  have hval : F64.val x + F64.val y = ((F64.scaled x + F64.scaled y : Int) : ℚ) / 2 ^ 1074 := by
    rw [F64.val, F64.val, Int.cast_add, add_div]
  rw [hval]
  simp only [F64.add, F64.isNaN_of_isFinite hx, F64.isNaN_of_isFinite hy, F64.isInf_of_isFinite hx,
    F64.isInf_of_isFinite hy, Bool.or_self, Bool.false_eq_true, if_false]
  split
  · next h0 =>
    rw [h0, Int.cast_zero, zero_div]
    exact F64.roundsTo_zero _
  · exact F64.roundsTo_roundInt _

theorem F64.roundsTo_mul {x y : F64} (hx : F64.isFinite x = true) (hy : F64.isFinite y = true) :
    RoundsTo (F64.val x * F64.val y) (F64.mul x y) := by
  have hval : F64.val x * F64.val y =
      signFactor (F64.sign x != F64.sign y) * unitQuotient (F64.mag x * F64.mag y) (2 ^ 1074) := by
    rw [F64.val_eq_signFactor, F64.val_eq_signFactor]
    have hq : unitQuotient (F64.mag x) 1 * unitQuotient (F64.mag y) 1 =
        unitQuotient (F64.mag x * F64.mag y) (2 ^ 1074) := by
      simp only [unitQuotient, Nat.cast_one, div_one, Nat.cast_mul, Nat.cast_pow, Nat.cast_ofNat]
      rw [div_mul_div_comm, div_div]
    rw [← hq]
    cases F64.sign x <;> cases F64.sign y <;> simp [signFactor]
  rw [hval]
  simp only [F64.mul, F64.isNaN_of_isFinite hx, F64.isNaN_of_isFinite hy, F64.isInf_of_isFinite hx,
    F64.isInf_of_isFinite hy, Bool.or_self, Bool.false_eq_true, if_false]
  exact F64.roundsTo_round _ _ (pow_pos two_pos _)

theorem F64.roundsTo_div {x y : F64} (hx : F64.isFinite x = true) (hy : F64.isFinite y = true) (hy0 : F64.val y ≠ 0) :
    RoundsTo (F64.val x / F64.val y) (F64.div x y) := by
  have hmag : 0 < F64.mag y := Nat.pos_of_ne_zero (mt (F64.val_eq_zero_iff y).2 hy0)
  have hval : F64.val x / F64.val y =
      signFactor (F64.sign x != F64.sign y) * unitQuotient (F64.mag x * 2 ^ 1074) (F64.mag y) := by
    rw [F64.val_eq_signFactor, F64.val_eq_signFactor]
    have hq : unitQuotient (F64.mag x) 1 / unitQuotient (F64.mag y) 1 =
        unitQuotient (F64.mag x * 2 ^ 1074) (F64.mag y) := by
      have hy' : (F64.mag y : ℚ) ≠ 0 := by exact_mod_cast hmag.ne'
      simp only [unitQuotient, Nat.cast_one, div_one, Nat.cast_mul, Nat.cast_pow, Nat.cast_ofNat]
      field_simp
    rw [← hq]
    cases F64.sign x <;> cases F64.sign y <;> simp [signFactor, div_neg, neg_div]
  rw [hval]
  simp only [F64.div, F64.isNaN_of_isFinite hx, F64.isNaN_of_isFinite hy, F64.isInf_of_isFinite hx,
    F64.isInf_of_isFinite hy, F64.isZero, hmag.ne', Bool.or_self, Bool.false_eq_true, decide_false, if_false]
  exact F64.roundsTo_round _ _ hmag

/-- Settles O40: each operation is one rounding of the exact result. -/
theorem arithmeticRoundsToNearest : Obligations.ArithmeticRoundsToNearest := by
  intro x y hx hy
  refine ⟨F64.roundsTo_add hx hy, ?_, F64.roundsTo_mul hx hy, F64.roundsTo_div hx hy⟩
  rw [sub_eq_add_neg, ← F64.val_neg]
  exact F64.roundsTo_add hx ((F64.isFinite_neg y).trans hy)

/-! ## Comparisons -/

theorem F64.mag_lt_of_isFinite {x : F64} (h : F64.isFinite x = true) : F64.mag x < 2 ^ 2098 := by
  have hlow := F64.low_of_isFinite h
  rw [← F64.pack_sign x, F64.mag_pack _ (by omega), ← magAt_inf]
  exact (magAt_lt_succ (succ_lt_of_finite hlow)).trans_le (magAt_mono hlow (by norm_num))

theorem F64.val_lt_iff (x y : F64) : F64.val x < F64.val y ↔ F64.scaled x < F64.scaled y := by
  rw [F64.val, F64.val, div_lt_div_iff_of_pos_right (by positivity), Int.cast_lt]

theorem F64.scaled_inf (neg : Bool) : F64.scaled (F64.inf neg) = if neg then -2 ^ 2098 else 2 ^ 2098 := by
  rw [F64.scaled, F64.inf, F64.sign_pack neg (by norm_num), F64.mag_pack neg (by norm_num), magAt_inf, Nat.cast_pow,
    Nat.cast_ofNat]

theorem F64.isNaN_inf (neg : Bool) : F64.isNaN (F64.inf neg) = false := by
  cases neg <;> decide

/-- Every finite number lies between the infinities. -/
theorem F64.abs_scaled_lt {x : F64} (h : F64.isFinite x = true) : -2 ^ 2098 < F64.scaled x ∧ F64.scaled x < 2 ^ 2098 := by
  have hmag : (F64.mag x : Int) < 2 ^ 2098 := by exact_mod_cast F64.mag_lt_of_isFinite h
  have h0 : (0 : Int) ≤ F64.mag x := Int.natCast_nonneg _
  rw [F64.scaled]
  generalize (2 : Int) ^ 2098 = top at hmag
  cases F64.sign x <;> simp <;> omega

/-- Settles O43: a count of at most 53 significant bits rounds to itself, and a value is its scaled integer over 2^1074. -/
theorem integersAndComparisonsAreExact : Obligations.IntegersAndComparisonsAreExact := by
  refine ⟨fun n hn => ?_, fun x y h => ?_, fun x y hx hy => ?_, fun x hx => ?_, by decide⟩
  · obtain ⟨hfin, hval⟩ := F64.val_roundInt_of_significant (n := n) (t := 1074) (by zify; exact hn) le_rfl
    refine ⟨hfin, hval.trans ?_⟩
    rw [Int.cast_mul, Int.cast_pow, Int.cast_ofNat, mul_div_cancel_right₀ _ (by positivity)]
  · rcases h with h | h <;> simp [F64.lt, F64.le, F64.eq, h]
  · have hle : F64.val x ≤ F64.val y ↔ F64.scaled x ≤ F64.scaled y := by
      rw [← not_lt, F64.val_lt_iff, not_lt]
    have heq : F64.val x = F64.val y ↔ F64.scaled x = F64.scaled y := by
      rw [le_antisymm_iff, le_antisymm_iff, hle, ← not_lt (a := F64.val x), F64.val_lt_iff, not_lt]
    simp [F64.lt, F64.le, F64.eq, hx, hy, F64.val_lt_iff, hle, heq]
  · obtain ⟨hlo, hhi⟩ := F64.abs_scaled_lt hx
    simp only [F64.lt, F64.isNaN_of_isFinite hx, F64.isNaN_inf, F64.scaled_inf, Bool.false_eq_true, if_true, if_false, hlo, hhi,
      decide_true, Bool.not_false, Bool.and_self, and_self]

end Sys2Proof
end

section
/-! PROOFS. The special values of the arithmetic (00_scope.md R16): NaNs, infinities and signed zeros. -/

namespace Sys2Proof

/-! ## The classes of a pattern -/

theorem F64.isNaN_pack (neg : Bool) {b : Nat} (h : b ≤ 2047 * 2 ^ 52) : F64.isNaN (F64.pack neg b) = false := by
  rw [F64.isNaN, F64.expField_pack neg (by omega), F64.fracField_pack neg (by omega), Bool.and_eq_false_iff,
    decide_eq_false_iff_not, decide_eq_false_iff_not]
  omega

theorem F64.roundMag_le (num den : Nat) : F64.roundMag num den ≤ 2047 * 2 ^ 52 := by
  rw [F64.roundMag_eq]
  exact min_le_left _ _

theorem F64.sqrtMag_le (n : Nat) : F64.sqrtMag n ≤ 2047 * 2 ^ 52 := F64.roundMag_le _ _

@[simp] theorem F64.isNaN_round (neg : Bool) (num den : Nat) : F64.isNaN (F64.round neg num den) = false :=
  F64.isNaN_pack neg (F64.roundMag_le num den)

@[simp] theorem F64.sign_round (neg : Bool) (num den : Nat) : F64.sign (F64.round neg num den) = neg :=
  F64.sign_pack neg ((F64.roundMag_le num den).trans_lt (by norm_num))

@[simp] theorem F64.round_zero (neg : Bool) (den : Nat) : F64.round neg 0 den = F64.pack neg 0 := by
  rw [F64.round, F64.roundMag_zero]

@[simp] theorem F64.isNaN_nan : F64.isNaN F64.nan = true := by decide

@[simp] theorem F64.isNaN_pack_zero (neg : Bool) : F64.isNaN (F64.pack neg 0) = false := F64.isNaN_pack neg (by norm_num)

@[simp] theorem F64.sign_pack_zero (neg : Bool) : F64.sign (F64.pack neg 0) = neg := F64.sign_pack neg (by norm_num)

@[simp] theorem F64.isZero_pack_zero (neg : Bool) : F64.isZero (F64.pack neg 0) = true := by
  rw [← F64.val_eq_zero_iff_isZero, F64.val_pack_zero]

@[simp] theorem F64.sign_inf (neg : Bool) : F64.sign (F64.inf neg) = neg := F64.sign_pack neg (by norm_num)

@[simp] theorem F64.isInf_inf (neg : Bool) : F64.isInf (F64.inf neg) = true := by cases neg <;> decide

theorem F64.isNaN_of_isInf {x : F64} (h : F64.isInf x = true) : F64.isNaN x = false := by
  simp_all [F64.isInf, F64.isNaN]

theorem F64.mag_pos_of_expField {x : F64} (h : F64.expField x ≠ 0) : 0 < F64.mag x := by
  rw [F64.mag, if_neg h]
  positivity

theorem F64.expField_of_isZero {x : F64} (h : F64.isZero x = true) : F64.expField x = 0 := by
  by_contra he
  exact (F64.mag_pos_of_expField he).ne' (of_decide_eq_true h)

theorem F64.isNaN_of_isZero {x : F64} (h : F64.isZero x = true) : F64.isNaN x = false := by
  simp [F64.isNaN, F64.expField_of_isZero h]

theorem F64.isInf_of_isZero {x : F64} (h : F64.isZero x = true) : F64.isInf x = false := by
  simp [F64.isInf, F64.expField_of_isZero h]

theorem F64.isZero_of_isInf {x : F64} (h : F64.isInf x = true) : F64.isZero x = false := by
  by_contra hz
  rw [Bool.not_eq_false] at hz
  simp [F64.isInf_of_isZero hz] at h

/-- An infinity is the pattern of its sign. -/
theorem F64.eq_inf_of_isInf {x : F64} (h : F64.isInf x = true) : x = F64.inf (F64.sign x) := by
  rw [F64.isInf, Bool.and_eq_true] at h
  have hexp : x.toNat / 2 ^ 52 % 2 ^ 11 = 2047 := of_decide_eq_true h.1
  have hfrac : x.toNat % 2 ^ 52 = 0 := of_decide_eq_true h.2
  rw [F64.inf, ← show x.toNat % 2 ^ 63 = 2047 * 2 ^ 52 by omega, F64.pack_sign]

/-! ## Which operations give a NaN -/

theorem F64.isNaN_add_iff (x y : F64) :
    F64.isNaN (F64.add x y) = true ↔ (F64.isNaN x = true ∨ F64.isNaN y = true ∨
      (F64.isInf x = true ∧ F64.isInf y = true ∧ F64.sign x ≠ F64.sign y)) := by
  unfold F64.add F64.roundInt
  split_ifs with hnan hinf hopposite hinf' hzero
  · simp only [F64.isNaN_nan, Bool.or_eq_true] at hnan ⊢
    tauto
  all_goals simp_all [F64.isNaN_inf]

theorem F64.isNaN_mul_iff (x y : F64) :
    F64.isNaN (F64.mul x y) = true ↔ (F64.isNaN x = true ∨ F64.isNaN y = true ∨
      (F64.isInf x = true ∧ F64.isZero y = true) ∨ (F64.isZero x = true ∧ F64.isInf y = true)) := by
  unfold F64.mul
  generalize 2 ^ 1074 = unit
  split_ifs with hnan hinf hzero
  · simp only [F64.isNaN_nan, Bool.or_eq_true] at hnan ⊢
    tauto
  · have hx := F64.isZero_of_isInf (x := x)
    have hy := F64.isZero_of_isInf (x := y)
    simp only [F64.isNaN_nan, Bool.or_eq_true] at hinf hzero ⊢
    rcases hinf with h | h <;> simp_all
  all_goals simp_all [F64.isNaN_inf]

theorem F64.isNaN_div_iff (x y : F64) :
    F64.isNaN (F64.div x y) = true ↔ (F64.isNaN x = true ∨ F64.isNaN y = true ∨
      (F64.isInf x = true ∧ F64.isInf y = true) ∨ (F64.isZero x = true ∧ F64.isZero y = true)) := by
  have hx := F64.isZero_of_isInf (x := x)
  have hy := F64.isZero_of_isInf (x := y)
  unfold F64.div
  generalize 2 ^ 1074 = unit
  split_ifs with hnan hinf hinf' hinf'' hzero hzero'
  · simp only [F64.isNaN_nan, Bool.or_eq_true] at hnan ⊢
    tauto
  all_goals simp_all [F64.isNaN_inf]

theorem F64.isNaN_sqrt_iff (x : F64) :
    F64.isNaN (F64.sqrt x) = true ↔ (F64.isNaN x = true ∨ (F64.sign x = true ∧ F64.isZero x = false)) := by
  unfold F64.sqrt
  split_ifs with hnan hzero hsign hinf
  · simp [hnan]
  · simp [F64.isNaN_of_isZero hzero, hzero]
  · simp_all
  · simp_all
  · have hpack := F64.isNaN_pack false (F64.sqrtMag_le (F64.mag x * 2 ^ 1074))
    generalize F64.mag x * 2 ^ 1074 = n at hpack ⊢
    simp [hnan, hsign, hpack]

/-- A value built by rounding, an infinity or a zero is no NaN: every NaN is the canonical one. -/
theorem F64.add_eq_nan {x y : F64} (h : F64.isNaN (F64.add x y) = true) : F64.add x y = F64.nan := by
  unfold F64.add F64.roundInt at h ⊢
  split_ifs at h ⊢ <;> simp_all [F64.isNaN_inf]

theorem F64.mul_eq_nan {x y : F64} (h : F64.isNaN (F64.mul x y) = true) : F64.mul x y = F64.nan := by
  unfold F64.mul at h ⊢
  generalize 2 ^ 1074 = unit at h ⊢
  split_ifs at h ⊢ <;> simp_all [F64.isNaN_inf]

theorem F64.div_eq_nan {x y : F64} (h : F64.isNaN (F64.div x y) = true) : F64.div x y = F64.nan := by
  unfold F64.div at h ⊢
  generalize 2 ^ 1074 = unit at h ⊢
  split_ifs at h ⊢ <;> simp_all [F64.isNaN_inf]

theorem F64.sqrt_eq_nan {x : F64} (h : F64.isNaN (F64.sqrt x) = true) : F64.sqrt x = F64.nan := by
  rw [F64.isNaN_sqrt_iff] at h
  unfold F64.sqrt
  rcases h with h | ⟨hsign, hzero⟩
  · rw [if_pos h]
  · simp [hsign, hzero]

/-! ## Infinities, zeros and signs -/

theorem F64.add_inf {x y : F64} (hx : F64.isInf x = true) (hy : F64.isFinite y = true) :
    F64.add x y = x ∧ F64.add y x = x := by
  simp [F64.add, hx, F64.isNaN_of_isInf hx, F64.isNaN_of_isFinite hy, F64.isInf_of_isFinite hy, ← F64.eq_inf_of_isInf hx]

theorem F64.add_inf_self {x : F64} (hx : F64.isInf x = true) : F64.add x x = x := by
  simp [F64.add, hx, F64.isNaN_of_isInf hx, ← F64.eq_inf_of_isInf hx]

theorem F64.add_of_zero_sum {x y : F64} (hx : F64.isFinite x = true) (hy : F64.isFinite y = true)
    (h : F64.val x + F64.val y = 0) : F64.add x y = F64.pack (F64.sign x && F64.sign y) 0 := by
  have hscaled : F64.scaled x + F64.scaled y = 0 := by
    rw [F64.val, F64.val, ← add_div, div_eq_zero_iff, or_iff_left (by positivity)] at h
    exact_mod_cast h
  simp [F64.add, F64.isNaN_of_isFinite hx, F64.isNaN_of_isFinite hy, F64.isInf_of_isFinite hx, F64.isInf_of_isFinite hy,
    hscaled]

theorem F64.mul_special {x y : F64} (h : F64.isNaN (F64.mul x y) = false) :
    F64.sign (F64.mul x y) = (F64.sign x != F64.sign y) ∧
      ((F64.isInf x = true ∨ F64.isInf y = true) → F64.isInf (F64.mul x y) = true) ∧
      ((F64.isZero x = true ∨ F64.isZero y = true) → F64.isZero (F64.mul x y) = true) := by
  have hmag : (F64.isZero x = true ∨ F64.isZero y = true) → F64.mag x * F64.mag y = 0 := by
    simp [F64.isZero]
  unfold F64.mul at h ⊢
  generalize 2 ^ 1074 = unit at h ⊢
  split_ifs at h ⊢ with hnan hinf hzero
  · simp at h
  · simp at h
  · simp_all
  · simp only [Bool.or_eq_true, not_or] at hinf
    refine ⟨F64.sign_round _ _ _, fun h => absurd h (not_or.2 hinf), fun h => ?_⟩
    rw [hmag h, F64.round_zero, F64.isZero_pack_zero]

theorem F64.div_special {x y : F64} (h : F64.isNaN (F64.div x y) = false) :
    F64.sign (F64.div x y) = (F64.sign x != F64.sign y) ∧
      ((F64.isInf x = true ∨ F64.isZero y = true) → F64.isInf (F64.div x y) = true) ∧
      ((F64.isZero x = true ∨ F64.isInf y = true) → F64.isZero (F64.div x y) = true) := by
  have hx := F64.isZero_of_isInf (x := x)
  have hy := F64.isZero_of_isInf (x := y)
  unfold F64.div at h ⊢
  generalize 2 ^ 1074 = unit at h ⊢
  have hmag : F64.isZero x = true → F64.mag x * unit = 0 := fun hz => by
    rw [show F64.mag x = 0 from of_decide_eq_true hz, zero_mul]
  split_ifs at h ⊢ with hnan hinf hinf' hinf'' hzero hzero'
  · simp at h
  · simp at h
  · simp_all
  · simp_all
  · simp at h
  · simp_all
  · simp only [Bool.not_eq_true] at hinf hinf'' hzero
    refine ⟨F64.sign_round _ _ _, by simp [hinf, hzero], ?_⟩
    rintro (hz | hi)
    · rw [hmag hz, F64.round_zero, F64.isZero_pack_zero]
    · simp [hi] at hinf''

theorem F64.sqrt_of_isZero {x : F64} (h : F64.isZero x = true) : F64.sqrt x = x := by
  simp [F64.sqrt, F64.isNaN_of_isZero h, h]

theorem F64.sqrt_inf : F64.sqrt (F64.inf false) = F64.inf false := by
  have h := F64.isInf_inf false
  simp [F64.sqrt, F64.isNaN_inf, F64.isZero_of_isInf h]

/-- Settles O42, one lemma to each clause: the branches of an operation are the special cases of IEEE 754. -/
theorem specialValuesOfArithmetic : Obligations.SpecialValuesOfArithmetic := by
  intro x y
  refine ⟨F64.isNaN_add_iff x y, F64.isNaN_mul_iff x y, F64.isNaN_div_iff x y, F64.isNaN_sqrt_iff x, ?_, ?_, rfl,
    F64.add_inf, F64.add_inf_self, F64.mul_special, F64.div_special, F64.sqrt_of_isZero, F64.sqrt_inf⟩
  · intro r hr
    simp only [List.mem_cons, List.not_mem_nil, or_false] at hr
    rcases hr with rfl | rfl | rfl | rfl | rfl
    · exact F64.add_eq_nan
    · exact F64.add_eq_nan
    · exact F64.mul_eq_nan
    · exact F64.div_eq_nan
    · exact F64.sqrt_eq_nan
  · intro hx hy h
    rw [F64.add_of_zero_sum hx hy h]
    cases F64.sign x && F64.sign y <;> rfl

end Sys2Proof
end

section
/-! PROOFS. The exact properties of NUM_SINPI, NUM_COSPI and NUM_IDFT (00_scope.md R20, R21). -/

namespace Sys2Proof

/-! ## Whole numbers of halves -/

/-- A magnitude that is a whole number of halves. -/
theorem F64.halves_of_mag {x : F64} {k : Nat} (h : 2 * F64.mag x = k * 2 ^ 1074) : F64.halves x = some k := by
  rw [F64.halves, h, Nat.mul_mod_left, if_pos rfl, Nat.mul_div_cancel _ (Nat.two_pow_pos 1074)]

theorem F64.mag_of_halves {x : F64} {k : Nat} (h : F64.halves x = some k) : 2 * F64.mag x = k * 2 ^ 1074 := by
  rw [F64.halves] at h
  split at h
  · next hmod =>
    rw [← Option.some.inj h, Nat.div_mul_cancel (Nat.dvd_of_mod_eq_zero hmod)]
  · simp at h

/-- A value that is a whole number of halves has that many halves, and its sign is theirs. -/
theorem F64.halves_of_val {x : F64} {m : Int} (h : 2 * F64.val x = m) :
    F64.halves x = some m.natAbs ∧ (F64.sign x = true → m ≤ 0) ∧ (F64.sign x = false → 0 ≤ m) := by
  have hp : (0 : ℚ) < 2 ^ 1074 := by positivity
  have hscaled : 2 * F64.scaled x = m * 2 ^ 1074 := by
    rw [F64.val, mul_div_assoc', div_eq_iff hp.ne'] at h
    rw [← Int.cast_inj (α := ℚ), Int.cast_mul, Int.cast_mul, Int.cast_pow, Int.cast_ofNat]
    exact h
  have hnat : (2 * F64.scaled x).natAbs = m.natAbs * 2 ^ 1074 := by
    rw [hscaled, natAbs_mul_two_pow]
  have hmag : F64.mag x = (F64.scaled x).natAbs := by
    rw [F64.scaled]; cases F64.sign x <;> simp
  refine ⟨F64.halves_of_mag ?_, fun hs => ?_, fun hs => ?_⟩
  · rw [hmag, ← hnat, Int.natAbs_mul]; rfl
  · rw [F64.scaled, hs] at hscaled
    by_contra hm
    have := mul_pos (not_le.1 hm) (show (0 : Int) < 2 ^ 1074 by positivity)
    generalize m * 2 ^ 1074 = t at hscaled this
    simp at hscaled
    omega
  · rw [F64.scaled, hs] at hscaled
    by_contra hm
    have := mul_neg_of_neg_of_pos (not_le.1 hm) (show (0 : Int) < 2 ^ 1074 by positivity)
    generalize m * 2 ^ 1074 = t at hscaled this
    simp at hscaled
    omega

theorem sinHalves_of_even {k : Nat} (h : k % 2 = 0) : sinHalves k = F64.zero := by
  rw [sinHalves, if_neg (by omega), if_neg (by omega)]

theorem sinHalves_of_one {k : Nat} (h : k % 4 = 1) : sinHalves k = F64.one := by rw [sinHalves, if_pos h]

theorem sinHalves_of_three {k : Nat} (h : k % 4 = 3) : sinHalves k = F64.neg F64.one := by
  rw [sinHalves, if_neg (by omega), if_pos h]

theorem cosHalves_of_odd {k : Nat} (h : k % 2 = 1) : cosHalves k = F64.zero := by
  rw [cosHalves, if_neg (by omega), if_neg (by omega)]

theorem cosHalves_of_zero {k : Nat} (h : k % 4 = 0) : cosHalves k = F64.one := by rw [cosHalves, if_pos h]

theorem cosHalves_of_two {k : Nat} (h : k % 4 = 2) : cosHalves k = F64.neg F64.one := by
  rw [cosHalves, if_neg (by omega), if_pos h]

/-! ## TRIG-SYM, TRIG-HALF and TRIG-NAN -/

/-- The values computed for want of a free one depend on the magnitude alone. -/
theorem fallback_neg (tol : ℚ) (x : F64) :
    fallbackSinPi tol (F64.neg x) = fallbackSinPi tol x ∧ fallbackCosPi tol (F64.neg x) = fallbackCosPi tol x := by
  unfold fallbackSinPi fallbackCosPi approxSinPi approxCosPi nearestSinPi nearestCosPi piAngle
  rw [F64.mag_neg]
  exact ⟨rfl, rfl⟩

@[simp] theorem sinPiAbs_neg (tol : ℚ) (x : F64) : sinPiAbs tol (F64.neg x) = sinPiAbs tol x := by
  unfold sinPiAbs
  rw [F64.halves_neg, F64.abs_neg, (fallback_neg tol x).1]

theorem numSinPi_neg (tol : ℚ) {x : F64} (h : F64.isFinite x = true) :
    numSinPi tol (F64.neg x) = F64.neg (numSinPi tol x) := by
  cases hs : F64.sign x <;> simp [numSinPi, h, hs]

theorem numCosPi_neg (tol : ℚ) (x : F64) : numCosPi tol (F64.neg x) = numCosPi tol x := by
  unfold numCosPi
  rw [F64.isFinite_neg, F64.halves_neg, F64.abs_neg, (fallback_neg tol x).2]

theorem numSinPi_of_halves (tol : ℚ) {x : F64} (h : F64.isFinite x = true) {k : Nat} (hk : F64.halves x = some k) :
    numSinPi tol x = if F64.sign x then F64.neg (sinHalves k) else sinHalves k := by
  simp [numSinPi, sinPiAbs, h, hk]

theorem numCosPi_of_halves (tol : ℚ) {x : F64} (h : F64.isFinite x = true) {k : Nat} (hk : F64.halves x = some k) :
    numCosPi tol x = cosHalves k := by
  simp [numCosPi, h, hk]

/-- TRIG-HALF at the whole numbers. -/
theorem numTrig_of_int (tol : ℚ) {x : F64} (hx : F64.isFinite x = true) {k : Int} (hk : F64.val x = k) :
    numSinPi tol x = (if F64.sign x then F64.neg F64.zero else F64.zero) ∧
      numCosPi tol x = if k % 2 = 0 then F64.one else F64.neg F64.one := by
  obtain ⟨hhalves, -, -⟩ := F64.halves_of_val (x := x) (m := 2 * k) (by rw [hk]; push_cast; ring)
  rw [numSinPi_of_halves tol hx hhalves, numCosPi_of_halves tol hx hhalves, sinHalves_of_even (by omega)]
  refine ⟨rfl, ?_⟩
  split
  · exact cosHalves_of_zero (by omega)
  · exact cosHalves_of_two (by omega)

/-- TRIG-HALF between the whole numbers: the sign of x moves the sine of -(k + 1/2) to that of k + 1/2. -/
theorem numTrig_of_half (tol : ℚ) {x : F64} (hx : F64.isFinite x = true) {k : Int} (hk : F64.val x = k + 1 / 2) :
    numSinPi tol x = (if k % 2 = 0 then F64.one else F64.neg F64.one) ∧ numCosPi tol x = F64.zero := by
  obtain ⟨hhalves, hneg, hpos⟩ := F64.halves_of_val (x := x) (m := 2 * k + 1) (by rw [hk]; push_cast; ring)
  rw [numSinPi_of_halves tol hx hhalves, numCosPi_of_halves tol hx hhalves]
  refine ⟨?_, cosHalves_of_odd (by omega)⟩
  cases hs : F64.sign x
  · have := hpos hs
    rw [if_neg Bool.false_ne_true]
    split
    · exact sinHalves_of_one (by omega)
    · exact sinHalves_of_three (by omega)
  · have := hneg hs
    rw [if_pos rfl]
    split
    · rw [sinHalves_of_three (by omega)]
      exact F64.neg_neg _
    · rw [sinHalves_of_one (by omega)]

/-- Settles O44: all but the sign is a function of the magnitude, and a whole number of halves is looked up. -/
theorem trigExactProperties : Obligations.TrigExactProperties := by
  intro tol x
  refine ⟨fun hx => ⟨numSinPi_neg tol hx, numCosPi_neg tol x⟩, fun hx => ?_, fun k hx hk => numTrig_of_int tol hx hk,
    fun k hx hk => numTrig_of_half tol hx hk⟩
  simp only [numSinPi, numCosPi, hx, Bool.false_eq_true, if_false]
  exact ⟨rfl, rfl⟩

/-! ## IDFT-ONE and IDFT-ZERO -/

theorem allZero_of_val {X : List Sample} (h : ∀ z ∈ X, F64.val z.re = 0 ∧ F64.val z.im = 0) : allZero X = true := by
  rw [allZero_iff]
  intro z hz
  obtain ⟨hre, him⟩ := h z hz
  exact ⟨(F64.val_eq_zero_iff_isZero _).1 hre, (F64.val_eq_zero_iff_isZero _).1 him⟩

theorem val_idftSample_of_allZero (tol : ℚ) (N : Nat) {X : List Sample} (n : Nat) (h : allZero X = true) :
    F64.val (idftSample tol N X n).re = 0 ∧ F64.val (idftSample tol N X n).im = 0 := by
  simp [idftSample, h]

/-- Settles O47: N = 1 and input of value zero are cases of their own. -/
theorem idftExactProperties : Obligations.IdftExactProperties := by
  intro tol N X hlen
  by_cases hN : N = 1
  · subst hN
    rw [numIdft_one]
    exact ⟨hlen, fun _ => rfl, id⟩
  · rw [numIdft_of_ne_one tol hN]
    refine ⟨by simp, fun h => absurd h hN, fun hzero z hz => ?_⟩
    obtain ⟨n, -, rfl⟩ := List.mem_map.1 hz
    exact val_idftSample_of_allZero tol N n (allZero_of_val hzero)

end Sys2Proof
end

section
/-! PROOFS. The square root (00_scope.md R16): the integer root of the high bits with its sticky bit rounds as the real root
does. -/

namespace Sys2Proof

/-! ## The integer square root -/

/-- The bits tried from the top find the root below `r + 2^b`. -/
theorem isqrtFrom_bounds (b n r : Nat) (hlo : r ^ 2 ≤ n) (hhi : n < (r + 2 ^ b) ^ 2) :
    isqrtFrom b n r ^ 2 ≤ n ∧ n < (isqrtFrom b n r + 1) ^ 2 := by
  induction b generalizing r with
  | zero => exact ⟨hlo, hhi⟩
  | succ b ih =>
    have hdouble : r + 2 ^ (b + 1) = r + 2 ^ b + 2 ^ b := by rw [pow_succ]; ring
    rw [isqrtFrom]
    split
    · next h => exact ih _ (by rw [sq]; exact h) (hdouble ▸ hhi)
    · next h => exact ih _ hlo (by rw [sq]; exact not_le.1 h)

theorem isqrt_bounds (n : Nat) : isqrt n ^ 2 ≤ n ∧ n < (isqrt n + 1) ^ 2 := by
  refine isqrtFrom_bounds _ n 0 (Nat.zero_le n) ?_
  rw [zero_add, ← pow_mul]
  exact Nat.lt_log2_self.trans_le (Nat.pow_le_pow_right two_pos (by omega))

/-! ## The root of the bits kept, and its sticky bit -/

/-- The root of the bits of `n` that `sqrtShift` keeps. -/
def sqrtKept (n : Nat) : Nat := isqrt (n / 4 ^ sqrtShift n)

/-- Twice the root of the kept bits, with a last bit for what was dropped: what `F64.sqrtMag` rounds, halved. -/
def sqrtSticky (n : Nat) : Nat := 2 * sqrtKept n + if sqrtKept n ^ 2 * 4 ^ sqrtShift n = n then 0 else 1

theorem F64.sqrtMag_eq (n : Nat) : F64.sqrtMag n = F64.roundMag (sqrtSticky n * 2 ^ sqrtShift n) 2 := rfl

/-- The root of the kept bits is at most the root, and the next one above it. -/
theorem sqrtKept_bounds (n : Nat) :
    (sqrtKept n * 2 ^ sqrtShift n) ^ 2 ≤ n ∧ n < ((sqrtKept n + 1) * 2 ^ sqrtShift n) ^ 2 := by
  obtain ⟨hlo, hhi⟩ := isqrt_bounds (n / 4 ^ sqrtShift n)
  have hsq : (2 ^ sqrtShift n) ^ 2 = 4 ^ sqrtShift n := by rw [← pow_mul, mul_comm, pow_mul]; norm_num
  rw [mul_pow, mul_pow, hsq]
  have h4 : 0 < 4 ^ sqrtShift n := by positivity
  exact ⟨(Nat.le_div_iff_mul_le h4).1 hlo, (Nat.div_lt_iff_lt_mul h4).1 hhi⟩

/-- The kept bits are enough for a root of 62 bits. -/
theorem two_pow_le_sqrtKept {n : Nat} (h : 2 ^ 122 ≤ n) : 2 ^ 61 ≤ sqrtKept n := by
  have hlog : 122 ≤ Nat.log2 n := (Nat.le_log2 ((Nat.two_pow_pos 122).trans_le h).ne').2 h
  have hkept : 2 ^ 122 ≤ n / 4 ^ sqrtShift n := by
    rw [Nat.le_div_iff_mul_le (by positivity), show 4 = 2 ^ 2 by norm_num, ← pow_mul, ← pow_add]
    refine (Nat.pow_le_pow_right two_pos ?_).trans (Nat.log2_self_le (by omega))
    rw [sqrtShift]
    omega
  have hhi := (isqrt_bounds (n / 4 ^ sqrtShift n)).2
  by_contra hlt
  have : (sqrtKept n + 1) ^ 2 ≤ (2 ^ 61) ^ 2 := Nat.pow_le_pow_left (by omega) 2
  rw [sqrtKept] at this
  norm_num at this hkept
  omega

/-- A multiple of twice the last kept place lies on the same side of the root as of the sticky value. -/
theorem sqrtSticky_side {n c : Nat} :
    (2 * c ≤ sqrtSticky n → (c * 2 ^ sqrtShift n) ^ 2 ≤ n) ∧ (sqrtSticky n ≤ 2 * c → n ≤ (c * 2 ^ sqrtShift n) ^ 2) := by
  obtain ⟨hlo, hhi⟩ := sqrtKept_bounds n
  have hmono : ∀ {p q : Nat}, p ≤ q → (p * 2 ^ sqrtShift n) ^ 2 ≤ (q * 2 ^ sqrtShift n) ^ 2 := fun h =>
    Nat.pow_le_pow_left (Nat.mul_le_mul_right _ h) 2
  rw [sqrtSticky]
  split
  · next hexact =>
    have hn : n = (sqrtKept n * 2 ^ sqrtShift n) ^ 2 := by
      rw [mul_pow, ← pow_mul, mul_comm (sqrtShift n), pow_mul]
      exact hexact.symm
    exact ⟨fun h => (hmono (by omega)).trans hlo, fun h => hn.le.trans (hmono (by omega))⟩
  · exact ⟨fun h => (hmono (by omega)).trans hlo, fun h => hhi.le.trans (hmono (by omega))⟩

/-! ## The rounded root -/

/-- The sticky value is rounded well above the last kept place. -/
theorem lt_roundExp_sqrtSticky {n : Nat} (h : 2 ^ 122 ≤ n) :
    sqrtShift n + 2 ≤ F64.roundExp (sqrtSticky n * 2 ^ sqrtShift n) 2 := by
  obtain ⟨hlt, -⟩ := F64.roundExp_bounds (sqrtSticky n * 2 ^ sqrtShift n) (den := 2) two_pos
  by_contra hcon
  have hexp : 2 ^ F64.roundExp (sqrtSticky n * 2 ^ sqrtShift n) 2 ≤ 2 ^ sqrtShift n * 2 := by
    rw [← pow_succ]
    exact Nat.pow_le_pow_right two_pos (by omega)
  have hsticky : 2 ^ 62 ≤ sqrtSticky n := by
    have := two_pow_le_sqrtKept h
    rw [sqrtSticky]
    omega
  have hmul : 2 ^ 62 * 2 ^ sqrtShift n ≤ sqrtSticky n * 2 ^ sqrtShift n := Nat.mul_le_mul_right _ hsticky
  have := Nat.two_pow_pos (sqrtShift n)
  omega

/-- The magnitudes about the rounded root are multiples of twice the last kept place. -/
theorem two_pow_dvd_magAt_sqrt {n c : Nat} (h : 2 ^ 122 ≤ n) (hno : ¬ F64.Overflows (sqrtSticky n * 2 ^ sqrtShift n) 2)
    (hc : F64.sqrtMag n ≤ c + 1) (hc' : c < 2 ^ 63) : 2 ^ (sqrtShift n + 1) ∣ magAt c := by
  have hexp := lt_roundExp_sqrtSticky h
  have hsig := (F64.le_roundSig (sqrtSticky n * 2 ^ sqrtShift n) two_pos).resolve_left (by omega)
  rw [F64.sqrtMag_eq, (F64.roundMag_of_no_overflow two_pos hno).1] at hc
  refine two_pow_dvd_magAt ?_ hc'
  calc (sqrtShift n + 1 + 1) * 2 ^ 52 ≤ F64.roundExp (sqrtSticky n * 2 ^ sqrtShift n) 2 * 2 ^ 52 := Nat.mul_le_mul_right _ hexp
    _ ≤ c := Nat.le_of_succ_le_succ (le_trans (by omega) hc)

/-- The rounded root lies between the midpoints about it. -/
theorem sqrtMag_between {n : Nat} (h : 2 ^ 122 ≤ n) (hno : ¬ F64.Overflows (sqrtSticky n * 2 ^ sqrtShift n) 2) :
    BetweenMidpoints (Real.sqrt n / 2 ^ 1074) (F64.sqrtMag n) := by
  have hnear := F64.roundMag_nearest two_pos hno
  have hb := (F64.roundMag_of_no_overflow two_pos hno).2
  have hdvd := fun c => two_pow_dvd_magAt_sqrt (c := c) h hno
  rw [← F64.sqrtMag_eq] at hnear hb
  have hpos := Nat.two_pow_pos (sqrtShift n)
  have hside : ∀ p q, 2 ^ (sqrtShift n + 1) ∣ magAt p → 2 ^ (sqrtShift n + 1) ∣ magAt q →
      ((magAt p + magAt q) * 2 ≤ 2 * (sqrtSticky n * 2 ^ sqrtShift n) →
        realAt p + realAt q ≤ 2 * (Real.sqrt n / 2 ^ 1074)) ∧
      (2 * (sqrtSticky n * 2 ^ sqrtShift n) ≤ (magAt p + magAt q) * 2 →
        2 * (Real.sqrt n / 2 ^ 1074) ≤ realAt p + realAt q) := by
    intro p q hp hq
    obtain ⟨c, hc⟩ := dvd_add hp hq
    have hreal : realAt p + realAt q = 2 * ((c * 2 ^ sqrtShift n : Nat) : ℝ) / 2 ^ 1074 := by
      rw [realAt, realAt, ← add_div, ← Nat.cast_add, hc, pow_succ]
      congr 1
      push_cast
      ring
    have hsum : magAt p + magAt q = 2 * c * 2 ^ sqrtShift n := by rw [hc, pow_succ]; ring
    rw [hreal, hsum, mul_comm 2 (sqrtSticky n * _), ← mul_div_assoc, div_le_div_iff_of_pos_right (by positivity),
      div_le_div_iff_of_pos_right (by positivity)]
    constructor
    · intro hle
      have hle := Nat.le_of_mul_le_mul_right (Nat.le_of_mul_le_mul_right hle two_pos) hpos
      have := Real.le_sqrt_of_sq_le (show ((c * 2 ^ sqrtShift n : Nat) : ℝ) ^ 2 ≤ n by exact_mod_cast sqrtSticky_side.1 hle)
      linarith
    · intro hge
      have hge := Nat.le_of_mul_le_mul_right (Nat.le_of_mul_le_mul_right hge two_pos) hpos
      have := Real.sqrt_le_iff.2 ⟨Nat.cast_nonneg _,
        show (n : ℝ) ≤ ((c * 2 ^ sqrtShift n : Nat) : ℝ) ^ 2 by exact_mod_cast sqrtSticky_side.2 hge⟩
      linarith
  constructor
  · intro a ha
    exact (hside a _ (hdvd a ha.ge (by omega)) (hdvd _ (Nat.le_succ _) (by omega))).1 (hnear.below a ha)
  · exact (hside _ _ (hdvd _ (Nat.le_succ _) (by omega)) (hdvd _ (by omega) (succ_lt_of_finite hb))).2 hnear.above

theorem sqrt_not_overflows {n : Nat} (h : 2 ^ 122 ≤ n) (hn : n < (2 ^ 1586) ^ 2) :
    ¬ F64.Overflows (sqrtSticky n * 2 ^ sqrtShift n) 2 := by
  have hlt := lt_of_pow_lt_pow_left₀ 2 (Nat.zero_le _) ((sqrtKept_bounds n).1.trans_lt hn)
  refine F64.not_overflows_of_lt (k := 1586 + 1) (by norm_num) ?_
  have hkept := two_pow_le_sqrtKept h
  have hsticky : sqrtSticky n ≤ 4 * sqrtKept n := by
    rw [sqrtSticky]
    split <;> omega
  rw [pow_succ]
  generalize 2 ^ 1586 = top at hlt ⊢
  calc sqrtSticky n * 2 ^ sqrtShift n ≤ 4 * sqrtKept n * 2 ^ sqrtShift n := Nat.mul_le_mul_right _ hsticky
    _ = 4 * (sqrtKept n * 2 ^ sqrtShift n) := by ring
    _ < top * 2 * 2 := by omega

/-- The root of a value is the root of its magnitude moved up by 2^1074. -/
theorem sqrt_unitQuotient (m : Nat) :
    Real.sqrt ((unitQuotient m 1 : ℚ) : ℝ) = Real.sqrt ((m * 2 ^ 1074 : Nat) : ℝ) / 2 ^ 1074 := by
  have hp : (0 : ℝ) < 2 ^ 1074 := by positivity
  have hq : ((unitQuotient m 1 : ℚ) : ℝ) = ((m * 2 ^ 1074 : Nat) : ℝ) / (2 ^ 1074) ^ 2 := by
    rw [unitQuotient, Nat.cast_one, div_one, Rat.cast_div, Rat.cast_natCast, Rat.cast_pow, Rat.cast_ofNat, Nat.cast_mul,
      Nat.cast_pow, Nat.cast_ofNat, sq, mul_div_mul_right _ _ hp.ne']
  rw [hq, Real.sqrt_div (Nat.cast_nonneg _), Real.sqrt_sq hp.le]

/-- Settles O41: the sticky value and the root lie on the same side of every midpoint about the rounded root. -/
theorem squareRootRoundsToNearest : Obligations.SquareRootRoundsToNearest := by
  intro x hx hx0
  by_cases hzero : F64.isZero x = true
  · rw [F64.sqrt_of_isZero hzero, (F64.val_eq_zero_iff_isZero x).2 hzero]
    simp [hx]
  have hmag : 0 < F64.mag x := Nat.pos_of_ne_zero fun h => hzero (decide_eq_true h)
  have hsign : F64.sign x = false := by
    by_contra hs
    rw [Bool.not_eq_false] at hs
    have hq : 0 < unitQuotient (F64.mag x) 1 := by unfold unitQuotient; positivity
    rw [F64.val_eq_signFactor, hs, signFactor, if_pos rfl] at hx0
    linarith
  have hval : F64.val x = unitQuotient (F64.mag x) 1 := by
    rw [F64.val_eq_signFactor, hsign, signFactor, if_neg Bool.false_ne_true, one_mul]
  have hsqrt : F64.sqrt x = F64.pack false (F64.sqrtMag (F64.mag x * 2 ^ 1074)) := by
    rw [F64.sqrt, if_neg (by simp [F64.isNaN_of_isFinite hx]), if_neg hzero, if_neg (by simp [hsign]),
      if_neg (by simp [F64.isInf_of_isFinite hx])]
  have hlo : 2 ^ 122 ≤ F64.mag x * 2 ^ 1074 :=
    (pow_le_pow_right₀ one_le_two (by norm_num)).trans (Nat.le_mul_of_pos_left _ hmag)
  have hhi : F64.mag x * 2 ^ 1074 < (2 ^ 1586) ^ 2 := by
    calc F64.mag x * 2 ^ 1074 < 2 ^ 2098 * 2 ^ 1074 :=
          Nat.mul_lt_mul_of_pos_right (F64.mag_lt_of_isFinite hx) (pow_pos two_pos _)
      _ = (2 ^ 1586) ^ 2 := by rw [← pow_mul, ← pow_add]
  have hno := sqrt_not_overflows hlo hhi
  have hb : F64.sqrtMag (F64.mag x * 2 ^ 1074) < 2047 * 2 ^ 52 := (F64.roundMag_of_no_overflow two_pos hno).2
  rw [hsqrt, hval, sqrt_unitQuotient]
  refine ⟨F64.isFinite_pack _ hb, fun z hz => ?_⟩
  rw [F64.val_pack_real false (by omega), if_neg Bool.false_ne_true, one_mul]
  exact ((sqrtMag_between hlo hno).nearest_value (by positivity) hb hz).1

end Sys2Proof
end

section
/-! PROOFS. How near the rational approximations of sine and cosine are (00_scope.md R20), and TRIG-ACC: what is computed where
no free value stands is as near as any binary64 number has to be. -/

namespace Sys2Proof

/-! ## The Taylor polynomials -/

theorem foldl_range_add (n : Nat) (f : Nat → ℚ) :
    (List.range n).foldl (fun acc j => acc + f j) 0 = ∑ j ∈ Finset.range n, f j := by
  induction n with
  | zero => rfl
  | succ n ih => rw [List.range_succ, List.foldl_append, ih, Finset.sum_range_succ]; rfl

theorem sinPoly_eq (n : Nat) (y : ℚ) :
    sinPoly n y = ∑ j ∈ Finset.range n, (-1) ^ j * y ^ (2 * j + 1) / (Nat.factorial (2 * j + 1) : ℚ) := foldl_range_add n _

theorem cosPoly_eq (n : Nat) (y : ℚ) :
    cosPoly n y = ∑ j ∈ Finset.range n, (-1) ^ j * y ^ (2 * j) / (Nat.factorial (2 * j) : ℚ) := foldl_range_add n _

/-- The two polynomials are the parts of the exponential's, twice as long. -/
theorem cosPoly_add_sinPoly (n : Nat) (y : ℚ) :
    ∑ m ∈ Finset.range (2 * n), ((y : ℂ) * Complex.I) ^ m / (Nat.factorial m : ℂ) =
      ((cosPoly n y : ℝ) : ℂ) + ((sinPoly n y : ℝ) : ℂ) * Complex.I := by
  rw [cosPoly_eq, sinPoly_eq]
  push_cast
  induction n with
  | zero => simp
  | succ n ih =>
    have heven : ((y : ℂ) * Complex.I) ^ (2 * n) = (-1) ^ n * y ^ (2 * n) := by
      rw [mul_pow, pow_mul Complex.I, Complex.I_sq]; ring
    rw [show 2 * (n + 1) = 2 * n + 1 + 1 by ring, Finset.sum_range_succ, Finset.sum_range_succ, ih, Finset.sum_range_succ,
      Finset.sum_range_succ, pow_succ _ (2 * n), heven]
    ring

/-- On a whole turn the polynomials of `taylorTerms` terms are within 2^-70. -/
theorem taylor_close {y : ℚ} (h0 : 0 ≤ y) (h1 : (y : ℝ) ≤ 2 * Real.pi) :
    |Real.cos y - (cosPoly taylorTerms y : ℝ)| ≤ 1 / 2 ^ 70 ∧ |Real.sin y - (sinPoly taylorTerms y : ℝ)| ≤ 1 / 2 ^ 70 := by
  have hpi := Real.pi_lt_d20
  have hy : ‖(y : ℂ) * Complex.I‖ = y := by
    rw [norm_mul, Complex.norm_I, mul_one, ← Complex.ofReal_ratCast, Complex.norm_real,
      Real.norm_of_nonneg (by exact_mod_cast h0)]
  have hy' : (y : ℝ) ≤ 63 / 10 := by linarith
  have hexp := Complex.exp_bound' (x := (y : ℂ) * Complex.I) (n := 2 * taylorTerms) (by
    rw [hy, div_le_iff₀ (by positivity)]
    norm_num [taylorTerms]
    linarith)
  have hsmall : (y : ℝ) ^ (2 * taylorTerms) / (Nat.factorial (2 * taylorTerms)) * 2 ≤ 1 / 2 ^ 70 := by
    have hpow : (y : ℝ) ^ (2 * taylorTerms) ≤ (63 / 10) ^ (2 * taylorTerms) :=
      pow_le_pow_left₀ (by exact_mod_cast h0) hy' _
    calc _ ≤ (63 / 10 : ℝ) ^ (2 * taylorTerms) / (Nat.factorial (2 * taylorTerms)) * 2 := by gcongr
      _ ≤ 1 / 2 ^ 70 := by norm_num [taylorTerms, Nat.factorial]
  have hsplit : Complex.exp ((y : ℂ) * Complex.I) -
        (((cosPoly taylorTerms y : ℝ) : ℂ) + ((sinPoly taylorTerms y : ℝ) : ℂ) * Complex.I) =
      ((Real.cos y - cosPoly taylorTerms y : ℝ) : ℂ) + ((Real.sin y - sinPoly taylorTerms y : ℝ) : ℂ) * Complex.I := by
    rw [Complex.exp_mul_I]
    push_cast
    ring
  rw [hy, cosPoly_add_sinPoly, hsplit] at hexp
  have hnorm := hexp.trans hsmall
  generalize Real.cos y - cosPoly taylorTerms y = a, Real.sin y - sinPoly taylorTerms y = b at hnorm ⊢
  have hre := Complex.abs_re_le_norm ((a : ℂ) + b * Complex.I)
  have him := Complex.abs_im_le_norm ((a : ℂ) + b * Complex.I)
  simp only [Complex.add_re, Complex.add_im, Complex.re_ofReal_mul, Complex.im_ofReal_mul, Complex.ofReal_re,
    Complex.ofReal_im, Complex.I_re, Complex.I_im, mul_zero, mul_one, add_zero, zero_add] at hre him
  exact ⟨hre.trans hnorm, him.trans hnorm⟩

/-- So an angle near a whole number of turns and such an argument has its cosine and sine near the polynomials. -/
theorem taylor_close_of_angle {y : ℚ} (h0 : 0 ≤ y) (h1 : (y : ℝ) ≤ 2 * Real.pi) {angle : ℝ} {turns : Nat}
    (hangle : |angle - turns * (2 * Real.pi) - y| ≤ 1 / 2 ^ 64) :
    |Real.cos angle - (cosPoly taylorTerms y : ℝ)| ≤ 1 / 2 ^ 64 + 1 / 2 ^ 70 ∧
      |Real.sin angle - (sinPoly taylorTerms y : ℝ)| ≤ 1 / 2 ^ 64 + 1 / 2 ^ 70 := by
  obtain ⟨hcos, hsin⟩ := taylor_close h0 h1
  have hcos' := (Real.abs_cos_sub_cos_le _ _).trans hangle
  have hsin' := (Real.abs_sin_sub_sin_le _ _).trans hangle
  rw [Real.cos_sub_nat_mul_two_pi] at hcos'
  rw [Real.sin_sub_nat_mul_two_pi] at hsin'
  exact ⟨(abs_sub_le _ _ _).trans (add_le_add hcos' hcos), (abs_sub_le _ _ _).trans (add_le_add hsin' hsin)⟩

/-! ## Nearness to a real -/

/-- `v` is finite and within `tol` of the real `t`. -/
def CloseTo (tol : ℚ) (t : ℝ) (v : F64) : Prop := F64.isFinite v = true ∧ |(F64.val v : ℝ) - t| ≤ tol

/-- `v` is within `tol` of the real `t` where any binary64 number is: what TRIG-ACC asks of a result. -/
def CloseIfAny (tol : ℚ) (t : ℝ) (v : F64) : Prop := (∃ w, CloseTo tol t w) → CloseTo tol t v

theorem CloseTo.neg {tol : ℚ} {t : ℝ} {v : F64} (h : CloseTo tol t v) : CloseTo tol (-t) (F64.neg v) := by
  obtain ⟨hfin, hclose⟩ := h
  refine ⟨by rw [F64.isFinite_neg, hfin], ?_⟩
  rw [F64.val_neg, Rat.cast_neg, ← abs_neg]
  refine le_trans (le_of_eq ?_) hclose
  congr 1
  ring

theorem CloseTo.mono {a b : ℚ} (hab : a ≤ b) {t : ℝ} {v : F64} (h : CloseTo a t v) : CloseTo b t v :=
  ⟨h.1, h.2.trans (by exact_mod_cast hab)⟩

theorem CloseIfAny.neg {tol : ℚ} {t : ℝ} {v : F64} (h : CloseIfAny tol t v) : CloseIfAny tol (-t) (F64.neg v) := by
  rintro ⟨w, hw⟩
  exact (h ⟨F64.neg w, neg_neg t ▸ hw.neg⟩).neg

/-- A nearest number is near where any is. -/
theorem closeIfAny_of_nearest {t : ℝ} {v : F64} (tol : ℚ)
    (h : ∀ z, F64.isFinite z = true → F64.isFinite v = true ∧ |(F64.val v : ℝ) - t| ≤ |(F64.val z : ℝ) - t|) :
    CloseIfAny tol t v := by
  rintro ⟨w, hfin, hclose⟩
  exact ⟨(h w hfin).1, (h w hfin).2.trans hclose⟩

/-- The exact value is near where any number is. -/
theorem closeIfAny_of_eq {t : ℝ} {v : F64} (tol : ℚ) (hfin : F64.isFinite v = true) (h : (F64.val v : ℝ) = t) :
    CloseIfAny tol t v :=
  closeIfAny_of_nearest tol fun z _ => ⟨hfin, by rw [h, sub_self, abs_zero]; exact abs_nonneg _⟩

/-! ## The approximations -/

/-- The floor cut to [-m, m] is as near to a real of that range as the floor. -/
theorem clamp_bounds {m f : Int} {x err : ℝ} (hlo : -m ≤ x) (hhi : x ≤ m) (herr : 0 ≤ err) (h1 : x - err ≤ f)
    (h2 : f ≤ x + err) : x - err ≤ (max (-m) (min m f) : Int) ∧ ((max (-m) (min m f) : Int) : ℝ) ≤ x + err := by
  rw [Int.cast_max, Int.cast_min, Int.cast_neg]
  exact ⟨le_max_of_le_right (le_min (by linarith) h1), max_le (by linarith) (min_le_of_right_le h2)⟩

theorem F64.val_unitF64 (q : ℚ) :
    F64.isFinite (unitF64 q) = true ∧
      (F64.val (unitF64 q) : ℝ) = ((max (-(2 ^ 53)) (min (2 ^ 53) ⌊q * 2 ^ 53⌋) : Int) : ℝ) / 2 ^ 53 := by
  rw [unitF64]
  generalize hc : max (-(2 ^ 53)) (min (2 ^ 53) ⌊q * 2 ^ 53⌋) = c
  obtain ⟨hfin, hval⟩ := F64.val_roundInt_of_significant (n := c) (t := 1021) (by omega) (by norm_num)
  refine ⟨hfin, ?_⟩
  have hp : (2 : ℝ) ^ 1074 = 2 ^ 53 * 2 ^ 1021 := by rw [← pow_add]
  rw [hval, Rat.cast_div, Rat.cast_intCast, Rat.cast_pow, Rat.cast_ofNat, Int.cast_mul, Int.cast_pow, Int.cast_ofNat, hp,
    mul_div_mul_right _ _ (by positivity)]

/-- `unitF64` is within 2^-53 more of a real in [-1, 1] than the rational it cuts. -/
theorem unitF64_close {q err : ℚ} {t : ℝ} (ht : |t| ≤ 1) (hq : |t - q| ≤ err) : CloseTo (err + 1 / 2 ^ 53) t (unitF64 q) := by
  obtain ⟨hfin, hval⟩ := F64.val_unitF64 q
  obtain ⟨ht1, ht2⟩ := abs_le.1 ht
  obtain ⟨hq1, hq2⟩ := abs_le.1 hq
  have herr : (0 : ℝ) ≤ err := (abs_nonneg _).trans hq
  have hfloor : ((⌊q * 2 ^ 53⌋ : Int) : ℝ) ≤ q * 2 ^ 53 := by
    have h := (Rat.cast_le (K := ℝ)).2 (Int.floor_le (q * 2 ^ 53))
    rwa [Rat.cast_intCast, Rat.cast_mul, Rat.cast_pow, Rat.cast_ofNat] at h
  have hfloor' : (q : ℝ) * 2 ^ 53 < (⌊q * 2 ^ 53⌋ : Int) + 1 := by
    have h := (Rat.cast_lt (K := ℝ)).2 (Int.lt_floor_add_one (q * 2 ^ 53))
    rwa [Rat.cast_add, Rat.cast_one, Rat.cast_intCast, Rat.cast_mul, Rat.cast_pow, Rat.cast_ofNat] at h
  obtain ⟨hlo, hhi⟩ := clamp_bounds (m := 2 ^ 53) (f := ⌊q * 2 ^ 53⌋) (x := t * 2 ^ 53) (err := err * 2 ^ 53 + 1)
    (by push_cast; linarith) (by push_cast; linarith) (by positivity) (by linarith) (by linarith)
  generalize max (-(2 ^ 53)) (min (2 ^ 53) ⌊q * 2 ^ 53⌋) = c at hval hlo hhi
  refine ⟨hfin, ?_⟩
  rw [hval, abs_le]
  push_cast
  constructor
  · rw [neg_le_sub_iff_le_add, ← sub_le_iff_le_add, le_div_iff₀ (by positivity)]
    linarith
  · rw [sub_le_iff_le_add, div_le_iff₀ (by positivity)]
    linarith

/-- `piApprox` is just below π. -/
theorem piApprox_bounds : (piApprox : ℝ) ≤ Real.pi ∧ Real.pi - piApprox ≤ 1 / 10 ^ 20 := by
  have h : (piApprox : ℝ) = 3.14159265358979323846 := by norm_num [piApprox]
  rw [h]
  exact ⟨Real.pi_gt_d20.le, by have := Real.pi_lt_d20; norm_num at this ⊢; linarith⟩

/-- A magnitude in units of `1 / (U * 2^80)`: whole turns of 2, and a rest whose count of 2^-80 is cut to a whole number. -/
theorem turn_parts (m : Nat) {U : Nat} (hU : 0 < U) :
    ∃ (g : ℝ) (turns : Nat), (m : ℝ) / (U * 2 ^ 80) = g / 2 ^ 80 + 2 * turns ∧ ((m % (U * 2 ^ 81) / U : Nat) : ℝ) ≤ g ∧
      g < (m % (U * 2 ^ 81) / U : Nat) + 1 ∧ m % (U * 2 ^ 81) / U < 2 ^ 81 := by
  have hU' : (0 : ℝ) < U := by exact_mod_cast hU
  have hdm : (m : ℝ) = (m % (U * 2 ^ 81) : Nat) + U * 2 ^ 81 * (m / (U * 2 ^ 81) : Nat) := by
    exact_mod_cast (Nat.mod_add_div m (U * 2 ^ 81)).symm
  refine ⟨(m % (U * 2 ^ 81) : Nat) / U, m / (U * 2 ^ 81), ?_, ?_, ?_, ?_⟩
  · conv_lhs => rw [hdm]
    field_simp
  · rw [le_div_iff₀ hU']
    exact_mod_cast Nat.div_mul_le_self _ _
  · rw [div_lt_iff₀ hU']
    exact_mod_cast (Nat.lt_mul_div_succ (m % (U * 2 ^ 81)) hU).trans_eq (mul_comm _ _)
  · exact Nat.div_lt_of_lt_mul (Nat.mod_lt _ (by positivity))

/-- `piAngle` is within 2^-64 of π|x| less whole turns. -/
theorem piAngle_close (x : F64) :
    0 ≤ piAngle x ∧ (piAngle x : ℝ) ≤ 2 * Real.pi ∧
      ∃ turns : Nat, |Real.pi * |(F64.val x : ℝ)| - turns * (2 * Real.pi) - piAngle x| ≤ 1 / 2 ^ 64 := by
  obtain ⟨hp1, hp2⟩ := piApprox_bounds
  have hpi := Real.pi_lt_d2
  obtain ⟨g, turns, hmag, hf1, hf2, hf3⟩ := turn_parts (F64.mag x) (U := 2 ^ 994) (by positivity)
  have h1075 : 2 ^ 994 * 2 ^ 81 = 2 ^ 1075 := by rw [← pow_add]
  have h1074 : ((2 ^ 994 : Nat) : ℝ) * 2 ^ 80 = 2 ^ 1074 := by rw [Nat.cast_pow, Nat.cast_ofNat, ← pow_add]
  rw [h1075] at hf1 hf2 hf3
  rw [h1074] at hmag
  have hangle : piAngle x = piApprox * (F64.mag x % 2 ^ 1075 / 2 ^ 994 : Nat) / 2 ^ 80 := rfl
  generalize F64.mag x % 2 ^ 1075 / 2 ^ 994 = f at hf1 hf2 hf3 hangle
  have hp0 : 0 ≤ piApprox := by norm_num [piApprox]
  refine ⟨hangle ▸ div_nonneg (mul_nonneg hp0 (Nat.cast_nonneg f)) (pow_nonneg zero_le_two _), ?_⟩
  rw [F64.abs_val, hmag, hangle, Rat.cast_div, Rat.cast_mul, Rat.cast_natCast, Rat.cast_pow, Rat.cast_ofNat]
  have hf4 : (f : ℝ) ≤ 2 ^ 81 := by exact_mod_cast hf3.le
  have hf0 : (0 : ℝ) ≤ f := Nat.cast_nonneg f
  have hcut : Real.pi * (g / 2 ^ 80 + 2 * turns) - turns * (2 * Real.pi) - piApprox * f / 2 ^ 80 =
      (Real.pi * (g - f) + (Real.pi - piApprox) * f) / 2 ^ 80 := by ring
  have h1 : Real.pi * (g - f) ≤ 4 * 1 := mul_le_mul (by linarith) (by linarith) (by linarith) (by norm_num)
  have h2 : (Real.pi - piApprox) * f ≤ 1 / 10 ^ 20 * 2 ^ 81 := mul_le_mul hp2 hf4 hf0 (by norm_num)
  have h3 : 0 ≤ Real.pi * (g - f) := mul_nonneg Real.pi_pos.le (by linarith)
  have h4 : 0 ≤ (Real.pi - piApprox) * f := mul_nonneg (by linarith) hf0
  refine ⟨?_, turns, ?_⟩
  · have h5 : piApprox * f ≤ Real.pi * 2 ^ 81 := mul_le_mul hp1 hf4 hf0 Real.pi_pos.le
    rw [div_le_iff₀ (by positivity)]
    linarith
  · rw [hcut, abs_of_nonneg (div_nonneg (add_nonneg h3 h4) (by positivity)), div_le_iff₀ (by positivity)]
    norm_num at h1 h2 ⊢
    linarith

end Sys2Proof
end

section
/-! PROOFS. TRIG-ACC (00_scope.md R20): the exact values, the approximations, the nearest numbers and the free values are each as
near as any binary64 number has to be. -/

namespace Sys2Proof

/-! ## Multiples of a quarter turn -/

theorem F64.val_constants : F64.val F64.zero = 0 ∧ F64.val F64.one = 1 := by decide +kernel

/-- The sine and cosine of a whole number of quarter turns, by its remainder modulo 4. -/
theorem trig_quarter_turns (k : Nat) :
    Real.sin (Real.pi * (k / 2)) = Real.sin (Real.pi * ((k % 4 : Nat) / 2)) ∧
      Real.cos (Real.pi * (k / 2)) = Real.cos (Real.pi * ((k % 4 : Nat) / 2)) := by
  have hk : (k : ℝ) = (k % 4 : Nat) + 4 * (k / 4 : Nat) := by exact_mod_cast (Nat.mod_add_div k 4).symm
  have hangle : Real.pi * (k / 2) = Real.pi * ((k % 4 : Nat) / 2) + (k / 4 : Nat) * (2 * Real.pi) := by
    rw [hk]
    ring
  rw [hangle, Real.sin_add_nat_mul_two_pi, Real.cos_add_nat_mul_two_pi]
  exact ⟨rfl, rfl⟩

theorem val_trigHalves (k : Nat) :
    (F64.val (sinHalves k) : ℝ) = Real.sin (Real.pi * (k / 2)) ∧ (F64.val (cosHalves k) : ℝ) = Real.cos (Real.pi * (k / 2)) := by
  obtain ⟨hzero, hone⟩ := F64.val_constants
  have hthree : Real.pi * ((3 : Nat) / 2) = Real.pi / 2 + Real.pi := by push_cast; ring
  rw [(trig_quarter_turns k).1, (trig_quarter_turns k).2]
  have h4 := Nat.mod_lt k (show 0 < 4 by norm_num)
  interval_cases h : k % 4
  · rw [sinHalves_of_even (by omega), cosHalves_of_zero h]
    simp [hzero, hone]
  · rw [sinHalves_of_one h, cosHalves_of_odd (by omega)]
    simp [hzero, hone, ← div_eq_mul_inv]
  · rw [sinHalves_of_even (by omega), cosHalves_of_two h]
    simp [hzero, hone]
  · rw [sinHalves_of_three h, cosHalves_of_odd (by omega), hthree, Real.sin_add_pi, Real.cos_add_pi]
    simp [hzero, hone]

theorem isFinite_trigHalves (k : Nat) : F64.isFinite (sinHalves k) = true ∧ F64.isFinite (cosHalves k) = true := by
  have hfin : F64.isFinite F64.zero = true ∧ F64.isFinite F64.one = true ∧ F64.isFinite (F64.neg F64.one) = true := by decide
  obtain ⟨hzero, hone, hneg⟩ := hfin
  rw [sinHalves, cosHalves]
  constructor <;> split_ifs <;> assumption

theorem F64.abs_val_of_halves {x : F64} {k : Nat} (h : F64.halves x = some k) : |(F64.val x : ℝ)| = k / 2 := by
  have hmag : (2 : ℝ) * F64.mag x = k * 2 ^ 1074 := by
    rw [← Nat.cast_ofNat (n := 2), ← Nat.cast_mul, F64.mag_of_halves h, Nat.cast_mul, Nat.cast_pow]
  rw [F64.abs_val, div_eq_div_iff (by positivity) two_ne_zero, ← hmag]
  ring

/-! ## The approximations, within 2^-52 -/

theorem approxTrig_close (x : F64) :
    CloseTo (1 / 2 ^ 52) (Real.sin (Real.pi * |(F64.val x : ℝ)|)) (approxSinPi x) ∧
      CloseTo (1 / 2 ^ 52) (Real.cos (Real.pi * |(F64.val x : ℝ)|)) (approxCosPi x) := by
  obtain ⟨h0, h1, turns, hangle⟩ := piAngle_close x
  obtain ⟨hcos, hsin⟩ := taylor_close_of_angle h0 h1 hangle
  have herr : ((1 / 2 ^ 64 + 1 / 2 ^ 70 : ℚ) : ℝ) = 1 / 2 ^ 64 + 1 / 2 ^ 70 := by norm_num
  have hsum : (1 / 2 ^ 64 + 1 / 2 ^ 70 + 1 / 2 ^ 53 : ℚ) ≤ 1 / 2 ^ 52 := by norm_num
  exact ⟨(unitF64_close (Real.abs_sin_le_one _) (herr ▸ hsin)).mono hsum,
    (unitF64_close (Real.abs_cos_le_one _) (herr ▸ hcos)).mono hsum⟩

theorem trigApproxTol_eq : trigApproxTol = 1 / 2 ^ 52 := by norm_num [trigApproxTol, Rat.mkRat_eq_div]

theorem fallbackSinPi_close (tol : ℚ) (x : F64) :
    CloseIfAny tol (Real.sin (Real.pi * |(F64.val x : ℝ)|)) (fallbackSinPi tol x) := by
  rw [fallbackSinPi, trigApproxTol_eq]
  split
  · next h => exact fun _ => (approxTrig_close x).1.mono h
  · exact closeIfAny_of_nearest tol (nearestSinPi_nearest x)

theorem fallbackCosPi_close (tol : ℚ) (x : F64) :
    CloseIfAny tol (Real.cos (Real.pi * |(F64.val x : ℝ)|)) (fallbackCosPi tol x) := by
  rw [fallbackCosPi, trigApproxTol_eq]
  split
  · next h => exact fun _ => (approxTrig_close x).2.mono h
  · exact closeIfAny_of_nearest tol (nearestCosPi_nearest x)

/-! ## TRIG-ACC -/

theorem F64.val_abs (x : F64) : (F64.val (F64.abs x) : ℝ) = |(F64.val x : ℝ)| := by
  rw [F64.abs_val, F64.val, F64.scaled, F64.sign_abs, F64.mag_abs, if_neg Bool.false_ne_true, Rat.cast_div, Rat.cast_intCast,
    Int.cast_natCast, Rat.cast_pow, Rat.cast_ofNat]

theorem sinPiAbs_close (tol : ℚ) (x : F64) :
    CloseIfAny tol (Real.sin (Real.pi * |(F64.val x : ℝ)|)) (sinPiAbs tol x) := by
  rw [sinPiAbs]
  split
  · next k h =>
    rw [F64.abs_val_of_halves h]
    exact closeIfAny_of_eq tol (isFinite_trigHalves k).1 (val_trigHalves k).1
  · cases Config.sinPiFree tol (F64.abs x) with
    | none => exact fallbackSinPi_close tol x
    | some v =>
      rw [← F64.val_abs]
      exact v.2

theorem numCosPi_close (tol : ℚ) {x : F64} (hx : F64.isFinite x = true) :
    CloseIfAny tol (Real.cos (Real.pi * F64.val x)) (numCosPi tol x) := by
  have hcos : Real.cos (Real.pi * F64.val x) = Real.cos (Real.pi * |(F64.val x : ℝ)|) := by
    rw [← Real.cos_abs, abs_mul, abs_of_pos Real.pi_pos]
  rw [hcos, numCosPi, if_pos hx]
  split
  · next k h =>
    rw [F64.abs_val_of_halves h]
    exact closeIfAny_of_eq tol (isFinite_trigHalves k).2 (val_trigHalves k).2
  · cases Config.cosPiFree tol (F64.abs x) with
    | none => exact fallbackCosPi_close tol x
    | some v =>
      rw [← F64.val_abs]
      exact v.2

/-- The sign of a value moves through the sine. -/
theorem F64.sin_pi_val (x : F64) :
    Real.sin (Real.pi * F64.val x) =
      if F64.sign x then -Real.sin (Real.pi * |(F64.val x : ℝ)|) else Real.sin (Real.pi * |(F64.val x : ℝ)|) := by
  have hval : (F64.val x : ℝ) = if F64.sign x then -|(F64.val x : ℝ)| else |(F64.val x : ℝ)| := by
    rw [F64.abs_val, F64.val, F64.scaled]
    cases F64.sign x <;> simp [neg_div]
  conv_lhs => rw [hval]
  cases F64.sign x
  · rfl
  · rw [if_pos rfl, if_pos rfl, mul_neg, Real.sin_neg]

theorem numSinPi_close (tol : ℚ) {x : F64} (hx : F64.isFinite x = true) :
    CloseIfAny tol (Real.sin (Real.pi * F64.val x)) (numSinPi tol x) := by
  rw [F64.sin_pi_val, numSinPi, if_pos hx]
  split
  · exact (sinPiAbs_close tol x).neg
  · exact sinPiAbs_close tol x

/-- Some binary64 number is within 2^-52 of the sine, and some of the cosine. -/
theorem exists_closeTo_trig {tol : ℚ} (h : 1 / 2 ^ 52 ≤ tol) (x : F64) :
    (∃ w, CloseTo tol (Real.sin (Real.pi * F64.val x)) w) ∧ ∃ w, CloseTo tol (Real.cos (Real.pi * F64.val x)) w := by
  obtain ⟨hsin, hcos⟩ := approxTrig_close x
  constructor
  · rw [F64.sin_pi_val]
    split
    · exact ⟨_, (hsin.mono h).neg⟩
    · exact ⟨_, hsin.mono h⟩
  · rw [← Real.cos_abs, abs_mul, abs_of_pos Real.pi_pos]
    exact ⟨_, hcos.mono h⟩

/-- Settles O45: from 2^-52 on the approximation is a number that is close enough, so the result is. -/
theorem trigAccuracy : Obligations.TrigAccuracy := by
  intro tol x hx
  have hsin := numSinPi_close tol hx
  have hcos := numCosPi_close tol hx
  refine ⟨fun h => ?_, fun z hz h => hsin ⟨z, hz, h⟩, fun z hz h => hcos ⟨z, hz, h⟩⟩
  obtain ⟨hexS, hexC⟩ := exists_closeTo_trig h x
  exact ⟨(hsin hexS).2, (hcos hexC).2⟩

end Sys2Proof
end

section
/-! PROOFS. IDFT-ACC (00_scope.md R21): the rounded sums of approximate twiddle factors, and what is computed where no free sample
stands. -/

namespace Sys2Proof

/-! ## The error of one rounding -/

/-- A rounding moves a quotient by at most 2^-53 of itself, or half of 2^-1074. -/
theorem F64.abs_val_round_sub_le (neg : Bool) {num den : Nat} (hd : 0 < den) (h : ¬ F64.Overflows num den) :
    |F64.val (F64.round neg num den) - signFactor neg * unitQuotient num den| ≤
      unitQuotient num den / 2 ^ 53 + 1 / 2 / 2 ^ 1074 := by
  obtain ⟨-, hb⟩ := F64.roundMag_of_no_overflow hd h
  have hmag := F64.magAt_roundMag hd h
  obtain ⟨hup, hlo⟩ := F64.roundSig_bounds num hd
  have hexp := (F64.roundExp_bounds num hd).2
  rw [F64.round, F64.val_pack neg (by omega), hmag, unitQuotient, ← signFactor]
  generalize F64.roundExp num den = e at hup hlo hexp
  generalize F64.roundSig num den = r at hup hlo
  have hd' : (0 : ℚ) < den := by exact_mod_cast hd
  have hulp : (den : ℚ) * 2 ^ e ≤ den + num / 2 ^ 52 := by
    rcases hexp with rfl | hexp
    · have : (0 : ℚ) ≤ num / 2 ^ 52 := by positivity
      linarith
    · have : (den : ℚ) * 2 ^ e ≤ num / 2 ^ 52 := by
        rw [le_div_iff₀ (by positivity), mul_comm]
        exact_mod_cast hexp
      linarith
  have hdist : |(r * 2 ^ e : Nat) - (num : ℚ) / den| ≤ (num : ℚ) / den / 2 ^ 53 + 1 / 2 := by
    have hup' : 2 * (num : ℚ) ≤ (2 * r + 1) * (den * 2 ^ e) := by exact_mod_cast hup
    have hlo' : 2 * (r : ℚ) * (den * 2 ^ e) ≤ 2 * num + den * 2 ^ e := by exact_mod_cast hlo
    have hs : (num : ℚ) / den * den = num := div_mul_cancel₀ _ hd'.ne'
    generalize (num : ℚ) / den = s at hs
    rw [← mul_le_mul_iff_left₀ hd', ← abs_of_pos hd', ← abs_mul, abs_of_pos hd', abs_le]
    push_cast
    constructor <;> nlinarith
  have hp : (0 : ℚ) < 2 ^ 1074 := by positivity
  generalize (2 : ℚ) ^ 1074 = T at hp
  rw [← mul_sub, abs_mul, abs_signFactor, one_mul, ← sub_div, abs_div, abs_of_pos hp, div_le_iff₀ hp]
  refine hdist.trans (le_of_eq ?_)
  field_simp

/-- The rational `F64.ofRat` rounds. -/
theorem signFactor_mul_ratQuotient (q : ℚ) :
    signFactor (decide (q < 0)) * unitQuotient (q.num.natAbs * 2 ^ 1074) q.den = q := by
  have habs : unitQuotient (q.num.natAbs * 2 ^ 1074) q.den = |q| := by
    rw [unitQuotient, Nat.cast_mul, Nat.cast_pow, Nat.cast_ofNat, mul_div_right_comm, mul_div_cancel_right₀ _ (by positivity),
      Rat.abs_def, Rat.divInt_eq_div, Int.cast_natCast, Int.cast_natCast]
  rw [habs]
  rcases lt_or_ge q 0 with h | h
  · simp [signFactor, h, abs_of_neg h]
  · simp [signFactor, h.not_gt, abs_of_nonneg h]

theorem F64.ofRat_close {q : ℚ} (h : |q| < 2 ^ 1024 - 2 ^ 970) :
    CloseTo (|q| / 2 ^ 53 + 1 / 2 / 2 ^ 1074) q (F64.ofRat q) := by
  have hq := signFactor_mul_ratQuotient q
  have habs : |q| = unitQuotient (q.num.natAbs * 2 ^ 1074) q.den := by
    conv_lhs => rw [← hq, abs_mul, abs_signFactor, one_mul, abs_of_nonneg (unitQuotient_nonneg _ _)]
  rw [habs] at h
  have hno := (unitQuotient_lt_iff _ q.den_pos).1 h
  have herr := F64.abs_val_round_sub_le (decide (q < 0)) q.den_pos hno
  rw [hq, ← habs] at herr
  have hfin := F64.isFinite_pack (decide (q < 0)) (F64.roundMag_of_no_overflow q.den_pos hno).2
  refine ⟨hfin, ?_⟩
  rw [← Rat.cast_sub, ← Rat.cast_abs]
  exact Rat.cast_le.2 herr

/-- A rounded rational near a real of a given size is near it by the bound of IDFT-ACC. -/
theorem ofRat_close_of_near {q : ℚ} {t M : ℝ} (hlo : 1 / 2 ^ 960 ≤ M) (hhi : M ≤ 2 ^ 1001) (ht : |t| ≤ 2 * M)
    (hq : |q - t| ≤ M / 2 ^ 60) :
    F64.isFinite (F64.ofRat q) = true ∧ |(F64.val (F64.ofRat q) : ℝ) - t| ≤ 1 / 2 ^ 40 * M := by
  have hM : 0 < M := lt_of_lt_of_le (by positivity) hlo
  have hq3 : |(q : ℝ)| ≤ 3 * M := by
    have := abs_sub_abs_le_abs_sub (q : ℝ) t
    linarith
  have hlt : |q| < 2 ^ 1024 - 2 ^ 970 := by
    have htop : (3 : ℝ) * 2 ^ 1001 < 2 ^ 1024 - 2 ^ 970 := by
      have h970 : (2 : ℝ) ^ 970 ≤ 2 ^ 1001 := pow_le_pow_right₀ one_le_two (by norm_num)
      have h1001 : (0 : ℝ) < 2 ^ 1001 := by positivity
      rw [show 1024 = 1001 + 23 by norm_num, pow_add]
      generalize (2 : ℝ) ^ 1001 = u, (2 : ℝ) ^ 970 = v at h970 h1001 ⊢
      linarith
    rw [← Rat.cast_lt (K := ℝ), Rat.cast_abs, Rat.cast_sub, Rat.cast_pow, Rat.cast_pow, Rat.cast_ofNat]
    exact (hq3.trans (mul_le_mul_of_nonneg_left hhi (by norm_num))).trans_lt htop
  have hsub : (1 : ℝ) / 2 / 2 ^ 1074 ≤ M / 2 ^ 115 := by
    have hsplit : (1 : ℝ) / 2 / 2 ^ 1074 = 1 / 2 ^ 960 / 2 ^ 115 := by
      rw [div_div, div_div, ← pow_succ', ← pow_add]
    rw [hsplit]
    exact div_le_div_of_nonneg_right hlo (by positivity)
  obtain ⟨hfin, hclose⟩ := F64.ofRat_close hlt
  rw [Rat.cast_add, Rat.cast_div, Rat.cast_abs, Rat.cast_div, Rat.cast_div, Rat.cast_one, Rat.cast_pow, Rat.cast_pow,
    Rat.cast_ofNat] at hclose
  refine ⟨hfin, (abs_sub_le _ (q : ℝ) _).trans ?_⟩
  generalize (1 : ℝ) / 2 / 2 ^ 1074 = half at hsub hclose
  linarith

/-! ## The twiddle factors -/

/-- A twiddle factor's angle, less whole turns, is within 2^-64 of `dftAngle`, which lies in a turn. -/
theorem dftAngle_close {N : Nat} (hN : 0 < N) (k n : Nat) :
    0 ≤ dftAngle N k n ∧ (dftAngle N k n : ℝ) ≤ 2 * Real.pi ∧
      |2 * Real.pi * k * n / N - (k * n / N : Nat) * (2 * Real.pi) - dftAngle N k n| ≤ 1 / 2 ^ 64 := by
  obtain ⟨hp1, hp2⟩ := piApprox_bounds
  have hN' : (0 : ℝ) < N := by exact_mod_cast hN
  have hdm : (k : ℝ) * n = (k * n % N : Nat) + N * (k * n / N : Nat) := by exact_mod_cast (Nat.mod_add_div (k * n) N).symm
  have hreduce : 2 * Real.pi * k * n / N - (k * n / N : Nat) * (2 * Real.pi) = Real.pi * (2 * ((k * n % N : Nat) / N)) := by
    rw [mul_assoc, hdm]
    field_simp
    ring
  have hangle : (dftAngle N k n : ℝ) = piApprox * (2 * ((k * n % N : Nat) / N)) := by
    rw [dftAngle]
    push_cast
    ring
  have hpart : ((k * n % N : Nat) : ℝ) / N ≤ 1 := by
    rw [div_le_one hN']
    exact_mod_cast (Nat.mod_lt _ hN).le
  have hpart0 : 0 ≤ ((k * n % N : Nat) : ℝ) / N := by positivity
  rw [hreduce, hangle]
  generalize ((k * n % N : Nat) : ℝ) / N = g at hpart hpart0
  refine ⟨by unfold dftAngle piApprox; positivity, ?_, ?_⟩
  · have := mul_le_mul hp1 hpart hpart0 Real.pi_pos.le
    linarith
  · rw [← sub_mul, abs_of_nonneg (mul_nonneg (by linarith) (by linarith))]
    have := mul_le_mul hp2 hpart hpart0 (by norm_num)
    norm_num at this ⊢
    linarith

theorem twiddle_close {N : Nat} (hN : 0 < N) (k n : Nat) :
    |Real.cos (2 * Real.pi * k * n / N) - (cosPoly taylorTerms (dftAngle N k n) : ℝ)| ≤ 1 / 2 ^ 64 + 1 / 2 ^ 70 ∧
      |Real.sin (2 * Real.pi * k * n / N) - (sinPoly taylorTerms (dftAngle N k n) : ℝ)| ≤ 1 / 2 ^ 64 + 1 / 2 ^ 70 := by
  obtain ⟨h0, h1, hangle⟩ := dftAngle_close hN k n
  exact taylor_close_of_angle h0 h1 hangle

/-- A mean of products with approximate factors: how near it is, and how large the exact one can be. -/
theorem mean_close {N : Nat} (hN : 0 < N) {a b C S c s : Nat → ℝ} {M err : ℝ} (ha : ∀ k, |a k| ≤ M) (hb : ∀ k, |b k| ≤ M)
    (hC : ∀ k, |C k| ≤ 1) (hS : ∀ k, |S k| ≤ 1) (hc : ∀ k, |C k - c k| ≤ err) (hs : ∀ k, |S k - s k| ≤ err) :
    |(∑ k ∈ Finset.range N, (a k * C k + b k * S k)) / N| ≤ 2 * M ∧
      |(∑ k ∈ Finset.range N, (a k * c k + b k * s k)) / N - (∑ k ∈ Finset.range N, (a k * C k + b k * S k)) / N| ≤
        2 * M * err := by
  have hN' : (0 : ℝ) < N := by exact_mod_cast hN
  have hmean : ∀ {f : Nat → ℝ} {B : ℝ}, (∀ k, |f k| ≤ B) → |(∑ k ∈ Finset.range N, f k) / N| ≤ B := by
    intro f B hf
    rw [abs_div, abs_of_pos hN', div_le_iff₀ hN', mul_comm]
    calc |∑ k ∈ Finset.range N, f k| ≤ ∑ k ∈ Finset.range N, |f k| := Finset.abs_sum_le_sum_abs _ _
      _ ≤ ∑ _k ∈ Finset.range N, B := Finset.sum_le_sum fun k _ => hf k
      _ = N * B := by rw [Finset.sum_const, Finset.card_range, nsmul_eq_mul]
  have hprod : ∀ {x y X Y : ℝ}, |x| ≤ X → |y| ≤ Y → |x * y| ≤ X * Y := fun hx hy => by
    rw [abs_mul]
    exact mul_le_mul hx hy (abs_nonneg _) ((abs_nonneg _).trans hx)
  constructor
  · refine hmean fun k => (abs_add_le _ _).trans ?_
    have := hprod (ha k) (hC k)
    have := hprod (hb k) (hS k)
    linarith
  · rw [← sub_div, ← Finset.sum_sub_distrib]
    refine hmean fun k => ?_
    have hsplit : a k * c k + b k * s k - (a k * C k + b k * S k) = a k * (c k - C k) + b k * (s k - S k) := by ring
    rw [hsplit]
    refine (abs_add_le _ _).trans ?_
    have := hprod (ha k) ((abs_sub_comm _ _).trans_le (hc k))
    have := hprod (hb k) ((abs_sub_comm _ _).trans_le (hs k))
    linarith

/-! ## The greatest modulus -/

theorem maxModulus_nonneg (X : List Sample) : 0 ≤ Config.maxModulus X := by
  induction X with
  | nil => exact le_rfl
  | cons z X ih => exact le_max_of_le_right ih

theorem modulus_le_maxModulus {X : List Sample} {z : Sample} (hz : z ∈ X) :
    Real.sqrt ((F64.val z.re : ℝ) ^ 2 + (F64.val z.im : ℝ) ^ 2) ≤ Config.maxModulus X := by
  induction X with
  | nil => exact absurd hz List.not_mem_nil
  | cons y X ih =>
    rcases List.mem_cons.1 hz with rfl | hz
    · exact le_max_left _ _
    · exact le_max_of_le_right (ih hz)

/-- Sample `k`, or a zero past the end. -/
theorem getD_mem_or_zero (X : List Sample) (k : Nat) :
    X.getD k ⟨F64.zero, F64.zero⟩ ∈ X ∨ X.getD k ⟨F64.zero, F64.zero⟩ = ⟨F64.zero, F64.zero⟩ := by
  rw [List.getD_eq_getElem?_getD]
  cases h : X[k]? with
  | none => exact .inr rfl
  | some z => exact .inl (List.mem_of_getElem? h)

theorem abs_component_le (X : List Sample) (k : Nat) :
    |(F64.val (X.getD k ⟨F64.zero, F64.zero⟩).re : ℝ)| ≤ Config.maxModulus X ∧
      |(F64.val (X.getD k ⟨F64.zero, F64.zero⟩).im : ℝ)| ≤ Config.maxModulus X := by
  rcases getD_mem_or_zero X k with h | h
  · have hle := modulus_le_maxModulus h
    exact ⟨(Real.abs_le_sqrt (le_add_of_nonneg_right (sq_nonneg _))).trans hle,
      (Real.abs_le_sqrt (le_add_of_nonneg_left (sq_nonneg _))).trans hle⟩
  · rw [h, F64.val_constants.1, Rat.cast_zero, abs_zero]
    exact ⟨maxModulus_nonneg X, maxModulus_nonneg X⟩

/-- The greatest component of a list, by its head. -/
theorem maxMag_cons (z : Sample) (X : List Sample) :
    (maxMag (z :: X) : ℝ) / 2 ^ 1074 = max (max |(F64.val z.re : ℝ)| |(F64.val z.im : ℝ)|) ((maxMag X : ℝ) / 2 ^ 1074) := by
  have hcons : maxMag (z :: X) = max (max (F64.mag z.re) (F64.mag z.im)) (maxMag X) := rfl
  have hp : (0 : ℝ) ≤ 2 ^ 1074 := by positivity
  rw [hcons, Nat.cast_max, Nat.cast_max, ← max_div_div_right hp, ← max_div_div_right hp, F64.abs_val, F64.abs_val]

/-- The greatest modulus lies between the greatest component and its double. -/
theorem maxModulus_bounds (X : List Sample) :
    (maxMag X : ℝ) / 2 ^ 1074 ≤ Config.maxModulus X ∧ Config.maxModulus X ≤ 2 * ((maxMag X : ℝ) / 2 ^ 1074) := by
  induction X with
  | nil => simp [maxMag, Config.maxModulus]
  | cons z X ih =>
    have hcons : Config.maxModulus (z :: X) =
        max (Real.sqrt ((F64.val z.re : ℝ) ^ 2 + (F64.val z.im : ℝ) ^ 2)) (Config.maxModulus X) := rfl
    rw [maxMag_cons, hcons]
    generalize (F64.val z.re : ℝ) = x, (F64.val z.im : ℝ) = y
    have hx : |x| ≤ Real.sqrt (x ^ 2 + y ^ 2) := Real.abs_le_sqrt (le_add_of_nonneg_right (sq_nonneg _))
    have hy : |y| ≤ Real.sqrt (x ^ 2 + y ^ 2) := Real.abs_le_sqrt (le_add_of_nonneg_left (sq_nonneg _))
    have hsum : Real.sqrt (x ^ 2 + y ^ 2) ≤ |x| + |y| := by
      refine Real.sqrt_le_iff.2 ⟨by positivity, ?_⟩
      rw [add_sq, sq_abs, sq_abs]
      have : 0 ≤ 2 * |x| * |y| := by positivity
      linarith
    refine ⟨max_le_max (max_le hx hy) ih.1, max_le ?_ ?_⟩
    · have h1 := (le_max_left |x| |y|).trans (le_max_left (max |x| |y|) ((maxMag X : ℝ) / 2 ^ 1074))
      have h2 := (le_max_right |x| |y|).trans (le_max_left (max |x| |y|) ((maxMag X : ℝ) / 2 ^ 1074))
      linarith
    · exact ih.2.trans (mul_le_mul_of_nonneg_left (le_max_right _ _) zero_le_two)

/-! ## The computed sample -/

/-- The rational that `approxIdft` rounds for the component whose terms are `a` times the cosine and `b` times the sine. -/
def approxSum (N n : Nat) (a b : Nat → ℚ) : ℚ :=
  (∑ k ∈ Finset.range N, (a k * cosPoly taylorTerms (dftAngle N k n) + b k * sinPoly taylorTerms (dftAngle N k n))) / N

theorem approxIdft_eq (N : Nat) (X : List Sample) (n : Nat) :
    approxIdft N X n =
      ⟨F64.ofRat (approxSum N n (fun k => F64.val (X.getD k ⟨F64.zero, F64.zero⟩).re)
          fun k => -F64.val (X.getD k ⟨F64.zero, F64.zero⟩).im),
        F64.ofRat (approxSum N n (fun k => F64.val (X.getD k ⟨F64.zero, F64.zero⟩).im)
          fun k => F64.val (X.getD k ⟨F64.zero, F64.zero⟩).re)⟩ := by
  simp only [approxIdft, approxSum, foldl_range_add, neg_mul, ← sub_eq_add_neg, add_comm]

/-- A rounded component is within 2^-40 of the greatest modulus of its exact value. -/
theorem ofRat_approxSum_close {N : Nat} (hN : 0 < N) (n : Nat) {a b : Nat → ℚ} {M : ℝ} (ha : ∀ k, |(a k : ℝ)| ≤ M)
    (hb : ∀ k, |(b k : ℝ)| ≤ M) (hlo : 1 / 2 ^ 960 ≤ M) (hhi : M ≤ 2 ^ 1001) :
    F64.isFinite (F64.ofRat (approxSum N n a b)) = true ∧
      |(F64.val (F64.ofRat (approxSum N n a b)) : ℝ) - (∑ k ∈ Finset.range N, ((a k : ℝ) * Real.cos (2 * Real.pi * k * n / N) +
        b k * Real.sin (2 * Real.pi * k * n / N))) / N| ≤ 1 / 2 ^ 40 * M := by
  obtain ⟨hsize, hnear⟩ := mean_close hN ha hb (C := fun k => Real.cos (2 * Real.pi * k * n / N))
    (S := fun k => Real.sin (2 * Real.pi * k * n / N)) (fun k => Real.abs_cos_le_one _) (fun k => Real.abs_sin_le_one _)
    (fun k => (twiddle_close hN k n).1) (fun k => (twiddle_close hN k n).2)
  refine ofRat_close_of_near hlo hhi hsize ?_
  rw [approxSum]
  push_cast
  refine hnear.trans ?_
  have hM : 0 ≤ M := (abs_nonneg _).trans (ha 0)
  linarith

theorem approxIdft_close {N : Nat} (hN : 0 < N) {X : List Sample} (n : Nat) {tol : ℚ} (htol : 1 / 2 ^ 40 ≤ tol)
    (hlo : 1 / 2 ^ 960 ≤ Config.maxModulus X) (hhi : Config.maxModulus X ≤ 2 ^ 1001) :
    Config.IdftClose tol N X n (approxIdft N X n) := by
  have hbound : 1 / 2 ^ 40 * Config.maxModulus X ≤ tol * Config.maxModulus X := by
    have h := (Rat.cast_le (K := ℝ)).2 htol
    rw [Rat.cast_div, Rat.cast_one, Rat.cast_pow, Rat.cast_ofNat] at h
    exact mul_le_mul_of_nonneg_right h (maxModulus_nonneg X)
  have hre := fun k => (abs_component_le X k).1
  have him := fun k => (abs_component_le X k).2
  obtain ⟨hfinR, hcloseR⟩ := ofRat_approxSum_close hN n hre
    (b := fun k => -F64.val (X.getD k ⟨F64.zero, F64.zero⟩).im) (fun k => by rw [Rat.cast_neg, abs_neg]; exact him k) hlo hhi
  obtain ⟨hfinI, hcloseI⟩ := ofRat_approxSum_close hN n him hre hlo hhi
  rw [approxIdft_eq]
  refine ⟨hfinR, hfinI, le_trans (le_of_eq ?_) (hcloseR.trans hbound), le_trans (le_of_eq ?_) (hcloseI.trans hbound)⟩
  · simp only [Config.idealRe, Config.sumSamples, Rat.cast_neg, neg_mul, ← sub_eq_add_neg]
  · simp only [Config.idealIm, Config.sumSamples, add_comm]

/-! ## IDFT-ACC -/

theorem fallbackIdft_acc (tol : ℚ) (j : Nat) (X : List Sample) (n : Nat) :
    Config.IdftAcc tol (2 ^ j) X n (fallbackIdft tol (2 ^ j) X n) := by
  intro hfin hex
  obtain ⟨w, hwR, hwI, hR, hI⟩ := hex
  rw [fallbackIdft]
  split
  · next hfits =>
    simp only [idftApproxFits, hfin, Bool.not_true, Bool.false_or, Bool.and_eq_true, decide_eq_true_eq] at hfits
    obtain ⟨⟨htol, hlo⟩, hhi⟩ := hfits
    obtain ⟨hM1, hM2⟩ := maxModulus_bounds X
    refine approxIdft_close (Nat.two_pow_pos j) n ?_ (le_trans ?_ hM1) (hM2.trans ?_)
    · rwa [Rat.mkRat_eq_div] at htol
    · have h : (2 : ℝ) ^ 114 ≤ maxMag X := by exact_mod_cast hlo
      rw [div_le_div_iff₀ (by positivity) (by positivity), one_mul, show 1074 = 114 + 960 by norm_num, pow_add]
      exact mul_le_mul_of_nonneg_right h (by positivity)
    · have h : (maxMag X : ℝ) ≤ 2 ^ 1000 * 2 ^ 1074 := by
        have hcast := (Nat.cast_le (α := ℝ)).2 hhi
        rwa [Nat.cast_pow, Nat.cast_ofNat, show 2074 = 1000 + 1074 by norm_num, pow_add] at hcast
      have h' := div_le_of_le_mul₀ (by positivity) (by positivity) h
      exact (mul_le_mul_of_nonneg_left h' zero_le_two).trans_eq (pow_succ' 2 1000).symm
  · obtain ⟨⟨hfinR, hcloseR⟩, -⟩ := nearestIdft_nearest j X n w.re hwR
    obtain ⟨-, hfinI, hcloseI⟩ := nearestIdft_nearest j X n w.im hwI
    exact ⟨hfinR, hfinI, hcloseR.trans hR, hcloseI.trans hI⟩

/-- The ideal of zeros is zero. -/
theorem ideal_of_allZero {X : List Sample} (h : allZero X = true) (N n : Nat) :
    Config.idealRe N X n = 0 ∧ Config.idealIm N X n = 0 := by
  have hval : ∀ k, F64.val (X.getD k ⟨F64.zero, F64.zero⟩).re = 0 ∧ F64.val (X.getD k ⟨F64.zero, F64.zero⟩).im = 0 := by
    intro k
    rcases getD_mem_or_zero X k with hk | hk
    · obtain ⟨hre, him⟩ := (allZero_iff X).1 h _ hk
      exact ⟨(F64.val_eq_zero_iff_isZero _).2 hre, (F64.val_eq_zero_iff_isZero _).2 him⟩
    · rw [hk]
      exact ⟨F64.val_constants.1, F64.val_constants.1⟩
  simp only [Config.idealRe, Config.idealIm, Config.sumSamples, hval, Rat.cast_zero, zero_mul, sub_zero, add_zero,
    Finset.sum_const_zero, zero_div, and_self]

/-- Exact components are as near as any sample has to be. -/
theorem idftAcc_of_eq {tol : ℚ} {N n : Nat} {X : List Sample} {z : Sample} (hre : F64.isFinite z.re = true)
    (him : F64.isFinite z.im = true) (hR : (F64.val z.re : ℝ) = Config.idealRe N X n)
    (hI : (F64.val z.im : ℝ) = Config.idealIm N X n) : Config.IdftAcc tol N X n z := by
  rintro - ⟨w, -, -, hclose, -⟩
  have hbound := (abs_nonneg _).trans hclose
  exact ⟨hre, him, by rwa [hR, sub_self, abs_zero], by rwa [hI, sub_self, abs_zero]⟩

theorem idftSample_acc (tol : ℚ) (j : Nat) (X : List Sample) (n : Nat) :
    Config.IdftAcc tol (2 ^ j) X n (idftSample tol (2 ^ j) X n) := by
  rw [idftSample]
  split
  · next hzero =>
    obtain ⟨hR, hI⟩ := ideal_of_allZero hzero (2 ^ j) n
    exact idftAcc_of_eq (F64.isFinite_pack _ (by norm_num)) (F64.isFinite_pack _ (by norm_num)) (by simp [hR]) (by simp [hI])
  · cases Config.idftFree tol (2 ^ j) X n with
    | none => exact fallbackIdft_acc tol j X n
    | some v => exact v.2

/-- For N = 1 the sample is its own transform. -/
theorem ideal_one (z : Sample) :
    Config.idealRe 1 [z] 0 = F64.val z.re ∧ Config.idealIm 1 [z] 0 = F64.val z.im := by
  simp [Config.idealRe, Config.idealIm, Config.sumSamples]

theorem numIdft_acc (tol : ℚ) {j : Nat} {X : List Sample} {n : Nat} (hlen : X.length = 2 ^ j) (hn : n < 2 ^ j)
    (hfin : allFinite X = true) : ∃ z, (numIdft tol (2 ^ j) X)[n]? = some z ∧ Config.IdftAcc tol (2 ^ j) X n z := by
  by_cases hN : 2 ^ j = 1
  · rw [hN] at hlen hn ⊢
    obtain ⟨z, rfl⟩ := List.length_eq_one_iff.1 hlen
    obtain rfl : n = 0 := by omega
    obtain ⟨hR, hI⟩ := ideal_one z
    simp only [allFinite, List.all_cons, List.all_nil, Bool.and_true, Bool.and_eq_true] at hfin
    exact ⟨z, rfl, idftAcc_of_eq hfin.1 hfin.2 hR.symm hI.symm⟩
  · refine ⟨idftSample tol (2 ^ j) X n, ?_, idftSample_acc tol j X n⟩
    rw [numIdft_of_ne_one tol hN, List.getElem?_map, List.getElem?_range hn]
    rfl

/-- Settles O46: in the range stated the rounded sum is a sample that is close enough, so the result is. -/
theorem idftAccuracy : Obligations.IdftAccuracy := by
  intro tol j X n hlen hn hfin
  obtain ⟨z, hz, hacc⟩ := numIdft_acc tol hlen hn hfin
  refine ⟨z, hz, fun htol hlo hhi => ?_, fun w hw => hacc hfin ⟨w, hw⟩⟩
  have hhi' := hhi.trans (pow_le_pow_right₀ one_le_two (show 1000 ≤ 1001 by norm_num))
  obtain ⟨-, -, hR, hI⟩ := hacc hfin ⟨_, approxIdft_close (Nat.two_pow_pos j) n htol hlo hhi'⟩
  exact ⟨hR, hI⟩

end Sys2Proof
end

section
/-! PROOFS. The register window (10_state.md R31 to R55): which register each offset holds, what a read or a write of a
register gives, and the accesses that are refused. -/

namespace Sys2Proof.Machine

/-! ## Offsets -/

/-- Each register stands at one offset of the map, and each offset holds at most one register. -/
theorem regAt_eq_some_iff {off : Nat} {r : Reg} : regAt off = some r ↔ off = regOffset r := by
  constructor
  · intro h
    obtain ⟨e, hfind, rfl⟩ := Option.map_eq_some_iff.1 h
    have hoff : e.1 = off := by simpa using List.find?_some hfind
    have hmap : ∀ e ∈ regMap, e.1 = regOffset e.2 := by decide
    exact hoff ▸ hmap e (List.mem_of_find?_eq_some hfind)
  · rintro rfl
    cases r <;> rfl

theorem regAt_regOffset (r : Reg) : regAt (regOffset r) = some r := regAt_eq_some_iff.2 rfl

theorem regOffset_ok (r : Reg) : regAccessOk (regOffset r) 4 = true := by cases r <;> rfl

theorem regAccessOk_iff (off n : Nat) : regAccessOk off n = true ↔ n = 4 ∧ off % 4 = 0 ∧ off < 256 := by
  simp only [regAccessOk, Bool.and_eq_true, decide_eq_true_eq, and_assoc]
  rfl

/-! ## Accesses -/

theorem State.regAccess_read_of_refused {off n : Nat} (h : regAccessOk off n = false) (s : State) :
    s.regAccess (.read off n) = .refused (.registerAccess off n) := by simp [State.regAccess, h]

theorem State.regAccess_write_of_refused {off n : Nat} (h : regAccessOk off n = false) (s : State) (w : Word) :
    s.regAccess (.write off n w) = .refused (.registerAccess off n) := by simp [State.regAccess, h]

theorem State.regAccess_write_of_ok {off n : Nat} (h : regAccessOk off n = true) (s : State) (w : Word) :
    s.regAccess (.write off n w) = .next (s.writeWindow off w) := by simp [State.regAccess, h]

theorem State.memAccess_of_refused {s : State} {m : MemAccess}
    (h : memAccessOk s.params.memBytes m.span.1 m.span.2 = false) :
    s.memAccess m = .refused (.memoryAccess m.span.1 m.span.2) := by simp [State.memAccess, h]

@[simp] theorem State.readWindow_regOffset (s : State) (r : Reg) : s.readWindow (regOffset r) = s.readReg r := by
  rw [State.readWindow, regAt_regOffset]

theorem State.readWindow_of_none {off : Nat} (h : regAt off = none) (s : State) : s.readWindow off = 0 := by
  rw [State.readWindow, h]

theorem State.writeWindow_of_none {off : Nat} (h : regAt off = none) (s : State) (w : Word) :
    s.writeWindow off w = s := by rw [State.writeWindow, h]

theorem State.writeWindow_regOffset {r : Reg} (h : r ≠ .ctrl) (s : State) (w : Word) :
    s.writeWindow (regOffset r) w = s.writeReg r w := by
  rw [State.writeWindow, regAt_regOffset]
  cases r with
  | ctrl => exact absurd rfl h
  | _ => rfl

/-- A read of a register gives its word to the host and changes nothing else (R31, R33). -/
theorem State.regAccess_readReg (s : State) (r : Reg) :
    s.regAccess (.read (regOffset r) 4) = .next { s with replies := s.replies ++ [(s.readReg r).setWidth 64] } := by
  simp [State.regAccess, regOffset_ok]

/-- A write of a register other than CTRL is `State.writeReg` (R34). -/
theorem State.regAccess_writeReg {r : Reg} (h : r ≠ .ctrl) (s : State) (w : Word) :
    s.regAccess (.write (regOffset r) 4 w) = .next (s.writeReg r w) := by
  rw [State.regAccess_write_of_ok (regOffset_ok r), State.writeWindow_regOffset h]

theorem State.regAccess_writeCtrl (s : State) (w : Word) :
    s.regAccess (.write 0x008 4 w) = .next (s.writeCtrl w) := State.regAccess_write_of_ok (regOffset_ok .ctrl) s w

/-- Settles O59: what is refused is the complement of what the two access checks admit. -/
theorem malformedAccessesAreRefused : Obligations.MalformedAccessesAreRefused := by
  intro s off n w v
  constructor
  · intro h
    have hbad : regAccessOk off n = false := by
      rw [Bool.eq_false_iff, Ne, regAccessOk_iff]
      omega
    exact ⟨State.regAccess_read_of_refused hbad s, State.regAccess_write_of_refused hbad s w⟩
  · intro h
    have hbad : memAccessOk s.params.memBytes off n = false := by
      rw [Bool.eq_false_iff, Ne, memAccessOk, Bool.and_eq_true, Bool.and_eq_true, List.contains_iff_mem,
        decide_eq_true_eq, decide_eq_true_eq]
      rintro ⟨⟨hwidth, halign⟩, hbound⟩
      rcases h with h | h | h
      · exact h hwidth
      · exact h halign
      · omega
    exact ⟨State.memAccess_of_refused hbad, State.memAccess_of_refused hbad⟩

/-! ## Which registers a write reaches -/

/-- CMD and the operand registers, which take the word written (R52 to R54). -/
def Reg.isOperand : Reg → Bool
  | .cmd | .argSrc | .argDst | .argCount | .argAux | .argP0 | .argP1 | .argP2
  | .argF0Lo | .argF0Hi | .argF1Lo | .argF1Hi | .argF2Lo | .argF2Hi => true
  | .id | .version | .ctrl | .status | .errIdx | .outLen | .clampCnt
  | .resF0Lo | .resF0Hi | .resF1Lo | .resF1Hi | .memSize | .caps => false

/-- The offsets of CMD and the operand registers (R33). -/
def operandOffsets : List Nat :=
  [0x010, 0x020, 0x024, 0x028, 0x02C, 0x030, 0x034, 0x038, 0x040, 0x044, 0x048, 0x04C, 0x050, 0x054]

theorem mem_operandOffsets_iff (off : Nat) :
    off ∈ operandOffsets ↔ ∃ r : Reg, r.isOperand = true ∧ off = regOffset r := by
  constructor
  · intro h
    have hmap : ∀ o ∈ operandOffsets, ∃ e ∈ regMap, e.2.isOperand = true ∧ o = regOffset e.2 := by decide
    obtain ⟨e, -, hop, hoff⟩ := hmap off h
    exact ⟨e.2, hop, hoff⟩
  · rintro ⟨r, hop, rfl⟩
    cases r <;> cases hop <;> decide

/-- The result of a write of CMD or an operand register (R297): no other part of the state changes. -/
theorem State.writeReg_of_isOperand {r : Reg} (h : r.isOperand = true) (s : State) (w : Word) :
    s.writeReg r w = { s with cmd := (s.writeReg r w).cmd, args := (s.writeReg r w).args } := by
  cases r <;> cases h <;> rfl

theorem State.readReg_writeReg_self {r : Reg} (h : r.isOperand = true) (s : State) (w : Word) :
    (s.writeReg r w).readReg r = w := by
  cases r <;> cases h <;> rfl

/-- A write of one register leaves what every other register reads: the registers of the map share no storage. -/
theorem State.readReg_writeReg_ne {q r : Reg} (h : q ≠ r) (s : State) (w : Word) :
    (s.writeReg r w).readReg q = s.readReg q := by
  cases r <;> cases q <;> first | rfl | exact absurd rfl h

/-- Only STATUS, CMD and the operand registers do something with a write, CTRL apart (R34). -/
theorem State.writeReg_of_readOnly {r : Reg} (h : r.isOperand = false) (hst : r ≠ .status) (s : State) (w : Word) :
    s.writeReg r w = s := by
  cases r with
  | status => exact absurd rfl hst
  | _ => cases h <;> rfl

/-- What the other offsets read after a write of a register. -/
theorem State.readWindow_writeReg_ne {off : Nat} {r : Reg} (h : off ≠ regOffset r) (s : State) (w : Word) :
    (s.writeReg r w).readWindow off = s.readWindow off := by
  cases hat : regAt off with
  | none => rw [State.readWindow_of_none hat, State.readWindow_of_none hat]
  | some q =>
    obtain rfl := regAt_eq_some_iff.1 hat
    have hqr : q ≠ r := fun e => h (congrArg regOffset e)
    rw [State.readWindow_regOffset, State.readWindow_regOffset, State.readReg_writeReg_ne hqr]

/-- Settles O52: each offset is that of its register, and a write of a register reaches no other. -/
theorem operandRegistersHoldWhatIsWritten : Obligations.OperandRegistersHoldWhatIsWritten := by
  refine ⟨fun s w => ?_, fun s => ⟨rfl, rfl⟩, fun s off w hoff => ?_⟩
  · have hw : ∀ r : Reg, r ≠ .ctrl → s.regAccess (.write (regOffset r) 4 w) = .next (s.writeReg r w) :=
      fun r hr => State.regAccess_writeReg hr s w
    exact ⟨hw .cmd (by decide), hw .argSrc (by decide), hw .argDst (by decide), hw .argCount (by decide),
      hw .argAux (by decide), hw .argP0 (by decide), hw .argP1 (by decide), hw .argP2 (by decide),
      hw .argF0Lo (by decide), hw .argF0Hi (by decide), hw .argF1Lo (by decide), hw .argF1Hi (by decide),
      hw .argF2Lo (by decide), hw .argF2Hi (by decide)⟩
  · obtain ⟨r, hop, rfl⟩ := (mem_operandOffsets_iff off).1 hoff
    have hctrl : r ≠ .ctrl := by rintro rfl; cases hop
    refine ⟨s.writeReg r w, State.regAccess_writeReg hctrl s w, ?_,
      fun other h => State.readWindow_writeReg_ne h s w, ?_⟩
    · rw [State.readWindow_regOffset, State.readReg_writeReg_self hop]
    · rw [State.writeReg_of_isOperand hop]
      exact ⟨rfl, rfl, rfl, rfl, rfl, rfl, rfl, rfl, rfl, rfl⟩

/-! ## CTRL -/

theorem State.writeCtrl_of_srst {w : Word} (h : w.getLsbD 1 = true) (s : State) : s.writeCtrl w = s.softReset := by
  simp [State.writeCtrl, h]

theorem State.writeCtrl_of_no_start {w : Word} (h0 : w.getLsbD 0 = false) (h1 : w.getLsbD 1 = false) (s : State) :
    s.writeCtrl w = { s with irqEn := w.getLsbD 2 } := by
  rw [State.writeCtrl, h0, h1, if_neg Bool.false_ne_true, if_neg Bool.false_ne_true]

/-- A write of CTRL reads bits 0 to 2 of the word alone (R38). -/
theorem State.writeCtrl_congr {w v : Word} (h : ∀ i < 3, w.getLsbD i = v.getLsbD i) (s : State) :
    s.writeCtrl w = s.writeCtrl v := by
  rw [State.writeCtrl, State.writeCtrl, h 0 (by decide), h 1 (by decide), h 2 (by decide)]

/-- Settles O55, by the branches of a CTRL write. -/
theorem controlBitsReadZero : Obligations.ControlBitsReadZero := by
  intro s w
  refine ⟨?_, fun h0 h1 => ?_, fun h1 => ?_⟩
  · have hread : s.readWindow 0x008 = ctrlWord s.irqEn := s.readWindow_regOffset .ctrl
    rw [hread]
    cases s.irqEn <;> rfl
  · rw [State.regAccess_writeCtrl, State.writeCtrl_of_no_start h0 h1]
  · rw [State.regAccess_writeCtrl, State.regAccess_writeCtrl, State.writeCtrl_of_srst h1,
      State.writeCtrl_of_srst (w := 0x00000002) rfl]

/-! ## STATUS -/

/-- A write of STATUS reads bits 1 to 3 of the word alone (R42). -/
theorem Status.w1c_congr {w v : Word} (h : ∀ i, 1 ≤ i → i < 4 → w.getLsbD i = v.getLsbD i) (st : Status) :
    st.w1c w = st.w1c v := by
  rw [Status.w1c, Status.w1c, h 1 (by decide) (by decide), h 2 (by decide) (by decide), h 3 (by decide) (by decide)]

/-- Settles O53: a write passes over what `writeReg` and `writeCtrl` do not read. -/
theorem readOnlyWritesChangeNothing : Obligations.ReadOnlyWritesChangeNothing := by
  have hmask : ∀ {w m : Word} {i : Nat}, m.getLsbD i = true → w.getLsbD i = (w &&& m).getLsbD i := fun h => by
    rw [BitVec.getLsbD_and, h, Bool.and_true]
  refine ⟨fun s off w halign hlt hoff => ?_, fun s w => ?_, fun s w => ?_⟩
  · rw [State.regAccess_write_of_ok ((regAccessOk_iff off 4).2 ⟨rfl, halign, hlt⟩)]
    cases hat : regAt off with
    | none => rw [State.writeWindow_of_none hat]
    | some r =>
      obtain rfl := regAt_eq_some_iff.1 hat
      have hctrl : r ≠ .ctrl := by rintro rfl; exact hoff (by decide)
      have hstatus : r ≠ .status := by rintro rfl; exact hoff (by decide)
      have hop : r.isOperand = false := by
        rw [Bool.eq_false_iff]
        intro h
        exact hoff (.tail _ (.tail _ ((mem_operandOffsets_iff _).2 ⟨r, h, rfl⟩)))
      rw [State.writeWindow_regOffset hctrl, State.writeReg_of_readOnly hop hstatus]
  · have hlow : ∀ i < 3, (0x00000007 : Word).getLsbD i = true := by decide
    rw [State.regAccess_writeCtrl, State.regAccess_writeCtrl, State.writeCtrl_congr fun i hi => hmask (hlow i hi)]
  · have hbits : ∀ i < 4, 1 ≤ i → (0x0000000E : Word).getLsbD i = true := by decide
    have hwrite : ∀ v : Word, s.regAccess (.write 0x00C 4 v) = .next { s with status := s.status.w1c v } :=
      fun v => State.regAccess_writeReg (r := .status) (by decide) s v
    rw [hwrite, hwrite, Status.w1c_congr fun i h1 h4 => hmask (hbits i h4 h1)]

theorem flagNat_le_one (b : Bool) : flagNat b ≤ 1 := by cases b <;> decide

theorem Status.word_toNat (st : Status) :
    st.word.toNat = flagNat st.busy + 2 * flagNat st.done + 4 * flagNat st.err + 8 * flagNat st.missed
      + 2 ^ 8 * st.errCode.toNat + 2 ^ 16 * st.errSub.toNat + 2 ^ 24 * st.errOp.toNat := by
  have hbusy := flagNat_le_one st.busy
  have hdone := flagNat_le_one st.done
  have herr := flagNat_le_one st.err
  have hmissed := flagNat_le_one st.missed
  rw [Status.word, BitVec.toNat_ofNat, Nat.mod_eq_of_lt (by omega)]

theorem extractLsb'_of_toNat {x : Word} {k n : Nat} {v : BitVec n} (h : x.toNat / 2 ^ k % 2 ^ n = v.toNat) :
    x.extractLsb' k n = v :=
  BitVec.eq_of_toNat_eq (by rw [BitVec.extractLsb'_toNat, Nat.shiftRight_eq_div_pow, h])

theorem getLsbD_of_toNat {x : Word} {k : Nat} {b : Bool} (h : x.toNat / 2 ^ k % 2 = flagNat b) : x.getLsbD k = b := by
  rw [BitVec.getLsbD, Nat.testBit_eq_decide_div_mod_eq, h]
  cases b <;> rfl

/-- Where each flag and field stands in the word STATUS reads (R42). -/
theorem Status.word_layout (st : Status) :
    st.word.getLsbD 0 = st.busy ∧ st.word.getLsbD 1 = st.done ∧ st.word.getLsbD 2 = st.err ∧
      st.word.getLsbD 3 = st.missed ∧ st.word.extractLsb' 4 4 = 0 ∧ st.word.extractLsb' 8 8 = st.errCode ∧
      st.word.extractLsb' 16 8 = st.errSub ∧ st.word.extractLsb' 24 8 = st.errOp := by
  have hword := st.word_toNat
  have hbusy := flagNat_le_one st.busy
  have hdone := flagNat_le_one st.done
  have herr := flagNat_le_one st.err
  have hmissed := flagNat_le_one st.missed
  have hcode := st.errCode.isLt
  have hsub := st.errSub.isLt
  have hop := st.errOp.isLt
  exact ⟨getLsbD_of_toNat (by omega), getLsbD_of_toNat (by omega), getLsbD_of_toNat (by omega),
    getLsbD_of_toNat (by omega), extractLsb'_of_toNat (show _ = 0 by omega),
    extractLsb'_of_toNat (by omega), extractLsb'_of_toNat (by omega), extractLsb'_of_toNat (by omega)⟩

theorem State.irq_of_ack {w : Word} (h : w.getLsbD 1 = true) (s : State) :
    State.irq { s with status := s.status.w1c w } = false := by
  rw [State.irq, Status.w1c, h, Bool.not_true, Bool.and_false, Bool.and_false]

/-- Settles O56: the layout of the STATUS word, its write, and a read of each report register. -/
theorem statusReadsAndAcknowledges : Obligations.StatusReadsAndAcknowledges := by
  intro s w
  have hread : ∀ r : Reg, s.regAccess (.read (regOffset r) 4) =
      .next { s with replies := s.replies ++ [(s.readReg r).setWidth 64] } := s.regAccess_readReg
  refine ⟨?_, ⟨{ s with status := s.status.w1c w }, ?_, rfl, fun h => s.irq_of_ack h⟩, ?_⟩
  · have hstatus : s.readWindow 0x00C = s.status.word := s.readWindow_regOffset .status
    rw [hstatus]
    exact s.status.word_layout
  · exact State.regAccess_writeReg (r := .status) (by decide) s w
  · exact ⟨hread .status, hread .errIdx, hread .outLen, hread .clampCnt, hread .resF0Lo, hread .resF0Hi, hread .resF1Lo,
      hread .resF1Hi⟩

/-! ## The constants and the state after reset -/

theorem capsWord_toNat {p : Params} {k : Nat} (hfft : p.maxFft = 2 ^ k) (hk : k < 16) (htaps : p.maxTaps < 2 ^ 16) :
    (capsWord p).toNat = k + 2 ^ 8 * 16 + 2 ^ 16 * p.maxTaps := by
  rw [capsWord, hfft, Nat.log2_two_pow, Config.dacMaxBits, BitVec.toNat_ofNat]
  omega

/-- Settles O54, from the reads of the four registers and the fields of CAPS. -/
theorem identityRegistersReadTheirConstants : Obligations.IdentityRegistersReadTheirConstants := by
  intro s k hfft hk htaps
  exact ⟨s.regAccess_readReg .id, s.regAccess_readReg .version,
    ⟨_, s.regAccess_readReg .memSize, BitVec.toNat_ofNat _ _⟩,
    ⟨_, s.regAccess_readReg .caps, capsWord_toNat hfft hk htaps⟩⟩

/-- Settles O4: the map is read register by register. -/
theorem resetState : Obligations.ResetState := by
  refine ⟨fun off => ?_, rfl, rfl, rfl, rfl⟩
  cases hat : regAt off with
  | none =>
    have hne : ∀ r : Reg, off ≠ regOffset r := fun r h => by simp [regAt_eq_some_iff.2 h] at hat
    have hid : off ≠ 0x000 := hne .id
    have hversion : off ≠ 0x004 := hne .version
    have hmemSize : off ≠ 0x080 := hne .memSize
    have hcaps : off ≠ 0x084 := hne .caps
    rw [State.readWindow_of_none hat, if_neg hid, if_neg hversion, if_neg hmemSize, if_neg hcaps]
  | some r =>
    obtain rfl := regAt_eq_some_iff.1 hat
    rw [State.readWindow_regOffset]
    cases r <;> decide

/-- Settles O5: after reset nothing is written, held, running or reported. -/
theorem resetMeetsInvariant : Obligations.ResetMeetsInvariant := by
  have hbusy : State.reset.status.busy = false := rfl
  have herr : State.reset.status.err = false := rfl
  refine ⟨rfl, fun _ => rfl, fun h => ?_, by decide, fun h => ?_, Nat.zero_le _⟩
  · rw [hbusy] at h; cases h
  · rw [herr] at h; cases h

end Sys2Proof.Machine
end

section
/-! PROOFS. The frame of the commands (10_state.md R64, 20_memory.md R84): each writes its destination region alone. -/

namespace Sys2Proof.Machine

/-! ## What a command writes -/

/-- From `s` to `t` the bytes [base, base + len) change at most, and nothing that the host owns. -/
def WritesOnly (s t : State) (base len : Nat) : Prop := CommandKeeps s t ∧ BytesKeptOutside s t base len

/-- A completion changes no memory, so it writes what the writes before it did. -/
theorem WritesOnly.complete {s t u : State} {base len : Nat} (h : WritesOnly s t base len) (hkeeps : CommandKeeps t u)
    (hmem : u.mem = t.mem) : WritesOnly s u base len := by
  obtain ⟨hst, hbytes⟩ := h
  refine ⟨hst.trans hkeeps, fun a ha => (State.readByte_of_lookup (by rw [hmem]) ?_).trans (hbytes a ha)⟩
  obtain ⟨-, -, -, -, -, -, hpower, -⟩ := hkeeps
  exact hpower

theorem WritesOnly.refl (s : State) (base len : Nat) : WritesOnly s s base len := ⟨CommandKeeps.refl s, fun _ _ => rfl⟩

theorem writesOnly_writeSamples (s : State) (a : Nat) {l : List Sample} {n : Nat} (h : l.length = n) :
    WritesOnly s (s.writeSamples a l) a (16 * n) :=
  h ▸ ⟨commandKeeps_writeSamples s a l, bytesKeptOutside_writeSamples s a l⟩

theorem writesOnly_writeReals (s : State) (a : Nat) {l : List F64} {n : Nat} (h : l.length = n) :
    WritesOnly s (s.writeReals a l) a (8 * n) :=
  h ▸ ⟨commandKeeps_writeReals s a l, bytesKeptOutside_writeReals s a l⟩

theorem writesOnly_writeCodes (s : State) (a : Nat) {l : List Nat} {n : Nat} (h : l.length = n) :
    WritesOnly s (s.writeCodes a l) a (2 * n) :=
  h ▸ ⟨commandKeeps_writeCodes s a l, bytesKeptOutside_writeCodes s a l⟩

theorem WritesOnly.succeed {s t : State} {base len : Nat} (h : WritesOnly s t base len) (n : Nat) :
    WritesOnly s (t.succeed n) base len := h.complete (commandKeeps_succeed t n) rfl

/-! ## How many elements a command writes -/

theorem length_lowpassOut (tol : ℚ) (dcnorm : Bool) (N : Nat) (c : F64) : (lowpassOut tol dcnorm N c).length = N := by
  cases dcnorm <;> simp [lowpassOut, lowpassTaps]

theorem length_rcosOut_latched (s : State) : (rcosOut (rcosLatched s)).length = rcosCount s := by
  simp [rcosOut, rcosLatched, rcosRaw, rcosCount]

theorem length_dacValues (ch : Bool) (s : State) : (dacValues ch s).length = s.argCount := by simp [dacValues]

/-- Scattering samples into a list keeps its length. -/
theorem length_foldl_set {ι α : Type} (js : List ι) (pos : ι → Nat) (v : ι → α) (X : List α) :
    (js.foldl (fun X j => X.set (pos j) (v j)) X).length = X.length := by
  induction js generalizing X with
  | nil => rfl
  | cons j js ih => rw [List.foldl_cons, ih, List.length_set]

theorem length_ofdmFrame (refset : Bool) (s : State) (b : Nat) : (ofdmFrame refset s b).length = s.argP0 := by
  rw [ofdmFrame, length_foldl_set, List.length_replicate]

theorem length_ofdmTime (refset : Bool) (s : State) (b : Nat) : (ofdmTime refset s b).length = s.argP0 :=
  (idftExactProperties _ _ _ (length_ofdmFrame refset s b)).1

theorem length_ofdmBlock (refset : Bool) {s : State} (hcp : s.argP1 ≤ s.argP0) (b : Nat) :
    (ofdmBlock refset s b).length = s.argP0 + s.argP1 := by
  rw [ofdmBlock, List.length_append, List.length_drop, length_ofdmTime]
  omega

theorem length_ofdmSamples (refset : Bool) {s : State} (hcp : s.argP1 ≤ s.argP0) :
    (ofdmSamples refset s).length = ofdmOut refset s := by
  simp [ofdmSamples, List.length_flatMap, length_ofdmBlock refset hcp, ofdmOut]

/-- The second check of R201: the cyclic extension is no longer than the symbol. -/
theorem ofdm_argP1_le {refset : Bool} {s : State} (h : firstFailure (ofdmChecks refset s) = none) :
    s.argP1 ≤ s.argP0 := by
  have hall := (firstFailure_eq_none_iff _).1 h
  exact of_decide_eq_true (hall ⟨decide (s.argP1 ≤ s.argP0), ⟨.frameConfig, 2, s.argP1⟩⟩ (by simp [ofdmChecks]))

/-! ## The frame of each command -/

theorem mapperPlan_writesOnly (k : Nat) (symbol : State → Nat → Sample) (s : State) :
    WritesOnly s ((mapperPlan k symbol s).act s) (mapperDst k s).base (mapperDst k s).len :=
  (writesOnly_writeSamples s s.argDst (by simp)).succeed (s.argCount / k)

theorem dacMinMax_writesOnly (ch : Bool) (bits : Nat) (s : State) :
    WritesOnly s (dacMinMax ch bits s) s.argDst (2 * s.argCount) := by
  rw [dacMinMax]
  split
  · exact (WritesOnly.refl s _ _).succeed 0
  · exact (writesOnly_writeCodes s s.argDst (by rw [List.length_map, length_dacValues])).complete
      (commandKeeps_succeedMinMax _ _ _ _) rfl

theorem dacFixed_writesOnly (ch : Bool) (bits : Nat) (s : State) :
    WritesOnly s (dacFixed ch bits s) s.argDst (2 * s.argCount) := by
  have hcodes := writesOnly_writeCodes s s.argDst
    (l := (dacValues ch s).map (fixedCode (dacTop bits) s.latched.f0 s.latched.f1)) (n := s.argCount)
    (by rw [List.length_map, length_dacValues])
  rw [dacFixed]
  split
  · exact hcodes.succeed s.argCount
  · exact hcodes.complete (commandKeeps_failRange _ _ _ _) rfl

theorem planFirLowpass_writesOnly (dcnorm : Bool) (s : State) :
    WritesOnly s ((planFirLowpass dcnorm s).act s) (tapsDst s.argP1 s).base (tapsDst s.argP1 s).len :=
  (writesOnly_writeReals s s.argDst (length_lowpassOut _ dcnorm _ _)).succeed s.argP1

theorem planFirRcos_writesOnly (s : State) :
    WritesOnly s ((planFirRcos s).act s) (tapsDst (rcosCount s) s).base (tapsDst (rcosCount s) s).len :=
  (writesOnly_writeReals s s.argDst (length_rcosOut_latched s)).succeed (rcosCount s)

theorem planPulseShape_writesOnly (same : Bool) (s : State) :
    WritesOnly s ((planPulseShape same s).act s) (pulseDst same s).base (pulseDst same s).len :=
  (writesOnly_writeSamples s s.argDst (by simp)).succeed (pulseOut same s)

theorem planOfdmMod_writesOnly {refset : Bool} {s : State} (hcp : s.argP1 ≤ s.argP0) :
    WritesOnly s ((planOfdmMod refset s).act s) (ofdmDst refset s).base (ofdmDst refset s).len :=
  ((writesOnly_writeSamples s s.argDst (length_ofdmSamples refset hcp)).succeed (ofdmOut refset s)).complete
    ⟨rfl, rfl, rfl, rfl, rfl, rfl, rfl, rfl, rfl, rfl, rfl⟩ rfl

theorem planChirp_writesOnly (s : State) :
    WritesOnly s ((planChirp s).act s) (chirpDst s).base (chirpDst s).len :=
  (writesOnly_writeSamples s s.argDst (by simp [chirpSamples])).succeed (chirpCount s.latched.f0 s.latched.f1)

theorem planDacQuant_writesOnly (ch fixed : Bool) (bits : Nat) (s : State) :
    WritesOnly s ((planDacQuant ch fixed bits s).act s) (dacDst s).base (dacDst s).len := by
  cases fixed with
  | false => exact dacMinMax_writesOnly ch bits s
  | true => exact dacFixed_writesOnly ch bits s

/-- Where the checks pass, a command's own writes and completion stay in its destination region. -/
theorem planOf_act_writesOnly (i : Instr) (s : State) (h : firstFailure (planOf i s).early = none) :
    WritesOnly s ((planOf i s).act s) (planOf i s).dst.base (planOf i s).dst.len := by
  cases i with
  | mapBpsk => exact mapperPlan_writesOnly 1 bpskSymbol s
  | mapQpsk norm => exact mapperPlan_writesOnly 2 (qpskSymbol norm) s
  | mapQam16 => exact mapperPlan_writesOnly 4 qam16Symbol s
  | firLowpass dcnorm => exact planFirLowpass_writesOnly dcnorm s
  | firRcos => exact planFirRcos_writesOnly s
  | pulseShape same => exact planPulseShape_writesOnly same s
  | ofdmMod refset => exact planOfdmMod_writesOnly (ofdm_argP1_le h)
  | chirp => exact planChirp_writesOnly s
  | dacQuant ch fixed bits => exact planDacQuant_writesOnly ch fixed bits s

theorem planDacQuant_frame (ch fixed : Bool) (bits : Nat) (s : State) :
    ((planDacQuant ch fixed bits s).act s).frame = s.frame := by
  cases fixed with
  | false =>
    show (dacMinMax ch bits s).frame = s.frame
    rw [dacMinMax]
    split <;> simp
  | true =>
    show (dacFixed ch bits s).frame = s.frame
    rw [dacFixed]
    split <;> simp

theorem writeSamples_succeed_frame (s : State) (a : Nat) (l : List Sample) (n : Nat) :
    ((s.writeSamples a l).succeed n).frame = s.frame := rfl

theorem writeReals_succeed_frame (s : State) (a : Nat) (l : List F64) (n : Nat) :
    ((s.writeReals a l).succeed n).frame = s.frame := rfl

/-- Only OFDM_MOD writes the frame buffer (10_state.md R60). -/
theorem planOf_act_frame {i : Instr} (h : ∀ refset, i ≠ .ofdmMod refset) (s : State) :
    ((planOf i s).act s).frame = s.frame := by
  cases i with
  | mapBpsk | mapQpsk | mapQam16 | pulseShape | chirp => exact writeSamples_succeed_frame s _ _ _
  | firLowpass | firRcos => exact writeReals_succeed_frame s _ _ _
  | ofdmMod refset => exact absurd rfl (h refset)
  | dacQuant ch fixed bits => exact planDacQuant_frame ch fixed bits s

/-- Settles O11: an error completion writes nothing, and where the checks pass each command writes as many elements as its
destination region holds. -/
theorem commandsWriteOnlyTheirDestination : Obligations.CommandsWriteOnlyTheirDestination := by
  intro i s t hexec
  obtain rfl := (exec_eq_next_iff i s t).1 hexec
  rcases (planOf i s).run_cases s with ⟨r, -, hrun⟩ | ⟨hearly, -, hrun⟩ <;> rw [hrun]
  · exact ⟨commandKeeps_fail s r, fun _ _ => rfl, fun _ => rfl⟩
  · obtain ⟨hkeeps, hbytes⟩ := planOf_act_writesOnly i s hearly
    exact ⟨hkeeps, hbytes, fun hofdm => planOf_act_frame hofdm s⟩

end Sys2Proof.Machine
end

section
/-! PROOFS. Host accesses of the sample memory (20_memory.md R72, R79, R80, R94): what one does while IDLE, and how those
held while BUSY take effect once ENGINE has completed the command. -/

namespace Sys2Proof.Machine

/-! ## Performed or held -/

theorem memAccessOk_iff (memBytes off n : Nat) :
    memAccessOk memBytes off n = true ↔ n ∈ [1, 2, 4, 8] ∧ off % n = 0 ∧ off + n ≤ memBytes := by
  simp only [memAccessOk, Bool.and_eq_true, List.contains_iff_mem, decide_eq_true_eq, and_assoc]

theorem State.memAccess_of_idle {s : State} {m : MemAccess}
    (hok : memAccessOk s.params.memBytes m.span.1 m.span.2 = true) (hidle : s.status.busy = false) :
    s.memAccess m = .next (s.memEffect m) := by simp [State.memAccess, hok, hidle]

theorem State.memAccess_of_busy {s : State} {m : MemAccess}
    (hok : memAccessOk s.params.memBytes m.span.1 m.span.2 = true) (hbusy : s.status.busy = true) :
    s.memAccess m = .next { s with held := s.held ++ [m] } := by simp [State.memAccess, hok, hbusy]

/-! ## The bytes of a read -/

/-- Digit `k` of a little-endian number is the byte at offset `k`, and 0 past its end (R72, R94). -/
theorem readLE_digit (f : Nat → Byte) (a n k : Nat) :
    readLE f a n / 256 ^ k % 256 = if k < n then (f (a + k)).toNat else 0 := by
  induction n generalizing a k with
  | zero => simp [readLE]
  | succ n ih =>
    have hbyte := (f a).isLt
    cases k with
    | zero => simp only [readLE, pow_zero, Nat.div_one, Nat.add_zero, Nat.zero_lt_succ, if_true]; omega
    | succ k =>
      have hrest : readLE f a (n + 1) / 256 = readLE f (a + 1) n := by rw [readLE]; omega
      rw [pow_succ', ← Nat.div_div_eq_div_mul, hrest, ih, Nat.add_right_comm, Nat.add_assoc a k 1]
      simp only [Nat.add_lt_add_iff_right]

/-- The bytes of the word a read of at most 8 bytes returns, zero-extended (R94). -/
theorem State.extractLsb'_memRead (s : State) (a : Nat) {n : Nat} (hn : n ≤ 8) (k : Nat) :
    (BitVec.ofNat 64 (s.memRead a n)).extractLsb' (8 * k) 8 = if k < n then s.readByte (a + k) else 0 := by
  have hfits : s.memRead a n < 2 ^ 64 :=
    (readLE_lt s.readByte a n).trans_le (Nat.pow_le_pow_right (by decide) hn)
  refine BitVec.eq_of_toNat_eq ?_
  rw [BitVec.extractLsb'_toNat, Nat.shiftRight_eq_div_pow, BitVec.toNat_ofNat, Nat.mod_eq_of_lt hfits, pow_mul,
    apply_ite BitVec.toNat]
  exact readLE_digit s.readByte a n k

/-- Settles O57: while IDLE an access takes effect at once, and its effect is what `AccessDone` says. -/
theorem hostMemoryAccess : Obligations.HostMemoryAccess := by
  intro s a n v hwidth halign hbound hidle
  have hok : memAccessOk s.params.memBytes a n = true := (memAccessOk_iff _ _ _).2 ⟨hwidth, halign, hbound⟩
  have hn : n ≤ 8 := (by decide : ∀ n ∈ [1, 2, 4, 8], n ≤ 8) n hwidth
  constructor
  · obtain ⟨honly, hkept, hbytes⟩ := memEffect_accessDone s (.write a n v)
    have hback : (s.memWrite a n v.toNat).memRead a n = v.toNat % 2 ^ (8 * n) := by
      rw [State.memRead_memWrite, pow_mul]; rfl
    exact ⟨s.memEffect (.write a n v), State.memAccess_of_idle hok hidle, honly, hkept, hbytes, hback⟩
  · exact ⟨_, State.memAccess_of_idle (m := .read a n) hok hidle, fun k _ => s.extractLsb'_memRead a hn k⟩

/-! ## The end of a command -/

/-- The writes of every command end in a completion: BUSY is 0 and DONE is 1 (60_exceptions.md R268, R269). -/
theorem planOf_act_completes (i : Instr) (s : State) :
    ((planOf i s).act s).status.busy = false ∧ ((planOf i s).act s).status.done = true := by
  cases i with
  | mapBpsk | mapQpsk | mapQam16 | firLowpass | firRcos | pulseShape | ofdmMod | chirp => exact ⟨rfl, rfl⟩
  | dacQuant ch fixed bits =>
    cases fixed with
    | false =>
      show (dacMinMax ch bits s).status.busy = false ∧ (dacMinMax ch bits s).status.done = true
      rw [dacMinMax]
      split <;> exact ⟨rfl, rfl⟩
    | true =>
      show (dacFixed ch bits s).status.busy = false ∧ (dacFixed ch bits s).status.done = true
      rw [dacFixed]
      split <;> exact ⟨rfl, rfl⟩

/-- The command part of ENGINE's step always answers a next state, in which the command is complete and what no command
changes is kept. -/
theorem State.runLatched_completes (s : State) :
    ∃ t, s.runLatched = .next t ∧ CommandKeeps s t ∧ t.status.busy = false ∧ t.status.done = true := by
  cases hd : decode s.latched.cmd with
  | illegal sub idx => exact ⟨_, State.runLatched_illegal hd, commandKeeps_fail s _, rfl, rfl⟩
  | command i =>
    rw [State.runLatched_command hd, exec_eq_run]
    rcases (planOf i s).run_cases s with ⟨r, -, hrun⟩ | ⟨hearly, -, hrun⟩ <;> rw [hrun]
    · exact ⟨_, rfl, commandKeeps_fail s r, rfl, rfl⟩
    · obtain ⟨hkeeps, -⟩ := planOf_act_writesOnly i s hearly
      exact ⟨_, rfl, hkeeps, planOf_act_completes i s⟩

/-- A BUSY engine's step is its command part, and then the release of the held accesses (60_exceptions.md R260). -/
theorem State.engineStep_of_busy {s t : State} (hbusy : s.status.busy = true) (hrun : s.runLatched = .next t) :
    s.engineStep = .next t.release := by simp [State.engineStep, hbusy, hrun, releaseAfter]

@[simp] theorem State.release_held (s : State) : s.release.held = [] := by rw [State.release_eq]

@[simp] theorem State.release_status (s : State) : s.release.status = s.status := by rw [State.release_eq]

/-- Settles O58: no command touches what is held, so ENGINE's step releases exactly that on what the command left. -/
theorem accessesAreHeldWhileBusy : Obligations.AccessesAreHeldWhileBusy := by
  intro s hbusy
  obtain ⟨t, hrun, hkeeps, hidle, -⟩ := s.runLatched_completes
  obtain ⟨-, -, -, -, -, -, -, -, -, hheld, -⟩ := hkeeps
  exact ⟨fun m hok => State.memAccess_of_busy hok hbusy, t, t.release, hrun, State.engineStep_of_busy hbusy hrun, hidle,
    hheld, t.release_held, t.release_status, hheld ▸ release_accessesDone t⟩

end Sys2Proof.Machine
end

section
/-! PROOFS. Where the host's next access leads (20_memory.md R71, R80, R83, R87): who moves, and the window an address
reaches. -/

namespace Sys2Proof.Machine

/-! ## Who moves -/

theorem State.hostStalled_eq_true_iff (s : State) :
    s.hostStalled = true ↔ s.status.busy = true ∧ s.held ≠ [] ∧ s.params.hostOverlap = false := by
  simp [State.hostStalled, and_assoc]

theorem State.hostStalled_eq_false_iff (s : State) :
    s.hostStalled = false ↔ s.status.busy = false ∨ s.held = [] ∨ s.params.hostOverlap = true := by
  simp only [State.hostStalled, Bool.and_eq_false_iff, Bool.not_eq_false', List.isEmpty_iff, or_assoc]

theorem Input.fromHost_eq_true_iff (x : Input) : x.fromHost = true ↔ x ≠ .engine ∧ x ≠ .powerOn := by
  cases x <;> simp [Input.fromHost]

theorem step_of_free {s : State} {x : Input} {rest : List Input} (h : s.inputs = x :: rest)
    (hfree : s.hostStalled = false ∨ x.fromHost = false) : step s = State.takeInput { s with inputs := rest } x := by
  rcases hfree with hfree | hfree <;> simp [step, State.advance, h, hfree]

theorem step_of_stalled {s : State} {x : Input} {rest : List Input} (h : s.inputs = x :: rest)
    (hstalled : s.hostStalled = true) (hhost : x.fromHost = true) : step s = s.engineStep := by
  simp [step, State.advance, h, hstalled, hhost]

/-! ## Host addresses -/

theorem inRegWindow_iff (p : Params) (addr : Nat) :
    inRegWindow p addr = true ↔ p.hostRegBase ≤ addr ∧ addr < p.hostRegBase + 256 := by
  simp only [inRegWindow, Bool.and_eq_true, decide_eq_true_eq]
  rfl

theorem inMemWindow_iff (p : Params) (addr : Nat) :
    inMemWindow p addr = true ↔ p.hostMemBase ≤ addr ∧ addr < p.hostMemBase + p.memBytes := by
  simp [inMemWindow]

/-- With legal parameters the two windows are disjoint (00_scope.md R6). -/
theorem inRegWindow_eq_false_of_inMemWindow {p : Params} (h : p.legal) {addr : Nat}
    (hmem : inMemWindow p addr = true) : inRegWindow p addr = false := by
  obtain ⟨-, -, -, -, -, hdisjoint⟩ := h
  rw [inMemWindow_iff] at hmem
  rw [Bool.eq_false_iff, Ne, inRegWindow_iff]
  simp only [Config.regWindowBytes] at hdisjoint
  omega

section Windows

variable {s : State} {addr : Nat}

theorem State.bus_of_inRegWindow (h : inRegWindow s.params addr = true) (n : Nat) (v : BitVec 64) :
    s.busRead addr n = s.regAccess (.read (addr - s.params.hostRegBase) n) ∧
      s.busWrite addr n v = s.regAccess (.write (addr - s.params.hostRegBase) n (v.setWidth 32)) := by
  simp [State.busRead, State.busWrite, h]

theorem State.bus_of_inMemWindow (hreg : inRegWindow s.params addr = false) (h : inMemWindow s.params addr = true)
    (n : Nat) (v : BitVec 64) :
    s.busRead addr n = s.memAccess (.read (addr - s.params.hostMemBase) n) ∧
      s.busWrite addr n v = s.memAccess (.write (addr - s.params.hostMemBase) n v) := by
  simp [State.busRead, State.busWrite, hreg, h]

theorem State.bus_of_no_window (hreg : inRegWindow s.params addr = false) (hmem : inMemWindow s.params addr = false)
    (n : Nat) (v : BitVec 64) :
    s.busRead addr n = .fault (.noSuchAddress addr) ∧ s.busWrite addr n v = .fault (.noSuchAddress addr) := by
  simp [State.busRead, State.busWrite, hreg, hmem]

end Windows

/-- Settles O60: the head of the list is taken unless the host is stalled, and an address is compared with the windows. -/
theorem busAddressesReachTheWindows : Obligations.BusAddressesReachTheWindows := by
  refine ⟨fun s x rest hinputs => ⟨?_, fun hfree => ?_, fun hbusy hheld hlap heng hpower => ?_⟩,
    fun s off n v hlegal => ⟨fun hoff => ?_, fun hoff => ?_, fun addr hreg hmem => ?_⟩⟩
  · rintro rfl
    exact step_of_free hinputs (.inr rfl)
  · have htake := step_of_free hinputs (.inl (s.hostStalled_eq_false_iff.2 hfree))
    refine ⟨?_, ?_, ?_, ?_, ?_⟩
    · rintro a rfl; exact htake
    · rintro a rfl; exact htake
    · rintro addr n rfl; exact htake
    · rintro addr n v rfl; exact htake
    · rintro rfl
      have hstatus : s.readWindow 0x00C = s.status.word := s.readWindow_regOffset .status
      rw [hstatus]
      exact htake
  · exact step_of_stalled hinputs (s.hostStalled_eq_true_iff.2 ⟨hbusy, hheld, hlap⟩)
      (x.fromHost_eq_true_iff.2 ⟨heng, hpower⟩)
  · have hin : inRegWindow s.params (s.params.hostRegBase + off) = true := (inRegWindow_iff _ _).2 (by omega)
    simpa only [Nat.add_sub_cancel_left] using State.bus_of_inRegWindow hin n v
  · have hin : inMemWindow s.params (s.params.hostMemBase + off) = true := (inMemWindow_iff _ _).2 (by omega)
    simpa only [Nat.add_sub_cancel_left] using
      State.bus_of_inMemWindow (inRegWindow_eq_false_of_inMemWindow hlegal hin) hin n v
  · refine State.bus_of_no_window ?_ ?_ n v
    · rw [Bool.eq_false_iff, Ne, inRegWindow_iff]; omega
    · rw [Bool.eq_false_iff, Ne, inMemWindow_iff]; omega

end Sys2Proof.Machine
end

section
/-! PROOFS. The decoder and the encoder, field by field (30_encoding.md R101 to R106, R110): which words fit a row of the
opcode map, and that the fields of a word say everything about it. -/

namespace Sys2Proof

/-! ## Fields of a word (R101) -/

theorem field_lt (w : Word) (lo width : Nat) : field w lo width < 2 ^ width := Nat.mod_lt _ (Nat.two_pow_pos width)

theorem field_and (w m : Word) (lo width : Nat) : field (w &&& m) lo width = field w lo width &&& field m lo width := by
  simp only [field, BitVec.toNat_and, Nat.and_div_two_pow, Nat.and_mod_two_pow]

/-- OPC, FLAGS, BITS and RSVD make up the whole word (R101). -/
theorem word_eq_iff (w v : Word) :
    w = v ↔ opcField w = opcField v ∧ field w 8 8 = field v 8 8 ∧ field w 16 5 = field v 16 5 ∧
      field w 21 11 = field v 21 11 := by
  constructor
  · rintro rfl
    exact ⟨rfl, rfl, rfl, rfl⟩
  · rintro ⟨hopc, hflags, hbits, hrsvd⟩
    have hw := w.isLt
    have hv := v.isLt
    simp only [opcField, field] at hopc hflags hbits hrsvd
    exact BitVec.eq_of_toNat_eq (by omega)

/-- The fields of a packed word are the ones it was packed from, and RSVD is 0 (R101). -/
theorem fields_packWord {opc flags bits : Nat} (hopc : opc < 2 ^ 8) (hflags : flags < 2 ^ 8) (hbits : bits < 2 ^ 5) :
    opcField (packWord opc flags bits) = opc ∧ field (packWord opc flags bits) 8 8 = flags ∧
      field (packWord opc flags bits) 16 5 = bits ∧ field (packWord opc flags bits) 21 11 = 0 := by
  simp only [opcField, field, packWord, BitVec.toNat_ofNat]
  omega

/-- A word with RSVD = 0 is packed from its other fields (R101). -/
theorem packWord_eq {w : Word} {opc flags bits : Nat} (hopc : opc = opcField w) (hflags : field w 8 8 = flags)
    (hbits : field w 16 5 = bits) (hrsvd : field w 21 11 = 0) : packWord opc flags bits = w := by
  subst hopc hflags hbits
  obtain ⟨hopc, hflags, hbits, hzero⟩ := fields_packWord (field_lt w 0 8) (field_lt w 8 8) (field_lt w 16 5)
  exact (word_eq_iff _ _).2 ⟨hopc, hflags, hbits, hzero.trans hrsvd.symm⟩

/-- The bits of FLAGS stand from bit 8 of the word (R102). -/
theorem flagBit_eq_testBit (w : Word) {n : Nat} (h : n < 8) : flagBit w (8 + n) = (field w 8 8).testBit n := by
  rw [flagBit, BitVec.getLsbD, field, Nat.testBit_mod_two_pow, Nat.testBit_div_two_pow, Nat.add_comm]
  simp [h]

/-- The flags of a packed word are the bits it was packed from. -/
theorem flagBit_packWord {opc flags bits n : Nat} (hopc : opc < 2 ^ 8) (hflags : flags < 2 ^ 8) (hbits : bits < 2 ^ 5)
    (hn : n < 8) : flagBit (packWord opc flags bits) (8 + n) = flags.testBit n := by
  obtain ⟨-, hF, -, -⟩ := fields_packWord hopc hflags hbits
  rw [flagBit_eq_testBit _ hn, hF]

/-- A FLAGS field of one defined bit is that flag. -/
theorem flags_eq_of_one {w : Word} (h : field w 8 8 < 2) : field w 8 8 = bitOf (flagBit w 8) := by
  rw [flagBit_eq_testBit w (n := 0) (by decide)]
  generalize field w 8 8 = x at h
  interval_cases x <;> rfl

/-- A FLAGS field of two defined bits is those flags. -/
theorem flags_eq_of_two {w : Word} (h : field w 8 8 < 4) :
    field w 8 8 = bitOf (flagBit w 8) + 2 * bitOf (flagBit w 9) := by
  rw [flagBit_eq_testBit w (n := 0) (by decide), flagBit_eq_testBit w (n := 1) (by decide)]
  generalize field w 8 8 = x at h
  interval_cases x <;> rfl

/-! ## Rows of the opcode map (R104, R106) -/

/-- How many bits of FLAGS a command of this OPC defines, from bit 0 up (R102). -/
def flagCount (opc : Nat) : Nat :=
  if opc ∈ [0x02, 0x10, 0x20, 0x30] then 1 else if opc = 0x50 then 2 else 0

/-- How many bits of BITS a command of this OPC defines (R103). -/
def bitsWidth (opc : Nat) : Nat := if opc = 0x50 then 5 else 0

/-- Every bit of the word that its OPC does not define is 0 (R104). -/
def ReservedClear (w : Word) : Prop :=
  field w 8 8 < 2 ^ flagCount (opcField w) ∧ field w 16 5 < 2 ^ bitsWidth (opcField w) ∧ field w 21 11 = 0

/-- Each row, field by field: its mask leaves out the defined bits of FLAGS and BITS, and its match value is its OPC. -/
theorem opcodeMap_fields : ∀ r ∈ opcodeMap,
    (opcField r.mask = 2 ^ 8 - 1 ∧ field r.mask 8 8 = 2 ^ 8 - 2 ^ flagCount r.opc ∧
      field r.mask 16 5 = 2 ^ 5 - 2 ^ bitsWidth r.opc ∧ field r.mask 21 11 = 2 ^ 11 - 1) ∧
    (opcField r.value = r.opc ∧ field r.value 8 8 = 0 ∧ field r.value 16 5 = 0 ∧ field r.value 21 11 = 0) ∧
    r.opc < 2 ^ 8 ∧ flagCount r.opc ≤ 8 ∧ bitsWidth r.opc ≤ 5 := by
  decide

/-- No two rows share an OPC: the search for a row's OPC finds that row. -/
theorem find_opc_of_mem : ∀ r ∈ opcodeMap, opcodeMap.find? (fun q => q.opc == r.opc) = some r := by
  intro r hr
  simp only [opcodeMap, List.mem_cons, List.not_mem_nil, or_false] at hr
  rcases hr with rfl | rfl | rfl | rfl | rfl | rfl | rfl | rfl | rfl <;> rfl

/-- An `n`-bit number has no bit from `k` up exactly when it is below `2 ^ k`. -/
theorem and_high_eq_zero_iff {x n k : Nat} (hx : x < 2 ^ n) (hk : k ≤ n) : x &&& (2 ^ n - 2 ^ k) = 0 ↔ x < 2 ^ k := by
  obtain ⟨d, rfl⟩ := Nat.exists_eq_add_of_le hk
  have hpos := Nat.two_pow_pos k
  have hhigh : 2 ^ (k + d) - 2 ^ k = 2 ^ k * (2 ^ d - 1) := by rw [pow_add, Nat.mul_sub, mul_one]
  have hdiv : (x &&& (2 ^ (k + d) - 2 ^ k)) / 2 ^ k = x / 2 ^ k := by
    rw [Nat.and_div_two_pow, hhigh, Nat.mul_div_cancel_left _ hpos, Nat.and_two_pow_sub_one_eq_mod]
    exact Nat.mod_eq_of_lt (Nat.div_lt_of_lt_mul (by rwa [← pow_add]))
  have hmod : (x &&& (2 ^ (k + d) - 2 ^ k)) % 2 ^ k = 0 := by
    rw [Nat.and_mod_two_pow, hhigh, Nat.mul_mod_right, Nat.and_zero]
  rw [← Nat.div_eq_zero_iff_lt hpos, ← hdiv]
  constructor
  · intro h
    rw [h, Nat.zero_div]
  · intro h
    rw [← Nat.div_add_mod (x &&& _) (2 ^ k), h, hmod, mul_zero]

/-- A word agrees with its row under the row's mask exactly when no reserved bit is 1 (R104). -/
theorem and_mask_eq_value_iff {r : OpRow} (hr : r ∈ opcodeMap) {w : Word} (hopc : r.opc = opcField w) :
    w &&& r.mask = r.value ↔ ReservedClear w := by
  obtain ⟨⟨hmaskOpc, hmaskFlags, hmaskBits, hmaskRsvd⟩, ⟨hopcV, hflagsV, hbitsV, hrsvdV⟩, -, hcount, hwidth⟩ :=
    opcodeMap_fields r hr
  have hopcEq : opcField (w &&& r.mask) = opcField r.value := by
    rw [opcField, field_and, ← opcField, ← opcField, hmaskOpc, hopcV, hopc, Nat.and_two_pow_sub_one_eq_mod]
    exact Nat.mod_eq_of_lt (field_lt w 0 8)
  rw [word_eq_iff, field_and, field_and, field_and, hmaskFlags, hmaskBits, hmaskRsvd, hflagsV, hbitsV, hrsvdV,
    and_high_eq_zero_iff (field_lt w 8 8) hcount, and_high_eq_zero_iff (field_lt w 16 5) hwidth,
    Nat.and_two_pow_sub_one_of_lt_two_pow (field_lt w 21 11), ReservedClear, hopc]
  exact and_iff_right hopcEq

/-! ## What decoding gives (R105) -/

theorem decode_of_reservedClear {r : OpRow} (hr : r ∈ opcodeMap) {w : Word} (hopc : r.opc = opcField w)
    (h : ReservedClear w) : decode w = .command (r.build w) := by
  simp [decode, ← hopc, find_opc_of_mem r hr, (and_mask_eq_value_iff hr hopc).2 h]

theorem decode_of_not_reservedClear {r : OpRow} (hr : r ∈ opcodeMap) {w : Word} (hopc : r.opc = opcField w)
    (h : ¬ ReservedClear w) : decode w = .illegal 2 (opcField w) := by
  simp [decode, ← hopc, find_opc_of_mem r hr, mt (and_mask_eq_value_iff hr hopc).1 h]

theorem decode_of_unknown {w : Word} (h : ∀ r ∈ opcodeMap, r.opc ≠ opcField w) : decode w = .illegal 1 (opcField w) := by
  have hnone : opcodeMap.find? (fun r => r.opc == opcField w) = none := by simpa using h
  rw [decode, hnone]

/-- Decoding, once: a command of the word's row, or ILLEGAL_CMD with subcode 2 or 1. -/
theorem decode_cases (w : Word) :
    (∃ r ∈ opcodeMap, r.opc = opcField w ∧ ReservedClear w ∧ decode w = .command (r.build w)) ∨
    (∃ r ∈ opcodeMap, r.opc = opcField w ∧ ¬ ReservedClear w ∧ decode w = .illegal 2 (opcField w)) ∨
    ((∀ r ∈ opcodeMap, r.opc ≠ opcField w) ∧ decode w = .illegal 1 (opcField w)) := by
  by_cases hknown : ∃ r ∈ opcodeMap, r.opc = opcField w
  · obtain ⟨r, hr, hopc⟩ := hknown
    by_cases hclear : ReservedClear w
    · exact .inl ⟨r, hr, hopc, hclear, decode_of_reservedClear hr hopc hclear⟩
    · exact .inr (.inl ⟨r, hr, hopc, hclear, decode_of_not_reservedClear hr hopc hclear⟩)
  · push Not at hknown
    exact .inr (.inr ⟨hknown, decode_of_unknown hknown⟩)

/-! ## Decoding and encoding are inverse (R106, R111) -/

/-- The command a row reads from a word without reserved bits is well formed, and its encoding is that word. -/
theorem encode_build {r : OpRow} (hr : r ∈ opcodeMap) {w : Word} (hopc : r.opc = opcField w) (h : ReservedClear w) :
    (r.build w).wellFormed = true ∧ encode (r.build w) = w := by
  obtain ⟨hflags, hbits, hrsvd⟩ := h
  rw [← hopc] at hflags hbits
  have no_flag (hf : field w 8 8 < 1) (hb : field w 16 5 < 1) : packWord r.opc 0 0 = w :=
    packWord_eq hopc (Nat.lt_one_iff.1 hf) (Nat.lt_one_iff.1 hb) hrsvd
  have one_flag (hf : field w 8 8 < 2) (hb : field w 16 5 < 1) : packWord r.opc (bitOf (flagBit w 8)) 0 = w :=
    packWord_eq hopc (flags_eq_of_one hf) (Nat.lt_one_iff.1 hb) hrsvd
  simp only [opcodeMap, List.mem_cons, List.not_mem_nil, or_false] at hr
  rcases hr with rfl | rfl | rfl | rfl | rfl | rfl | rfl | rfl | rfl
  · exact ⟨rfl, no_flag hflags hbits⟩
  · exact ⟨rfl, one_flag hflags hbits⟩
  · exact ⟨rfl, no_flag hflags hbits⟩
  · exact ⟨rfl, one_flag hflags hbits⟩
  · exact ⟨rfl, no_flag hflags hbits⟩
  · exact ⟨rfl, one_flag hflags hbits⟩
  · exact ⟨rfl, one_flag hflags hbits⟩
  · exact ⟨rfl, no_flag hflags hbits⟩
  · exact ⟨decide_eq_true hbits, packWord_eq hopc (flags_eq_of_two hflags) rfl hrsvd⟩

/-- A word packed from an OPC of the map and from flags and bits this OPC defines decodes by its row. -/
theorem decode_packWord {r : OpRow} (hr : r ∈ opcodeMap) {flags bits : Nat} (hflags : flags < 2 ^ flagCount r.opc)
    (hbits : bits < 2 ^ bitsWidth r.opc) :
    decode (packWord r.opc flags bits) = .command (r.build (packWord r.opc flags bits)) := by
  obtain ⟨-, -, hopc, hcount, hwidth⟩ := opcodeMap_fields r hr
  obtain ⟨hO, hF, hB, hR⟩ := fields_packWord hopc (hflags.trans_le (Nat.pow_le_pow_right two_pos hcount))
    (hbits.trans_le (Nat.pow_le_pow_right two_pos hwidth))
  exact decode_of_reservedClear hr hO.symm ⟨by rwa [hO, hF], by rwa [hO, hB], hR⟩

theorem bitOf_lt (b : Bool) : bitOf b < 2 := by cases b <;> decide

/-- A row that reads one flag and nothing else reads back the flag a word was packed from. -/
theorem decode_packWord_flag {r : OpRow} (hr : r ∈ opcodeMap) {build : Bool → Instr}
    (hbuild : ∀ w, r.build w = build (flagBit w 8)) (hcount : flagCount r.opc = 1) (b : Bool) :
    decode (packWord r.opc (bitOf b) 0) = .command (build b) := by
  obtain ⟨-, -, hopc, -⟩ := opcodeMap_fields r hr
  have hflag : flagBit (packWord r.opc (bitOf b) 0) 8 = (bitOf b).testBit 0 :=
    flagBit_packWord (bits := 0) (n := 0) hopc ((bitOf_lt b).trans (by decide)) (by decide) (by decide)
  have hbit : (bitOf b).testBit 0 = b := by cases b <;> rfl
  rw [decode_packWord hr (hcount ▸ bitOf_lt b) (Nat.two_pow_pos _), hbuild, hflag, hbit]

/-- A well-formed command is read back from its encoding. -/
theorem decode_encode {i : Instr} (h : i.wellFormed = true) : decode (encode i) = .command i := by
  cases i with
  | mapBpsk => exact decode_packWord (r := opcodeMap[0]) (List.getElem_mem _) (by decide) (by decide)
  | mapQpsk norm => exact decode_packWord_flag (r := opcodeMap[1]) (List.getElem_mem _) (fun _ => rfl) rfl norm
  | mapQam16 => exact decode_packWord (r := opcodeMap[2]) (List.getElem_mem _) (by decide) (by decide)
  | firLowpass dcnorm => exact decode_packWord_flag (r := opcodeMap[3]) (List.getElem_mem _) (fun _ => rfl) rfl dcnorm
  | firRcos => exact decode_packWord (r := opcodeMap[4]) (List.getElem_mem _) (by decide) (by decide)
  | pulseShape same => exact decode_packWord_flag (r := opcodeMap[5]) (List.getElem_mem _) (fun _ => rfl) rfl same
  | ofdmMod refset => exact decode_packWord_flag (r := opcodeMap[6]) (List.getElem_mem _) (fun _ => rfl) rfl refset
  | chirp => exact decode_packWord (r := opcodeMap[7]) (List.getElem_mem _) (by decide) (by decide)
  | dacQuant ch fixed bits =>
    have hbits : bits < 2 ^ 5 := of_decide_eq_true h
    have hflags : bitOf ch + 2 * bitOf fixed < 2 ^ 2 := by
      have hch := bitOf_lt ch
      have hfixed := bitOf_lt fixed
      omega
    have hflags8 : bitOf ch + 2 * bitOf fixed < 2 ^ 8 := hflags.trans (by decide)
    obtain ⟨-, -, hB, -⟩ := fields_packWord (opc := 0x50) (by decide) hflags8 hbits
    have hch : flagBit (encode (.dacQuant ch fixed bits)) 8 = ch :=
      (flagBit_packWord (n := 0) (by decide) hflags8 hbits (by decide)).trans (by cases ch <;> cases fixed <;> rfl)
    have hfixed : flagBit (encode (.dacQuant ch fixed bits)) 9 = fixed :=
      (flagBit_packWord (n := 1) (by decide) hflags8 hbits (by decide)).trans (by cases ch <;> cases fixed <;> rfl)
    calc decode (encode (.dacQuant ch fixed bits))
        = .command (.dacQuant (flagBit (encode (.dacQuant ch fixed bits)) 8)
            (flagBit (encode (.dacQuant ch fixed bits)) 9) (field (encode (.dacQuant ch fixed bits)) 16 5)) :=
          decode_packWord (r := opcodeMap[8]) (List.getElem_mem _) hflags hbits
      _ = .command (.dacQuant ch fixed bits) := by rw [hch, hfixed, encode, hB]

/-- Settles O2: a word without reserved bits is the encoding of what its row reads from it, and a well-formed command is
read back from its encoding. -/
theorem decodeAndEncodeAgree : Obligations.DecodeAndEncodeAgree := by
  intro w i
  constructor
  · intro h
    rcases decode_cases w with ⟨r, hr, hopc, hclear, hd⟩ | ⟨r, -, -, -, hd⟩ | ⟨-, hd⟩
    · obtain rfl : r.build w = i := Decoded.command.inj (hd.symm.trans h)
      exact encode_build hr hopc hclear
    · cases hd.symm.trans h
    · cases hd.symm.trans h
  · rintro ⟨hwf, rfl⟩
    exact decode_encode hwf

/-! ## Illegal words (R104, R105, R110) -/

theorem exists_opc_eq_iff (opc : Nat) :
    (∃ r ∈ opcodeMap, r.opc = opc) ↔ opc ∈ [0x01, 0x02, 0x03, 0x10, 0x11, 0x20, 0x30, 0x40, 0x50] := by
  rw [← List.mem_map (f := OpRow.opc)]
  rfl

/-- The legal words of the statement are those with a known OPC and no reserved bit (R102 to R104). -/
theorem legalFields_iff {opc flags bits rsvd : Nat} (hbits : bits < 32) :
    rsvd = 0 ∧ ((opc ∈ [0x01, 0x03, 0x11, 0x40] ∧ flags = 0 ∧ bits = 0) ∨
        (opc ∈ [0x02, 0x10, 0x20, 0x30] ∧ flags ≤ 1 ∧ bits = 0) ∨ (opc = 0x50 ∧ flags ≤ 3)) ↔
      opc ∈ [0x01, 0x02, 0x03, 0x10, 0x11, 0x20, 0x30, 0x40, 0x50] ∧
        flags < 2 ^ flagCount opc ∧ bits < 2 ^ bitsWidth opc ∧ rsvd = 0 := by
  simp only [flagCount, bitsWidth, List.mem_cons, List.not_mem_nil, or_false]
  split_ifs <;> omega

/-- Settles O3: legality as the statement writes it is a known OPC with its reserved bits clear. -/
theorem illegalWordsAreReported : Obligations.IllegalWordsAreReported := by
  intro w opc flags bits rsvd known legal
  have hopc : opcField w = opc := by simp [opcField, field, opc]
  have hrsvd : field w 21 11 = rsvd := Nat.mod_eq_of_lt (by have := w.isLt; omega)
  have hlegal : legal ↔ known ∧ ReservedClear w := by
    rw [ReservedClear, hopc, hrsvd]
    exact legalFields_iff (field_lt w 16 5)
  have hknown : known ↔ ∃ r ∈ opcodeMap, r.opc = opcField w := by rw [hopc, exists_opc_eq_iff]
  rw [hlegal]
  rcases decode_cases w with ⟨r, hr, hrow, hclear, hd⟩ | ⟨r, hr, hrow, hclear, hd⟩ | ⟨hunknown, hd⟩
  · have hk : known := hknown.2 ⟨r, hr, hrow⟩
    exact ⟨fun _ => ⟨_, hd⟩, fun h => absurd ⟨hk, hclear⟩ h⟩
  · have hk : known := hknown.2 ⟨r, hr, hrow⟩
    exact ⟨fun h => absurd h.2 hclear, fun _ => by rw [hd, if_pos hk, hopc]⟩
  · have hk : ¬ known := fun h =>
      let ⟨r, hr, hrow⟩ := hknown.1 h
      hunknown r hr hrow
    exact ⟨fun h => absurd h.1 hk, fun _ => by rw [hd, if_neg hk, hopc]⟩

/-- Settles O1: each word's row is found and compared. -/
theorem decodesWrittenWords : Obligations.DecodesWrittenWords := by
  unfold Obligations.DecodesWrittenWords
  decide

end Sys2Proof
end

section
/-! PROOFS. ENGINE's step on an illegal word (30_encoding.md R105, R110, 60_exceptions.md R266). -/

namespace Sys2Proof.Machine

theorem illegal_sub_lt {w : Word} {sub idx : Nat} (h : decode w = .illegal sub idx) : sub < 256 := by
  rcases decode_cases w with ⟨r, -, -, -, hd⟩ | ⟨r, -, -, -, hd⟩ | ⟨-, hd⟩
  · cases h.symm.trans hd
  · cases h.symm.trans hd
    decide
  · cases h.symm.trans hd
    decide

/-- A BUSY engine ends an illegal word with ILLEGAL_CMD, and then releases what is held. -/
theorem State.engineStep_of_illegal {s : State} {sub idx : Nat} (hbusy : s.status.busy = true)
    (h : decode s.latched.cmd = .illegal sub idx) :
    ∃ t, EndsBadly s t 0x10 sub idx ∧ s.engineStep = .next t.release :=
  ⟨_, fail_endsBadly s (illegalCommand sub idx) (illegal_sub_lt h),
    State.engineStep_of_busy hbusy (State.runLatched_illegal h)⟩

theorem step_of_no_inputs {s : State} (h : s.inputs = []) : step s = s.engineStep := by
  simp [step, State.advance, h]

/-- Settles O8: wherever ENGINE moves, the step is ENGINE's step on the illegal word. -/
theorem stepReportsIllegalWord : Obligations.StepReportsIllegalWord := by
  intro s sub idx hbusy hd
  refine ⟨fun hnil => ?_, fun rest heng => ?_, fun x rest hinputs hhost hstalled => ?_⟩
  · rw [step_of_no_inputs hnil]
    exact State.engineStep_of_illegal hbusy hd
  · rw [step_of_free heng (.inr rfl)]
    exact State.engineStep_of_illegal (s := { s with inputs := rest }) hbusy hd
  · rw [step_of_stalled hinputs hstalled hhost]
    exact State.engineStep_of_illegal hbusy hd

end Sys2Proof.Machine
end

section
/-! PROOFS. The checks of a command as the report of Safety.lean (60_exceptions.md R264, R265), and the two ways a command
ends (R260): with the report of its first failing check, or, where every check passes, with its own effect. -/

namespace Sys2Proof.Machine

/-! ## The first failing check as a report -/

/-- What a raised error reports, the index before it is taken modulo 2^32 (60_exceptions.md R264). -/
def Raise.report (r : Raise) : Report := (r.cls.code, r.sub, r.idx)

/-- The checks of a command in their order (60_exceptions.md R265). -/
def Plan.checks (p : Plan) (s : State) : List Check := p.early ++ p.late s

/-- What a list of checks reports: the error of the first that fails, if one does. -/
def reportOf (cs : List Check) : Option Report := (firstFailure cs).map Raise.report

theorem reportOf_append (as bs : List Check) : reportOf (as ++ bs) = (reportOf as).or (reportOf bs) := by
  rw [reportOf, firstFailure_append, Option.map_or]
  rfl

theorem reportOf_cons (c : Check) (cs : List Check) :
    reportOf (c :: cs) = if c.ok then reportOf cs else some c.err.report := by
  cases h : c.ok <;> simp [reportOf, firstFailure, h]

/-- Checks of one kind, over a list, report the first element that `bad` picks out. -/
theorem reportOf_map {α : Type} {l : List α} {check : α → Check} {bad : α → Bool}
    (h : ∀ x, (check x).ok = !bad x) :
    reportOf (l.map check) = (l.find? bad).map fun x => (check x).err.report := by
  have hbad : (fun x => !(check x).ok) = bad := funext fun x => by rw [h, Bool.not_not]
  have hfirst := firstFailure_map l (fun x => (check x).ok) (fun x => (check x).err)
  rw [hbad] at hfirst
  rw [reportOf, hfirst, Option.map_map]
  rfl

/-- The alignment checks of the regions and then their bounds checks; a region is (subcode, alignment, base, length) as in
`regionReport`. -/
def regionChecks (memBytes : Nat) (rs : List (Nat × Nat × Nat × Nat)) : List Check :=
  rs.map (fun r => alignCheck r.1 r.2.1 ⟨r.2.2.1, r.2.2.2⟩) ++
    rs.map fun r => boundsCheck r.1 memBytes ⟨r.2.2.1, r.2.2.2⟩

/-- The overlap checks of a destination with its sources, each (subcode, base, length) as in `overlapReport`. -/
def overlapChecks (dst : Region) (rs : List (Nat × Nat × Nat)) : List Check :=
  rs.map fun r => overlapCheck r.1 dst ⟨r.2.1, r.2.2⟩

theorem reportOf_regionChecks (memBytes : Nat) (rs : List (Nat × Nat × Nat × Nat)) :
    reportOf (regionChecks memBytes rs) = regionReport memBytes rs := by
  have halign : ∀ r : Nat × Nat × Nat × Nat, (alignCheck r.1 r.2.1 ⟨r.2.2.1, r.2.2.2⟩).ok =
      !decide (r.2.2.2 ≠ 0 ∧ r.2.2.1 % r.2.1 ≠ 0) := fun r => by
    rw [alignCheck_ok, ← decide_not]
    exact decide_eq_decide.2 (by simp only; tauto)
  have hbounds : ∀ r : Nat × Nat × Nat × Nat, (boundsCheck r.1 memBytes ⟨r.2.2.1, r.2.2.2⟩).ok =
      !decide (r.2.2.2 ≠ 0 ∧ memBytes < r.2.2.1 + r.2.2.2) := fun r => by
    rw [boundsCheck_ok, ← decide_not]
    exact decide_eq_decide.2 (by simp only; omega)
  rw [regionChecks, reportOf_append, reportOf_map halign, reportOf_map hbounds, regionReport]
  cases rs.find? fun r => decide (r.2.2.2 ≠ 0 ∧ r.2.2.1 % r.2.1 ≠ 0) with
  | some r => rfl
  | none => cases rs.find? fun r => decide (r.2.2.2 ≠ 0 ∧ memBytes < r.2.2.1 + r.2.2.2) <;> rfl

theorem reportOf_overlapChecks (dst : Region) (rs : List (Nat × Nat × Nat)) :
    reportOf (overlapChecks dst rs) = overlapReport dst.base dst.len rs :=
  reportOf_map fun r => by rw [overlapCheck_ok, decide_not, Bool.not_not]

/-! ## How a command ends -/

/-- A command whose checks report an error ends with that error and writes nothing (60_exceptions.md R266). -/
theorem exec_endsBadly {i : Instr} {s : State} {code sub idx : Nat}
    (hsub : ∀ c ∈ (planOf i s).checks s, c.err.sub < 256)
    (h : reportOf ((planOf i s).checks s) = some (code, sub, idx)) :
    ∃ t, exec i s = .next t ∧ EndsBadly s t code sub idx := by
  obtain ⟨r, hr, hreport⟩ := Option.map_eq_some_iff.1 h
  have hlt : r.sub < 256 := by
    obtain ⟨before, c, after, hcs, -, -, rfl⟩ := (firstFailure_eq_some_iff _ _).1 hr
    exact hsub c (by rw [hcs]; simp)
  have hrun : (planOf i s).run s = s.fail r := by
    rw [Plan.checks, firstFailure_append, Option.or_eq_some_iff] at hr
    rcases hr with hearly | ⟨hearly, hlate⟩
    · exact Plan.run_of_early hearly s
    · exact Plan.run_of_late hearly hlate
  obtain ⟨rfl, rfl, rfl⟩ : r.cls.code = code ∧ r.sub = sub ∧ r.idx = idx := by simpa [Raise.report] using hreport
  exact ⟨_, by rw [exec_eq_run, hrun], fail_endsBadly s r hlt⟩

/-- A command whose checks report nothing takes its own effect. -/
theorem exec_of_report_none {i : Instr} {s : State} (h : reportOf ((planOf i s).checks s) = none) :
    exec i s = .next ((planOf i s).act s) := by
  rw [reportOf, Option.map_eq_none_iff, Plan.checks, firstFailure_append, Option.or_eq_none_iff] at h
  obtain ⟨hearly, hlate⟩ := h
  rw [exec_eq_run, Plan.run_of_pass hearly hlate]

/-- From `s` to `t` a command has ended well with `n` samples at ARG_DST, sample `j` being `f j`, and nothing else has
changed. -/
def EndsWithSamples (s t : State) (n : Nat) (f : Nat → Sample) : Prop :=
  EndsWell s t n ∧ ResultsKept s t ∧ t.frame = s.frame ∧ BytesKeptOutside s t s.argDst (16 * n) ∧
    ∀ j < n, t.readSample (s.argDst + 16 * j) = f j

theorem State.readSample_succeed (s : State) (n a : Nat) : (s.succeed n).readSample a = s.readSample a := rfl

theorem writeSamples_succeed_endsWithSamples (s : State) (n : Nat) (f : Nat → Sample) :
    EndsWithSamples s ((s.writeSamples s.argDst ((List.range n).map f)).succeed n) n f := by
  obtain ⟨-, hbytes⟩ := (writesOnly_writeSamples s s.argDst (l := (List.range n).map f) (n := n) (by simp)).succeed n
  refine ⟨succeed_endsWell rfl n, ⟨rfl, rfl⟩, rfl, hbytes, fun j hj => ?_⟩
  rw [State.readSample_succeed, State.readSample_writeSamples _ _ _ _ (by simpa using hj)]
  simp

end Sys2Proof.Machine
end

section
/-! PROOFS. MAP_BPSK, MAP_QPSK and MAP_QAM16 (40_symbol_mapper.md): which check they report, and the symbols they write. -/

namespace Sys2Proof.Machine

/-! ## The checks (R131, R132) -/

/-- Checks 3 to 5 of R131 are those of the two regions; the source, of single bytes, is aligned anywhere. -/
theorem reportOf_mapperChecks (k : Nat) (s : State) :
    reportOf (mapperChecks k s) =
      if s.argCount % k ≠ 0 then some (0x01, 1, s.argCount % k)
      else
        (regionReport s.params.memBytes [(1, 1, s.argSrc, s.argCount), (3, 8, s.argDst, 16 * (s.argCount / k))]).or
          (overlapReport s.argDst (16 * (s.argCount / k)) [(1, s.argSrc, s.argCount)]) := by
  have hsrc : (alignCheck 1 1 (mapperSrc s)).ok = true := by
    rw [alignCheck_ok]
    exact decide_eq_true (.inr (Nat.mod_one _))
  have hregions : reportOf (alignCheck 1 1 (mapperSrc s) :: (mapperChecks k s).tail) = _ :=
    reportOf_append
      (regionChecks s.params.memBytes [(1, 1, s.argSrc, s.argCount), (3, 8, s.argDst, 16 * (s.argCount / k))])
      (overlapChecks (mapperDst k s) [(1, s.argSrc, s.argCount)])
  rw [reportOf_cons, if_pos hsrc, reportOf_regionChecks, reportOf_overlapChecks] at hregions
  rw [mapperChecks, reportOf_cons]
  by_cases h : s.argCount % k = 0
  · rw [if_pos (decide_eq_true h), if_neg (not_not.2 h)]
    exact hregions
  · rw [if_neg (by simpa using h), if_pos h]
    rfl

theorem reportOf_bitScan (s : State) :
    reportOf (bitScan s) =
      ((List.range s.argCount).find? fun i => decide (1 < s.readBit (s.argSrc + i))).map fun i => (0x02, 1, i) :=
  reportOf_map fun i => by rw [← decide_not]; exact decide_eq_decide.2 not_lt.symm

theorem mapperPlan_report (k : Nat) (symbol : State → Nat → Sample) (s : State) :
    reportOf ((mapperPlan k symbol s).checks s) = mapperReport k s := by
  change reportOf (mapperChecks k s ++ bitScan s) = _
  rw [reportOf_append, reportOf_mapperChecks, reportOf_bitScan, mapperReport]
  split
  · rfl
  · exact Option.or_assoc

theorem mapperPlan_sub_lt (k : Nat) (symbol : State → Nat → Sample) (s : State) :
    ∀ c ∈ (mapperPlan k symbol s).checks s, c.err.sub < 256 := by
  intro c hc
  rcases List.mem_append.1 hc with hearly | hscan
  · simp only [mapperPlan, mapperChecks, List.mem_cons, List.not_mem_nil, or_false] at hearly
    rcases hearly with rfl | rfl | rfl | rfl | rfl <;> simp [alignCheck, boundsCheck, overlapCheck]
  · obtain ⟨i, -, rfl⟩ := List.mem_map.1 hscan
    simp

section
variable {i : Instr} {k : Nat} {symbol : State → Nat → Sample} {s : State}

/-- A mapper command whose checks fail ends with what they report. -/
theorem exec_mapper_endsBadly {code sub idx : Nat} (hplan : planOf i s = mapperPlan k symbol s)
    (h : mapperReport k s = some (code, sub, idx)) : ∃ t, exec i s = .next t ∧ EndsBadly s t code sub idx :=
  exec_endsBadly (hplan ▸ mapperPlan_sub_lt k symbol s) (by rw [hplan, mapperPlan_report, h])

/-- A mapper command whose checks pass writes COUNT div k symbols (R140). -/
theorem exec_mapper_endsWithSamples (hplan : planOf i s = mapperPlan k symbol s) (h : mapperReport k s = none) :
    ∃ t, exec i s = .next t ∧ EndsWithSamples s t (s.argCount / k) (symbol s) := by
  refine ⟨(mapperPlan k symbol s).act s, ?_, writeSamples_succeed_endsWithSamples s (s.argCount / k) (symbol s)⟩
  rw [exec_of_report_none (by rw [hplan, mapperPlan_report, h]), hplan]

end

/-- Settles O14: the three commands share their checks, and `mapperReport` is what those report. -/
theorem mappersReportTheFirstFailingCheck : Obligations.MappersReportTheFirstFailingCheck :=
  fun _ _ _ _ => ⟨exec_mapper_endsBadly rfl, fun _ => exec_mapper_endsBadly rfl, exec_mapper_endsBadly rfl⟩

/-! ## The symbols -/

theorem bpskPoint_eq (b : Nat) :
    bpskPoint b = ⟨if b = 0 then 0xBFF0000000000000 else 0x3FF0000000000000, 0x0000000000000000⟩ := by
  rw [bpskPoint]
  split <;> rfl

/-- The second bit of the pair decides the sign of re, the first that of im (R135). -/
theorem qpskSign_eq (b0 b1 : Nat) :
    qpskSign b0 b1 = (if b1 = 0 then 1 else -1, if b0 = 0 then 1 else -1) := by
  cases b0 <;> cases b1 <;> rfl

theorem signed_qpskAmplitude (norm : Bool) (b : Nat) :
    signed (if b = 0 then 1 else -1) (qpskAmplitude norm) =
      if norm then (if b = 0 then 0x3FE6A09E667F3BCD else 0xBFE6A09E667F3BCD)
      else (if b = 0 then 0x3FF0000000000000 else 0xBFF0000000000000) := by
  cases b <;> cases norm <;> rfl

/-- The stored level of a bit pair (R137). -/
theorem qam16Val_pam4 (x y : Nat) :
    qam16Val (pam4 x y) =
      if x = 0 then (if y = 0 then 0xBFEE5B9D136C6D96 else 0xBFD43D136248490F)
      else (if y = 0 then 0x3FEE5B9D136C6D96 else 0x3FD43D136248490F) := by
  cases x <;> cases y <;> rfl

/-- Settles O20: with one bit per symbol, COUNT div k is COUNT. -/
theorem mapBpskResult : Obligations.MapBpskResult := by
  intro s h
  obtain ⟨t, hexec, hends⟩ := exec_mapper_endsWithSamples (i := .mapBpsk) rfl h
  rw [Nat.div_one] at hends
  obtain ⟨hwell, hres, hframe, hbytes, hsymbols⟩ := hends
  exact ⟨t, hexec, hwell, hres, hframe, hbytes, fun j hj => (hsymbols j hj).trans (bpskPoint_eq _)⟩

/-- Settles O21: the two components of `qpskPoint` are the signs of R135 on the amplitude of R134. -/
theorem mapQpskResult : Obligations.MapQpskResult := by
  intro s norm h
  obtain ⟨t, hexec, hwell, hres, hframe, hbytes, hsymbols⟩ :=
    exec_mapper_endsWithSamples (i := .mapQpsk norm) rfl h
  refine ⟨t, hexec, hwell, hres, hframe, hbytes, fun j hj => ?_⟩
  rw [hsymbols j hj, qpskSymbol, qpskPoint, qpskSign_eq, signed_qpskAmplitude, signed_qpskAmplitude]

/-- Settles O22: the two components of `qam16Point` are the levels of R137. -/
theorem mapQam16Result : Obligations.MapQam16Result := by
  intro s h
  obtain ⟨t, hexec, hwell, hres, hframe, hbytes, hsymbols⟩ := exec_mapper_endsWithSamples (i := .mapQam16) rfl h
  refine ⟨t, hexec, hwell, hres, hframe, hbytes, fun j hj => ?_⟩
  rw [hsymbols j hj, qam16Symbol, qam16Point, qam16Val_pam4, qam16Val_pam4]

end Sys2Proof.Machine
end

section
/-! PROOFS. What the filter designs need of the arithmetic (00_scope.md R16, R17, R20, R22): integers as binary64 numbers, the
closed unit interval, and negation under products, quotients and the sinc. -/

namespace Sys2Proof

/-! ## Integers -/

theorem F64.ofInt_natCast (n : Nat) : F64.ofInt (n : Int) = F64.ofNat n := by
  have hnonneg : 0 ≤ (n : Int) * 2 ^ 1074 := mul_nonneg (Int.natCast_nonneg n) (by positivity)
  rw [F64.ofInt, F64.roundInt, F64.ofNat, natAbs_mul_two_pow, Int.natAbs_natCast, decide_eq_false hnonneg.not_gt]

/-! ## The unit interval -/

/-- The pattern of a NaN counts for a magnitude above 1. -/
theorem F64.one_lt_abs_val_of_isNaN {x : F64} (h : F64.isNaN x = true) : 1 < |F64.val x| := by
  have hexp : F64.expField x = 2047 := by
    rw [F64.isNaN, Bool.and_eq_true] at h
    exact of_decide_eq_true h.1
  have hmag : 2 ^ 1074 < F64.mag x := by
    rw [F64.mag, if_neg (by omega), hexp]
    calc 2 ^ 1074 < 2 ^ (2047 - 1) := Nat.pow_lt_pow_right one_lt_two (by decide)
      _ ≤ (2 ^ 52 + F64.fracField x) * 2 ^ (2047 - 1) := Nat.le_mul_of_pos_left _ (by omega)
  rw [F64.val_eq_signFactor, abs_mul, abs_signFactor, one_mul, abs_of_nonneg (unitQuotient_nonneg _ _), unitQuotient,
    Nat.cast_one, div_one, one_lt_div (by positivity)]
  exact_mod_cast hmag

theorem F64.not_unit_of_isNaN {x : F64} (h : F64.isNaN x = true) :
    ¬ (0 ≤ F64.val x ∧ F64.val x ≤ 1) := fun ⟨h0, h1⟩ =>
  (F64.one_lt_abs_val_of_isNaN h).not_ge (by rwa [abs_of_nonneg h0])

/-- A check that a value lies strictly between 0 and 1; a NaN fails it (R17). -/
theorem F64.between_zero_one_iff (x : F64) :
    (F64.lt F64.zero x && F64.lt x F64.one) = true ↔ 0 < F64.val x ∧ F64.val x < 1 := by
  obtain ⟨-, hnan, hcmp, -⟩ := integersAndComparisonsAreExact
  obtain ⟨hzero, hone⟩ := F64.val_constants
  cases h : F64.isNaN x with
  | false =>
    obtain ⟨hlo, -⟩ := hcmp F64.zero x (by decide) h
    obtain ⟨hhi, -⟩ := hcmp x F64.one h (by decide)
    rw [Bool.and_eq_true, hlo, hhi, hzero, hone]
  | true =>
    obtain ⟨hlo, -⟩ := hnan F64.zero x (.inr h)
    exact iff_of_false (by simp [hlo]) fun ⟨h0, h1⟩ => F64.not_unit_of_isNaN h ⟨h0.le, h1.le⟩

/-- A check that a value lies between 0 and 1, the ends included. -/
theorem F64.from_zero_to_one_iff (x : F64) :
    (F64.le F64.zero x && F64.le x F64.one) = true ↔ 0 ≤ F64.val x ∧ F64.val x ≤ 1 := by
  obtain ⟨-, hnan, hcmp, -⟩ := integersAndComparisonsAreExact
  obtain ⟨hzero, hone⟩ := F64.val_constants
  cases h : F64.isNaN x with
  | false =>
    obtain ⟨-, hlo, -⟩ := hcmp F64.zero x (by decide) h
    obtain ⟨-, hhi, -⟩ := hcmp x F64.one h (by decide)
    rw [Bool.and_eq_true, hlo, hhi, hzero, hone]
  | true =>
    obtain ⟨-, hlo, -⟩ := hnan F64.zero x (.inr h)
    exact iff_of_false (by simp [hlo]) (F64.not_unit_of_isNaN h)

/-! ## Negation -/

theorem F64.neg_pack (neg : Bool) {b : Nat} (h : b < 2 ^ 63) : F64.neg (F64.pack neg b) = F64.pack (!neg) b := by
  have hlow : (F64.neg (F64.pack neg b)).toNat % 2 ^ 63 = b := by
    rw [F64.low_eq_neg, F64.toNat_pack neg h]
    split <;> omega
  rw [← F64.pack_sign (F64.neg (F64.pack neg b)), F64.sign_neg, F64.sign_pack neg h, hlow]

theorem F64.neg_inf (neg : Bool) : F64.neg (F64.inf neg) = F64.inf (!neg) := F64.neg_pack neg (by norm_num)

theorem F64.neg_round (neg : Bool) (num den : Nat) : F64.neg (F64.round neg num den) = F64.round (!neg) num den :=
  F64.neg_pack neg ((F64.roundMag_le num den).trans_lt (by norm_num))

theorem F64.ofInt_neg {n : Int} (h : n ≠ 0) : F64.ofInt (-n) = F64.neg (F64.ofInt n) := by
  have hpos : (0 : Int) < 2 ^ 1074 := by positivity
  have hneg : ∀ m : Int, m * 2 ^ 1074 < 0 ↔ m < 0 := fun m =>
    ⟨fun hm => neg_of_mul_neg_left hm hpos.le, fun hm => mul_neg_of_neg_of_pos hm hpos⟩
  have hsign : decide (-n * 2 ^ 1074 < 0) = !decide (n * 2 ^ 1074 < 0) := by
    rw [← decide_not, decide_eq_decide, hneg, hneg]
    omega
  rw [F64.ofInt, F64.ofInt, F64.roundInt, F64.roundInt, F64.neg_round, hsign, natAbs_mul_two_pow, natAbs_mul_two_pow,
    Int.natAbs_neg]

theorem F64.mul_neg_right {x y : F64} (h : F64.isNaN (F64.mul x y) = false) :
    F64.mul x (F64.neg y) = F64.neg (F64.mul x y) := by
  unfold F64.mul at h ⊢
  generalize 2 ^ 1074 = unit at h ⊢
  simp only [F64.isNaN_neg, F64.isInf_neg, F64.isZero_neg, F64.sign_neg, F64.mag_neg, Bool.bne_not]
  split_ifs at h ⊢ with hnan hinf hzero
  · simp at h
  · simp at h
  · exact (F64.neg_inf _).symm
  · exact (F64.neg_round _ _ _).symm

theorem F64.div_neg_neg (x y : F64) : F64.div (F64.neg x) (F64.neg y) = F64.div x y := by
  unfold F64.div
  generalize 2 ^ 1074 = unit
  simp

/-- The sinc is even (00_scope.md R22, by TRIG-SYM). -/
theorem sinc_neg (tol : ℚ) (x : F64) : sinc tol (F64.neg x) = sinc tol x := by
  cases hzero : F64.isZero x with
  | true => rw [sinc, sinc, F64.isZero_neg, hzero, if_pos rfl, if_pos rfl]
  | false =>
    rw [sinc, sinc, F64.isZero_neg, hzero, if_neg Bool.false_ne_true, if_neg Bool.false_ne_true]
    cases hfin : F64.isFinite x with
    | false => simp [numSinPi, hfin, F64.div]
    | true =>
      have hprod : F64.isNaN (F64.mul F64.pi x) = false := by
        have hpi : F64.isNaN F64.pi = false ∧ F64.isInf F64.pi = false := by decide
        simp [← Bool.not_eq_true, F64.isNaN_mul_iff, F64.isNaN_of_isFinite hfin, F64.isInf_of_isFinite hfin, hpi]
      rw [numSinPi_neg tol hfin, F64.mul_neg_right hprod, F64.div_neg_neg]

theorem sinc_mul_neg (tol : ℚ) (c x : F64) : sinc tol (F64.mul c (F64.neg x)) = sinc tol (F64.mul c x) := by
  cases h : F64.isNaN (F64.mul c x) with
  | false => rw [F64.mul_neg_right h, sinc_neg]
  | true =>
    have hneg : F64.isNaN (F64.mul c (F64.neg x)) = true := by
      rw [F64.isNaN_mul_iff] at h ⊢
      simpa only [F64.isNaN_neg, F64.isZero_neg, F64.isInf_neg] using h
    rw [F64.mul_eq_nan h, F64.mul_eq_nan hneg]

theorem sinc_mul_ofInt_neg (tol : ℚ) (c : F64) (d : Int) :
    sinc tol (F64.mul c (F64.ofInt (-d))) = sinc tol (F64.mul c (F64.ofInt d)) := by
  by_cases hd : d = 0
  · rw [hd, neg_zero]
  · rw [F64.ofInt_neg hd, sinc_mul_neg]

theorem specSinc_eq (tol : ℚ) (x : F64) : Machine.specSinc tol x = sinc tol x := by
  have hzero : F64.val x = 0 ∧ F64.isFinite x = true ↔ F64.isZero x = true := by
    rw [F64.val_eq_zero_iff_isZero, and_iff_left_iff_imp]
    intro h
    simp [F64.isFinite, F64.expField_of_isZero h]
  rw [Machine.specSinc, sinc]
  simp only [hzero]
  rfl

end Sys2Proof
end

section
/-! PROOFS. FIR_LOWPASS and FIR_RCOS (41_filter_design.md): which check they report, the taps they write, and that the taps
are symmetric. -/

namespace Sys2Proof.Machine

/-! ## Both commands (R150) -/

/-- A command that has ended without error has had no check fail, and has taken its own effect. -/
theorem exec_without_error {i : Instr} {s t : State} (hexec : exec i s = .next t) (hok : t.status.err = false) :
    reportOf ((planOf i s).checks s) = none ∧ t = (planOf i s).act s := by
  obtain rfl := (exec_eq_next_iff i s t).1 hexec
  rcases (planOf i s).run_cases s with ⟨r, -, hrun⟩ | ⟨hearly, hlate, hrun⟩
  · rw [hrun] at hok
    cases hok
  · refine ⟨?_, hrun⟩
    rw [reportOf, Plan.checks, firstFailure_append, hearly, hlate]
    rfl

/-- A scalar check reports its error unless its condition holds. -/
theorem reportOf_cons_of_iff {ok : Bool} {p : Prop} [Decidable p] (h : ok = true ↔ p) (r : Raise) (cs : List Check) :
    reportOf (⟨ok, r⟩ :: cs) = if p then reportOf cs else some r.report := by
  rw [reportOf_cons]
  exact if_congr h rfl rfl

theorem ite_some_or {α : Type} (p : Prop) [Decidable p] (x : α) (o late : Option α) :
    (if p then some x else o).or late = if p then some x else o.or late := by
  split <;> rfl

/-- From `s` to `t` a command has ended well with `n` reals at ARG_DST, real `j` being `f j`, and nothing else has changed. -/
def EndsWithReals (s t : State) (n : Nat) (f : Nat → F64) : Prop :=
  EndsWell s t n ∧ ResultsKept s t ∧ t.frame = s.frame ∧ BytesKeptOutside s t s.argDst (8 * n) ∧
    ∀ j < n, t.readF64 (s.argDst + 8 * j) = f j

theorem State.readF64_succeed (s : State) (n a : Nat) : (s.succeed n).readF64 a = s.readF64 a := rfl

theorem writeReals_succeed_endsWithReals (s : State) (n : Nat) (f : Nat → F64) :
    EndsWithReals s ((s.writeReals s.argDst ((List.range n).map f)).succeed n) n f := by
  obtain ⟨-, hbytes⟩ := (writesOnly_writeReals s s.argDst (l := (List.range n).map f) (n := n) (by simp)).succeed n
  refine ⟨succeed_endsWell rfl n, ⟨rfl, rfl⟩, rfl, hbytes, fun j hj => ?_⟩
  rw [State.readF64_succeed, State.readF64_writeReals _ _ _ _ (by simpa using hj)]
  simp

/-- Reals that are the same from either end are read back so. -/
theorem EndsWithReals.mirror {s t : State} {n : Nat} {f : Nat → F64} (h : EndsWithReals s t n f)
    (hf : ∀ j < n, f (n - 1 - j) = f j) {j : Nat} (hj : j < n) :
    t.readF64 (s.argDst + 8 * j) = t.readF64 (s.argDst + 8 * (n - 1 - j)) := by
  obtain ⟨-, -, -, -, hreads⟩ := h
  rw [hreads j hj, hreads (n - 1 - j) (by omega), hf j hj]

/-- The ascending sum from +0, as the spec's formula (R154, R159). -/
theorem sumF64_range (n : Nat) (f : Nat → F64) : sumF64 ((List.range n).map f) = specSum f n := by
  induction n with
  | zero => rfl
  | succ n ih => rw [List.range_succ, List.map_append, sumF64, List.foldl_append, ← sumF64, ih]; rfl

/-! ## FIR_LOWPASS: the taps (R152 to R154) -/

/-- The offset of R152 in whole numbers, where N is not 0. -/
theorem tapOffset_eq {N : Nat} (hN : N ≠ 0) (n : Nat) : tapOffset N n = n - ((N : Int) - 1) / 2 := by
  rw [tapOffset]
  omega

theorem specLowpassTap_eq (tol : ℚ) {N : Nat} (hN : N ≠ 0) (c : F64) (n : Nat) :
    specLowpassTap tol N c n = F64.mul (lowpassIdeal tol N c n) (hammingWindow tol N n) := by
  have hangle : F64.ofInt (2 * |tapOffset N n|) = F64.ofNat (2 * (tapOffset N n).natAbs) := by
    rw [Int.abs_eq_natAbs, ← F64.ofInt_natCast, Nat.cast_mul, Nat.cast_ofNat]
  have hspan : F64.ofInt ((N : Int) - 1) = F64.ofNat (N - 1) := by
    rw [← F64.ofInt_natCast, Nat.cast_sub (Nat.pos_of_ne_zero hN), Nat.cast_one]
  simp only [specLowpassTap, ← tapOffset_eq hN, specSinc_eq, hangle, hspan, lowpassIdeal, hammingWindow, F64.one,
    hamming054, hamming046]

theorem lowpassTaps_eq (tol : ℚ) {N : Nat} (hN : N ≠ 0) (c : F64) :
    lowpassTaps tol N c = (List.range N).map (specLowpassTap tol N c) :=
  List.map_congr_left fun n _ => (specLowpassTap_eq tol hN c n).symm

/-- The tap written at `n` (R154). -/
def specLowpassOut (tol : ℚ) (dcnorm : Bool) (N : Nat) (c : F64) (n : Nat) : F64 :=
  if dcnorm then F64.div (specLowpassTap tol N c n) (specSum (specLowpassTap tol N c) N) else specLowpassTap tol N c n

theorem lowpassOut_eq (tol : ℚ) (dcnorm : Bool) {N : Nat} (hN : N ≠ 0) (c : F64) :
    lowpassOut tol dcnorm N c = (List.range N).map (specLowpassOut tol dcnorm N c) := by
  rw [lowpassOut, lowpassTaps_eq tol hN, sumF64_range]
  cases dcnorm <;> simp [specLowpassOut, Function.comp_def]

/-! ## FIR_LOWPASS: the checks (R151, R154) -/

theorem reportOf_lowpassChecks (s : State) :
    reportOf (lowpassChecks s) =
      if s.argP1 = 0 then some (0x03, 1, 0)
      else if s.argP1 % 2 = 0 then some (0x03, 2, s.argP1)
      else if s.params.maxTaps < s.argP1 then some (0x03, 3, s.argP1)
      else if ¬ (0 < F64.val s.latched.f0 ∧ F64.val s.latched.f0 < 1) then some (0x03, 4, 0)
      else regionReport s.params.memBytes [(3, 8, s.argDst, 8 * s.argP1)] := by
  have hregion : reportOf [alignCheck 3 8 (tapsDst s.argP1 s), boundsCheck 3 s.params.memBytes (tapsDst s.argP1 s)] = _ :=
    reportOf_regionChecks s.params.memBytes [(3, 8, s.argDst, 8 * s.argP1)]
  rw [lowpassChecks, reportOf_cons_of_iff decide_eq_true_iff, reportOf_cons_of_iff decide_eq_true_iff,
    reportOf_cons_of_iff decide_eq_true_iff, reportOf_cons_of_iff (F64.between_zero_one_iff _), hregion]
  have hodd : s.argP1 % 2 = 0 ↔ ¬ s.argP1 % 2 = 1 := by omega
  simp only [hodd, ← not_le, ne_eq, ite_not]
  rfl

theorem reportOf_lowpassLate (dcnorm : Bool) {s : State} (hN : s.argP1 ≠ 0) :
    reportOf (lowpassLate dcnorm s) =
      if dcnorm = true ∧
          F64.lt F64.zero (specSum (specLowpassTap s.params.trigTol s.argP1 s.latched.f0) s.argP1) = false
        then some (0x03, 5, 0) else none := by
  rw [lowpassLate, lowpassTaps_eq _ hN, sumF64_range]
  cases dcnorm with
  | false => rfl
  | true =>
    rw [if_pos rfl, reportOf_cons_of_iff Iff.rfl]
    generalize F64.lt F64.zero _ = ok
    cases ok <;> rfl

theorem planFirLowpass_report (dcnorm : Bool) (s : State) :
    reportOf ((planFirLowpass dcnorm s).checks s) = lowpassReport dcnorm s := by
  change reportOf (lowpassChecks s ++ lowpassLate dcnorm s) = _
  rw [reportOf_append, reportOf_lowpassChecks, lowpassReport]
  by_cases hN : s.argP1 = 0
  · rw [if_pos hN, if_pos hN]
    rfl
  · simp only [ite_some_or, reportOf_lowpassLate dcnorm hN]

theorem planFirLowpass_sub_lt (dcnorm : Bool) (s : State) :
    ∀ c ∈ (planFirLowpass dcnorm s).checks s, c.err.sub < 256 := by
  intro c hc
  rcases List.mem_append.1 hc with hearly | hlate
  · simp only [planFirLowpass, lowpassChecks, List.mem_cons, List.not_mem_nil, or_false] at hearly
    rcases hearly with rfl | rfl | rfl | rfl | rfl | rfl <;> simp [alignCheck, boundsCheck]
  · cases dcnorm with
    | false => cases hlate
    | true =>
      obtain rfl := List.mem_singleton.1 hlate
      simp

theorem odd_of_lowpassReport {dcnorm : Bool} {s : State} (h : lowpassReport dcnorm s = none) : s.argP1 % 2 = 1 := by
  by_contra hodd
  rw [lowpassReport] at h
  split_ifs at h <;> omega

/-! ## FIR_LOWPASS: the result -/

theorem planFirLowpass_endsWithReals (dcnorm : Bool) {s : State} (hN : s.argP1 ≠ 0) :
    EndsWithReals s ((planFirLowpass dcnorm s).act s) s.argP1
      (specLowpassOut s.params.trigTol dcnorm s.argP1 s.latched.f0) := by
  have h := writeReals_succeed_endsWithReals s s.argP1 (specLowpassOut s.params.trigTol dcnorm s.argP1 s.latched.f0)
  rwa [← lowpassOut_eq _ dcnorm hN] at h

/-- Settles O23: where the checks pass N is odd, and the taps written are those of `specLowpassOut`. -/
theorem firLowpassResult : Obligations.FirLowpassResult := by
  intro s dcnorm h
  have hodd := odd_of_lowpassReport h
  exact ⟨_, exec_of_report_none (i := .firLowpass dcnorm) ((planFirLowpass_report dcnorm s).trans h),
    planFirLowpass_endsWithReals dcnorm (by omega)⟩

/-! ## FIR_LOWPASS: the symmetry (R155) -/

/-- The offsets of mirrored taps are opposite (R152). -/
theorem tapOffset_mirror {N n : Nat} (hodd : N % 2 = 1) (hn : n < N) : tapOffset N (N - 1 - n) = -tapOffset N n := by
  rw [tapOffset, tapOffset]
  omega

theorem lowpassIdeal_mirror (tol : ℚ) {N n : Nat} (c : F64) (hodd : N % 2 = 1) (hn : n < N) :
    lowpassIdeal tol N c (N - 1 - n) = lowpassIdeal tol N c n := by
  rw [lowpassIdeal, lowpassIdeal, tapOffset_mirror hodd hn, sinc_mul_ofInt_neg]

theorem hammingWindow_mirror (tol : ℚ) {N n : Nat} (hodd : N % 2 = 1) (hn : n < N) :
    hammingWindow tol N (N - 1 - n) = hammingWindow tol N n := by
  rw [hammingWindow, hammingWindow, tapOffset_mirror hodd hn, Int.natAbs_neg]

theorem specLowpassTap_mirror (tol : ℚ) {N n : Nat} (c : F64) (hodd : N % 2 = 1) (hn : n < N) :
    specLowpassTap tol N c (N - 1 - n) = specLowpassTap tol N c n := by
  have hN : N ≠ 0 := by omega
  rw [specLowpassTap_eq tol hN, specLowpassTap_eq tol hN, lowpassIdeal_mirror tol c hodd hn,
    hammingWindow_mirror tol hodd hn]

theorem specLowpassOut_mirror (tol : ℚ) (dcnorm : Bool) {N n : Nat} (c : F64) (hodd : N % 2 = 1) (hn : n < N) :
    specLowpassOut tol dcnorm N c (N - 1 - n) = specLowpassOut tol dcnorm N c n := by
  rw [specLowpassOut, specLowpassOut, specLowpassTap_mirror tol c hodd hn]

/-- Settles O31: the sinc and the window are even in the offset, and the sum is the same for every tap. -/
theorem lowpassTapsSymmetric : Obligations.LowpassTapsSymmetric := by
  intro s t dcnorm n hexec hok hn
  obtain ⟨hreport, rfl⟩ := exec_without_error hexec hok
  have hodd := odd_of_lowpassReport ((planFirLowpass_report dcnorm s).symm.trans hreport)
  exact (planFirLowpass_endsWithReals dcnorm (by omega)).mirror
    (fun _ hj => specLowpassOut_mirror _ dcnorm _ hodd hj) hn

/-! ## FIR_RCOS: the taps (R157 to R159) -/

theorem specRcosRaw_eq (tol : ℚ) (eps beta : F64) (S L n : Nat) :
    specRcosRaw tol eps beta S L n = rcosPoint tol eps beta (rcosTime S L n) := by
  have htime : F64.div (F64.ofInt |2 * (n : Int) - L * S|) (F64.ofInt (2 * S)) = rcosTime S L n := by
    rw [rcosTime, Int.abs_eq_natAbs, ← F64.ofInt_natCast, ← F64.ofInt_natCast, Nat.cast_mul, Nat.cast_mul,
      Nat.cast_ofNat]
  simp only [specRcosRaw, htime, specSinc_eq, rcosPoint, rcosDen, F64.one, F64.two, pi4]
  rfl

theorem rcosLatched_eq (s : State) : rcosLatched s = (List.range (rcosCount s)).map (specRcosLatched s) :=
  List.map_congr_left fun n _ => (specRcosRaw_eq _ _ _ _ _ n).symm

theorem rcosEnergy_latched (s : State) : rcosEnergy (rcosLatched s) = specRcosEnergy s := by
  rw [rcosEnergy, rcosLatched_eq, List.map_map]
  exact sumF64_range _ _

/-- The tap written at `n` (R159). -/
def specRcosOut (s : State) (n : Nat) : F64 := F64.div (specRcosLatched s n) (F64.sqrt (specRcosEnergy s))

theorem rcosOut_latched (s : State) : rcosOut (rcosLatched s) = (List.range (rcosCount s)).map (specRcosOut s) := by
  rw [rcosOut, rcosEnergy_latched, rcosLatched_eq, List.map_map]
  exact List.map_congr_left fun _ _ => rfl

/-! ## FIR_RCOS: the checks (R156, R159) -/

theorem reportOf_rcosChecks (s : State) :
    reportOf (rcosChecks s) =
      if ¬ (0 ≤ F64.val s.latched.f0 ∧ F64.val s.latched.f0 ≤ 1) then some (0x03, 6, 0)
      else if s.argP1 = 0 then some (0x03, 7, 0)
      else if s.argP0 = 0 then some (0x03, 8, 0)
      else if s.params.maxTaps < rcosCount s then some (0x03, 3, rcosCount s)
      else regionReport s.params.memBytes [(3, 8, s.argDst, 8 * rcosCount s)] := by
  have hregion :
      reportOf [alignCheck 3 8 (tapsDst (rcosCount s) s), boundsCheck 3 s.params.memBytes (tapsDst (rcosCount s) s)] = _ :=
    reportOf_regionChecks s.params.memBytes [(3, 8, s.argDst, 8 * rcosCount s)]
  rw [rcosChecks, reportOf_cons_of_iff (F64.from_zero_to_one_iff _), reportOf_cons_of_iff decide_eq_true_iff,
    reportOf_cons_of_iff decide_eq_true_iff, reportOf_cons_of_iff decide_eq_true_iff, hregion]
  simp only [← not_le, ne_eq, ite_not]
  rfl

theorem reportOf_rcosLate (s : State) :
    reportOf (rcosLate s) =
      if F64.lt F64.zero (specRcosEnergy s) = true ∧ F64.isFinite (specRcosEnergy s) = true then none
      else some (0x03, 9, 0) := by
  rw [rcosLate, rcosEnergy_latched, reportOf_cons_of_iff Bool.and_eq_true_iff]
  rfl

theorem planFirRcos_report (s : State) : reportOf ((planFirRcos s).checks s) = rcosReport s := by
  change reportOf (rcosChecks s ++ rcosLate s) = _
  rw [reportOf_append, reportOf_rcosChecks, reportOf_rcosLate]
  simp only [ite_some_or]
  rfl

theorem planFirRcos_sub_lt (s : State) : ∀ c ∈ (planFirRcos s).checks s, c.err.sub < 256 := by
  intro c hc
  rcases List.mem_append.1 hc with hearly | hlate
  · simp only [planFirRcos, rcosChecks, List.mem_cons, List.not_mem_nil, or_false] at hearly
    rcases hearly with rfl | rfl | rfl | rfl | rfl | rfl <;> simp [alignCheck, boundsCheck]
  · obtain rfl := List.mem_singleton.1 hlate
    simp

/-- Settles O15: each command's checks report what `lowpassReport` and `rcosReport` say. -/
theorem filterDesignsReportTheFirstFailingCheck : Obligations.FilterDesignsReportTheFirstFailingCheck :=
  fun s _ _ _ =>
    ⟨fun dcnorm h => exec_endsBadly (planFirLowpass_sub_lt dcnorm s) ((planFirLowpass_report dcnorm s).trans h),
      fun h => exec_endsBadly (planFirRcos_sub_lt s) ((planFirRcos_report s).trans h)⟩

/-! ## FIR_RCOS: the result, and the symmetry (R161 (a)) -/

theorem planFirRcos_endsWithReals (s : State) :
    EndsWithReals s ((planFirRcos s).act s) (rcosCount s) (specRcosOut s) := by
  have h := writeReals_succeed_endsWithReals s (rcosCount s) (specRcosOut s)
  rwa [← rcosOut_latched] at h

/-- Settles O24: the taps written are those of `specRcosOut`. -/
theorem firRcosResult : Obligations.FirRcosResult := fun s h =>
  ⟨_, exec_of_report_none (i := .firRcos) ((planFirRcos_report s).trans h), planFirRcos_endsWithReals s⟩

/-- Mirrored taps stand at the same distance from the centre (R157). -/
theorem rcosTime_mirror {S L n : Nat} (hn : n ≤ L * S) : rcosTime S L (L * S - n) = rcosTime S L n := by
  have habs : (2 * ((L * S - n : Nat) : Int) - (L * S : Nat)).natAbs = (2 * (n : Int) - (L * S : Nat)).natAbs := by omega
  rw [rcosTime, rcosTime, habs]

theorem specRcosOut_mirror (s : State) {n : Nat} (hn : n ≤ s.argP1 * s.argP0) :
    specRcosOut s (s.argP1 * s.argP0 - n) = specRcosOut s n := by
  rw [specRcosOut, specRcosOut, specRcosLatched, specRcosLatched, specRcosRaw_eq, specRcosRaw_eq, rcosTime_mirror hn]

/-- Settles O32: a raw tap depends on its distance from the centre alone, and the energy is the same for every tap. -/
theorem rcosTapsSymmetric : Obligations.RcosTapsSymmetric := by
  intro s t n hexec hok hn
  obtain ⟨-, rfl⟩ := exec_without_error hexec hok
  exact (planFirRcos_endsWithReals s).mirror (fun _ hj => specRcosOut_mirror s (Nat.le_of_lt_succ hj))
    (Nat.lt_succ_of_le hn)

end Sys2Proof.Machine
end

section
/-! PROOFS. What PULSE_SHAPE needs of the arithmetic (00_scope.md R16): a finite number rounds to itself, 1.0 is neutral in a
product and +0 in a sum, and where a sum is -0. -/

namespace Sys2Proof

/-! ## A finite number rounds to itself -/

theorem magAt_strictMono {a b : Nat} (h : a < b) (hb : b < 2 ^ 63) : magAt a < magAt b :=
  (magAt_lt_succ (by omega)).trans_le (magAt_mono h hb)

/-- The largest finite magnitude lies below the overflow threshold of R16. -/
theorem magAt_not_overflows {b : Nat} (h : b < 2047 * 2 ^ 52) {den : Nat} (hd : 0 < den) :
    ¬ F64.Overflows (magAt b * den) den := by
  have hmax : magAt (2045 * 2 ^ 52 + (2 ^ 53 - 1)) = (2 ^ 53 - 1) * 2 ^ 2045 :=
    magAt_significand (.inr (by norm_num)) (by norm_num) (by norm_num)
  have hle : magAt b ≤ (2 ^ 53 - 1) * 2 ^ 2045 := hmax ▸ magAt_mono (by omega) (by norm_num)
  have hpos : 0 < 2 ^ 2045 := pow_pos two_pos _
  rw [F64.Overflows, ← mul_assoc, Nat.mul_le_mul_right_iff hd]
  generalize 2 ^ 2045 = top at hle hpos ⊢
  omega

/-- A magnitude rounds to itself: no other has it between its midpoints. -/
theorem F64.roundMag_magAt {b : Nat} (h : b < 2047 * 2 ^ 52) {den : Nat} (hd : 0 < den) :
    F64.roundMag (magAt b * den) den = b := by
  have hno := magAt_not_overflows h hd
  have hnear := F64.roundMag_nearest hd hno
  obtain ⟨-, hfin⟩ := F64.roundMag_of_no_overflow hd hno
  have hbelow := hnear.below
  have habove := hnear.above
  generalize F64.roundMag (magAt b * den) den = c at hbelow habove hfin
  rcases lt_trichotomy c b with hcb | rfl | hbc
  · have hlt := magAt_strictMono hcb (by omega)
    have hle : magAt (c + 1) ≤ magAt b := magAt_mono hcb (by omega)
    rw [← mul_assoc, Nat.mul_le_mul_right_iff hd] at habove
    omega
  · rfl
  · obtain ⟨a, rfl⟩ := Nat.exists_eq_add_one.2 (Nat.zero_lt_of_lt hbc)
    have hlt := magAt_strictMono hbc (by omega)
    have hle := magAt_mono (Nat.le_of_lt_succ hbc) (by omega)
    have hmid := hbelow a rfl
    rw [← mul_assoc, Nat.mul_le_mul_right_iff hd] at hmid
    omega

theorem F64.round_mag {x : F64} (h : F64.isFinite x = true) {den : Nat} (hd : 0 < den) :
    F64.round (F64.sign x) (F64.mag x * den) den = x := by
  have hlow := F64.low_of_isFinite h
  have hmag := F64.mag_pack (F64.sign x) (b := x.toNat % 2 ^ 63) (by omega)
  rw [F64.pack_sign] at hmag
  rw [F64.round, hmag, F64.roundMag_magAt hlow hd, F64.pack_sign]

theorem F64.roundInt_scaled {x : F64} (h : F64.isFinite x = true) (h0 : F64.isZero x = false) :
    F64.roundInt (F64.scaled x) = x := by
  have hmag : F64.mag x ≠ 0 := of_decide_eq_false h0
  have hsign : decide (F64.scaled x < 0) = F64.sign x := by
    rw [F64.scaled]
    cases F64.sign x <;> simp [Nat.pos_of_ne_zero hmag]
  have habs : (F64.scaled x).natAbs = F64.mag x := by
    rw [F64.scaled]
    cases F64.sign x <;> simp
  rw [F64.roundInt, hsign, habs, ← mul_one (F64.mag x), F64.round_mag h one_pos]

/-- A pattern of value 0 is the zero of its sign. -/
theorem F64.eq_pack_of_isZero {x : F64} (h : F64.isZero x = true) : x = F64.pack (F64.sign x) 0 := by
  have hmag : F64.mag x = 0 := of_decide_eq_true h
  have hlow : x.toNat % 2 ^ 63 = 0 := by
    have hexp := F64.expField_of_isZero h
    rw [F64.mag, if_pos hexp, F64.fracField] at hmag
    rw [F64.expField] at hexp
    omega
  rw [← hlow, F64.pack_sign]

/-! ## Neutral operands -/

theorem F64.isFinite_or_isInf {x : F64} (h : F64.isNaN x = false) : F64.isFinite x = true ∨ F64.isInf x = true := by
  rw [F64.isNaN] at h
  rw [F64.isFinite, F64.isInf]
  by_cases hexp : F64.expField x = 2047 <;> simp_all

theorem F64.mul_of_isNaN_left {x y : F64} (h : F64.isNaN x = true) : F64.mul x y = F64.nan := by simp [F64.mul, h]

theorem F64.add_nan_right (x : F64) : F64.add x F64.nan = F64.nan := by simp [F64.add]

theorem F64.mul_one_right {x : F64} (h : F64.isNaN x = false) : F64.mul x F64.one = x := by
  have hnan : F64.isNaN F64.one = false := by decide
  have hinf : F64.isInf F64.one = false := by decide
  have hzero : F64.isZero F64.one = false := by decide +kernel
  have hsign : F64.sign F64.one = false := by decide
  have hmag : F64.mag F64.one = 2 ^ 1074 := by decide +kernel
  rcases F64.isFinite_or_isInf h with hfin | hi
  · simp only [F64.mul, h, hnan, F64.isInf_of_isFinite hfin, hinf, hsign, hmag, Bool.or_self, Bool.false_eq_true, if_false,
      Bool.bne_false]
    exact F64.round_mag hfin (pow_pos two_pos _)
  · simp [F64.mul, h, hnan, hi, F64.isZero_of_isInf hi, hzero, hsign, ← F64.eq_inf_of_isInf hi]

theorem F64.ne_neg_zero_of_not_isZero {x : F64} (h : F64.isZero x = false) : x ≠ 0x8000000000000000 := by
  rintro rfl
  exact absurd h (by decide)

theorem F64.add_of_nonzero_sum {x y : F64} (hx : F64.isFinite x = true) (hy : F64.isFinite y = true)
    (h : F64.scaled x + F64.scaled y ≠ 0) : F64.add x y = F64.roundInt (F64.scaled x + F64.scaled y) := by
  simp [F64.add, F64.isNaN_of_isFinite hx, F64.isNaN_of_isFinite hy, F64.isInf_of_isFinite hx, F64.isInf_of_isFinite hy, h]

theorem F64.add_zero_left {x : F64} (h : F64.isNaN x = false) :
    F64.add F64.zero x = if x = 0x8000000000000000 then F64.zero else x := by
  have hfin0 : F64.isFinite F64.zero = true := by decide
  rcases F64.isFinite_or_isInf h with hfin | hinf
  · cases hzero : F64.isZero x with
    | true =>
      have hval := (F64.val_eq_zero_iff_isZero x).2 hzero
      rw [F64.add_of_zero_sum hfin0 hfin (by rw [F64.val_constants.1, hval, add_zero]), F64.eq_pack_of_isZero hzero]
      cases F64.sign x <;> decide
    | false =>
      have hsum : F64.scaled F64.zero + F64.scaled x = F64.scaled x := by
        rw [show F64.scaled F64.zero = 0 by decide, Int.zero_add]
      have hscaled : F64.scaled x ≠ 0 := fun h0 => by
        rw [← F64.roundInt_scaled hfin hzero, h0] at hzero
        simp [F64.roundInt] at hzero
      rw [F64.add_of_nonzero_sum hfin0 hfin (by rwa [hsum]), hsum, F64.roundInt_scaled hfin hzero,
        if_neg (F64.ne_neg_zero_of_not_isZero hzero)]
  · rw [(F64.add_inf hinf hfin0).2, if_neg (F64.ne_neg_zero_of_not_isZero (F64.isZero_of_isInf hinf))]

/-- One term of R184 on the tap 1.0: what R187 says of each component. -/
theorem F64.add_zero_mul_one (x : F64) :
    F64.add F64.zero (F64.mul x F64.one) =
      if F64.isNaN x then 0x7FF8000000000000 else if x = 0x8000000000000000 then 0 else x := by
  cases h : F64.isNaN x with
  | true =>
    rw [F64.mul_of_isNaN_left h, F64.add_nan_right, if_pos rfl]
    rfl
  | false =>
    rw [F64.mul_one_right h, F64.add_zero_left h, if_neg Bool.false_ne_true]
    rfl

/-! ## Sums that are -0 -/

theorem F64.roundMag_ne_zero {num : Nat} (h : num ≠ 0) : F64.roundMag num 1 ≠ 0 := by
  have hsig := F64.le_roundSig num one_pos
  have hexp : F64.roundExp num 1 = 0 → F64.roundSig num 1 = num := fun he => by
    simpa [F64.roundSig, he] using rneDiv_mul_self num one_pos
  rw [F64.roundMag_eq]
  omega

theorem F64.roundInt_ne_neg_zero {n : Int} (h : n ≠ 0) : F64.roundInt n ≠ 0x8000000000000000 := by
  have hmag := F64.roundMag_ne_zero (Int.natAbs_ne_zero.2 h)
  have hle := F64.roundMag_le n.natAbs 1
  intro hround
  have hlow : (F64.roundInt n).toNat % 2 ^ 63 = 0 := by
    rw [hround]
    decide
  rw [F64.roundInt, F64.round, F64.toNat_pack _ (by omega)] at hlow
  split at hlow <;> omega

/-- A sum from an operand other than -0 is not -0: an exact zero sum is -0 only where both operands are negative, which makes
both -0, and a sum other than 0 does not round to 0 (R16). -/
theorem F64.add_ne_neg_zero {x : F64} (hx : x ≠ 0x8000000000000000) (y : F64) : F64.add x y ≠ 0x8000000000000000 := by
  have hinf : ∀ neg, F64.inf neg ≠ 0x8000000000000000 := by decide
  unfold F64.add
  split_ifs with hnan hinfx hopposite hinfy hsum
  · decide
  · decide
  · exact hinf _
  · exact hinf _
  · intro hpack
    have hsign : F64.sign x = true ∧ F64.sign y = true := by
      rw [← Bool.and_eq_true, ← F64.sign_pack_zero (F64.sign x && F64.sign y), hpack]
      decide
    obtain ⟨hsx, hsy⟩ := hsign
    have hmag : F64.mag x = 0 := by
      rw [F64.scaled, F64.scaled, if_pos hsx, if_pos hsy] at hsum
      omega
    refine hx ?_
    rw [F64.eq_pack_of_isZero (x := x) (decide_eq_true hmag), hsx]
    decide
  · exact F64.roundInt_ne_neg_zero hsum

end Sys2Proof
end

section
/-! PROOFS. PULSE_SHAPE (42_pulse_shaper.md): which check it reports, the samples it writes, that none of them is -0, and what
the single tap 1.0 does. -/

namespace Sys2Proof.Machine

/-! ## The checks (R180) -/

/-- Checks 5 to 7 of R180 are those of the three regions. -/
theorem reportOf_pulseRegions (same : Bool) (s : State) :
    reportOf ((pulseChecks same s).drop 3) =
      (regionReport s.params.memBytes
        [(1, 8, s.argSrc, 16 * s.argCount), (2, 8, s.argAux, 8 * s.argP1),
         (3, 8, s.argDst, 16 * specPulseOut same s)]).or
        (overlapReport s.argDst (16 * specPulseOut same s)
          [(1, s.argSrc, 16 * s.argCount), (2, s.argAux, 8 * s.argP1)]) := by
  rw [← reportOf_regionChecks, ← reportOf_overlapChecks ⟨s.argDst, 16 * specPulseOut same s⟩, ← reportOf_append]
  rfl

theorem planPulseShape_report (same : Bool) (s : State) :
    reportOf ((planPulseShape same s).checks s) = pulseReport same s := by
  change reportOf (_ :: _ :: _ :: (pulseChecks same s).drop 3) = _
  rw [reportOf_cons_of_iff decide_eq_true_iff, reportOf_cons_of_iff decide_eq_true_iff,
    reportOf_cons_of_iff decide_eq_true_iff, reportOf_pulseRegions, pulseReport]
  simp only [← not_le, ne_eq, ite_not]
  rfl

theorem planPulseShape_sub_lt (same : Bool) (s : State) : ∀ c ∈ (planPulseShape same s).checks s, c.err.sub < 256 := by
  simp [Plan.checks, planPulseShape, pulseChecks, alignCheck, boundsCheck, overlapCheck]

/-- Settles O16: the checks of PULSE_SHAPE report what `pulseReport` says. -/
theorem pulseShapeReportsTheFirstFailingCheck : Obligations.PulseShapeReportsTheFirstFailingCheck :=
  fun s same _ _ _ h =>
    exec_endsBadly (i := .pulseShape same) (planPulseShape_sub_lt same s) ((planPulseShape_report same s).trans h)

/-! ## The samples (R181 to R185) -/

/-- The accumulation over a channel of xu, as the spec's formula (R184). -/
theorem accumulate_eq_specAcc (s : State) (part : Sample → F64) (n taps : Nat) :
    accumulate (pulseLin s) taps n (fun k => F64.mul (part (upsampled s (n - k))) (pulseTap s k)) =
      specAcc s part n taps := by
  induction taps with
  | zero => rfl
  | succ k ih =>
    have hcond : (k ≤ n ∧ n - k < pulseLin s) ↔ (k ≤ n ∧ n < s.argCount * s.argP0 + k) := by
      rw [pulseLin]
      omega
    rw [accumulate, List.range_succ, List.foldl_append, ← accumulate, ih, specAcc, ← if_congr hcond rfl rfl]
    rfl

/-- The index of yfull that output `n` shows (R182, R183). -/
def pulseIndex (same : Bool) (s : State) (n : Nat) : Nat := n + if same then (s.argP1 - 1) / 2 else 0

theorem pulseSample_eq (same : Bool) (s : State) (n : Nat) :
    pulseSample same s n = specConv s (pulseIndex same s n) := by
  have hfull : ∀ m, convFull s m = specConv s m := fun m => by
    rw [convFull, specConv, accumulate_eq_specAcc s Sample.re, accumulate_eq_specAcc s Sample.im]
  cases same <;> exact hfull _

theorem planPulseShape_endsWithSamples (same : Bool) (s : State) :
    EndsWithSamples s ((planPulseShape same s).act s) (specPulseOut same s)
      (fun n => specConv s (pulseIndex same s n)) := by
  rw [← funext (pulseSample_eq same s)]
  exact writeSamples_succeed_endsWithSamples s (pulseOut same s) (pulseSample same s)

/-- Settles O25: the samples written are those of `specConv`. -/
theorem pulseShapeResult : Obligations.PulseShapeResult := fun s same h =>
  ⟨_, exec_of_report_none (i := .pulseShape same) ((planPulseShape_report same s).trans h),
    planPulseShape_endsWithSamples same s⟩

/-- What is read back after a PULSE_SHAPE that ended without error. -/
theorem readSample_of_pulseShape {s t : State} {same : Bool} {n : Nat} (hexec : exec (.pulseShape same) s = .next t)
    (hok : t.status.err = false) (hn : n < specPulseOut same s) :
    t.readSample (s.argDst + 16 * n) = specConv s (pulseIndex same s n) := by
  obtain ⟨-, rfl⟩ := exec_without_error hexec hok
  obtain ⟨-, -, -, -, hsamples⟩ := planPulseShape_endsWithSamples same s
  exact hsamples n hn

/-! ## No output is -0 (R184) -/

theorem specAcc_ne_neg_zero (s : State) (part : Sample → F64) (n taps : Nat) :
    specAcc s part n taps ≠ 0x8000000000000000 := by
  induction taps with
  | zero =>
    rw [specAcc]
    decide
  | succ k ih =>
    rw [specAcc]
    split
    · exact F64.add_ne_neg_zero ih _
    · exact ih

/-- Settles O33: each component is accumulated from +0, by induction over the taps. -/
theorem pulseShapeHasNoNegativeZero : Obligations.PulseShapeHasNoNegativeZero := by
  intro s t same n hexec hok hn
  rw [readSample_of_pulseShape hexec hok hn]
  exact ⟨specAcc_ne_neg_zero s Sample.re _ _, specAcc_ne_neg_zero s Sample.im _ _⟩

/-! ## The single tap 1.0 (R187) -/

/-- With one tap every output index is an index of xu, in both modes. -/
theorem pulseIndex_of_one_tap (same : Bool) {s : State} (hN : s.argP1 = 1) {n : Nat} (hn : n < s.argCount * s.argP0) :
    n < specPulseOut same s ∧ pulseIndex same s n = n := by
  have hM : s.argCount ≠ 0 := by
    intro h0
    simp [h0] at hn
  cases same <;> simp [specPulseOut, pulseIndex, hM, hN, hn]

/-- The accumulation over the one tap 1.0 is one product and one sum. -/
theorem specAcc_unit_tap {s : State} (part : Sample → F64) {n : Nat} (htap : s.readF64 s.argAux = 0x3FF0000000000000)
    (hn : n < s.argCount * s.argP0) :
    specAcc s part n 1 = F64.add F64.zero (F64.mul (part (specUpsampled s n)) F64.one) := by
  rw [specAcc, if_pos ⟨Nat.zero_le n, hn⟩, mul_zero, add_zero, htap]
  rfl

/-- Settles O34: the one term of each component is added to +0. -/
theorem pulseShapeUnitKernel : Obligations.PulseShapeUnitKernel := by
  intro s t same n hexec hok hN htap hn
  obtain ⟨hout, hindex⟩ := pulseIndex_of_one_tap same hN hn
  rw [readSample_of_pulseShape hexec hok hout, hindex, specConv, hN, specAcc_unit_tap Sample.re htap hn,
    specAcc_unit_tap Sample.im htap hn]
  exact ⟨F64.add_zero_mul_one _, F64.add_zero_mul_one _⟩

end Sys2Proof.Machine
end

section
/-! PROOFS. OFDM_MOD (43_ofdm.md): which check it reports, the blocks it writes, that a block starts with a copy of its tail,
and what a block of zero symbols gives. -/

namespace Sys2Proof.Machine

/-! ## Lists of lists, and scattering into a list -/

/-- In the concatenation of lists of one length `w`, element `i` of list `b` is at `b * w + i`. -/
theorem getElem?_flatMap_of_length {α β : Type} {f : α → List β} {w : Nat} (hf : ∀ x, (f x).length = w) (l : List α)
    {b i : Nat} (hi : i < w) : (l.flatMap f)[b * w + i]? = l[b]?.bind fun x => (f x)[i]? := by
  induction l generalizing b with
  | nil => rfl
  | cons x l ih =>
    rw [List.flatMap_cons]
    cases b with
    | zero => rw [List.getElem?_append_left (by rw [hf]; omega)]; simp
    | succ b =>
      have hoff : (b + 1) * w + i = w + (b * w + i) := by ring
      rw [List.getElem?_append_right (by rw [hf]; omega), hf, hoff, Nat.add_sub_cancel_left, ih]
      simp

section Scatter

variable {α : Type} {pos : Nat → Nat} {v : Nat → α} {X : List α} {n : Nat}

/-- A position that no write goes to keeps its element. -/
theorem getElem?_foldl_set_of_ne {k : Nat} (h : ∀ j < n, pos j ≠ k) :
    ((List.range n).foldl (fun X j => X.set (pos j) (v j)) X)[k]? = X[k]? := by
  induction n with
  | zero => rfl
  | succ n ih =>
    rw [List.range_succ, List.foldl_append, List.foldl_cons, List.foldl_nil, List.getElem?_set_ne (h n (by omega)),
      ih fun j hj => h j (by omega)]

/-- Where the positions are distinct, each holds what was written to it. -/
theorem getElem?_foldl_set {j : Nat} (hpos : ∀ i < n, ∀ j < n, i ≠ j → pos i ≠ pos j) (hj : j < n)
    (hlen : pos j < X.length) :
    ((List.range n).foldl (fun X j => X.set (pos j) (v j)) X)[pos j]? = some (v j) := by
  induction n with
  | zero => omega
  | succ n ih =>
    rw [List.range_succ, List.foldl_append, List.foldl_cons, List.foldl_nil]
    rcases Nat.lt_succ_iff_lt_or_eq.1 hj with hlt | rfl
    · rw [List.getElem?_set_ne (hpos n (by omega) j hj (by omega)),
        ih (fun i hi j hj => hpos i (by omega) j (by omega)) hlt]
    · rw [List.getElem?_set_self (by rwa [length_foldl_set])]

/-- What a scattered list holds was there before or was written. -/
theorem mem_foldl_set {x : α} (h : x ∈ (List.range n).foldl (fun X j => X.set (pos j) (v j)) X) :
    x ∈ X ∨ ∃ j < n, x = v j := by
  induction n with
  | zero => exact .inl h
  | succ n ih =>
    rw [List.range_succ, List.foldl_append, List.foldl_cons, List.foldl_nil] at h
    rcases List.mem_or_eq_of_mem_set h with hmem | rfl
    · rcases ih hmem with hX | ⟨j, hj, rfl⟩
      · exact .inl hX
      · exact .inr ⟨j, by omega, rfl⟩
    · exact .inr ⟨n, by omega, rfl⟩

end Scatter

/-! ## The checks (R201, R203) -/

theorem isPow2_iff (n : Nat) : isPow2 n = true ↔ n = 2 ^ Nat.log2 n := by
  rw [isPow2, Bool.and_eq_true, decide_eq_true_iff, decide_eq_true_iff, eq_comm (a := 2 ^ _), and_iff_right_iff_imp]
  intro h h0
  rw [h] at h0
  exact pow_ne_zero _ two_ne_zero h0

/-- Checks 6 to 8 of R201 are those of the three regions. -/
theorem reportOf_ofdmRegions (refset : Bool) (s : State) :
    reportOf ((ofdmChecks refset s).drop 4) =
      (regionReport s.params.memBytes
        [(1, 8, s.argSrc, 16 * s.argCount), (2, 2, s.argAux, if refset then 0 else 2 * s.argP2),
         (3, 8, s.argDst, 16 * specOfdmOut refset s)]).or
        (overlapReport s.argDst (16 * specOfdmOut refset s)
          [(1, s.argSrc, 16 * s.argCount), (2, s.argAux, if refset then 0 else 2 * s.argP2)]) := by
  rw [← reportOf_regionChecks, ← reportOf_overlapChecks ⟨s.argDst, 16 * specOfdmOut refset s⟩, ← reportOf_append]
  rfl

/-- Check 4 of R201: one of the two, as REFSET says. -/
theorem reportOf_ofdmActiveCheck_cons (refset : Bool) (s : State) (cs : List Check) :
    reportOf (ofdmActiveCheck refset s :: cs) =
      if refset = true ∧ s.argP0 ≠ 64 then some (0x04, 3, s.argP0)
      else if refset = false ∧ ¬ (1 ≤ s.argP2 ∧ s.argP2 ≤ s.argP0) then some (0x04, 4, s.argP2)
      else reportOf cs := by
  cases refset with
  | true =>
    refine (reportOf_cons_of_iff decide_eq_true_iff _ cs).trans ?_
    simp only [true_and, ne_eq, ite_not, reduceCtorEq, false_and, if_false]
    rfl
  | false =>
    have hlist : (decide (1 ≤ s.argP2) && decide (s.argP2 ≤ s.argP0)) = true ↔ 1 ≤ s.argP2 ∧ s.argP2 ≤ s.argP0 := by
      rw [Bool.and_eq_true, decide_eq_true_iff, decide_eq_true_iff]
    refine (reportOf_cons_of_iff hlist _ cs).trans ?_
    simp only [true_and, ite_not, reduceCtorEq, false_and, if_false]
    rfl

/-- Checks in groups, one group for each element of a list, report the first element whose group fails. -/
theorem reportOf_flatMap {α : Type} {f : α → List Check} {bad : α → Bool} {report : α → Report}
    (h : ∀ x, reportOf (f x) = if bad x then some (report x) else none) (l : List α) :
    reportOf (l.flatMap f) = (l.find? bad).map report := by
  induction l with
  | nil => rfl
  | cons x l ih =>
    rw [List.flatMap_cons, reportOf_append, h, ih]
    cases hx : bad x <;> simp [hx]

/-- The two checks of one list entry: the range before the order (R203). -/
theorem reportOf_activeEntryChecks (s : State) (j : Nat) :
    reportOf (activeEntryChecks s j) =
      if decide (s.argP0 ≤ specActive false s j ∨ (0 < j ∧ specActive false s j ≤ specActive false s (j - 1)))
      then some (if s.argP0 ≤ specActive false s j then (0x04, 6, j) else (0x04, 7, j)) else none := by
  change reportOf [⟨decide (specActive false s j < s.argP0), ⟨.frameConfig, 6, j⟩⟩,
    ⟨decide (j = 0) || decide (specActive false s (j - 1) < specActive false s j), ⟨.frameConfig, 7, j⟩⟩] = _
  have horder : (decide (j = 0) || decide (specActive false s (j - 1) < specActive false s j)) = true ↔
      ¬ (0 < j ∧ specActive false s j ≤ specActive false s (j - 1)) := by
    rw [Bool.or_eq_true, decide_eq_true_iff, decide_eq_true_iff]
    omega
  rw [reportOf_cons_of_iff decide_eq_true_iff, reportOf_cons_of_iff horder]
  by_cases hrange : s.argP0 ≤ specActive false s j
  · rw [if_neg (by omega), if_pos (decide_eq_true (.inl hrange)), if_pos hrange]
    rfl
  · simp only [hrange, false_or, if_pos (not_le.1 hrange), ite_not, decide_eq_true_eq, if_false]
    rfl

theorem reportOf_ofdmLate (refset : Bool) (s : State) :
    reportOf (ofdmLate refset s) = if refset then none else activeReport s := by
  cases refset with
  | true => rfl
  | false => exact reportOf_flatMap (reportOf_activeEntryChecks s) (List.range s.argP2)

theorem planOfdmMod_report (refset : Bool) (s : State) :
    reportOf ((planOfdmMod refset s).checks s) = ofdmReport refset s := by
  have hsize : (isPow2 s.argP0 && decide (s.argP0 ≤ s.params.maxFft)) = true ↔
      s.argP0 = 2 ^ Nat.log2 s.argP0 ∧ s.argP0 ≤ s.params.maxFft := by
    rw [Bool.and_eq_true, isPow2_iff, decide_eq_true_iff]
  change reportOf (_ :: _ :: _ :: _ :: ((ofdmChecks refset s).drop 4 ++ ofdmLate refset s)) = _
  rw [reportOf_cons_of_iff hsize, reportOf_cons_of_iff decide_eq_true_iff, reportOf_ofdmActiveCheck_cons,
    reportOf_cons_of_iff decide_eq_true_iff, reportOf_append, reportOf_ofdmRegions, reportOf_ofdmLate, Option.or_assoc,
    ofdmReport]
  simp only [← not_le, ne_eq, ite_not]
  rfl

theorem planOfdmMod_sub_lt (refset : Bool) (s : State) : ∀ c ∈ (planOfdmMod refset s).checks s, c.err.sub < 256 := by
  have hearly : ∀ c ∈ ofdmChecks refset s, c.err.sub < 256 := by
    cases refset <;> simp [ofdmChecks, ofdmActiveCheck, alignCheck, boundsCheck, overlapCheck]
  have hlate : ∀ c ∈ ofdmLate refset s, c.err.sub < 256 := by
    cases refset <;> simp +contextual [ofdmLate, activeEntryChecks, or_imp]
  exact fun c hc => (List.mem_append.1 hc).elim (hearly c) (hlate c)

/-- Settles O17: the checks of OFDM_MOD report what `ofdmReport` says. -/
theorem ofdmReportsTheFirstFailingCheck : Obligations.OfdmReportsTheFirstFailingCheck :=
  fun s refset _ _ _ h =>
    exec_endsBadly (i := .ofdmMod refset) (planOfdmMod_sub_lt refset s) ((planOfdmMod_report refset s).trans h)

/-! ## The frame (R202 to R204) -/

section Passing

variable {refset : Bool} {s : State}

/-- Where nothing is reported, every check passes. -/
theorem ofdm_checks_pass (h : ofdmReport refset s = none) :
    firstFailure (ofdmChecks refset s) = none ∧ firstFailure (ofdmLate refset s) = none := by
  rw [← planOfdmMod_report, reportOf, Option.map_eq_none_iff, Plan.checks, firstFailure_append,
    Option.or_eq_none_iff] at h
  exact h

/-- The reference set is for 64 subcarriers (R201, check 4). -/
theorem ofdm_argP0_of_refset (h : ofdmReport true s = none) : s.argP0 = 64 := by
  have hall := (firstFailure_eq_none_iff _).1 (ofdm_checks_pass h).1
  exact of_decide_eq_true (hall (ofdmActiveCheck true s) (by simp [ofdmChecks]))

theorem activeIndex_refset (s : State) (j : Nat) :
    activeIndex true s j = if j < 26 then j + 1 else j + 12 := rfl

/-- Every entry of a host list that passes is in range and above the entry before it (R203). -/
theorem activeIndex_of_list (h : ofdmReport false s = none) {j : Nat} (hj : j < s.argP2) :
    activeIndex false s j < s.argP0 ∧ (j = 0 ∨ activeIndex false s (j - 1) < activeIndex false s j) := by
  have hall := (firstFailure_eq_none_iff _).1 (ofdm_checks_pass h).2
  have hentry : ∀ c ∈ activeEntryChecks s j, c.ok = true := fun c hc =>
    hall c (List.mem_flatMap.2 ⟨j, List.mem_range.2 hj, hc⟩)
  simpa [activeEntryChecks] using hentry

theorem activeIndex_lt (h : ofdmReport refset s = none) {j : Nat} (hj : j < ofdmNact refset s) :
    activeIndex refset s j < s.argP0 := by
  cases refset with
  | false => exact (activeIndex_of_list h hj).1
  | true =>
    have hj : j < 52 := hj
    rw [ofdm_argP0_of_refset h, activeIndex_refset]
    split <;> omega

/-- The active indices rise strictly (R202, R203). -/
theorem activeIndex_strictMono (h : ofdmReport refset s = none) {i j : Nat} (hij : i < j) (hj : j < ofdmNact refset s) :
    activeIndex refset s i < activeIndex refset s j := by
  cases refset with
  | true =>
    rw [activeIndex_refset, activeIndex_refset]
    split <;> split <;> omega
  | false =>
    induction j with
    | zero => omega
    | succ j ih =>
      have hstep : activeIndex false s j < activeIndex false s (j + 1) := by
        simpa using (activeIndex_of_list h hj).2
      rcases Nat.lt_succ_iff_lt_or_eq.1 hij with hlt | rfl
      · exact (ih hlt (by omega)).trans hstep
      · exact hstep

/-- The scatter gives the frame of R204, since the active indices are distinct and in range. -/
theorem ofdmFrame_isFrame (h : ofdmReport refset s = none) (b : Nat) :
    IsFrame refset s (specNact refset s) b (ofdmFrame refset s b) := by
  have hdistinct : ∀ i < ofdmNact refset s, ∀ j < ofdmNact refset s, i ≠ j →
      activeIndex refset s i ≠ activeIndex refset s j := fun i hi j hj hij => by
    rcases Nat.lt_or_gt_of_ne hij with hlt | hgt
    · exact (activeIndex_strictMono h hlt hj).ne
    · exact (activeIndex_strictMono h hgt hi).ne'
  refine ⟨length_ofdmFrame refset s b, fun j hj => ?_, fun k hk hne => ?_⟩
  · exact getElem?_foldl_set (pos := activeIndex refset s) hdistinct hj
      (by rw [List.length_replicate]; exact activeIndex_lt h hj)
  · refine (getElem?_foldl_set_of_ne (pos := activeIndex refset s) hne).trans ?_
    rw [List.getElem?_replicate_of_lt hk]
    rfl

/-! ## The blocks (R205, R206) -/

/-- A block starts with the last CP samples of its inverse transform. -/
theorem getElem?_ofdmBlock_start (hcp : s.argP1 ≤ s.argP0) (b : Nat) {i : Nat} (hi : i < s.argP1) :
    (ofdmBlock refset s b)[i]? = (ofdmTime refset s b)[s.argP0 - s.argP1 + i]? := by
  rw [ofdmBlock, List.getElem?_append_left (by rw [List.length_drop, length_ofdmTime]; omega), List.getElem?_drop]

/-- After these CP samples, a block is its inverse transform. -/
theorem getElem?_ofdmBlock_body (hcp : s.argP1 ≤ s.argP0) (b n : Nat) :
    (ofdmBlock refset s b)[s.argP1 + n]? = (ofdmTime refset s b)[n]? := by
  have hlen : ((ofdmTime refset s b).drop (s.argP0 - s.argP1)).length = s.argP1 := by
    rw [List.length_drop, length_ofdmTime]
    omega
  rw [ofdmBlock, List.getElem?_append_right (by omega), hlen, Nat.add_sub_cancel_left]

/-- Sample `i` of block `b` reads back from its place in the output. -/
theorem readSample_planOfdmMod (hcp : s.argP1 ≤ s.argP0) {b i : Nat} (hb : b < ofdmNsym refset s)
    (hi : i < s.argP0 + s.argP1) :
    some (((planOfdmMod refset s).act s).readSample (s.argDst + 16 * (b * (s.argP0 + s.argP1) + i))) =
      (ofdmBlock refset s b)[i]? := by
  have hsample : (ofdmSamples refset s)[b * (s.argP0 + s.argP1) + i]? = (ofdmBlock refset s b)[i]? := by
    rw [ofdmSamples, getElem?_flatMap_of_length (length_ofdmBlock refset hcp) _ hi, List.getElem?_range hb]
    rfl
  have hlt : b * (s.argP0 + s.argP1) + i < (ofdmSamples refset s).length := by
    have hle := Nat.mul_le_mul_right (s.argP0 + s.argP1) (Nat.succ_le_of_lt hb)
    rw [Nat.succ_mul] at hle
    rw [length_ofdmSamples refset hcp, ofdmOut]
    omega
  rw [← hsample, List.getElem?_eq_getElem hlt, ← State.readSample_writeSamples s s.argDst _ _ hlt]
  rfl

/-- After the last block, the frame buffer starts with its frame (10_state.md R60). -/
theorem take_ofdmBuffer {b : Nat} (hb : b + 1 = ofdmNsym refset s) :
    (ofdmBuffer refset s).take s.argP0 = ofdmFrame refset s b := by
  rw [ofdmBuffer, if_neg (by omega), ← hb, Nat.add_sub_cancel, List.take_left' (length_ofdmFrame refset s b)]

theorem ofdmBuffer_of_count_zero (h : s.argCount = 0) : ofdmBuffer refset s = s.frame := by
  rw [ofdmBuffer, if_pos (by rw [ofdmNsym, h, Nat.zero_div])]

end Passing

/-- Settles O26: each block is read back through `ofdmBlock`, and its frame is `ofdmFrame`. -/
theorem ofdmModResult : Obligations.OfdmModResult := by
  intro s refset h
  have hcp := ofdm_argP1_le (ofdm_checks_pass h).1
  obtain ⟨-, hbytes⟩ := planOfdmMod_writesOnly (refset := refset) hcp
  have hwell : EndsWell s ((planOfdmMod refset s).act s) (specOfdmOut refset s) :=
    succeed_endsWell (t := s.writeSamples s.argDst (ofdmSamples refset s)) rfl (ofdmOut refset s)
  refine ⟨_, exec_of_report_none (i := .ofdmMod refset) ((planOfdmMod_report refset s).trans h), hwell, ⟨rfl, rfl⟩,
    hbytes, ofdmBuffer_of_count_zero, fun b hb => ⟨ofdmFrame refset s b, ofdmFrame_isFrame h b, take_ofdmBuffer,
      fun i hi => ?_, fun n hn => ?_⟩⟩
  · exact (readSample_planOfdmMod hcp hb (by omega)).trans (getElem?_ofdmBlock_start hcp b hi)
  · rw [add_assoc]
    exact (readSample_planOfdmMod hcp hb (by omega)).trans (getElem?_ofdmBlock_body hcp b n)

/-! ## What R207 derives -/

/-- What is read back after an OFDM_MOD that ended without error. -/
theorem readSample_of_ofdmMod {s t : State} {refset : Bool} (hexec : exec (.ofdmMod refset) s = .next t)
    (hok : t.status.err = false) :
    s.argP1 ≤ s.argP0 ∧ ∀ b < ofdmNsym refset s, ∀ i < s.argP0 + s.argP1,
      some (t.readSample (s.argDst + 16 * (b * (s.argP0 + s.argP1) + i))) = (ofdmBlock refset s b)[i]? := by
  obtain ⟨hreport, rfl⟩ := exec_without_error hexec hok
  have hcp := ofdm_argP1_le (ofdm_checks_pass ((planOfdmMod_report refset s).symm.trans hreport)).1
  exact ⟨hcp, fun b hb i hi => readSample_planOfdmMod hcp hb hi⟩

/-- Settles O35: samples i and NFFT + i of the block are the same sample of the inverse transform. -/
theorem ofdmPrefixCopiesTheTail : Obligations.OfdmPrefixCopiesTheTail := by
  intro s t refset b i hexec hok hb hi
  obtain ⟨hcp, hread⟩ := readSample_of_ofdmMod hexec hok
  have htail : s.argP0 + i = s.argP1 + (s.argP0 - s.argP1 + i) := by omega
  rw [← Option.some_inj, add_assoc (b * _), hread b hb i (by omega), hread b hb (s.argP0 + i) (by omega), htail,
    getElem?_ofdmBlock_body hcp, getElem?_ofdmBlock_start hcp b hi]

/-- A frame of zero symbols holds nothing but zeros. -/
theorem val_ofdmFrame_of_zero {s : State} {refset : Bool} {b : Nat}
    (h : ∀ j < ofdmNact refset s,
      F64.isZero (s.readSample (s.argSrc + 16 * (b * ofdmNact refset s + j))).re = true ∧
      F64.isZero (s.readSample (s.argSrc + 16 * (b * ofdmNact refset s + j))).im = true) :
    ∀ z ∈ ofdmFrame refset s b, F64.val z.re = 0 ∧ F64.val z.im = 0 := by
  intro z hz
  rw [F64.val_eq_zero_iff_isZero, F64.val_eq_zero_iff_isZero]
  rcases mem_foldl_set (pos := activeIndex refset s) hz with hempty | ⟨j, hj, rfl⟩
  · obtain rfl := List.eq_of_mem_replicate hempty
    decide
  · exact h j hj

/-- Settles O36: every sample of a block is one of its inverse transform, which IDFT-ZERO makes zero. -/
theorem ofdmZeroBlockIsZero : Obligations.OfdmZeroBlockIsZero := by
  intro s t refset b n hexec hok hb hn hzero
  obtain ⟨-, hread⟩ := readSample_of_ofdmMod hexec hok
  obtain ⟨-, -, hidft⟩ := idftExactProperties s.params.idftTol s.argP0 _ (length_ofdmFrame refset s b)
  have hmem : t.readSample (s.argDst + 16 * (b * (s.argP0 + s.argP1) + n)) ∈ ofdmTime refset s b := by
    rcases List.mem_append.1 (List.mem_of_getElem? (hread b hb n hn).symm) with hstart | hbody
    · exact List.mem_of_mem_drop hstart
    · exact hbody
  rw [← F64.val_eq_zero_iff_isZero, ← F64.val_eq_zero_iff_isZero]
  exact hidft (val_ofdmFrame_of_zero hzero) _ hmem

end Sys2Proof.Machine
end

section
/-! PROOFS. What CHIRP needs of the arithmetic (00_scope.md R16, R17, R20): finite positive operands, zero operands of a product
and a quotient, and the size of NUM_SINPI and NUM_COSPI. -/

namespace Sys2Proof

/-! ## Finite positive operands -/

/-- A check that a number is finite and above 0. -/
theorem F64.isFinite_and_pos_iff (x : F64) :
    (F64.isFinite x && F64.lt F64.zero x) = true ↔ F64.isFinite x = true ∧ 0 < F64.val x := by
  obtain ⟨-, -, hcmp, -⟩ := integersAndComparisonsAreExact
  obtain ⟨hzero, -⟩ := F64.val_constants
  rw [Bool.and_eq_true, and_congr_right_iff]
  intro hfin
  obtain ⟨hlt, -⟩ := hcmp F64.zero x (by decide) (F64.isNaN_of_isFinite hfin)
  rw [hlt, hzero]

theorem F64.sign_of_val_pos {x : F64} (h : 0 < F64.val x) : F64.sign x = false := by
  have hmag := unitQuotient_nonneg (F64.mag x) 1
  rw [F64.val_eq_signFactor] at h
  cases hs : F64.sign x with
  | false => rfl
  | true =>
    rw [hs, signFactor, if_pos rfl] at h
    linarith

theorem F64.val_of_val_pos {x : F64} (h : 0 < F64.val x) : F64.val x = F64.mag x / 2 ^ 1074 := by
  rw [F64.val, F64.scaled, F64.sign_of_val_pos h, if_neg Bool.false_ne_true, Int.cast_natCast]

/-! ## Zero operands -/

theorem F64.isFinite_of_isZero {x : F64} (h : F64.isZero x = true) : F64.isFinite x = true := by
  simp [F64.isFinite, F64.expField_of_isZero h]

theorem F64.div_of_isZero_left {x y : F64} (hx : F64.isZero x = true) (hnan : F64.isNaN y = false)
    (hy : F64.isZero y = false) : F64.div x y = F64.pack (F64.sign x != F64.sign y) 0 := by
  have hdiv : F64.isNaN (F64.div x y) = false := by
    simp [← Bool.not_eq_true, F64.isNaN_div_iff, F64.isNaN_of_isZero hx, F64.isInf_of_isZero hx, hnan, hy]
  obtain ⟨hsign, -, hzero⟩ := F64.div_special hdiv
  rw [F64.eq_pack_of_isZero (hzero (.inl hx)), hsign]

theorem F64.mul_of_isZero_right {x y : F64} (hx : F64.isFinite x = true) (hy : F64.isZero y = true) :
    F64.mul x y = F64.pack (F64.sign x != F64.sign y) 0 := by
  have hmul : F64.isNaN (F64.mul x y) = false := by
    simp [← Bool.not_eq_true, F64.isNaN_mul_iff, F64.isNaN_of_isFinite hx, F64.isInf_of_isFinite hx,
      F64.isNaN_of_isZero hy, F64.isInf_of_isZero hy]
  obtain ⟨hsign, -, hzero⟩ := F64.mul_special hmul
  rw [F64.eq_pack_of_isZero (hzero (.inr hy)), hsign]

/-! ## The size of the sine and the cosine -/

theorem CloseTo.abs_val_le {tol : ℚ} {t : ℝ} {v : F64} (h : CloseTo tol t v) (ht : |t| ≤ 1) : |F64.val v| ≤ 1 + tol := by
  obtain ⟨-, hclose⟩ := h
  have hreal : |(F64.val v : ℝ)| ≤ 1 + tol := by
    have htri := abs_sub_abs_le_abs_sub (F64.val v : ℝ) t
    linarith
  exact_mod_cast hreal

/-- TRIG-ACC keeps both functions within TRIG_TOL of [-1, 1]. -/
theorem numTrig_bounded {tol : ℚ} (htol : 1 / 2 ^ 52 ≤ tol) {x : F64} (hx : F64.isFinite x = true) :
    F64.isFinite (numCosPi tol x) = true ∧ F64.isFinite (numSinPi tol x) = true ∧
      |F64.val (numCosPi tol x)| ≤ 1 + tol ∧ |F64.val (numSinPi tol x)| ≤ 1 + tol := by
  obtain ⟨hexS, hexC⟩ := exists_closeTo_trig htol x
  have hcos := numCosPi_close tol hx hexC
  have hsin := numSinPi_close tol hx hexS
  exact ⟨hcos.1, hsin.1, hcos.abs_val_le (Real.abs_cos_le_one _), hsin.abs_val_le (Real.abs_sin_le_one _)⟩

end Sys2Proof
end

section
/-! PROOFS. CHIRP (44_chirp.md): how many samples it has, which check it reports, the samples it writes, and where they start
and end. -/

namespace Sys2Proof.Machine

/-! ## The count (R221) -/

section Count

variable {T fs : F64}

theorem lt_add_pred_div_iff {num den n : Nat} (hd : 0 < den) : n < (num + (den - 1)) / den ↔ den * n < num := by
  rw [← Nat.add_sub_assoc hd, ← Nat.ceilDiv_eq_add_pred_div, ← not_le, ceilDiv_le_iff_le_mul hd, not_le]

theorem lt_chirpCount_iff_mag (n : Nat) : n < chirpCount T fs ↔ 2 ^ 2148 * n < F64.mag T * F64.mag fs :=
  lt_add_pred_div_iff (pow_pos two_pos _)

/-- The product of the magnitudes, in its units of 2^-2148, is the product of the values. -/
theorem mag_mul_mag_of_pos (hT : 0 < F64.val T) (hfs : 0 < F64.val fs) :
    ((F64.mag T * F64.mag fs : Nat) : ℚ) = 2 ^ 2148 * (F64.val T * F64.val fs) := by
  have hunits : (2 : ℚ) ^ 2148 = 2 ^ 1074 * 2 ^ 1074 := by rw [← pow_add]
  have hpos : (2 : ℚ) ^ 1074 ≠ 0 := by positivity
  rw [F64.val_of_val_pos hT, F64.val_of_val_pos hfs, hunits, Nat.cast_mul]
  generalize (2 : ℚ) ^ 1074 = unit at hpos
  field_simp

theorem lt_chirpCount_iff (hT : 0 < F64.val T) (hfs : 0 < F64.val fs) (n : Nat) :
    n < chirpCount T fs ↔ (n : ℚ) < F64.val T * F64.val fs := by
  have hunit : (0 : ℚ) < 2 ^ 2148 := by positivity
  rw [lt_chirpCount_iff_mag, ← Nat.cast_lt (α := ℚ), mag_mul_mag_of_pos hT hfs, Nat.cast_mul, Nat.cast_pow, Nat.cast_ofNat,
    mul_lt_mul_iff_right₀ hunit]

theorem chirpCount_eq_natCeil (hT : 0 < F64.val T) (hfs : 0 < F64.val fs) :
    chirpCount T fs = ⌈F64.val T * F64.val fs⌉₊ :=
  eq_of_forall_lt_iff fun n => (lt_chirpCount_iff hT hfs n).trans Nat.lt_ceil.symm

theorem chirpCount_eq_ceil (hT : 0 < F64.val T) (hfs : 0 < F64.val fs) :
    (chirpCount T fs : Int) = ⌈F64.val T * F64.val fs⌉ := by
  rw [chirpCount_eq_natCeil hT hfs, Int.natCast_ceil_eq_ceil (mul_pos hT hfs).le]

end Count

/-- Settles O37: n is below NS exactly when n < T·fs, and the product is above 0. (`chirpCount` is the model's own name.) -/
theorem chirpCount_exact : Obligations.ChirpCount := by
  intro T fs _ _ hT hfs
  have hceil := chirpCount_eq_ceil hT hfs
  refine ⟨fun n => ?_, hceil, ?_, fun k hk => ?_⟩
  · rw [lt_chirpCount_iff hT hfs, div_lt_iff₀ hfs]
  · exact (lt_chirpCount_iff hT hfs 0).2 (by exact_mod_cast mul_pos hT hfs)
  · rw [hceil, hk, Int.ceil_intCast]

/-! ## The checks (R220) -/

theorem reportOf_chirpChecks (s : State) :
    reportOf (chirpChecks s) =
      if ¬ (F64.isFinite s.latched.f0 = true ∧ 0 < F64.val s.latched.f0) then some (0x11, 2, 0)
      else if ¬ (F64.isFinite s.latched.f1 = true ∧ 0 < F64.val s.latched.f1) then some (0x11, 3, 0)
      else if F64.isFinite s.latched.f2 = false then some (0x11, 4, 0)
      else if F64.isFinite (F64.div s.latched.f2 s.latched.f0) = false then some (0x11, 5, 0)
      else regionReport s.params.memBytes [(3, 8, s.argDst, 16 * chirpCount s.latched.f0 s.latched.f1)] := by
  have hregion : reportOf [alignCheck 3 8 (chirpDst s), boundsCheck 3 s.params.memBytes (chirpDst s)] = _ :=
    reportOf_regionChecks s.params.memBytes [(3, 8, s.argDst, 16 * chirpCount s.latched.f0 s.latched.f1)]
  rw [chirpChecks, reportOf_cons_of_iff (F64.isFinite_and_pos_iff _), reportOf_cons_of_iff (F64.isFinite_and_pos_iff _),
    reportOf_cons_of_iff Iff.rfl, reportOf_cons_of_iff Iff.rfl, hregion]
  simp only [← Bool.not_eq_true, ite_not]
  rfl

theorem chirpCount_eq_specChirpCount {s : State} (hT : 0 < F64.val s.latched.f0) (hfs : 0 < F64.val s.latched.f1) :
    chirpCount s.latched.f0 s.latched.f1 = specChirpCount s := by
  rw [specChirpCount, ← chirpCount_eq_ceil hT hfs, Int.toNat_natCast]

/-- The count is that of R221 where the region checks are reached: T and fs have passed by then. -/
theorem planChirp_report (s : State) : reportOf ((planChirp s).checks s) = chirpReport s := by
  change reportOf (chirpChecks s ++ []) = _
  rw [List.append_nil, reportOf_chirpChecks, chirpReport]
  split
  · rfl
  next hT =>
  split
  · rfl
  next hfs =>
  obtain ⟨-, hT⟩ := not_not.1 hT
  obtain ⟨-, hfs⟩ := not_not.1 hfs
  rw [chirpCount_eq_specChirpCount hT hfs]

theorem planChirp_sub_lt (s : State) : ∀ c ∈ (planChirp s).checks s, c.err.sub < 256 := by
  simp [Plan.checks, planChirp, chirpChecks, alignCheck, boundsCheck]

/-- Settles O18: the checks of CHIRP report what `chirpReport` says. -/
theorem chirpReportsTheFirstFailingCheck : Obligations.ChirpReportsTheFirstFailingCheck :=
  fun s _ _ _ h => exec_endsBadly (i := .chirp) (planChirp_sub_lt s) ((planChirp_report s).trans h)

/-- What the scalar checks leave of the operands: T and fs are above 0, and fs and K are finite. -/
structure ChirpOperandsOk (s : State) : Prop where
  T_pos : 0 < F64.val s.latched.f0
  fs_finite : F64.isFinite s.latched.f1 = true
  fs_pos : 0 < F64.val s.latched.f1
  K_finite : F64.isFinite (F64.div s.latched.f2 s.latched.f0) = true

theorem chirpOperandsOk_of_report {s : State} (h : chirpReport s = none) : ChirpOperandsOk s := by
  rw [chirpReport] at h
  split_ifs at h with hT hfs hbw hK
  exact ⟨hT.2, hfs.1, hfs.2, Bool.eq_true_of_not_eq_false hK⟩

/-! ## The samples (R222, R223) -/

theorem chirpPhase_eq (T fs bw : F64) (n : Nat) :
    chirpPhase T fs bw n =
      F64.mul (F64.div bw T) (F64.mul (F64.div (F64.ofInt n) fs) (F64.div (F64.ofInt n) fs)) := by
  rw [chirpPhase, chirpTime, F64.ofInt_natCast, chirpRate]

theorem planChirp_endsWithSamples (s : State) :
    EndsWithSamples s ((planChirp s).act s) (chirpCount s.latched.f0 s.latched.f1)
      (chirpSample s.params.trigTol s.latched.f0 s.latched.f1 s.latched.f2) :=
  writeSamples_succeed_endsWithSamples s _ _

/-- Settles O27: the samples written are those of `chirpSample`, and where the checks pass there are ceil(T·fs) of them. -/
theorem chirpResult : Obligations.ChirpResult := by
  intro s h
  have hok := chirpOperandsOk_of_report h
  obtain ⟨hwell, hres, hframe, hbytes, hsamples⟩ := planChirp_endsWithSamples s
  rw [chirpCount_eq_specChirpCount hok.T_pos hok.fs_pos] at hwell hbytes hsamples
  refine ⟨_, exec_of_report_none (i := .chirp) ((planChirp_report s).trans h), hwell, hres, hframe, hbytes, fun n hn => ?_⟩
  exact (hsamples n hn).trans (by rw [chirpSample, chirpPhase_eq])

/-! ## What R224 derives -/

/-- The phase starts at the zero of K's sign. -/
theorem chirpPhase_zero {T fs bw : F64} (hfin : F64.isFinite fs = true) (hpos : 0 < F64.val fs)
    (hK : F64.isFinite (F64.div bw T) = true) :
    chirpPhase T fs bw 0 = F64.pack (F64.sign (F64.div bw T)) 0 := by
  have hfs : F64.isZero fs = false := by
    rw [← Bool.not_eq_true, ← F64.val_eq_zero_iff_isZero]
    exact hpos.ne'
  have htime : chirpTime fs 0 = F64.pack false 0 := by
    rw [chirpTime, F64.ofNat, Nat.zero_mul, F64.round_zero, F64.div_of_isZero_left (F64.isZero_pack_zero _)
      (F64.isNaN_of_isFinite hfin) hfs, F64.sign_pack_zero, F64.sign_of_val_pos hpos]
    rfl
  have hsquare : F64.mul (F64.pack false 0) (F64.pack false 0) = F64.pack false 0 := by
    rw [F64.mul_of_isZero_right (F64.isFinite_of_isZero (F64.isZero_pack_zero _)) (F64.isZero_pack_zero _)]
    rfl
  rw [chirpPhase, htime, hsquare, chirpRate, F64.mul_of_isZero_right hK (F64.isZero_pack_zero _), F64.sign_pack_zero,
    Bool.bne_false]

/-- At a zero the cosine is 1.0, and the sine is the zero itself (TRIG-HALF, TRIG-SYM). -/
theorem numTrig_pack_zero (tol : ℚ) (neg : Bool) :
    numCosPi tol (F64.pack neg 0) = 0x3FF0000000000000 ∧
      numSinPi tol (F64.pack neg 0) = if neg then 0x8000000000000000 else 0x0000000000000000 := by
  obtain ⟨-, -, hint, -⟩ := trigExactProperties tol (F64.pack neg 0)
  obtain ⟨hsin, hcos⟩ := hint 0 (F64.isFinite_of_isZero (F64.isZero_pack_zero neg)) (F64.val_pack_zero neg)
  rw [F64.sign_pack_zero] at hsin
  exact ⟨hcos, hsin⟩

/-- What is read back after a CHIRP that ended without error. -/
theorem readSample_of_chirp {s t : State} (hexec : exec .chirp s = .next t) (hok : t.status.err = false) :
    ChirpOperandsOk s ∧ ∀ n < chirpCount s.latched.f0 s.latched.f1, t.readSample (s.argDst + 16 * n) =
      chirpSample s.params.trigTol s.latched.f0 s.latched.f1 s.latched.f2 n := by
  obtain ⟨hreport, rfl⟩ := exec_without_error hexec hok
  obtain ⟨-, -, -, -, hsamples⟩ := planChirp_endsWithSamples s
  exact ⟨chirpOperandsOk_of_report ((planChirp_report s).symm.trans hreport), hsamples⟩

/-- Settles O38: the phase starts at a zero of K's sign, and a sample is NUM_COSPI and NUM_SINPI of its phase. -/
theorem chirpStartsAtOneAndIsBounded : Obligations.ChirpStartsAtOneAndIsBounded := by
  intro s t n hexec herr hn
  obtain ⟨hok, hread⟩ := readSample_of_chirp hexec herr
  refine ⟨?_, ?_⟩
  · have hfirst := hread 0 (Nat.zero_lt_of_lt hn)
    obtain ⟨hcos, hsin⟩ := numTrig_pack_zero s.params.trigTol (F64.sign (F64.div s.latched.f2 s.latched.f0))
    rwa [chirpSample, chirpPhase_zero hok.fs_finite hok.fs_pos hok.K_finite, hcos, hsin] at hfirst
  · have hsample := hread n hn
    rw [chirpSample, chirpPhase_eq] at hsample
    intro time p z
    refine ⟨fun hp => ?_, fun hp htol => ?_⟩
    · obtain ⟨-, hnan, -, -⟩ := trigExactProperties s.params.trigTol p
      obtain ⟨hsin, hcos⟩ := hnan hp
      exact hsample.trans (congrArg₂ Sample.mk hcos hsin)
    · rw [show z = _ from hsample]
      exact numTrig_bounded htol hp

end Sys2Proof.Machine
end

section
/-! PROOFS. The arithmetic of DAC_QUANT (00_scope.md R18, 45_dac.md R237, R238): the integer nearest a rational, and the codes of
both policies as the affine code of a value in a range. -/

namespace Sys2Proof

/-! ## Values by their integer count -/

theorem F64.val_le_iff (x y : F64) : F64.val x ≤ F64.val y ↔ F64.scaled x ≤ F64.scaled y := by
  rw [← not_lt, F64.val_lt_iff, not_lt]

theorem F64.val_eq_iff (x y : F64) : F64.val x = F64.val y ↔ F64.scaled x = F64.scaled y := by
  rw [le_antisymm_iff, le_antisymm_iff, F64.val_le_iff, F64.val_le_iff]

theorem F64.val_sub_val (x y : F64) : F64.val x - F64.val y = ((F64.scaled x - F64.scaled y : Int) : ℚ) / 2 ^ 1074 := by
  rw [F64.val, F64.val, Int.cast_sub, sub_div]

theorem F64.lt_iff_val_lt {x y : F64} (hx : F64.isNaN x = false) (hy : F64.isNaN y = false) :
    F64.lt x y = true ↔ F64.val x < F64.val y := by
  obtain ⟨-, -, hcmp, -⟩ := integersAndComparisonsAreExact
  obtain ⟨hlt, -⟩ := hcmp x y hx hy
  exact hlt

end Sys2Proof

namespace Sys2Proof.Machine

/-! ## The integer nearest a rational (00_scope.md R18) -/

/-- The rounded quotient is rne of the quotient. -/
theorem isRne_rneDiv (num : Nat) {den : Nat} (hd : 0 < den) : IsRne ((num : ℚ) / den) (rneDiv num den) := by
  obtain ⟨hup, hlow⟩ := rneDiv_bounds num hd
  have htie := rneDiv_even_of_tie (num := num) hd
  generalize rneDiv num den = c at hup hlow htie
  have hd' : (0 : ℚ) < den := by exact_mod_cast hd
  have hup' : 2 * (num : ℚ) ≤ 2 * (c * den) + den := by exact_mod_cast hup
  have hlow' : 2 * (c * den : ℚ) ≤ 2 * num + den := by exact_mod_cast hlow
  have habs : |(c : ℚ) - num / den| = |(c * den - num : ℚ)| / den := by
    rw [← abs_of_pos hd', ← abs_div, abs_of_pos hd', sub_div, mul_div_cancel_right₀ _ hd'.ne']
  rw [IsRne, habs, div_le_iff₀ hd', div_eq_iff hd'.ne']
  refine ⟨abs_le.2 ⟨by linarith, by linarith⟩, fun h => htie ?_⟩
  rcases eq_or_eq_neg_of_abs_eq h with h | h
  · right
    exact_mod_cast (by linarith : 2 * (c * den : ℚ) = 2 * num + den)
  · left
    exact_mod_cast (by linarith : 2 * (num : ℚ) = 2 * (c * den) + den)

/-- rne is monotone: two neighbours cannot both be even. -/
theorem IsRne.mono {q r : ℚ} {c d : Nat} (hc : IsRne q c) (hd : IsRne r d) (h : q ≤ r) : c ≤ d := by
  by_contra hlt
  obtain ⟨hcq, hceven⟩ := hc
  obtain ⟨hdr, hdeven⟩ := hd
  have hstep : (d : ℚ) + 1 ≤ c := by exact_mod_cast not_le.1 hlt
  have h1 := (abs_le.1 hcq).2
  have h2 := (abs_le.1 hdr).1
  have hq : (c : ℚ) - q = 1 / 2 := by linarith
  have hr : (d : ℚ) - r = -(1 / 2) := by linarith
  have hcd : c = d + 1 := by exact_mod_cast (by linarith : (c : ℚ) = d + 1)
  have hc2 := hceven (by rw [hq]; norm_num)
  have hd2 := hdeven (by rw [hr]; norm_num)
  omega

theorem isRne_natCast (n : Nat) : IsRne n n := by
  rw [IsRne, sub_self, abs_zero]
  norm_num

theorem IsRne.eq_of_natCast {n c : Nat} (h : IsRne n c) : c = n :=
  le_antisymm (h.mono (isRne_natCast n) le_rfl) ((isRne_natCast n).mono h le_rfl)

/-! ## The affine code (45_dac.md R237, R238) -/

/-- `c` is the code of the value `v` in the range [lo, hi]. -/
def IsAffineCode (bits : Nat) (lo hi v : ℚ) (c : Nat) : Prop := IsRne ((v - lo) * (2 ^ bits - 1) / (hi - lo)) c

theorem dacTop_cast (bits : Nat) : ((dacTop bits : Nat) : ℚ) = 2 ^ bits - 1 := by
  rw [dacTop, Nat.cast_sub Nat.one_le_two_pow, Nat.cast_pow, Nat.cast_ofNat, Nat.cast_one]

section

variable {bits : Nat} {lo hi : ℚ}

theorem IsAffineCode.mono (hrange : lo < hi) {v w : ℚ} {c d : Nat} (hc : IsAffineCode bits lo hi v c)
    (hd : IsAffineCode bits lo hi w d) (h : v ≤ w) : c ≤ d := by
  refine IsRne.mono hc hd ((div_le_div_iff_of_pos_right (sub_pos.2 hrange)).2 ?_)
  rw [← dacTop_cast]
  exact mul_le_mul_of_nonneg_right (sub_le_sub_right h lo) (Nat.cast_nonneg _)

theorem isAffineCode_lo_iff (c : Nat) : IsAffineCode bits lo hi lo c ↔ c = 0 := by
  have hzero : (lo - lo) * (2 ^ bits - 1) / (hi - lo) = (0 : Nat) := by simp
  rw [IsAffineCode, hzero]
  exact ⟨IsRne.eq_of_natCast, fun h => h ▸ isRne_natCast 0⟩

theorem isAffineCode_hi_iff (hrange : lo < hi) (c : Nat) : IsAffineCode bits lo hi hi c ↔ c = 2 ^ bits - 1 := by
  have htop : (hi - lo) * (2 ^ bits - 1) / (hi - lo) = (dacTop bits : Nat) := by
    rw [mul_div_cancel_left₀ _ (sub_pos.2 hrange).ne', dacTop_cast]
  rw [IsAffineCode, htop]
  exact ⟨IsRne.eq_of_natCast, fun h => h ▸ isRne_natCast (dacTop bits)⟩

theorem IsAffineCode.le_top (hrange : lo < hi) {v : ℚ} {c : Nat} (hc : IsAffineCode bits lo hi v c) (h : v ≤ hi) :
    c ≤ 2 ^ bits - 1 :=
  IsAffineCode.mono hrange hc ((isAffineCode_hi_iff hrange _).2 rfl) h

end

/-- The model's quotient of integer counts is the quotient of the values. -/
theorem affineCode_isAffineCode (bits : Nat) {lo hi v : F64} (hlo : F64.val lo ≤ F64.val v)
    (hrange : F64.val lo < F64.val hi) :
    IsAffineCode bits (F64.val lo) (F64.val hi) (F64.val v)
      (affineCode (dacTop bits) (F64.scaled lo) (F64.scaled hi) (F64.scaled v)) := by
  have hv : 0 ≤ F64.scaled v - F64.scaled lo := sub_nonneg.2 ((F64.val_le_iff _ _).1 hlo)
  have hhi : 0 < F64.scaled hi - F64.scaled lo := sub_pos.2 ((F64.val_lt_iff _ _).1 hrange)
  have hcast : ∀ n : Int, 0 ≤ n → ((n.toNat : Nat) : ℚ) = (n : ℚ) := fun n hn => by
    exact_mod_cast congrArg (Int.cast : Int → ℚ) (Int.toNat_of_nonneg hn)
  have hrne := isRne_rneDiv ((F64.scaled v - F64.scaled lo).toNat * dacTop bits) (Int.lt_toNat.2 hhi)
  rw [Nat.cast_mul, hcast _ hv, hcast _ hhi.le, dacTop_cast] at hrne
  rw [IsAffineCode, F64.val_sub_val, F64.val_sub_val, div_mul_eq_mul_div, div_div_div_cancel_right₀ (by positivity)]
  exact hrne

/-! ## The clamped code (45_dac.md R238) -/

/-- `c` is the code of the number `x` under the fixed range [lo, hi], clamped where `x` is out of it. -/
def IsClampedCode (bits : Nat) (lo hi : ℚ) (x : F64) (c : Nat) : Prop :=
  if F64.isNaN x = true ∨ F64.val x < lo then c = 0
  else if hi < F64.val x then c = 2 ^ bits - 1
  else IsAffineCode bits lo hi (F64.val x) c

theorem fixedCode_isClampedCode (bits : Nat) {lo hi : F64} (hlo : F64.isFinite lo = true) (hhi : F64.isFinite hi = true)
    (hrange : F64.val lo < F64.val hi) (x : F64) :
    IsClampedCode bits (F64.val lo) (F64.val hi) x (fixedCode (dacTop bits) lo hi x) := by
  rw [IsClampedCode, fixedCode]
  cases hx : F64.isNaN x with
  | true => simp
  | false =>
    have hbelow := F64.lt_iff_val_lt hx (F64.isNaN_of_isFinite hlo)
    have habove := F64.lt_iff_val_lt (F64.isNaN_of_isFinite hhi) hx
    simp only [Bool.false_or, Bool.false_eq_true, false_or, hbelow, habove]
    split_ifs with h1 h2
    · rfl
    · rfl
    · exact affineCode_isAffineCode bits (not_lt.1 h1) hrange

section

variable {bits : Nat} {lo hi : ℚ} {x : F64} {c : Nat}

/-- A clamped code is the affine code of the value brought to the nearest end of the range. -/
theorem IsClampedCode.affine (hrange : lo < hi) (h : IsClampedCode bits lo hi x c) (hx : F64.isNaN x = false) :
    IsAffineCode bits lo hi (max lo (min hi (F64.val x))) c := by
  rw [IsClampedCode, hx] at h
  simp only [Bool.false_eq_true, false_or] at h
  split_ifs at h with h1 h2
  · rw [min_eq_right (h1.trans hrange).le, max_eq_left h1.le]
    exact (isAffineCode_lo_iff c).2 h
  · rw [min_eq_left h2.le, max_eq_right hrange.le]
    exact (isAffineCode_hi_iff hrange c).2 h
  · rwa [min_eq_right (not_lt.1 h2), max_eq_right (not_lt.1 h1)]

theorem IsClampedCode.le_top (hrange : lo < hi) (h : IsClampedCode bits lo hi x c) : c ≤ 2 ^ bits - 1 := by
  cases hx : F64.isNaN x with
  | true =>
    rw [IsClampedCode, if_pos (.inl hx)] at h
    exact h ▸ Nat.zero_le _
  | false => exact IsAffineCode.le_top hrange (h.affine hrange hx) (max_le hrange.le (min_le_left _ _))

theorem IsClampedCode.mono (hrange : lo < hi) {y : F64} {d : Nat} (hc : IsClampedCode bits lo hi x c)
    (hd : IsClampedCode bits lo hi y d) (hx : F64.isNaN x = false) (hy : F64.isNaN y = false)
    (h : F64.val x ≤ F64.val y) : c ≤ d :=
  IsAffineCode.mono hrange (hc.affine hrange hx) (hd.affine hrange hy) (max_le_max_left lo (min_le_min_left hi h))

theorem IsClampedCode.eq_zero (hrange : lo < hi) (h : IsClampedCode bits lo hi x c) (hx : F64.isNaN x = false)
    (hval : F64.val x = lo) : c = 0 := by
  have haffine := h.affine hrange hx
  rw [hval, min_eq_right hrange.le, max_self] at haffine
  exact (isAffineCode_lo_iff c).1 haffine

theorem IsClampedCode.eq_top (hrange : lo < hi) (h : IsClampedCode bits lo hi x c) (hx : F64.isNaN x = false)
    (hval : F64.val x = hi) : c = 2 ^ bits - 1 := by
  have haffine := h.affine hrange hx
  rw [hval, min_self, max_eq_right hrange.le] at haffine
  exact (isAffineCode_hi_iff hrange c).1 haffine

end

/-! ## The code over an observed range (45_dac.md R237) -/

/-- `c` is the code of the value `v` in the observed range [lo, hi], which is one value where the waveform is constant. -/
def IsMinMaxCode (bits : Nat) (lo hi v : ℚ) (c : Nat) : Prop := if hi = lo then c = 0 else IsAffineCode bits lo hi v c

theorem minMaxCode_isMinMaxCode (bits : Nat) {vs : List F64} {lo hi v : F64} (hmin : F64.scaled lo = minScaled vs)
    (hmax : F64.scaled hi = maxScaled vs) (hlo : F64.val lo ≤ F64.val v) (hhi : F64.val v ≤ F64.val hi) :
    IsMinMaxCode bits (F64.val lo) (F64.val hi) (F64.val v) (minMaxCode (dacTop bits) vs v) := by
  rw [IsMinMaxCode, minMaxCode, ← hmin, ← hmax]
  by_cases hconst : F64.val hi = F64.val lo
  · rw [if_pos hconst, if_pos ((F64.val_eq_iff _ _).1 hconst)]
  · rw [if_neg hconst, if_neg (mt (F64.val_eq_iff _ _).2 hconst)]
    exact affineCode_isAffineCode bits hlo (lt_of_le_of_ne (hlo.trans hhi) (Ne.symm hconst))

section

variable {bits : Nat} {lo hi : ℚ}

theorem IsMinMaxCode.affine (hrange : lo < hi) {v : ℚ} {c : Nat} (h : IsMinMaxCode bits lo hi v c) :
    IsAffineCode bits lo hi v c := by
  rwa [IsMinMaxCode, if_neg hrange.ne'] at h

theorem IsMinMaxCode.mono (hrange : lo ≤ hi) {v w : ℚ} {c d : Nat} (hc : IsMinMaxCode bits lo hi v c)
    (hd : IsMinMaxCode bits lo hi w d) (h : v ≤ w) : c ≤ d := by
  rcases hrange.eq_or_lt with rfl | hlt
  · rw [IsMinMaxCode, if_pos rfl] at hc
    exact hc ▸ Nat.zero_le d
  · exact IsAffineCode.mono hlt (hc.affine hlt) (hd.affine hlt) h

theorem IsMinMaxCode.le_top (hrange : lo ≤ hi) {v : ℚ} {c : Nat} (h : IsMinMaxCode bits lo hi v c) (hv : v ≤ hi) :
    c ≤ 2 ^ bits - 1 := by
  rcases hrange.eq_or_lt with rfl | hlt
  · rw [IsMinMaxCode, if_pos rfl] at h
    exact h ▸ Nat.zero_le _
  · exact IsAffineCode.le_top hlt (h.affine hlt) hv

end

end Sys2Proof.Machine
end

section
/-! PROOFS. DAC_QUANT (45_dac.md): which check it reports, the codes it writes under both policies, and that they follow the
samples. -/

namespace Sys2Proof.Machine

/-! ## The channel (R236) -/

theorem dacValue_eq_specChannel (ch : Bool) (s : State) : dacValue ch s = specChannel ch s := by
  funext i
  cases ch <;> rfl

/-! ## The result registers and the codes (R240, R241) -/

theorem Pair.value_ofF64 (x : F64) : (Pair.ofF64 x).value = x := by
  rw [Pair.value, Pair.ofF64, BitVec.extractLsb'_append_extractLsb'_eq_extractLsb' (by norm_num)]
  exact BitVec.extractLsb'_eq_self

/-- Codes of at most 16 bits are read back as written. -/
theorem readU16_writeCodes_of_le_top {bits : Nat} (hbits : bits ≤ 16) (s : State) (a : Nat) {n i : Nat} (hi : i < n)
    {f : Nat → Nat} (hf : f i ≤ 2 ^ bits - 1) :
    (s.writeCodes a ((List.range n).map f)).readU16 (a + 2 * i) = f i := by
  have htop : 2 ^ bits ≤ 2 ^ 16 := Nat.pow_le_pow_right two_pos hbits
  have hpos := Nat.two_pow_pos bits
  rw [State.readU16_writeCodes _ _ _ _ (by simpa using hi), List.getElem_map, List.getElem_range]
  exact Nat.mod_eq_of_lt (by omega)

theorem dacValues_map (ch : Bool) (s : State) (code : F64 → Nat) :
    (dacValues ch s).map code = (List.range s.argCount).map fun i => code (specChannel ch s i) := by
  rw [dacValues, List.map_map, dacValue_eq_specChannel]
  rfl

/-! ## The checks (R235, R237) -/

theorem dacBits_iff (bits : Nat) :
    (decide (1 ≤ bits) && decide (bits ≤ Config.dacMaxBits)) = true ↔ ¬ (bits < 1 ∨ 16 < bits) := by
  rw [Bool.and_eq_true, decide_eq_true_iff, decide_eq_true_iff, Config.dacMaxBits]
  omega

/-- What check 3 of R235 asks of the fixed range. -/
abbrev DacRangeOk (s : State) : Prop :=
  F64.isFinite s.latched.f0 = true ∧ F64.isFinite s.latched.f1 = true ∧ F64.val s.latched.f0 < F64.val s.latched.f1

theorem dacRangeCheck_iff (fixed : Bool) (s : State) :
    (dacRangeCheck fixed s).ok = true ↔ ¬ (fixed = true ∧ ¬ DacRangeOk s) := by
  have hrange : (F64.isFinite s.latched.f0 && F64.isFinite s.latched.f1 && F64.lt s.latched.f0 s.latched.f1) = true ↔
      DacRangeOk s := by
    rw [Bool.and_eq_true, Bool.and_eq_true, and_assoc]
    refine and_congr_right fun hlo => and_congr_right fun hhi => ?_
    exact F64.lt_iff_val_lt (F64.isNaN_of_isFinite hlo) (F64.isNaN_of_isFinite hhi)
  rw [dacRangeCheck, Bool.or_eq_true, hrange]
  cases fixed <;> simp

theorem reportOf_dacLate (ch fixed : Bool) (s : State) :
    reportOf (dacLate ch fixed s) =
      if fixed then none
      else ((List.range s.argCount).find? fun i => !F64.isFinite (specChannel ch s i)).map fun i => (0x05, 2, i) := by
  cases fixed with
  | true => rfl
  | false =>
    rw [← dacValue_eq_specChannel]
    exact reportOf_map fun i => (Bool.not_not _).symm

/-- Checks 4 to 6 of R235 are those of the two regions. -/
theorem reportOf_dacRegions (fixed : Bool) (bits : Nat) (s : State) :
    reportOf ((dacChecks fixed bits s).drop 2) =
      (regionReport s.params.memBytes [(1, 8, s.argSrc, 16 * s.argCount), (3, 2, s.argDst, 2 * s.argCount)]).or
        (overlapReport s.argDst (2 * s.argCount) [(1, s.argSrc, 16 * s.argCount)]) := by
  rw [← reportOf_regionChecks, ← reportOf_overlapChecks ⟨s.argDst, 2 * s.argCount⟩, ← reportOf_append]
  rfl

theorem planDacQuant_report (ch fixed : Bool) (bits : Nat) (s : State) :
    reportOf ((planDacQuant ch fixed bits s).checks s) = dacReport ch fixed bits s := by
  change reportOf (_ :: dacRangeCheck fixed s :: ((dacChecks fixed bits s).drop 2 ++ dacLate ch fixed s)) = _
  rw [reportOf_cons_of_iff (dacBits_iff bits), reportOf_cons_of_iff (dacRangeCheck_iff fixed s), reportOf_append,
    reportOf_dacRegions, reportOf_dacLate, Option.or_assoc, dacReport, ite_not, ite_not]
  rfl

theorem exists_check_of_reportOf {cs : List Check} {r : Report} (h : reportOf cs = some r) :
    ∃ c ∈ cs, c.err.report = r := by
  obtain ⟨e, he, hreport⟩ := Option.map_eq_some_iff.1 h
  obtain ⟨before, c, after, rfl, -, -, rfl⟩ := (firstFailure_eq_some_iff _ _).1 he
  exact ⟨c, by simp, hreport⟩

/-- Every subcode fits its field, and no check reports RANGE(1): that is the end of a fixed-range command (R239). -/
theorem planDacQuant_errors (ch fixed : Bool) (bits : Nat) (s : State) :
    ∀ c ∈ (planDacQuant ch fixed bits s).checks s, c.err.sub < 256 ∧ (c.err.cls.code, c.err.sub) ≠ (0x05, 1) := by
  intro c hc
  rcases List.mem_append.1 hc with hearly | hlate
  · simp only [planDacQuant, dacChecks, List.mem_cons, List.not_mem_nil, or_false] at hearly
    rcases hearly with rfl | rfl | rfl | rfl | rfl | rfl | rfl <;>
      simp [dacRangeCheck, alignCheck, boundsCheck, overlapCheck, ErrClass.code]
  · cases fixed with
    | true => cases hlate
    | false =>
      obtain ⟨i, -, rfl⟩ := List.mem_map.1 hlate
      simp

/-- Settles O19: the checks of DAC_QUANT report what `dacReport` says. -/
theorem dacReportsTheFirstFailingCheck : Obligations.DacReportsTheFirstFailingCheck :=
  fun s ch fixed bits _ _ _ h =>
    exec_endsBadly (i := .dacQuant ch fixed bits) (fun c hc => (planDacQuant_errors ch fixed bits s c hc).1)
      ((planDacQuant_report ch fixed bits s).trans h)

/-- What the checks leave of the operands: B is at most 16, and the fixed range is one. -/
theorem dac_operands_ok {ch fixed : Bool} {bits : Nat} {s : State} (h : dacReport ch fixed bits s = none) :
    bits ≤ 16 ∧ (fixed = true → DacRangeOk s) := by
  rw [dacReport] at h
  split_ifs at h with hbits hrange <;> exact ⟨by omega, not_and_not_right.1 hrange⟩

/-! ## Fixed mode (R238) -/

theorem isFixedCode_iff (ch : Bool) (bits : Nat) (s : State) (i c : Nat) : IsFixedCode ch bits s i c ↔
    IsClampedCode bits (F64.val s.latched.f0) (F64.val s.latched.f1) (specChannel ch s i) c := Iff.rfl

theorem readU16_dacFixed (ch : Bool) (bits : Nat) (s : State) (a : Nat) :
    (dacFixed ch bits s).readU16 a = (s.writeCodes s.argDst ((List.range s.argCount).map fun i =>
      fixedCode (dacTop bits) s.latched.f0 s.latched.f1 (specChannel ch s i))).readU16 a := by
  rw [← dacValues_map, dacFixed]
  split <;> rfl

/-- In fixed mode every code is written, those of clamped samples too. -/
theorem dacFixed_codes {ch : Bool} {bits : Nat} {s : State} (h : dacReport ch true bits s = none) {i : Nat}
    (hi : i < s.argCount) :
    IsFixedCode ch bits s i ((dacFixed ch bits s).readU16 (s.argDst + 2 * i)) := by
  obtain ⟨hbits, hrange⟩ := dac_operands_ok h
  obtain ⟨hlo, hhi, hlt⟩ := hrange rfl
  have hcode := fixedCode_isClampedCode bits hlo hhi hlt (specChannel ch s i)
  rw [isFixedCode_iff, readU16_dacFixed, readU16_writeCodes_of_le_top hbits _ _ hi]
  · exact hcode
  · exact hcode.le_top hlt

theorem outOfRange_eq_specClamps {s : State} (h : DacRangeOk s) (ch : Bool) (i : Nat) :
    outOfRange s.latched.f0 s.latched.f1 (specChannel ch s i) = specClamps ch s i := by
  obtain ⟨hlo, hhi, -⟩ := h
  rw [outOfRange, specClamps]
  cases hx : F64.isNaN (specChannel ch s i) with
  | true => rfl
  | false =>
    have hbelow := F64.lt_iff_val_lt hx (F64.isNaN_of_isFinite hlo)
    have habove := F64.lt_iff_val_lt (F64.isNaN_of_isFinite hhi) hx
    rw [Bool.eq_iff_iff]
    simp [hbelow, habove]

theorem dacClamped_eq_zero {ch : Bool} {s : State} (h : DacRangeOk s)
    (hin : ∀ i < s.argCount, specClamps ch s i = false) : dacClamped ch s = 0 := by
  rw [dacClamped, List.countP_eq_zero, dacValues, dacValue_eq_specChannel]
  intro v hv
  obtain ⟨i, hi, rfl⟩ := List.mem_map.1 hv
  rw [outOfRange_eq_specClamps h, hin i (List.mem_range.1 hi)]
  exact Bool.false_ne_true

/-- Settles O29: with no sample clamped, the clamped codes are the affine ones. -/
theorem dacFixedResult : Obligations.DacFixedResult := by
  intro s ch bits h hin
  obtain ⟨-, hrange⟩ := dac_operands_ok h
  have hend : dacFixed ch bits s = State.succeed _ s.argCount := if_pos (dacClamped_eq_zero (hrange rfl) hin)
  obtain ⟨-, hbytes⟩ := dacFixed_writesOnly ch bits s
  refine ⟨dacFixed ch bits s, exec_of_report_none (i := .dacQuant ch true bits) ((planDacQuant_report ..).trans h),
    hend ▸ succeed_endsWell rfl _, hend ▸ ⟨rfl, rfl⟩, hend ▸ rfl, hbytes, fun i hi => ?_⟩
  have hcode := dacFixed_codes h hi
  have hclamps := hin i hi
  rw [specClamps, Bool.or_eq_false_iff, Bool.or_eq_false_iff, decide_eq_false_iff_not, decide_eq_false_iff_not] at hclamps
  obtain ⟨⟨hnan, hbelow⟩, habove⟩ := hclamps
  rwa [IsFixedCode, if_neg (by simp [hnan, hbelow]), if_neg habove] at hcode

/-! ## Min/max mode (R237) -/

theorem min?_scaled {vs : List F64} (h : vs ≠ []) : (vs.map F64.scaled).min? = some (minScaled vs) := by
  cases vs with
  | nil => exact absurd rfl h
  | cons v vs => rw [List.map_cons, List.min?_cons', List.foldl_map]; rfl

theorem max?_scaled {vs : List F64} (h : vs ≠ []) : (vs.map F64.scaled).max? = some (maxScaled vs) := by
  cases vs with
  | nil => exact absurd rfl h
  | cons v vs => rw [List.map_cons, List.max?_cons', List.foldl_map]; rfl

/-- Sample `m` is the first with the exact value `x`, and the one that `firstWith` finds. -/
structure IsFirstWith (ch : Bool) (s : State) (x : Int) (m : Nat) : Prop where
  lt : m < s.argCount
  scaled_eq : F64.scaled (specChannel ch s m) = x
  before : ∀ i < m, F64.scaled (specChannel ch s i) ≠ x
  found : firstWith (dacValues ch s) x = specChannel ch s m

theorem exists_isFirstWith {ch : Bool} {s : State} {x : Int} (h : x ∈ (dacValues ch s).map F64.scaled) :
    ∃ m, IsFirstWith ch s x m := by
  rw [dacValues, dacValue_eq_specChannel] at h
  obtain ⟨k, hk, hkx⟩ : ∃ k, k < s.argCount ∧ F64.scaled (specChannel ch s k) = x := by simpa using h
  cases hfind : (List.range s.argCount).find? ((fun v => decide (F64.scaled v = x)) ∘ specChannel ch s) with
  | none => simpa [hkx] using List.find?_eq_none.1 hfind k (List.mem_range.2 hk)
  | some m =>
    obtain ⟨hm, hlt, hbefore⟩ := List.find?_range_eq_some.1 hfind
    have hfound : firstWith (dacValues ch s) x = specChannel ch s m := by
      rw [firstWith, dacValues, dacValue_eq_specChannel, List.find?_map, hfind]
      rfl
    exact ⟨m, List.mem_range.1 hlt, of_decide_eq_true hm, fun i hi => by simpa using hbefore i hi, hfound⟩

/-- The first least and the first greatest sample, which bound every sample. -/
theorem exists_observed_range (ch : Bool) {s : State} (h : s.argCount ≠ 0) :
    ∃ m M, IsFirstWith ch s (minScaled (dacValues ch s)) m ∧ IsFirstWith ch s (maxScaled (dacValues ch s)) M ∧
      ∀ i < s.argCount, F64.val (specChannel ch s m) ≤ F64.val (specChannel ch s i) ∧
        F64.val (specChannel ch s i) ≤ F64.val (specChannel ch s M) := by
  have hne : dacValues ch s ≠ [] := List.ne_nil_of_length_pos (by rw [length_dacValues]; omega)
  obtain ⟨hmin, hleast⟩ := List.min?_eq_some_iff.1 (min?_scaled hne)
  obtain ⟨hmax, hgreatest⟩ := List.max?_eq_some_iff.1 (max?_scaled hne)
  obtain ⟨m, hm⟩ := exists_isFirstWith hmin
  obtain ⟨M, hM⟩ := exists_isFirstWith hmax
  refine ⟨m, M, hm, hM, fun i hi => ?_⟩
  have hmem : F64.scaled (specChannel ch s i) ∈ (dacValues ch s).map F64.scaled := by
    rw [dacValues, dacValue_eq_specChannel]
    exact List.mem_map_of_mem (List.mem_map_of_mem (List.mem_range.2 hi))
  rw [F64.val_le_iff, F64.val_le_iff, hm.scaled_eq, hM.scaled_eq]
  exact ⟨hleast _ hmem, hgreatest _ hmem⟩

theorem IsFirstWith.val_ne {ch : Bool} {s : State} {x : Int} {m : Nat} (h : IsFirstWith ch s x m) :
    ∀ i < m, F64.val (specChannel ch s i) ≠ F64.val (specChannel ch s m) := by
  intro i hi heq
  exact h.before i hi (((F64.val_eq_iff _ _).1 heq).trans h.scaled_eq)

theorem dacMinMax_endsWell (ch : Bool) (bits : Nat) (s : State) : EndsWell s (dacMinMax ch bits s) s.argCount := by
  rw [dacMinMax]
  split
  · next h0 => exact h0 ▸ succeed_endsWell rfl _
  · exact succeed_endsWell (t := s.writeCodes _ _) rfl s.argCount

/-- Where there is a sample, min/max mode writes the code of every sample over the observed range. -/
theorem dacMinMax_of_count_ne_zero (ch : Bool) (bits : Nat) {s : State} (h : s.argCount ≠ 0) :
    dacMinMax ch bits s =
      (s.writeCodes s.argDst ((List.range s.argCount).map fun i =>
        minMaxCode (dacTop bits) (dacValues ch s) (specChannel ch s i))).succeedMinMax s.argCount
        (firstWith (dacValues ch s) (minScaled (dacValues ch s)))
        (firstWith (dacValues ch s) (maxScaled (dacValues ch s))) := by
  rw [← dacValues_map, dacMinMax, if_neg h]

theorem readU16_dacMinMax (ch : Bool) (bits : Nat) {s : State} (h : s.argCount ≠ 0) (a : Nat) :
    (dacMinMax ch bits s).readU16 a = (s.writeCodes s.argDst ((List.range s.argCount).map fun i =>
      minMaxCode (dacTop bits) (dacValues ch s) (specChannel ch s i))).readU16 a := by
  rw [dacMinMax_of_count_ne_zero ch bits h]
  rfl

section Observed

variable {ch : Bool} {s : State} {m M : Nat} (hm : IsFirstWith ch s (minScaled (dacValues ch s)) m)
  (hM : IsFirstWith ch s (maxScaled (dacValues ch s)) M) (bits : Nat)

include hm hM

/-- The first least and the first greatest sample are in the result registers (R241). -/
theorem dacMinMax_results : (dacMinMax ch bits s).resF0.value = specChannel ch s m ∧
    (dacMinMax ch bits s).resF1.value = specChannel ch s M := by
  rw [dacMinMax_of_count_ne_zero ch bits (Nat.ne_zero_of_lt hm.lt), hm.found, hM.found]
  exact ⟨Pair.value_ofF64 _, Pair.value_ofF64 _⟩

theorem dacMinMax_codes (hbits : bits ≤ 16) {i : Nat} (hi : i < s.argCount)
    (hlow : F64.val (specChannel ch s m) ≤ F64.val (specChannel ch s i))
    (hhigh : F64.val (specChannel ch s i) ≤ F64.val (specChannel ch s M)) :
    IsMinMaxCode bits (F64.val (specChannel ch s m)) (F64.val (specChannel ch s M)) (F64.val (specChannel ch s i))
      ((dacMinMax ch bits s).readU16 (s.argDst + 2 * i)) := by
  have hcode := minMaxCode_isMinMaxCode bits hm.scaled_eq hM.scaled_eq hlow hhigh
  rw [readU16_dacMinMax ch bits (Nat.ne_zero_of_lt hi), readU16_writeCodes_of_le_top hbits _ _ hi]
  · exact hcode
  · exact hcode.le_top (hlow.trans hhigh) hhigh

end Observed

/-- Settles O28: the range is that of the first least and the first greatest sample, and every code is over it. -/
theorem dacMinMaxResult : Obligations.DacMinMaxResult := by
  intro s ch bits h
  obtain ⟨hbits, -⟩ := dac_operands_ok h
  obtain ⟨-, hbytes⟩ := dacMinMax_writesOnly ch bits s
  refine ⟨dacMinMax ch bits s, exec_of_report_none (i := .dacQuant ch false bits) ((planDacQuant_report ..).trans h),
    dacMinMax_endsWell ch bits s, planDacQuant_frame ch false bits s, hbytes, fun h0 => ?_, fun hne => ?_⟩
  · rw [dacMinMax, if_pos h0]
    exact ⟨rfl, rfl⟩
  · obtain ⟨m, M, hm, hM, hrange⟩ := exists_observed_range ch hne
    obtain ⟨hresF0, hresF1⟩ := dacMinMax_results hm hM bits
    refine ⟨m, M, hm.lt, hM.lt, hrange, hm.val_ne, hM.val_ne, hresF0, hresF1, fun i hi => ?_⟩
    obtain ⟨hlow, hhigh⟩ := hrange i hi
    exact dacMinMax_codes hm hM bits hbits hi hlow hhigh

/-! ## Codes follow samples (R242) -/

/-- A DAC_QUANT that has written its codes has had no check fail. -/
theorem dac_checks_pass {s t : State} {ch fixed : Bool} {bits : Nat} (hexec : exec (.dacQuant ch fixed bits) s = .next t)
    (h : t.status.err = false ∨ (t.status.errCode = 0x05 ∧ t.status.errSub = 0x01)) :
    dacReport ch fixed bits s = none ∧ t = (planDacQuant ch fixed bits s).act s := by
  rw [← planDacQuant_report]
  cases hreport : reportOf ((planDacQuant ch fixed bits s).checks s) with
  | none =>
    exact ⟨rfl, Host.Outcome.next.inj (hexec.symm.trans (exec_of_report_none (i := .dacQuant ch fixed bits) hreport))⟩
  | some r =>
    obtain ⟨code, sub, idx⟩ := r
    obtain ⟨c, hc, hcheck⟩ := exists_check_of_reportOf hreport
    obtain ⟨-, hne⟩ := planDacQuant_errors ch fixed bits s c hc
    obtain ⟨t', hexec', -, -, -, -, -, herr, hcode, hsub, -⟩ := exec_endsBadly (i := .dacQuant ch fixed bits)
      (fun c hc => (planDacQuant_errors ch fixed bits s c hc).1) hreport
    obtain rfl := Host.Outcome.next.inj (hexec'.symm.trans hexec)
    rcases h with hok | ⟨h5, h1⟩
    · rw [herr] at hok
      cases hok
    · rw [h5] at hcode
      rw [h1] at hsub
      obtain ⟨rfl, rfl, -⟩ : c.err.cls.code = code ∧ c.err.sub = sub ∧ c.err.idx = idx := by
        simpa [Raise.report] using hcheck
      exact absurd (by rw [← hcode, ← hsub]; rfl) hne

/-- Settles O39: the codes of both policies are affine codes, clamped in fixed mode, and rne is monotone. -/
theorem dacCodesFollowTheSamples : Obligations.DacCodesFollowTheSamples := by
  intro s t ch fixed bits i j hexec hend hi hj
  obtain ⟨hreport, rfl⟩ := dac_checks_pass hexec hend
  cases fixed with
  | true =>
    obtain ⟨-, hrange⟩ := dac_operands_ok hreport
    obtain ⟨-, -, hlt⟩ := hrange rfl
    have hcodei := (isFixedCode_iff ..).1 (dacFixed_codes hreport hi)
    have hcodej := (isFixedCode_iff ..).1 (dacFixed_codes hreport hj)
    exact ⟨hcodei.le_top hlt, fun hnani hnanj => ⟨hcodei.mono hlt hcodej hnani hnanj, fun _ => hcodei.eq_zero hlt hnani,
      fun _ => hcodei.eq_top hlt hnani, fun hmode => by cases hmode⟩⟩
  | false =>
    obtain ⟨t, hexec', -, -, -, -, hobserved⟩ := dacMinMaxResult s ch bits hreport
    obtain rfl := Host.Outcome.next.inj (hexec'.symm.trans hexec)
    obtain ⟨m, M, hm, hM, hrange, -, -, -, -, hcodes⟩ := hobserved (by omega)
    have hcodei : IsMinMaxCode bits _ _ _ _ := hcodes i hi
    have hcodej : IsMinMaxCode bits _ _ _ _ := hcodes j hj
    obtain ⟨hlow, hhigh⟩ := hrange i hi
    refine ⟨hcodei.le_top (hlow.trans hhigh) hhigh, fun _ _ => ⟨hcodei.mono (hlow.trans hhigh) hcodej,
      fun hmode => (by cases hmode), fun hmode => (by cases hmode), fun _ hlt hall => ?_⟩⟩
    have hleast : F64.val (specChannel ch s i) = F64.val (specChannel ch s m) := le_antisymm (hall m hm).1 hlow
    have hgreatest : F64.val (specChannel ch s j) = F64.val (specChannel ch s M) :=
      le_antisymm (hrange j hj).2 (hall M hM).2
    rw [hleast, hgreatest] at hlt
    rw [hleast] at hcodei
    rw [hgreatest] at hcodej
    exact ⟨(isAffineCode_lo_iff _).1 (hcodei.affine hlt), (isAffineCode_hi_iff hlt _).1 (hcodej.affine hlt)⟩

end Sys2Proof.Machine
end

section
/-! PROOFS. ENGINE's turn and START (60_exceptions.md R260 to R262): which command a step runs, how it ends, and what an accepted
and a missed START do. -/

namespace Sys2Proof.Machine

/-! ## ENGINE's step (R260) -/

/-- A BUSY engine runs the command of LCMD, and the held accesses then take effect. -/
theorem State.engineStep_of_command {s : State} {i : Instr} (hbusy : s.status.busy = true)
    (h : decode s.latched.cmd = .command i) : s.engineStep = releaseAfter (exec i s) := by
  rw [State.engineStep, if_pos hbusy, State.runLatched_command h]

theorem State.engineStep_of_idle {s : State} (h : s.status.busy = false) : s.engineStep = .next s := by
  simp [State.engineStep, h]

/-- Settles O7: wherever ENGINE moves, the step is ENGINE's step on the latched command. -/
theorem stepRunsLatchedCommand : Obligations.StepRunsLatchedCommand := by
  intro s i hbusy hd
  refine ⟨fun hnil => ?_, fun rest heng => ?_, fun x rest hinputs hhost hstalled => ?_⟩
  · rw [step_of_no_inputs hnil, State.engineStep_of_command hbusy hd]
  · rw [step_of_free heng (.inr rfl)]
    exact State.engineStep_of_command (s := { s with inputs := rest }) hbusy hd
  · rw [step_of_stalled hinputs hstalled hhost, State.engineStep_of_command hbusy hd]

/-- The registers and the inputs are no part of what a release changes. -/
theorem State.release_keeps (s : State) :
    s.release.params = s.params ∧ s.release.irqEn = s.irqEn ∧ s.release.cmd = s.cmd ∧ s.release.args = s.args ∧
      s.release.latched = s.latched ∧ s.release.inputs = s.inputs := by
  rw [State.release_eq]
  exact ⟨rfl, rfl, rfl, rfl, rfl, rfl⟩

/-- Settles O9: a command completes and keeps what the host owns, and so does the release after it. -/
theorem engineStepCompletes : Obligations.EngineStepCompletes := by
  refine fun s => ⟨fun hbusy => ?_, State.engineStep_of_idle⟩
  obtain ⟨t, hrun, hkeeps, hidle, hdone⟩ := s.runLatched_completes
  obtain ⟨hparams, hirq, hcmd, hargs, hlatched, hmissed, -, -, hinputs, -, -⟩ := hkeeps
  obtain ⟨rparams, rirq, rcmd, rargs, rlatched, rinputs⟩ := t.release_keeps
  have hline : t.release.irq = s.irqEn := by
    rw [State.irq, rirq, hirq, t.release_status, hdone, Bool.and_true]
  exact ⟨t.release, State.engineStep_of_busy hbusy hrun, t.release_status ▸ hidle, t.release_status ▸ hdone,
    t.release_held, hline, rirq.trans hirq, rcmd.trans hcmd, rargs.trans hargs, rlatched.trans hlatched,
    t.release_status ▸ hmissed, rparams.trans hparams, rinputs.trans hinputs⟩

/-! ## START (R261, R262) -/

theorem State.writeCtrl_of_start {w : Word} (h0 : w.getLsbD 0 = true) (h1 : w.getLsbD 1 = false) (s : State) :
    s.writeCtrl w = State.start { s with irqEn := w.getLsbD 2 } := by
  rw [State.writeCtrl, h1, h0, if_neg Bool.false_ne_true, if_pos rfl]

/-- Settles O48: START latches the registers and clears the report; an illegal word is found by the step after it. -/
theorem startIsAccepted : Obligations.StartIsAccepted := by
  intro s w hidle h0 h1
  refine ⟨_, ?_, ?_, rfl, fun sub idx hd => ?_⟩
  · rw [State.regAccess_writeCtrl, State.writeCtrl_of_start h0 h1,
      State.start_of_idle (s := { s with irqEn := w.getLsbD 2 }) hidle]
    rfl
  · exact Bool.and_false (w.getLsbD 2)
  · exact ⟨_, State.runLatched_illegal hd, fail_endsBadly _ (illegalCommand sub idx) (illegal_sub_lt hd)⟩

/-- Settles O49: a START while BUSY is missed. -/
theorem startWhileBusyIsMissed : Obligations.StartWhileBusyIsMissed := by
  intro s w hbusy h0 h1
  rw [State.regAccess_writeCtrl, State.writeCtrl_of_start h0 h1,
    State.start_of_busy (s := { s with irqEn := w.getLsbD 2 }) hbusy]
  rfl

end Sys2Proof.Machine
end

section
/-! PROOFS. The errors of the commands (60_exceptions.md R264, R266, R267): every check reports a pair of the table, and a
command's own completion is the success of R269 or RANGE(1), so every other error is precise. -/

namespace Sys2Proof.Machine

/-! ## The pairs that checks report (R264) -/

/-- The error has a pair of the table of R264. -/
def Raise.Listed (r : Raise) : Prop := (r.cls.code, r.sub) ∈ reportPairs

theorem Raise.Listed.sub_lt {r : Raise} (h : r.Listed) : r.sub < 256 :=
  (by decide : ∀ p ∈ reportPairs, p.2 < 256) _ h

/-- A check reports a pair of the table. -/
def Check.Listed (c : Check) : Prop := c.err.Listed

@[simp] theorem check_listed_iff (ok : Bool) (cls : ErrClass) (sub idx : Nat) :
    Check.Listed ⟨ok, ⟨cls, sub, idx⟩⟩ ↔ (cls.code, sub) ∈ reportPairs := Iff.rfl

@[simp] theorem alignCheck_listed_iff (sub k : Nat) (r : Region) :
    (alignCheck sub k r).Listed ↔ (ErrClass.align.code, sub) ∈ reportPairs := Iff.rfl

@[simp] theorem boundsCheck_listed_iff (sub m : Nat) (r : Region) :
    (boundsCheck sub m r).Listed ↔ (ErrClass.address.code, sub) ∈ reportPairs := Iff.rfl

@[simp] theorem overlapCheck_listed_iff (sub : Nat) (d r : Region) :
    (overlapCheck sub d r).Listed ↔ (ErrClass.overlap.code, sub) ∈ reportPairs := Iff.rfl

theorem mapperChecks_listed (k : Nat) (s : State) : ∀ c ∈ mapperChecks k s, c.Listed := by
  simp [mapperChecks, reportPairs, ErrClass.code]

theorem lowpassChecks_listed (s : State) : ∀ c ∈ lowpassChecks s, c.Listed := by
  simp [lowpassChecks, reportPairs, ErrClass.code]

theorem rcosChecks_listed (s : State) : ∀ c ∈ rcosChecks s, c.Listed := by
  simp [rcosChecks, reportPairs, ErrClass.code]

theorem pulseChecks_listed (same : Bool) (s : State) : ∀ c ∈ pulseChecks same s, c.Listed := by
  simp [pulseChecks, reportPairs, ErrClass.code]

theorem ofdmChecks_listed (refset : Bool) (s : State) : ∀ c ∈ ofdmChecks refset s, c.Listed := by
  cases refset <;> simp [ofdmChecks, ofdmActiveCheck, reportPairs, ErrClass.code]

theorem chirpChecks_listed (s : State) : ∀ c ∈ chirpChecks s, c.Listed := by
  simp [chirpChecks, reportPairs, ErrClass.code]

theorem dacChecks_listed (fixed : Bool) (bits : Nat) (s : State) : ∀ c ∈ dacChecks fixed bits s, c.Listed := by
  simp [dacChecks, dacRangeCheck, reportPairs, ErrClass.code]

theorem bitScan_listed (s : State) : ∀ c ∈ bitScan s, c.Listed := by
  simp [bitScan, reportPairs, ErrClass.code]

theorem lowpassLate_listed (dcnorm : Bool) (s : State) : ∀ c ∈ lowpassLate dcnorm s, c.Listed := by
  cases dcnorm <;> simp [lowpassLate, reportPairs, ErrClass.code]

theorem rcosLate_listed (s : State) : ∀ c ∈ rcosLate s, c.Listed := by
  simp [rcosLate, reportPairs, ErrClass.code]

theorem ofdmLate_listed (refset : Bool) (s : State) : ∀ c ∈ ofdmLate refset s, c.Listed := by
  cases refset <;> simp +contextual [ofdmLate, activeEntryChecks, or_imp, reportPairs, ErrClass.code]

theorem dacLate_listed (ch fixed : Bool) (s : State) : ∀ c ∈ dacLate ch fixed s, c.Listed := by
  cases fixed <;> simp [dacLate, reportPairs, ErrClass.code]

/-- Every check of every command reports a pair of R264. -/
theorem planOf_checks_listed (i : Instr) (s : State) : ∀ c ∈ (planOf i s).checks s, c.Listed := by
  refine fun c hc => (List.mem_append.1 hc).elim (fun hearly => ?_) (fun hlate => ?_)
  · cases i with
    | mapBpsk | mapQpsk | mapQam16 => exact mapperChecks_listed _ s c hearly
    | firLowpass dcnorm => exact lowpassChecks_listed s c hearly
    | firRcos => exact rcosChecks_listed s c hearly
    | pulseShape same => exact pulseChecks_listed same s c hearly
    | ofdmMod refset => exact ofdmChecks_listed refset s c hearly
    | chirp => exact chirpChecks_listed s c hearly
    | dacQuant ch fixed bits => exact dacChecks_listed fixed bits s c hearly
  · cases i with
    | mapBpsk | mapQpsk | mapQam16 => exact bitScan_listed s c hlate
    | firLowpass dcnorm => exact lowpassLate_listed dcnorm s c hlate
    | firRcos => exact rcosLate_listed s c hlate
    | pulseShape | chirp => exact nomatch hlate
    | ofdmMod refset => exact ofdmLate_listed refset s c hlate
    | dacQuant ch fixed bits => exact dacLate_listed ch fixed s c hlate

/-! ## How a command ends (R266, R268, R269) -/

theorem writeSamples_succeed_status (s : State) (a : Nat) (l : List Sample) (n : Nat) :
    ((s.writeSamples a l).succeed n).status = s.status.succeeded := rfl

theorem writeReals_succeed_status (s : State) (a : Nat) (l : List F64) (n : Nat) :
    ((s.writeReals a l).succeed n).status = s.status.succeeded := rfl

/-- The completion of a command that has passed its checks: success, or RANGE(1). -/
theorem planOf_act_status (i : Instr) (s : State) :
    ((planOf i s).act s).status = s.status.succeeded ∨
      ((planOf i s).act s).status = s.status.failed ErrClass.range.code 1 0x50 := by
  cases i with
  | mapBpsk | mapQpsk | mapQam16 | pulseShape | chirp => exact .inl (writeSamples_succeed_status s _ _ _)
  | ofdmMod refset =>
    exact .inl (writeSamples_succeed_status s s.argDst (ofdmSamples refset s) (ofdmOut refset s))
  | firLowpass | firRcos => exact .inl (writeReals_succeed_status s _ _ _)
  | dacQuant ch fixed bits =>
    cases fixed with
    | false =>
      show (dacMinMax ch bits s).status = _ ∨ (dacMinMax ch bits s).status = _
      rw [dacMinMax]
      split <;> exact .inl rfl
    | true =>
      show (dacFixed ch bits s).status = _ ∨ (dacFixed ch bits s).status = _
      rw [dacFixed]
      split
      · exact .inl rfl
      · exact .inr rfl

/-- A command ends in an error completion with a pair of R264, which changes nothing but the report, or in its own writes
and completion. -/
theorem exec_cases {i : Instr} {s t : State} (h : exec i s = .next t) :
    (∃ r : Raise, r.Listed ∧ t = s.fail r) ∨
      (firstFailure (planOf i s).early = none ∧ t = (planOf i s).act s) := by
  obtain rfl := (exec_eq_next_iff i s t).1 h
  rcases (planOf i s).run_cases s with ⟨r, hr, hrun⟩ | ⟨hearly, -, hrun⟩
  · have hfirst : firstFailure ((planOf i s).checks s) = some r := by
      rw [Plan.checks, firstFailure_append, Option.or_eq_some_iff]
      exact hr
    obtain ⟨before, c, after, hcs, -, -, rfl⟩ := (firstFailure_eq_some_iff _ _).1 hfirst
    exact .inl ⟨c.err, planOf_checks_listed i s c (by rw [hcs]; simp), hrun⟩
  · exact .inr ⟨hearly, hrun⟩

/-- An error completion, with the pair and the index read back from its own registers. -/
theorem EndsBadly.own_report {s t : State} {code sub idx : Nat} (h : EndsBadly s t code sub idx) :
    EndsBadly s t t.status.errCode.toNat t.status.errSub.toNat t.errIdx.toNat := by
  obtain ⟨hkeeps, hbytes, hframe, hbusy, hdone, herr, -, -, hop, -, hresults⟩ := h
  exact ⟨hkeeps, hbytes, hframe, hbusy, hdone, herr, rfl, rfl, hop, (Nat.mod_eq_of_lt t.errIdx.isLt).symm, hresults⟩

/-- Settles O12: a command's own completion reports success or RANGE(1), and any other end is an error completion. -/
theorem errorsArePrecise : Obligations.ErrorsArePrecise := by
  intro i s t hexec herr hrange
  rcases exec_cases hexec with ⟨r, hlisted, rfl⟩ | ⟨-, rfl⟩
  · exact (fail_endsBadly s r hlisted.sub_lt).own_report
  · rcases planOf_act_status i s with hst | hst <;> rw [hst] at herr hrange
    · cases herr
    · exact absurd ⟨rfl, rfl⟩ hrange

end Sys2Proof.Machine
end

section
/-! PROOFS. The invariant (20_memory.md R80, 60_exceptions.md R261, R264, 10_state.md R47, R60): each thing a step can be keeps
it, and the parameters. -/

namespace Sys2Proof.Machine

/-! ## The canonical memory -/

theorem State.memEffect_wf {s : State} (h : Memory.wf s.mem = true) (m : MemAccess) :
    Memory.wf (s.memEffect m).mem = true := by
  cases m with
  | read a n => exact h
  | write a n v => exact Memory.writeLE_wf h a n v.toNat

theorem State.memEffects_wf {s : State} (h : Memory.wf s.mem = true) (l : List MemAccess) :
    Memory.wf (s.memEffects l).mem = true := by
  induction l generalizing s with
  | nil => exact h
  | cons m l ih => exact ih (State.memEffect_wf h m)

theorem State.release_wf {s : State} (h : Memory.wf s.mem = true) : Memory.wf s.release.mem = true :=
  State.memEffects_wf (s := { s with held := [] }) h s.held

theorem State.writeSamples_wf {s : State} (h : Memory.wf s.mem = true) (a : Nat) (l : List Sample) :
    Memory.wf (s.writeSamples a l).mem = true := Memory.writeArray_wf (fun _ => Memory.putSample_wf) h a l

theorem State.writeReals_wf {s : State} (h : Memory.wf s.mem = true) (a : Nat) (l : List F64) :
    Memory.wf (s.writeReals a l).mem = true := Memory.writeArray_wf (fun _ => Memory.putF64_wf) h a l

theorem State.writeCodes_wf {s : State} (h : Memory.wf s.mem = true) (a : Nat) (l : List Nat) :
    Memory.wf (s.writeCodes a l).mem = true := Memory.writeArray_wf (fun _ => Memory.putU16_wf) h a l

theorem planDacQuant_act_wf (ch fixed : Bool) (bits : Nat) {s : State} (h : Memory.wf s.mem = true) :
    Memory.wf ((planDacQuant ch fixed bits s).act s).mem = true := by
  cases fixed with
  | false =>
    show Memory.wf (dacMinMax ch bits s).mem = true
    rw [dacMinMax]
    split
    · exact h
    · exact State.writeCodes_wf h s.argDst _
  | true =>
    show Memory.wf (dacFixed ch bits s).mem = true
    rw [dacFixed]
    split <;> exact State.writeCodes_wf h s.argDst _

theorem planOf_act_wf (i : Instr) {s : State} (h : Memory.wf s.mem = true) :
    Memory.wf ((planOf i s).act s).mem = true := by
  cases i with
  | mapBpsk | mapQpsk | mapQam16 | pulseShape | ofdmMod | chirp => exact State.writeSamples_wf h s.argDst _
  | firLowpass | firRcos => exact State.writeReals_wf h s.argDst _
  | dacQuant ch fixed bits => exact planDacQuant_act_wf ch fixed bits h

/-! ## The frame buffer -/

theorem ofdm_argP0_le {refset : Bool} {s : State} (h : firstFailure (ofdmChecks refset s) = none) :
    s.argP0 ≤ s.params.maxFft := by
  have hsize := (firstFailure_eq_none_iff _).1 h
    ⟨isPow2 s.argP0 && decide (s.argP0 ≤ s.params.maxFft), ⟨.frameConfig, 1, s.argP0⟩⟩ (by simp [ofdmChecks])
  exact of_decide_eq_true (Bool.and_eq_true_iff.1 hsize).2

/-- The frame of the last symbol replaces the first NFFT samples, and NFFT is at most MAX_FFT. -/
theorem length_ofdmBuffer_le {refset : Bool} {s : State} (h : firstFailure (ofdmChecks refset s) = none)
    (hframe : s.frame.length ≤ s.params.maxFft) : (ofdmBuffer refset s).length ≤ s.params.maxFft := by
  have hsize := ofdm_argP0_le h
  rw [ofdmBuffer]
  split
  · exact hframe
  · rw [List.length_append, length_ofdmFrame, List.length_drop]
    omega

theorem planOf_act_frame_le {i : Instr} {s : State} (h : firstFailure (planOf i s).early = none)
    (hframe : s.frame.length ≤ s.params.maxFft) : ((planOf i s).act s).frame.length ≤ s.params.maxFft := by
  by_cases hofdm : ∃ refset, i = .ofdmMod refset
  · obtain ⟨refset, rfl⟩ := hofdm
    exact length_ofdmBuffer_le h hframe
  · rw [planOf_act_frame (fun refset hi => hofdm ⟨refset, hi⟩)]
    exact hframe

/-! ## The report -/

/-- The clauses of the invariant that do not speak of BUSY or the memory. -/
structure State.ReportOk (s : State) : Prop where
  listed : (s.status.errCode.toNat, s.status.errSub.toNat) ∈ reportPairs
  code_ne : s.status.err = true → s.status.errCode ≠ 0
  frame_le : s.frame.length ≤ s.params.maxFft

/-- No error is one of the pairs of R264. -/
theorem no_error_listed : (0, 0) ∈ reportPairs := by decide

theorem State.Inv.reportOk {s : State} (h : s.Inv) : s.ReportOk := by
  obtain ⟨-, -, -, hlisted, hcode, hframe⟩ := h
  exact ⟨hlisted, hcode, hframe⟩

theorem State.Inv.wf {s : State} (h : s.Inv) : Memory.wf s.mem = true := h.1

/-- ERRCODE and ERRSUB of an error completion with a pair of R264. -/
theorem failed_listed (st : Status) {code sub : Nat} (op : Nat) (h : (code, sub) ∈ reportPairs) (hcode : code ≠ 0) :
    ((st.failed code sub op).errCode.toNat, (st.failed code sub op).errSub.toNat) ∈ reportPairs ∧
      (st.failed code sub op).errCode ≠ 0 := by
  obtain ⟨hc, hs⟩ := (by decide : ∀ p ∈ reportPairs, p.1 < 2 ^ 8 ∧ p.2 < 2 ^ 8) _ h
  have hc : (BitVec.ofNat 8 code).toNat = code := by rw [BitVec.toNat_ofNat, Nat.mod_eq_of_lt hc]
  have hs : (BitVec.ofNat 8 sub).toNat = sub := by rw [BitVec.toNat_ofNat, Nat.mod_eq_of_lt hs]
  rw [Status.failed_errCode, Status.failed_errSub, hc, hs]
  exact ⟨h, fun h0 => hcode (by rw [← hc, h0]; rfl)⟩

theorem ErrClass.code_ne_zero (c : ErrClass) : c.code ≠ 0 := by cases c <;> decide

theorem fail_reportOk {s : State} {r : Raise} (hr : r.Listed) (hframe : s.frame.length ≤ s.params.maxFft) :
    (s.fail r).ReportOk := by
  obtain ⟨hlisted, hcode⟩ := failed_listed s.status (s.latched.cmd.toNat % 2 ^ 8) hr r.cls.code_ne_zero
  exact ⟨hlisted, fun _ => hcode, hframe⟩

theorem planOf_act_reportOk {i : Instr} {s : State} (hearly : firstFailure (planOf i s).early = none)
    (h : s.ReportOk) : ((planOf i s).act s).ReportOk := by
  obtain ⟨⟨hparams, -⟩, -⟩ := planOf_act_writesOnly i s hearly
  have hframe := planOf_act_frame_le hearly h.frame_le
  rw [← hparams] at hframe
  rcases planOf_act_status i s with hst | hst
  · exact ⟨hst ▸ h.listed, fun herr => (by rw [hst] at herr; cases herr), hframe⟩
  · obtain ⟨hlisted, hcode⟩ := failed_listed s.status 0x50 (by decide : (ErrClass.range.code, 1) ∈ reportPairs) (by decide)
    exact ⟨hst ▸ hlisted, fun _ => hst ▸ hcode, hframe⟩

/-! ## What keeps the invariant -/

/-- Where `s` meets the invariant, so does `t`, with the same parameters. -/
def KeepsInv (s t : State) : Prop := s.Inv → t.Inv ∧ t.params = s.params

/-- A completed command and a reset end in a release: the block is IDLE and nothing is held any more. -/
theorem State.inv_release {s : State} (hwf : Memory.wf s.mem = true) (hidle : s.status.busy = false) (h : s.ReportOk) :
    s.release.Inv ∧ s.release.params = s.params := by
  obtain ⟨hparams, -⟩ := s.release_keeps
  have hframe : s.release.frame = s.frame := by rw [State.release_eq]
  refine ⟨⟨State.release_wf hwf, fun _ => s.release_held, fun hbusy => ?_, ?_⟩, hparams⟩
  · rw [s.release_status, hidle] at hbusy
    cases hbusy
  · rw [s.release_status, hframe, hparams]
    exact ⟨h.listed, h.code_ne, h.frame_le⟩

theorem illegalCommand_listed {w : Word} {sub idx : Nat} (h : decode w = .illegal sub idx) :
    (illegalCommand sub idx).Listed := by
  rcases decode_cases w with ⟨r, -, -, -, hd⟩ | ⟨r, -, -, -, hd⟩ | ⟨-, hd⟩
  · cases h.symm.trans hd
  · cases h.symm.trans hd
    exact (by decide : (0x10, 2) ∈ reportPairs)
  · cases h.symm.trans hd
    exact (by decide : (0x10, 1) ∈ reportPairs)

theorem engineStep_keepsInv {s t : State} (h : s.engineStep = .next t) : KeepsInv s t := by
  intro hinv
  rcases s.engineStep_cases with ⟨-, hstep⟩ | ⟨-, i, -, hstep⟩ | ⟨-, sub, idx, hd, hstep⟩ <;>
    obtain rfl := Host.Outcome.next.inj (hstep.symm.trans h)
  · exact ⟨hinv, rfl⟩
  · rcases exec_cases (exec_eq_run i s) with ⟨r, hr, hrun⟩ | ⟨hearly, hrun⟩ <;> rw [hrun]
    · exact State.inv_release hinv.wf rfl (fail_reportOk hr hinv.reportOk.frame_le)
    · obtain ⟨⟨hparams, -⟩, -⟩ := planOf_act_writesOnly i s hearly
      rw [← hparams]
      exact State.inv_release (planOf_act_wf i hinv.wf) (planOf_act_completes i s).1
        (planOf_act_reportOk hearly hinv.reportOk)
  · exact State.inv_release hinv.wf rfl (fail_reportOk (illegalCommand_listed hd) hinv.reportOk.frame_le)

/-- The registers after a reset report nothing. -/
theorem reportOk_of_reset {s : State} (hst : s.status = Status.reset) (hframe : s.frame = []) : s.ReportOk := by
  refine ⟨?_, ?_, ?_⟩
  · rw [hst]
    exact no_error_listed
  · rw [hst]
    exact Bool.noConfusion
  · rw [hframe]
    exact Nat.zero_le _

theorem softReset_keepsInv (s : State) : KeepsInv s s.softReset := by
  intro hinv
  rw [State.softReset]
  split
  · exact State.inv_release (s := s.abandon.resetRegisters) (Memory.fill_wf _ hinv.wf _ _) rfl (reportOk_of_reset rfl rfl)
  · exact State.inv_release (s := s.resetRegisters) hinv.wf rfl (reportOk_of_reset rfl rfl)

theorem powerOnReset_keepsInv (s : State) : KeepsInv s s.powerOnReset := fun _ =>
  State.inv_release (s := { s.resetRegisters with mem := State.reset.mem, powerOns := s.powerOns + 1 }) rfl rfl
    (reportOk_of_reset rfl rfl)

/-- An accepted START clears the report; a missed one only sets MISSED. -/
theorem start_keepsInv (s : State) : KeepsInv s s.start := by
  intro hinv
  obtain ⟨hwf, hheld, hclear, hreport⟩ := hinv
  cases hbusy : s.status.busy with
  | true =>
    rw [State.start_of_busy hbusy]
    exact ⟨⟨hwf, hheld, hclear, hreport⟩, rfl⟩
  | false =>
    rw [State.start_of_idle hbusy]
    obtain ⟨-, -, hframe⟩ := hreport
    exact ⟨⟨hwf, Bool.noConfusion, fun _ => ⟨rfl, rfl, rfl, rfl, rfl, rfl, rfl, rfl, rfl, rfl⟩, no_error_listed,
      Bool.noConfusion, hframe⟩, rfl⟩

theorem writeCtrl_keepsInv (s : State) (w : Word) : KeepsInv s (s.writeCtrl w) := by
  rw [State.writeCtrl]
  split
  · exact softReset_keepsInv s
  · split
    · exact start_keepsInv { s with irqEn := w.getLsbD 2 }
    · exact fun hinv => ⟨hinv, rfl⟩

/-- Acknowledging can only clear DONE, ERR and MISSED. -/
theorem w1c_keepsInv (s : State) (w : Word) : KeepsInv s { s with status := s.status.w1c w } := by
  intro hinv
  obtain ⟨hwf, hheld, hclear, hlisted, hcode, hframe⟩ := hinv
  refine ⟨⟨hwf, hheld, fun hbusy => ?_, hlisted, fun herr => hcode (Bool.and_eq_true_iff.1 herr).1, hframe⟩, rfl⟩
  obtain ⟨hdone, herr, hrest⟩ := hclear hbusy
  exact ⟨by rw [Status.w1c, hdone, Bool.false_and], by rw [Status.w1c, herr, Bool.false_and], hrest⟩

theorem writeReg_keepsInv (s : State) (r : Reg) (w : Word) : KeepsInv s (s.writeReg r w) := by
  by_cases hst : r = .status
  · subst hst
    exact w1c_keepsInv s w
  · cases hop : r.isOperand with
    | true =>
      rw [State.writeReg_of_isOperand hop]
      exact fun hinv => ⟨hinv, rfl⟩
    | false =>
      rw [State.writeReg_of_readOnly hop hst]
      exact fun hinv => ⟨hinv, rfl⟩

theorem writeWindow_keepsInv (s : State) (off : Nat) (w : Word) : KeepsInv s (s.writeWindow off w) := by
  cases hat : regAt off with
  | none =>
    rw [State.writeWindow_of_none hat]
    exact fun hinv => ⟨hinv, rfl⟩
  | some r =>
    obtain rfl := regAt_eq_some_iff.1 hat
    by_cases hctrl : r = .ctrl
    · subst hctrl
      exact writeCtrl_keepsInv s w
    · rw [State.writeWindow_regOffset hctrl]
      exact writeReg_keepsInv s r w

theorem regAccess_keepsInv {s t : State} {a : RegAccess} (h : s.regAccess a = .next t) : KeepsInv s t := by
  cases a with
  | read off n =>
    rw [State.regAccess] at h
    split at h
    · obtain rfl := Host.Outcome.next.inj h
      exact fun hinv => ⟨hinv, rfl⟩
    · cases h
  | write off n w =>
    rw [State.regAccess] at h
    split at h
    · obtain rfl := Host.Outcome.next.inj h
      exact writeWindow_keepsInv s off w
    · cases h

/-- While IDLE an access changes the memory; while BUSY it joins the held ones. -/
theorem memAccess_keepsInv {s t : State} {m : MemAccess} (h : s.memAccess m = .next t) : KeepsInv s t := by
  intro hinv
  obtain ⟨hwf, hheld, hrest⟩ := hinv
  cases hok : memAccessOk s.params.memBytes m.span.1 m.span.2 with
  | false =>
    rw [State.memAccess_of_refused hok] at h
    cases h
  | true =>
    cases hbusy : s.status.busy with
    | true =>
      obtain rfl := Host.Outcome.next.inj ((State.memAccess_of_busy hok hbusy).symm.trans h)
      exact ⟨⟨hwf, fun hidle => absurd (hbusy.symm.trans hidle) (by decide), hrest⟩, rfl⟩
    | false =>
      obtain rfl := Host.Outcome.next.inj ((State.memAccess_of_idle hok hbusy).symm.trans h)
      rw [State.memEffect_eq]
      exact ⟨⟨State.memEffect_wf hwf m, hheld, hrest⟩, rfl⟩

theorem busRead_keepsInv {s t : State} {addr n : Nat} (h : s.busRead addr n = .next t) : KeepsInv s t := by
  rw [State.busRead] at h
  split at h
  · exact regAccess_keepsInv h
  · split at h
    · exact memAccess_keepsInv h
    · cases h

theorem busWrite_keepsInv {s t : State} {addr n : Nat} {v : BitVec 64} (h : s.busWrite addr n v = .next t) :
    KeepsInv s t := by
  rw [State.busWrite] at h
  split at h
  · exact regAccess_keepsInv h
  · split at h
    · exact memAccess_keepsInv h
    · cases h

theorem takeInput_keepsInv {s t : State} {x : Input} (h : s.takeInput x = .next t) : KeepsInv s t := by
  cases x with
  | reg a => exact regAccess_keepsInv h
  | mem a => exact memAccess_keepsInv h
  | busRead addr n => exact busRead_keepsInv h
  | busWrite addr n v => exact busWrite_keepsInv h
  | engine => exact engineStep_keepsInv h
  | wait =>
    obtain rfl := Host.Outcome.next.inj h
    exact fun hinv => ⟨hinv, rfl⟩
  | powerOn =>
    obtain rfl := Host.Outcome.next.inj h
    exact powerOnReset_keepsInv s

/-- Settles O6: a step is ENGINE's or takes an input, and each keeps the invariant. -/
theorem stepKeepsInvariant : Obligations.StepKeepsInvariant := by
  intro s t hinv h
  rcases step_cases s with ⟨-, hstep⟩ | ⟨x, rest, -, -, -, hstep⟩ | ⟨x, rest, -, -, hstep⟩ <;> rw [hstep] at h
  · exact engineStep_keepsInv h hinv
  · exact engineStep_keepsInv h hinv
  · exact takeInput_keepsInv (s := { s with inputs := rest }) h hinv

end Sys2Proof.Machine
end

section
/-! PROOFS. RANGE(1) (60_exceptions.md R268, 45_dac.md R238 to R240): the completion of DAC_QUANT in fixed mode where a sample is
clamped. -/

namespace Sys2Proof.Machine

section
variable {ch : Bool} {s : State} {first : Nat}

/-- The clamped samples are counted by their indices. -/
theorem dacClamped_eq (hrange : DacRangeOk s) :
    dacClamped ch s = (List.range s.argCount).countP (specClamps ch s) := by
  rw [dacClamped, dacValues, dacValue_eq_specChannel, List.countP_map]
  exact List.countP_congr fun i _ => by rw [Function.comp_apply, outOfRange_eq_specClamps hrange]

/-- The first clamped sample is found by its index. -/
theorem dacFirstClamped_eq (hrange : DacRangeOk s) (hlt : first < s.argCount) (hclamps : specClamps ch s first = true)
    (hbefore : ∀ i < first, specClamps ch s i = false) : dacFirstClamped ch s = first := by
  have hout : ∀ i, (h : i < (dacValues ch s).length) →
      outOfRange s.latched.f0 s.latched.f1 (dacValues ch s)[i] = specClamps ch s i := fun i h => by
    simp [dacValues, dacValue_eq_specChannel, outOfRange_eq_specClamps hrange]
  rw [dacFirstClamped, List.findIdx_eq (by rwa [length_dacValues])]
  refine ⟨(hout first _).trans hclamps, fun i hi => (hout i _).trans (hbefore i hi)⟩

end

/-- Where a sample is clamped, fixed mode ends with RANGE(1) of the first one. -/
theorem dacFixed_of_clamped (ch : Bool) (bits : Nat) {s : State} (h : dacClamped ch s ≠ 0) :
    dacFixed ch bits s =
      (s.writeCodes s.argDst ((dacValues ch s).map (fixedCode (dacTop bits) s.latched.f0 s.latched.f1))).failRange
        (dacFirstClamped ch s) (dacClamped ch s) s.argCount := by
  rw [dacFixed, if_neg h]

theorem toNat_ofNat_of_le_count {s : State} {n : Nat} (h : n ≤ s.argCount) : (BitVec.ofNat 32 n).toNat = n := by
  rw [BitVec.toNat_ofNat, Nat.mod_eq_of_lt (h.trans_lt s.latched.count.isLt)]

/-- Settles O30: the codes are those of `dacFixed_codes`, and the completion is that of the first clamped sample. -/
theorem dacFixedRangeError : Obligations.DacFixedRangeError := by
  intro s ch bits first h hlt hclamps hbefore
  obtain ⟨-, hrange⟩ := dac_operands_ok h
  have hcount := dacClamped_eq (ch := ch) (hrange rfl)
  have hfirst := dacFirstClamped_eq (hrange rfl) hlt hclamps hbefore
  have hle : dacClamped ch s ≤ s.argCount := (List.countP_le_length).trans (length_dacValues ch s).le
  have hpos : dacClamped ch s ≠ 0 := by
    rw [hcount, ← Nat.pos_iff_ne_zero, List.countP_pos_iff]
    exact ⟨first, List.mem_range.2 hlt, hclamps⟩
  obtain ⟨hkeeps, hbytes⟩ := dacFixed_writesOnly ch bits s
  have hend := dacFixed_of_clamped ch bits hpos
  refine ⟨dacFixed ch bits s, exec_of_report_none (i := .dacQuant ch true bits) ((planDacQuant_report ..).trans h),
    hkeeps, hend ▸ ⟨rfl, rfl⟩, hend ▸ rfl, hbytes, hend ▸ rfl, ?_, ?_, ?_, fun i hi => dacFixed_codes h hi⟩
  · rw [hend, State.failRange_errIdx, hfirst, toNat_ofNat_of_le_count hlt.le]
  · rw [hend, State.failRange_outLen, toNat_ofNat_of_le_count le_rfl]
  · rw [hend, State.failRange_clampCnt, toNat_ofNat_of_le_count hle, hcount]

end Sys2Proof.Machine
end

section
/-! PROOFS. What a command depends on (60_exceptions.md R283, 00_scope.md R23): the parameters, the latched operands and the bytes
of its source regions. -/

namespace Sys2Proof.Machine

/-! ## Writes that do not depend on the memory -/

/-- Each byte is either set to a value that the memory before has no part in, or kept. -/
def Overwrites (f : Memory → Memory) : Prop :=
  ∀ b, (∃ v, ∀ m, Memory.lookup (f m) b = some v) ∨ ∀ m, Memory.lookup (f m) b = Memory.lookup m b

theorem overwrites_id : Overwrites fun m => m := fun _ => .inr fun _ => rfl

theorem Overwrites.comp {f g : Memory → Memory} (hg : Overwrites g) (hf : Overwrites f) : Overwrites fun m => g (f m) := by
  intro b
  rcases hg b with ⟨v, hv⟩ | hkept
  · exact .inl ⟨v, fun m => hv (f m)⟩
  · rcases hf b with ⟨v, hv⟩ | hkept'
    · exact .inl ⟨v, fun m => (hkept (f m)).trans (hv m)⟩
    · exact .inr fun m => (hkept (f m)).trans (hkept' m)

theorem overwrites_insert (a : Nat) (v : Byte) : Overwrites fun m => Memory.insert m a v := by
  intro b
  by_cases h : b = a
  · subst h
    exact .inl ⟨v, fun m => Memory.lookup_insert_self m b v⟩
  · exact .inr fun m => Memory.lookup_insert_ne m v h

theorem overwrites_writeLE (a n v : Nat) : Overwrites fun m => Memory.writeLE m a n v := by
  induction n generalizing a v with
  | zero => exact overwrites_id
  | succ n ih => exact (ih (a + 1) (v / 256)).comp (overwrites_insert a (BitVec.ofNat 8 v))

theorem overwrites_putF64 (a : Nat) (x : F64) : Overwrites fun m => Memory.putF64 m a x := overwrites_writeLE a 8 x.toNat

theorem overwrites_putU16 (a v : Nat) : Overwrites fun m => Memory.putU16 m a v := overwrites_writeLE a 2 v

theorem overwrites_putSample (a : Nat) (z : Sample) : Overwrites fun m => Memory.putSample m a z :=
  (overwrites_putF64 (a + 8) z.im).comp (overwrites_putF64 a z.re)

theorem overwrites_writeArray {α : Type} {put : Memory → Nat → α → Memory}
    (hput : ∀ a x, Overwrites fun m => put m a x) (size a : Nat) (l : List α) :
    Overwrites fun m => Memory.writeArray put size m a l := by
  induction l generalizing a with
  | nil => exact overwrites_id
  | cons x l ih => exact (ih (a + size)).comp (hput a x)

/-! ## Two runs that end the same -/

/-- The report registers and the result registers agree. -/
def SameReport (t t' : State) : Prop :=
  t.status.err = t'.status.err ∧ t.status.errCode = t'.status.errCode ∧ t.status.errSub = t'.status.errSub ∧
    t.status.errOp = t'.status.errOp ∧ t.errIdx = t'.errIdx ∧ t.outLen = t'.outLen ∧ t.clampCnt = t'.clampCnt ∧
    t.resF0 = t'.resF0 ∧ t.resF1 = t'.resF1

/-- The runs from `s` to `t` and from `s'` to `t'` report the same, and every byte ends the same in both or is written by
neither. -/
def SameEnd (s s' t t' : State) : Prop :=
  SameReport t t' ∧ ∀ a, t.readByte a = t'.readByte a ∨ (t.readByte a = s.readByte a ∧ t'.readByte a = s'.readByte a)

/-- Report registers that are clear agree (60_exceptions.md R261). -/
theorem sameReport_of_clear {s s' : State} (h : s.reportClear) (h' : s'.reportClear) : SameReport s s' := by
  obtain ⟨-, herr, hcode, hsub, hop, hidx, hlen, hclamp, hres0, hres1⟩ := h
  obtain ⟨-, herr', hcode', hsub', hop', hidx', hlen', hclamp', hres0', hres1'⟩ := h'
  exact ⟨herr.trans herr'.symm, hcode.trans hcode'.symm, hsub.trans hsub'.symm, hop.trans hop'.symm, hidx.trans hidx'.symm,
    hlen.trans hlen'.symm, hclamp.trans hclamp'.symm, hres0.trans hres0'.symm, hres1.trans hres1'.symm⟩

section
variable {s s' : State} (h : SameReport s s')
include h

theorem SameReport.succeed (n : Nat) : SameReport (s.succeed n) (s'.succeed n) := by
  obtain ⟨-, hcode, hsub, hop, hidx, -, hclamp, hres⟩ := h
  exact ⟨rfl, hcode, hsub, hop, hidx, rfl, hclamp, hres⟩

theorem SameReport.succeedMinMax (n : Nat) (lo hi : F64) :
    SameReport (s.succeedMinMax n lo hi) (s'.succeedMinMax n lo hi) := by
  obtain ⟨-, hcode, hsub, hop, hidx, -, hclamp, -⟩ := h
  exact ⟨rfl, hcode, hsub, hop, hidx, rfl, hclamp, rfl, rfl⟩

theorem SameReport.failRange (first clamped n : Nat) :
    SameReport (s.failRange first clamped n) (s'.failRange first clamped n) := by
  obtain ⟨-, -, -, -, -, -, -, hres⟩ := h
  exact ⟨rfl, rfl, rfl, rfl, rfl, rfl, rfl, hres⟩

end

theorem sameReport_fail {s s' : State} (hl : s.latched = s'.latched) (r : Raise) : SameReport (s.fail r) (s'.fail r) := by
  have hop : (s.fail r).status.errOp = (s'.fail r).status.errOp := by
    rw [State.fail_status, State.fail_status, Status.failed_errOp, Status.failed_errOp, hl]
  exact ⟨rfl, rfl, rfl, hop, rfl, rfl, rfl, rfl, rfl⟩

/-- Runs that write the same bytes over their memories end the same where they report the same. -/
theorem SameReport.sameEnd {s s' t t' : State} (h : SameReport t t') {f : Memory → Memory} (hf : Overwrites f)
    (hmem : t.mem = f s.mem) (hmem' : t'.mem = f s'.mem) (hpower : t.powerOns = s.powerOns)
    (hpower' : t'.powerOns = s'.powerOns) : SameEnd s s' t t' := by
  refine ⟨h, fun a => ?_⟩
  rcases hf a with ⟨v, hv⟩ | hkept
  · left
    rw [State.readByte, State.readByte, hmem, hmem', hv, hv, Option.getD_some, Option.getD_some]
  · right
    exact ⟨State.readByte_of_lookup (by rw [hmem, hkept]) hpower, State.readByte_of_lookup (by rw [hmem', hkept]) hpower'⟩

/-- After the codes are written, whichever completion follows. -/
theorem SameReport.sameEnd_of_codes {s s' t t' : State} (h : SameReport t t') {a : Nat} {l : List Nat}
    (hmem : t.mem = (s.writeCodes a l).mem) (hmem' : t'.mem = (s'.writeCodes a l).mem) (hpower : t.powerOns = s.powerOns)
    (hpower' : t'.powerOns = s'.powerOns) : SameEnd s s' t t' :=
  h.sameEnd (f := fun m => Memory.writeArray Memory.putU16 2 m a l) (overwrites_writeArray overwrites_putU16 2 a l)
    hmem hmem' hpower hpower'

section
variable {s s' : State} (h : SameReport s s') (a : Nat)
include h

theorem sameEnd_writeSamples_succeed (l : List Sample) (n : Nat) :
    SameEnd s s' ((s.writeSamples a l).succeed n) ((s'.writeSamples a l).succeed n) :=
  (SameReport.succeed (s := s.writeSamples a l) (s' := s'.writeSamples a l) h n).sameEnd
    (f := fun m => Memory.writeArray Memory.putSample 16 m a l) (overwrites_writeArray overwrites_putSample 16 a l)
    rfl rfl rfl rfl

theorem sameEnd_writeReals_succeed (l : List F64) (n : Nat) :
    SameEnd s s' ((s.writeReals a l).succeed n) ((s'.writeReals a l).succeed n) :=
  (SameReport.succeed (s := s.writeReals a l) (s' := s'.writeReals a l) h n).sameEnd
    (f := fun m => Memory.writeArray Memory.putF64 8 m a l) (overwrites_writeArray overwrites_putF64 8 a l)
    rfl rfl rfl rfl

end

/-! ## Two states with the same operands and the same source bytes -/

/-- The parameters and the latched operands agree. -/
structure SameOperands (s s' : State) : Prop where
  params : s.params = s'.params
  latched : s.latched = s'.latched

/-- The parameters and the latched operands of a state, everything else as after reset. -/
def State.operands (s : State) : State := { State.reset with params := s.params, latched := s.latched }

/-- What is read of the parameters and the latched operands alone is the same in both. -/
theorem SameOperands.congr {s s' : State} (h : SameOperands s s') {α : Type} (f : State → α)
    (hf : ∀ t, f t = f t.operands) : f s = f s' := by
  rw [hf s, hf s', State.operands, State.operands, h.params, h.latched]

section
variable {s s' : State} (h : SameOperands s s')
include h

theorem SameOperands.argSrc : s.argSrc = s'.argSrc := h.congr State.argSrc fun _ => rfl
theorem SameOperands.argDst : s.argDst = s'.argDst := h.congr State.argDst fun _ => rfl
theorem SameOperands.argCount : s.argCount = s'.argCount := h.congr State.argCount fun _ => rfl
theorem SameOperands.argAux : s.argAux = s'.argAux := h.congr State.argAux fun _ => rfl
theorem SameOperands.argP0 : s.argP0 = s'.argP0 := h.congr State.argP0 fun _ => rfl
theorem SameOperands.argP1 : s.argP1 = s'.argP1 := h.congr State.argP1 fun _ => rfl
theorem SameOperands.argP2 : s.argP2 = s'.argP2 := h.congr State.argP2 fun _ => rfl

end

/-- The bytes of [base, base + len) agree. -/
def SameBytes (s s' : State) (base len : Nat) : Prop :=
  ∀ a, base ≤ a → a < base + len → s.readByte a = s'.readByte a

section
variable {s s' : State} {base len : Nat} (h : SameBytes s s' base len) {a : Nat} (h1 : base ≤ a)
include h h1

theorem SameBytes.memRead {n : Nat} (h2 : a + n ≤ base + len) : s.memRead a n = s'.memRead a n :=
  readLE_congr fun b hb1 hb2 => h b (h1.trans hb1) (hb2.trans_le h2)

theorem SameBytes.readF64 (h2 : a + 8 ≤ base + len) : s.readF64 a = s'.readF64 a := by
  rw [State.readF64, State.readF64, h.memRead h1 h2]

theorem SameBytes.readSample (h2 : a + 16 ≤ base + len) : s.readSample a = s'.readSample a := by
  rw [State.readSample, State.readSample, h.readF64 h1 (by omega), h.readF64 (by omega) (by omega)]

end

/-- The plans a command makes in the two states have the same checks and end the same. -/
structure SamePlan (plan : State → Plan) (s s' : State) : Prop where
  early : (plan s).early = (plan s').early
  late : (plan s).late s = (plan s').late s'
  act : SameReport s s' → SameEnd s s' ((plan s).act s) ((plan s').act s')

theorem SamePlan.run {plan : State → Plan} {s s' : State} (h : SamePlan plan s s') (hl : s.latched = s'.latched)
    (hreport : SameReport s s') : SameEnd s s' ((plan s).run s) ((plan s').run s') := by
  have hfail : ∀ r, SameEnd s s' (s.fail r) (s'.fail r) := fun r =>
    (sameReport_fail hl r).sameEnd overwrites_id rfl rfl rfl rfl
  rw [Plan.run, Plan.run, ← h.early, ← h.late]
  cases firstFailure (plan s).early with
  | some r => exact hfail r
  | none =>
    cases firstFailure ((plan s).late s) with
    | some r => exact hfail r
    | none => exact h.act hreport

/-! ## The symbol mapper -/

theorem mapperPlan_same {k : Nat} {symbol : State → Nat → Sample} {s s' : State} (h : SameOperands s s')
    (hsrc : SameBytes s s' s.argSrc s.argCount) (hsymbol : ∀ j < s.argCount / k, symbol s j = symbol s' j) :
    SamePlan (mapperPlan k symbol) s s' where
  early := h.congr (mapperChecks k) fun _ => rfl
  late := by
    show bitScan s = bitScan s'
    rw [bitScan, bitScan, ← h.argCount, ← h.argSrc]
    refine List.map_congr_left fun i hi => ?_
    have hi := List.mem_range.1 hi
    rw [State.readBit, State.readBit, hsrc.memRead (by omega) (by omega)]
  act hreport := by
    have hsymbols : (List.range (s.argCount / k)).map (symbol s) = (List.range (s.argCount / k)).map (symbol s') :=
      List.map_congr_left fun j hj => hsymbol j (List.mem_range.1 hj)
    show SameEnd s s' (State.succeed _ _) (State.succeed _ _)
    rw [← h.argCount, ← h.argDst, hsymbols]
    exact sameEnd_writeSamples_succeed hreport _ _ _

/-! ## The commands without a source -/

theorem planFirLowpass_same (dcnorm : Bool) {s s' : State} (h : SameOperands s s') :
    SamePlan (planFirLowpass dcnorm) s s' where
  early := h.congr lowpassChecks fun _ => rfl
  late := h.congr (lowpassLate dcnorm) fun _ => rfl
  act hreport := by
    have htaps := h.congr (fun s => lowpassOut s.params.trigTol dcnorm s.argP1 s.latched.f0) fun _ => rfl
    show SameEnd s s' (State.succeed (State.writeReals s _ _) _) (State.succeed (State.writeReals s' _ _) _)
    rw [← h.argDst, ← htaps, ← h.argP1]
    exact sameEnd_writeReals_succeed hreport _ _ _

theorem planFirRcos_same {s s' : State} (h : SameOperands s s') : SamePlan planFirRcos s s' where
  early := h.congr rcosChecks fun _ => rfl
  late := h.congr rcosLate fun _ => rfl
  act hreport := by
    have htaps : rcosLatched s = rcosLatched s' := h.congr rcosLatched fun _ => rfl
    have hcount : rcosCount s = rcosCount s' := h.congr rcosCount fun _ => rfl
    show SameEnd s s' (State.succeed (State.writeReals s _ _) _) (State.succeed (State.writeReals s' _ _) _)
    rw [← h.argDst, ← hcount, ← htaps]
    exact sameEnd_writeReals_succeed hreport _ _ _

theorem planChirp_same {s s' : State} (h : SameOperands s s') : SamePlan planChirp s s' where
  early := h.congr chirpChecks fun _ => rfl
  late := rfl
  act hreport := by
    have hsamples : chirpSamples s = chirpSamples s' := h.congr chirpSamples fun _ => rfl
    show SameEnd s s' (State.succeed (State.writeSamples s _ _) _) (State.succeed (State.writeSamples s' _ _) _)
    rw [← h.argDst, ← hsamples, ← h.latched]
    exact sameEnd_writeSamples_succeed hreport _ _ _

/-! ## PULSE_SHAPE -/

/-- The terms outside the input have no part in the sum (42_pulse_shaper.md R184). -/
theorem accumulate_congr {lin taps n : Nat} {f g : Nat → F64} (h : ∀ k < taps, n - k < lin → f k = g k) :
    accumulate lin taps n f = accumulate lin taps n g := by
  refine List.foldl_ext _ _ _ fun acc k hk => ?_
  split
  · next hin => rw [h k (List.mem_range.1 hk) hin.2]
  · rfl

section
variable {s s' : State} (h : SameOperands s s') (hsrc : SameBytes s s' s.argSrc (16 * s.argCount))
include h hsrc

theorem upsampled_same {i : Nat} (hi : i < pulseLin s) : upsampled s i = upsampled s' i := by
  have hlt : i / s.argP0 < s.argCount := Nat.div_lt_of_lt_mul (by rwa [Nat.mul_comm])
  rw [upsampled, upsampled, ← h.argP0, ← h.argSrc, hsrc.readSample (by omega) (by omega)]

theorem convFull_same (haux : SameBytes s s' s.argAux (8 * s.argP1)) (n : Nat) : convFull s n = convFull s' n := by
  have htap : ∀ k < s.argP1, pulseTap s k = pulseTap s' k := fun k hk => by
    rw [pulseTap, pulseTap, ← h.argAux, haux.readF64 (by omega) (by omega)]
  have hlin : pulseLin s = pulseLin s' := h.congr pulseLin fun _ => rfl
  have hterm : ∀ part : Sample → F64,
      accumulate (pulseLin s) s.argP1 n (fun k => F64.mul (part (upsampled s (n - k))) (pulseTap s k)) =
        accumulate (pulseLin s) s.argP1 n (fun k => F64.mul (part (upsampled s' (n - k))) (pulseTap s' k)) := fun part =>
    accumulate_congr fun k hk hin => by rw [upsampled_same h hsrc hin, htap k hk]
  rw [convFull, convFull, ← hlin, ← h.argP1, hterm Sample.re, hterm Sample.im]

theorem planPulseShape_same (same : Bool) (haux : SameBytes s s' s.argAux (8 * s.argP1)) :
    SamePlan (planPulseShape same) s s' where
  early := h.congr (pulseChecks same) fun _ => rfl
  late := rfl
  act hreport := by
    have hsample : pulseSample same s = pulseSample same s' := funext fun n => by
      rw [pulseSample, pulseSample, ← h.argP1, convFull_same h hsrc haux, convFull_same h hsrc haux]
    have hout : pulseOut same s = pulseOut same s' := h.congr (pulseOut same) fun _ => rfl
    show SameEnd s s' (State.succeed (State.writeSamples s _ _) _) (State.succeed (State.writeSamples s' _ _) _)
    rw [← h.argDst, ← hout, ← hsample]
    exact sameEnd_writeSamples_succeed hreport _ _ _

end

/-! ## OFDM_MOD -/

section
variable {refset : Bool} {s s' : State} (h : SameOperands s s')
  (haux : refset = false → SameBytes s s' s.argAux (2 * s.argP2))
include h haux

theorem activeIndex_same {j : Nat} (hj : j < ofdmNact refset s) : activeIndex refset s j = activeIndex refset s' j := by
  cases refset with
  | true => rfl
  | false =>
    have hj : j < s.argP2 := hj
    show s.memRead (s.argAux + 2 * j) 2 = s'.memRead (s'.argAux + 2 * j) 2
    rw [← h.argAux, (haux rfl).memRead (by omega) (by omega)]

theorem ofdmLate_same : ofdmLate refset s = ofdmLate refset s' := by
  cases refset with
  | true => rfl
  | false =>
    show (List.range s.argP2).flatMap (activeEntryChecks s) = (List.range s'.argP2).flatMap (activeEntryChecks s')
    rw [← h.argP2]
    refine List.flatMap_congr fun j hj => ?_
    have hj : j < s.argP2 := List.mem_range.1 hj
    rw [activeEntryChecks, activeEntryChecks, ← h.argP0, activeIndex_same (refset := false) h haux hj,
      activeIndex_same (refset := false) h haux (show j - 1 < s.argP2 by omega)]

variable (hsrc : SameBytes s s' s.argSrc (16 * s.argCount))
include hsrc

theorem ofdmFrame_same {b : Nat} (hb : b < ofdmNsym refset s) : ofdmFrame refset s b = ofdmFrame refset s' b := by
  have hnact : ofdmNact refset s = ofdmNact refset s' := h.congr (ofdmNact refset) fun _ => rfl
  rw [ofdmFrame, ofdmFrame, ← hnact, ← h.argP0]
  refine List.foldl_ext _ _ _ fun X j hj => ?_
  have hj := List.mem_range.1 hj
  have hblock : b * ofdmNact refset s + ofdmNact refset s ≤ s.argCount := by
    rw [← Nat.succ_mul]
    exact (Nat.mul_le_mul_right _ hb).trans (Nat.div_mul_le_self _ _)
  rw [activeIndex_same h haux hj, ← h.argSrc, hsrc.readSample (by omega) (by omega)]

theorem ofdmSamples_same : ofdmSamples refset s = ofdmSamples refset s' := by
  have hnsym : ofdmNsym refset s = ofdmNsym refset s' := h.congr (ofdmNsym refset) fun _ => rfl
  rw [ofdmSamples, ofdmSamples, ← hnsym]
  refine List.flatMap_congr fun b hb => ?_
  have hb := List.mem_range.1 hb
  rw [ofdmBlock, ofdmBlock, ofdmTime, ofdmTime, ofdmFrame_same h haux hsrc hb, ← h.params, ← h.argP0, ← h.argP1]

theorem planOfdmMod_same : SamePlan (planOfdmMod refset) s s' where
  early := h.congr (ofdmChecks refset) fun _ => rfl
  late := ofdmLate_same h haux
  act hreport := by
    have hout : ofdmOut refset s = ofdmOut refset s' := h.congr (ofdmOut refset) fun _ => rfl
    have hend := sameEnd_writeSamples_succeed hreport s.argDst (ofdmSamples refset s) (ofdmOut refset s)
    show SameEnd s s' ((s.writeSamples s.argDst (ofdmSamples refset s)).succeed (ofdmOut refset s))
      ((s'.writeSamples s'.argDst (ofdmSamples refset s')).succeed (ofdmOut refset s'))
    rwa [← h.argDst, ← hout, ← ofdmSamples_same h haux hsrc]

end

/-! ## DAC_QUANT -/

section
variable {s s' : State} (h : SameOperands s s') (hsrc : SameBytes s s' s.argSrc (16 * s.argCount))
include h hsrc

theorem dacValue_same (ch : Bool) {i : Nat} (hi : i < s.argCount) : dacValue ch s i = dacValue ch s' i := by
  rw [dacValue, dacValue, ← h.argSrc, hsrc.readSample (by omega) (by omega)]

theorem dacValues_same (ch : Bool) : dacValues ch s = dacValues ch s' := by
  rw [dacValues, dacValues, ← h.argCount]
  exact List.map_congr_left fun i hi => dacValue_same h hsrc ch (List.mem_range.1 hi)

theorem dacLate_same (ch fixed : Bool) : dacLate ch fixed s = dacLate ch fixed s' := by
  cases fixed with
  | true => rw [dacLate, dacLate, if_pos rfl, if_pos rfl]
  | false =>
    rw [dacLate, dacLate, if_neg Bool.false_ne_true, if_neg Bool.false_ne_true, ← h.argCount]
    exact List.map_congr_left fun i hi => by rw [dacValue_same h hsrc ch (List.mem_range.1 hi)]

theorem dacMinMax_same (ch : Bool) (bits : Nat) (hreport : SameReport s s') :
    SameEnd s s' (dacMinMax ch bits s) (dacMinMax ch bits s') := by
  have hcodes : ∀ a l, SameReport (s.writeCodes a l) (s'.writeCodes a l) := fun _ _ => hreport
  rw [dacMinMax, dacMinMax, ← h.argCount, ← h.argDst, ← dacValues_same h hsrc ch]
  split
  · exact (hreport.succeed 0).sameEnd overwrites_id rfl rfl rfl rfl
  · exact ((hcodes _ _).succeedMinMax _ _ _).sameEnd_of_codes rfl rfl rfl rfl

theorem dacFixed_same (ch : Bool) (bits : Nat) (hreport : SameReport s s') :
    SameEnd s s' (dacFixed ch bits s) (dacFixed ch bits s') := by
  have hcodes : ∀ a l, SameReport (s.writeCodes a l) (s'.writeCodes a l) := fun _ _ => hreport
  rw [dacFixed, dacFixed, dacClamped, dacClamped, dacFirstClamped, dacFirstClamped, ← h.argCount, ← h.argDst, ← h.latched,
    ← dacValues_same h hsrc ch]
  split
  · exact ((hcodes _ _).succeed _).sameEnd_of_codes rfl rfl rfl rfl
  · exact ((hcodes _ _).failRange _ _ _).sameEnd_of_codes rfl rfl rfl rfl

theorem planDacQuant_same (ch fixed : Bool) (bits : Nat) : SamePlan (planDacQuant ch fixed bits) s s' where
  early := h.congr (dacChecks fixed bits) fun _ => rfl
  late := dacLate_same h hsrc ch fixed
  act hreport := by
    cases fixed with
    | false => exact dacMinMax_same h hsrc ch bits hreport
    | true => exact dacFixed_same h hsrc ch bits hreport

end

/-! ## Every command -/

theorem planOf_same {i : Instr} {s s' : State} (h : SameOperands s s')
    (hsrc : ∀ a, IsSource i s a → s.readByte a = s'.readByte a) : SamePlan (planOf i) s s' := by
  cases i with
  | mapBpsk =>
    have hbits : SameBytes s s' s.argSrc s.argCount := fun a h1 h2 => hsrc a ⟨h1, h2⟩
    refine mapperPlan_same h hbits fun j hj => ?_
    rw [bpskSymbol, bpskSymbol, State.readBit, State.readBit, ← h.argSrc, hbits.memRead (by omega) (by omega)]
  | mapQpsk norm =>
    have hbits : SameBytes s s' s.argSrc s.argCount := fun a h1 h2 => hsrc a ⟨h1, h2⟩
    refine mapperPlan_same h hbits fun j hj => ?_
    simp only [qpskSymbol, State.readBit, ← h.argSrc]
    rw [hbits.memRead (by omega) (by omega), hbits.memRead (a := s.argSrc + 2 * j + 1) (by omega) (by omega)]
  | mapQam16 =>
    have hbits : SameBytes s s' s.argSrc s.argCount := fun a h1 h2 => hsrc a ⟨h1, h2⟩
    refine mapperPlan_same h hbits fun j hj => ?_
    simp only [qam16Symbol, State.readBit, ← h.argSrc]
    rw [hbits.memRead (by omega) (by omega), hbits.memRead (a := s.argSrc + 4 * j + 1) (by omega) (by omega),
      hbits.memRead (a := s.argSrc + 4 * j + 2) (by omega) (by omega),
      hbits.memRead (a := s.argSrc + 4 * j + 3) (by omega) (by omega)]
  | firLowpass dcnorm => exact planFirLowpass_same dcnorm h
  | firRcos => exact planFirRcos_same h
  | pulseShape same =>
    exact planPulseShape_same h (fun a h1 h2 => hsrc a (.inl ⟨h1, h2⟩)) same fun a h1 h2 => hsrc a (.inr ⟨h1, h2⟩)
  | ofdmMod refset =>
    exact planOfdmMod_same h (fun hlist a h1 h2 => hsrc a (.inr ⟨hlist, h1, h2⟩)) fun a h1 h2 => hsrc a (.inl ⟨h1, h2⟩)
  | chirp => exact planChirp_same h
  | dacQuant ch fixed bits => exact planDacQuant_same h (fun a h1 h2 => hsrc a ⟨h1, h2⟩) ch fixed bits

/-- Settles O13: the checks, the writes and the completion of a command are the same in both states. -/
theorem commandsDependOnTheirSourcesAlone : Obligations.CommandsDependOnTheirSourcesAlone := by
  intro i s s' t t' hparams hlatched hclear hclear' hsrc hexec hexec'
  obtain rfl := (exec_eq_next_iff i s t).1 hexec
  obtain rfl := (exec_eq_next_iff i s' t').1 hexec'
  obtain ⟨⟨herr, hcode, hsub, hop, hidx, hlen, hclamp, hres0, hres1⟩, hbytes⟩ :=
    (planOf_same ⟨hparams, hlatched⟩ hsrc).run hlatched (sameReport_of_clear hclear hclear')
  exact ⟨herr, hcode, hsub, hop, hidx, hlen, hclamp, hres0, hres1, hbytes⟩

end Sys2Proof.Machine
end

section
/-! PROOFS. The two resets (70_reset_and_hazards.md R290 to R293): the registers both leave, the release of the held accesses
that ends them (20_memory.md R80), and the bytes an abandoned command may have changed. -/

namespace Sys2Proof.Machine

/-! ## What both resets leave -/

@[simp] theorem State.release_powerOns (s : State) : s.release.powerOns = s.powerOns := by rw [State.release_eq]

/-- The held accesses take effect on memory alone, so no register reads otherwise after them. -/
theorem State.readWindow_release (s : State) (off : Nat) : s.release.readWindow off = s.readWindow off := by
  rw [State.release_eq]
  cases hat : regAt off with
  | none => rw [State.readWindow_of_none hat, State.readWindow_of_none hat]
  | some r =>
    obtain rfl := regAt_eq_some_iff.1 hat
    rw [State.readWindow_regOffset, State.readWindow_regOffset]
    cases r <;> rfl

/-- Every register reads its reset value, but for MEMSIZE and CAPS, which follow the parameters (10_state.md R50, R63). -/
theorem State.readWindow_resetRegisters (s : State) {off : Nat} (hmemSize : off ≠ 0x080) (hcaps : off ≠ 0x084) :
    s.resetRegisters.readWindow off = State.reset.readWindow off := by
  cases hat : regAt off with
  | none => rw [State.readWindow_of_none hat, State.readWindow_of_none hat]
  | some r =>
    obtain rfl := regAt_eq_some_iff.1 hat
    rw [State.readWindow_regOffset, State.readWindow_regOffset]
    cases r with
    | memSize => exact absurd rfl hmemSize
    | caps => exact absurd rfl hcaps
    | _ => rfl

/-- The registers reset and the held accesses released: the common end of both resets. -/
def State.resetDone (s : State) : State := s.resetRegisters.release

theorem State.resetDone_accessesDone (s : State) :
    AccessesDone { s.resetRegisters with held := [] } s.held s.resetDone := release_accessesDone s.resetRegisters

theorem State.readWindow_resetDone (s : State) (off : Nat) (hmemSize : off ≠ 0x080) (hcaps : off ≠ 0x084) :
    s.resetDone.readWindow off = State.reset.readWindow off := by
  rw [State.resetDone, State.readWindow_release, State.readWindow_resetRegisters s hmemSize hcaps]

@[simp] theorem State.resetDone_status (s : State) : s.resetDone.status = Status.reset := State.release_status _

@[simp] theorem State.resetDone_held (s : State) : s.resetDone.held = [] := State.release_held _

@[simp] theorem State.resetDone_powerOns (s : State) : s.resetDone.powerOns = s.powerOns := State.release_powerOns _

@[simp] theorem State.resetDone_irq (s : State) : s.resetDone.irq = false := by
  rw [State.irq, State.resetDone_status]
  exact Bool.and_false _

/-- `t` has the parameters of `s` and the same inputs left to do. -/
def KeepsInputs (s t : State) : Prop := t.params = s.params ∧ t.inputs = s.inputs

theorem State.resetDone_keepsInputs (s : State) : KeepsInputs s s.resetDone := by
  obtain ⟨hparams, -, -, -, -, hinputs⟩ := s.resetRegisters.release_keeps
  exact ⟨hparams, hinputs⟩

/-! ## The abandoned command (R293) -/

theorem State.softReset_of_busy {s : State} (h : s.status.busy = true) : s.softReset = s.abandon.resetDone := by
  rw [State.softReset, if_pos h]; rfl

theorem State.softReset_of_not_busy {s : State} (h : s.status.busy = false) : s.softReset = s.resetDone := by
  rw [State.softReset, h, if_neg Bool.false_ne_true]; rfl

theorem State.abandonedRegion_of_illegal {s : State} {sub idx : Nat} (h : decode s.latched.cmd = .illegal sub idx) :
    s.abandonedRegion = ⟨0, 0⟩ := by simp [State.abandonedRegion, h]

theorem State.abandonedRegion_of_failure {s : State} {i : Instr} (h : decode s.latched.cmd = .command i)
    (hearly : firstFailure (planOf i s).early ≠ none) : s.abandonedRegion = ⟨0, 0⟩ := by
  obtain ⟨r, hr⟩ := Option.ne_none_iff_exists'.1 hearly
  simp [State.abandonedRegion, h, hr]

theorem State.abandonedRegion_of_pass {s : State} {i : Instr} (h : decode s.latched.cmd = .command i)
    (hearly : firstFailure (planOf i s).early = none) : s.abandonedRegion = (planOf i s).dst := by
  simp [State.abandonedRegion, h, hearly]

theorem bytesKeptOutside_abandon (s : State) :
    BytesKeptOutside s s.abandon s.abandonedRegion.base s.abandonedRegion.len := fun _ h =>
  State.readByte_of_lookup (Memory.lookup_fill_outside _ _ h) rfl

theorem bytesKept_abandon_of_empty {s : State} (h : s.abandonedRegion = ⟨0, 0⟩) : BytesKept s s.abandon := by
  have hout := bytesKeptOutside_abandon s
  rw [h] at hout
  exact fun a => hout a (.inr a.zero_le)

/-- An abandoned command has changed its destination at most, whether its checks pass or not. -/
theorem bytesKeptOutside_abandon_dst {s : State} {i : Instr} (h : decode s.latched.cmd = .command i) :
    BytesKeptOutside s s.abandon (planOf i s).dst.base (planOf i s).dst.len := by
  by_cases hearly : firstFailure (planOf i s).early = none
  · rw [← State.abandonedRegion_of_pass h hearly]
    exact bytesKeptOutside_abandon s
  · exact fun a _ => bytesKept_abandon_of_empty (State.abandonedRegion_of_failure h hearly) a

/-- Settles O50: a soft reset ends in `State.resetDone`, of the state itself while IDLE, of the abandoned one while BUSY. -/
theorem softReset : Obligations.SoftReset := by
  intro s w hsrst
  have hwrite : s.regAccess (.write 0x008 4 w) = .next s.softReset := by
    rw [State.regAccess_writeCtrl, State.writeCtrl_of_srst hsrst]
  cases hbusy : s.status.busy with
  | false =>
    obtain ⟨hparams, hinputs⟩ := s.resetDone_keepsInputs
    rw [State.softReset_of_not_busy hbusy] at hwrite
    exact ⟨_, _, hwrite, s.resetDone_accessesDone, s.readWindow_resetDone, s.resetDone_status, s.resetDone_irq,
      s.resetDone_powerOns, hparams, hinputs, s.resetDone_held, rfl, fun _ => rfl, Bool.noConfusion⟩
  | true =>
    obtain ⟨hparams, hinputs⟩ := s.abandon.resetDone_keepsInputs
    rw [State.softReset_of_busy hbusy] at hwrite
    refine ⟨_, _, hwrite, s.abandon.resetDone_accessesDone, s.abandon.readWindow_resetDone, s.abandon.resetDone_status,
      s.abandon.resetDone_irq, s.abandon.resetDone_powerOns, hparams, hinputs, s.abandon.resetDone_held, rfl,
      Bool.noConfusion, fun _ => ⟨fun sub idx hd => ?_, fun i hd => ⟨?_, fun hfail => ?_⟩⟩⟩
    · exact bytesKept_abandon_of_empty (State.abandonedRegion_of_illegal hd)
    · exact bytesKeptOutside_abandon_dst hd
    · exact bytesKept_abandon_of_empty (State.abandonedRegion_of_failure hd hfail)

/-! ## The power-on reset (R291) -/

/-- The sample memory forgotten by a power-on reset, with the inputs still left to do. -/
def State.memoryLost (s : State) (rest : List Input) : State :=
  { s with mem := [], powerOns := s.powerOns + 1, inputs := rest }

/-- The reset comes from the platform, so it is never held back behind a stalled host. -/
theorem step_of_powerOn {s : State} {rest : List Input} (h : s.inputs = .powerOn :: rest) :
    step s = .next (s.memoryLost rest).resetDone := step_of_free h (.inr rfl)

/-- Settles O51: a power-on reset ends in `State.resetDone` on the forgotten memory. -/
theorem powerOnReset : Obligations.PowerOnReset := by
  intro s rest h
  obtain ⟨hparams, hinputs⟩ := (s.memoryLost rest).resetDone_keepsInputs
  exact ⟨_, _, step_of_powerOn h, (s.memoryLost rest).resetDone_accessesDone, rfl, rfl,
    (s.memoryLost rest).readWindow_resetDone, State.resetDone_status _, State.resetDone_irq _, hinputs,
    State.resetDone_held _, hparams⟩

end Sys2Proof.Machine
end

section
/-! PROOFS. BUSY does not last (70_reset_and_hazards.md R296, R303): a legal input leaves one input less to do, but
for an unanswered WAIT, which puts ENGINE's turn first, and ENGINE's turn ends BUSY. -/

namespace Sys2Proof.Machine

/-! ## What one input leaves to do -/

/-- The outcome is a next state, with the parameters of `s` and the same inputs left to do. -/
def Proceeds (s : State) (o : Host.Outcome State Fault Refusal) : Prop := ∃ t, o = .next t ∧ KeepsInputs s t

theorem Proceeds.of_next {s t : State} (h : KeepsInputs s t) : Proceeds s (.next t) := ⟨t, rfl, h⟩

theorem State.softReset_keepsInputs (s : State) : KeepsInputs s s.softReset := by
  cases hbusy : s.status.busy with
  | false => exact State.softReset_of_not_busy hbusy ▸ s.resetDone_keepsInputs
  | true => exact State.softReset_of_busy hbusy ▸ s.abandon.resetDone_keepsInputs

theorem State.powerOnReset_keepsInputs (s : State) : KeepsInputs s s.powerOnReset :=
  (s.memoryLost s.inputs).resetDone_keepsInputs

theorem State.start_keepsInputs (s : State) : KeepsInputs s s.start := by
  cases hbusy : s.status.busy with
  | false => exact State.start_of_idle hbusy ▸ ⟨rfl, rfl⟩
  | true => exact State.start_of_busy hbusy ▸ ⟨rfl, rfl⟩

theorem State.writeCtrl_keepsInputs (s : State) (w : Word) : KeepsInputs s (s.writeCtrl w) := by
  rw [State.writeCtrl]
  split
  · exact s.softReset_keepsInputs
  · split
    · exact State.start_keepsInputs { s with irqEn := w.getLsbD 2 }
    · exact ⟨rfl, rfl⟩

theorem State.writeWindow_keepsInputs (s : State) (off : Nat) (w : Word) : KeepsInputs s (s.writeWindow off w) := by
  cases hat : regAt off with
  | none =>
    rw [State.writeWindow_of_none hat]
    exact ⟨rfl, rfl⟩
  | some r =>
    obtain rfl := regAt_eq_some_iff.1 hat
    by_cases hctrl : r = .ctrl
    · subst hctrl
      exact s.writeCtrl_keepsInputs w
    · rw [State.writeWindow_regOffset hctrl]
      cases r <;> exact ⟨rfl, rfl⟩

theorem State.regAccess_read_proceeds (s : State) {off n : Nat} (hok : regAccessOk off n = true) :
    Proceeds s (s.regAccess (.read off n)) := by
  rw [State.regAccess, if_pos hok]
  exact .of_next ⟨rfl, rfl⟩

theorem State.regAccess_write_proceeds (s : State) {off n : Nat} (hok : regAccessOk off n = true) (w : Word) :
    Proceeds s (s.regAccess (.write off n w)) := by
  rw [State.regAccess_write_of_ok hok]
  exact .of_next (s.writeWindow_keepsInputs off w)

theorem State.memAccess_proceeds {s : State} {m : MemAccess}
    (hok : memAccessOk s.params.memBytes m.span.1 m.span.2 = true) : Proceeds s (s.memAccess m) := by
  cases hbusy : s.status.busy with
  | false =>
    rw [State.memAccess_of_idle hok hbusy, State.memEffect_eq]
    exact .of_next ⟨rfl, rfl⟩
  | true =>
    rw [State.memAccess_of_busy hok hbusy]
    exact .of_next ⟨rfl, rfl⟩

theorem State.bus_proceeds {s : State} {addr n : Nat} (v : BitVec 64) (hok : inputOk s.params (.busRead addr n) = true) :
    Proceeds s (s.busRead addr n) ∧ Proceeds s (s.busWrite addr n v) := by
  cases hreg : inRegWindow s.params addr with
  | true =>
    have hacc : regAccessOk (addr - s.params.hostRegBase) n = true := by simpa [inputOk, hreg] using hok
    obtain ⟨hread, hwrite⟩ := State.bus_of_inRegWindow hreg n v
    exact ⟨hread ▸ s.regAccess_read_proceeds hacc, hwrite ▸ s.regAccess_write_proceeds hacc _⟩
  | false =>
    obtain ⟨hmem, hacc⟩ : inMemWindow s.params addr = true ∧
        memAccessOk s.params.memBytes (addr - s.params.hostMemBase) n = true := by simpa [inputOk, hreg] using hok
    obtain ⟨hread, hwrite⟩ := State.bus_of_inMemWindow hreg hmem n v
    exact ⟨hread ▸ State.memAccess_proceeds hacc, hwrite ▸ State.memAccess_proceeds hacc⟩

theorem State.engineStep_proceeds (s : State) : Proceeds s s.engineStep := by
  obtain ⟨hcompletes, hidle⟩ := engineStepCompletes s
  cases hbusy : s.status.busy with
  | false => exact hidle hbusy ▸ .of_next ⟨rfl, rfl⟩
  | true =>
    obtain ⟨t, hstep, -, -, -, -, -, -, -, -, -, hparams, hinputs⟩ := hcompletes hbusy
    exact ⟨t, hstep, hparams, hinputs⟩

/-- A legal input other than an unanswered WAIT is done with in one step. -/
theorem State.takeInput_proceeds {s : State} {x : Input} (hok : inputOk s.params x = true)
    (hwait : x = .wait → s.status.done = true) : Proceeds s (s.takeInput x) := by
  cases x with
  | reg a =>
    cases a with
    | read off n => exact s.regAccess_read_proceeds hok
    | write off n w => exact s.regAccess_write_proceeds hok w
  | mem m => exact State.memAccess_proceeds hok
  | busRead addr n => exact (State.bus_proceeds 0 hok).1
  | busWrite addr n v => exact (State.bus_proceeds v hok).2
  | engine => exact s.engineStep_proceeds
  | wait => exact .of_next ⟨rfl, if_pos (hwait rfl)⟩
  | powerOn => exact .of_next s.powerOnReset_keepsInputs

/-! ## Runs -/

/-- Some run of at most `n` steps from `s` answers a state with BUSY = 0. -/
def State.IdleWithin (s : State) (n : Nat) : Prop :=
  ∃ k t, k ≤ n ∧ Sys2Proof.core.run k s = .next t ∧ (State.status t).busy = false

theorem State.idleWithin_of_idle {s : State} (h : s.status.busy = false) (n : Nat) : s.IdleWithin n :=
  ⟨0, s, n.zero_le, rfl, h⟩

theorem State.IdleWithin.of_step {s t : State} {n : Nat} (hstep : step s = .next t) (h : t.IdleWithin n) :
    s.IdleWithin (n + 1) := by
  obtain ⟨k, u, hk, hrun, hidle⟩ := h
  have hcore : Sys2Proof.core.step s = .next t := hstep
  refine ⟨k + 1, u, Nat.succ_le_succ hk, ?_, hidle⟩
  simp only [Host.Core.run, hcore]
  exact hrun

/-- Where the step is ENGINE's, it ends BUSY (60_exceptions.md R260). -/
theorem State.idleWithin_of_engine {s : State} (hbusy : s.status.busy = true) (hstep : step s = s.engineStep) (n : Nat) :
    s.IdleWithin (n + 1) := by
  obtain ⟨t, hnext, hidle, -⟩ := (engineStepCompletes s).1 hbusy
  exact .of_step (hstep.trans hnext) (State.idleWithin_of_idle hidle n)

/-- The poll of an unanswered WAIT puts ENGINE's turn first, which ends BUSY (notes/assumptions/13.md). -/
theorem State.idleWithin_of_poll {s : State} (hbusy : s.status.busy = true) (hdone : s.status.done = false) (n : Nat) :
    s.poll.IdleWithin (n + 1) := by
  have hinputs : s.poll.inputs = .engine :: .wait :: s.inputs := by simp [hdone]
  have hstep := step_of_free hinputs (.inr rfl)
  obtain ⟨t, hnext, hidle, -⟩ :=
    (engineStepCompletes { s.poll with inputs := .wait :: s.inputs }).1 hbusy
  exact .of_step (hstep.trans hnext) (State.idleWithin_of_idle hidle n)

/-- Settles O10, by induction on the inputs left to do. -/
theorem busyEventuallyEnds : Obligations.BusyEventuallyEnds := by
  intro s hok
  show s.IdleWithin (s.inputs.length + 1)
  induction hinputs : s.inputs generalizing s with
  | nil =>
    cases hbusy : s.status.busy with
    | false => exact State.idleWithin_of_idle hbusy _
    | true => exact State.idleWithin_of_engine hbusy (step_of_no_inputs hinputs) _
  | cons x rest ih =>
    cases hbusy : s.status.busy with
    | false => exact State.idleWithin_of_idle hbusy _
    | true =>
      by_cases hfree : s.hostStalled = false ∨ x.fromHost = false
      · have htake := step_of_free hinputs hfree
        by_cases hwait : x = .wait ∧ s.status.done = false
        · obtain ⟨rfl, hdone⟩ := hwait
          exact .of_step htake (State.idleWithin_of_poll (s := { s with inputs := rest }) hbusy hdone _)
        · rw [hinputs] at hok
          obtain ⟨t, hnext, hparams, hrest⟩ := State.takeInput_proceeds (s := { s with inputs := rest })
            (hok x List.mem_cons_self) fun hx => by simpa [hx] using hwait
          refine .of_step (htake.trans hnext) (ih t (fun y hy => ?_) hrest)
          rw [hrest] at hy
          rw [hparams]
          exact hok y (List.mem_cons_of_mem x hy)
      · obtain ⟨hstalled, hhost⟩ : s.hostStalled = true ∧ x.fromHost = true := by simpa using hfree
        exact State.idleWithin_of_engine hbusy (step_of_stalled hinputs hstalled hhost) _

end Sys2Proof.Machine
end
